-- ==== Sys2Proof/Word.lean ====
section
/-! DEFINITION. The words of the AHT, each the width the spec gives it (00_scope.md R5, R7, R9): bytes, command
words, 32-bit response and register words, and the 10-bit numbers that name a node or a slot. -/

namespace Sys2Proof

/-- One stream byte, a byte value `sym`, and a literal (R5 `LIT_BITS`, R7). -/
abbrev Byte := BitVec 8

/-- A 16-bit command word (R7, R100). -/
abbrev Cmd := BitVec 16

/-- A 32-bit response word or register word (R7). -/
abbrev Word := BitVec 32

/-- A node index or a slot: the 10 bits of `IDX_BITS`, with `NIL` among them (R5, R23, R32). -/
abbrev Idx := BitVec 10

/-- `NIL`, the 10-bit "no node" value (R5). -/
abbrev NIL : Idx := 0x3FF#10

/-- `ROOT`, the node index of the root (R5). -/
abbrev ROOT : Idx := 0#10

/-- `ROOT_SLOT`, the slot of the root (R5). -/
abbrev ROOT_SLOT : Idx := 512#10

/-- `NODES`, the number of entries of the node array and of slots of `ORD` (R5). -/
abbrev NODES : Nat := 513

/-- `MAX_DEPTH`, the longest root-to-leaf path, and `CODE_BITS`, the capacity of the code buffer (R5). -/
abbrev MAX_DEPTH : Nat := 256

end Sys2Proof
end

