-- ==== Sys2Proof/Config.lean ====
section
/-! DEFINITION. What is fixed for one AHT and never written by it: the default of the parameter `WEIGHT_BITS`
(00_scope.md R6), and the one value the spec leaves open (20_memory.md R84). -/

namespace Sys2Proof.Config

/-- The default of the model parameter `WEIGHT_BITS` (R6: "an integer in 1 to 32, default 32"). The parameter
itself is the field `weightBits` of the engine, so that a statement ranges over every value of it. -/
def defaultWeightBits : Nat := 32

/-- FREE VALUE. What a register read returns while `BUSY = 1`, at any address but STATUS, ID, PARAM and CTRL: R84
says such a read returns "an **unspecified** value", and that a model treats it "as an unconstrained draw". The first
argument counts the draws made so far, so two reads of one address need not agree; the second is the address. It
has no body: no proof can know a value of it (log entry 2). -/
opaque busyRead : Nat → BitVec 16 → Word

end Sys2Proof.Config
end

