-- ==== Sys2Proof/Syntax.lean ====
section
/-! DEFINITION. The 18 commands of the AHT command set 1.0, one constructor for each row of opcode_table.json, with
the operands of 30_encoding.md R101 and R102. The pseudo-commands of R111 are other names of these. -/

namespace Sys2Proof

/-- One command (R103). A command has no other operands than these: no register number, node index, slot or
address (R21, R71). -/
inductive Instr where
  /-- NOP (R220) -/
  | nop
  /-- INIT `mask`: five parts, one bit each (R221) -/
  | init (mask : BitVec 5)
  /-- OBSERVE `sym` (R140) -/
  | observe (sym : Byte)
  /-- ISOBS `sym` (R141) -/
  | isobs (sym : Byte)
  /-- CODE `sym` (R142) -/
  | code (sym : Byte)
  /-- ESCCODE (R143) -/
  | esccode
  /-- WRESET (R162) -/
  | wreset
  /-- WADV `bit` (R163) -/
  | wadv (bit : Bool)
  /-- ENCRUN (R197) -/
  | encrun
  /-- DECRUN (R198) -/
  | decrun
  /-- PUTBITS `count, value`: `count` is 1 to 8, held in the word as `count - 1` (R102, R177) -/
  | putbits (count : Nat) (value : Byte)
  /-- PUTCODE (R178) -/
  | putcode
  /-- FLUSH (R179) -/
  | flush
  /-- GETBITS `count`: `count` is 1 to 8, held in the word as `count - 1` (R102, R180) -/
  | getbits (count : Nat)
  /-- ENCB `sym` (R191) -/
  | encb (sym : Byte)
  /-- ENCEND (R192) -/
  | encend
  /-- DECSTEP (R194) -/
  | decstep
  /-- SETCTRL `v`: the new `TERM_EN` (R224) -/
  | setctrl (v : Bool)
deriving DecidableEq, Repr

end Sys2Proof
end

