-- ==== Sys2Proof/WellFormed.lean ====
section
/-! DEFINITION. Which terms of `Instr` are commands: the operand ranges of 30_encoding.md R102 and R110. Every range
but the one of `count` is in the operand's type. -/

namespace Sys2Proof

/-- R102: "`count = N[2:0] + 1`, in 1 to 8". -/
def countOk (count : Nat) : Bool := 1 ≤ count && count ≤ 8

/-- The operands are in the ranges of R110, so the command has a command word. -/
def Instr.wellFormed : Instr → Bool
  | .nop => true
  | .init _ => true
  | .observe _ => true
  | .isobs _ => true
  | .code _ => true
  | .esccode => true
  | .wreset => true
  | .wadv _ => true
  | .encrun => true
  | .decrun => true
  | .putbits count _ => countOk count
  | .putcode => true
  | .flush => true
  | .getbits count => countOk count
  | .encb _ => true
  | .encend => true
  | .decstep => true
  | .setctrl _ => true

end Sys2Proof
end

