-- ==== Sys2Proof/Decode.lean ====
section
/-! DEFINITION. The decoder of 30_encoding.md R105, total on every 16-bit word and rejecting an ILLEGAL word by the
rule it breaks, and after it the encoder, written from the same layout (R100, R101, R103). -/

namespace Sys2Proof

/-- The field `OP = w[15:12]` (R100). -/
def opOf (w : Cmd) : BitVec 4 := w.extractLsb' 12 4

/-- The field `N = w[11:8]` (R100). -/
def nOf (w : Cmd) : BitVec 4 := w.extractLsb' 8 4

/-- The field `IMM = w[7:0]` (R100). -/
def immOf (w : Cmd) : Byte := w.extractLsb' 0 8

/-- Why a word is ILLEGAL (R106). Both reasons fail with the one error code ILLEGAL (R108). -/
inductive Illegal where
  /-- `N` names no command of this `OP`, or sets a bit of `N` that must be 0. -/
  | reservedN
  /-- A bit of `IMM` that must be 0 is set. -/
  | reservedImm
deriving DecidableEq, Repr

/-- A legal word when `N` and `IMM` are as they must be, else the first of the two rules broken. -/
def legalIf (nOk immOk : Bool) (i : Instr) : Except Illegal Instr :=
  if nOk then (if immOk then .ok i else .error .reservedImm) else .error .reservedN

/-- Format Z (R101): `N` fixed, `IMM` must be `0x00`. -/
def formatZ (n : BitVec 4) (imm : Byte) (sub : BitVec 4) (i : Instr) : Except Illegal Instr :=
  legalIf (n == sub) (imm == 0) i

/-- Format S (R101): `N` must be 0, `IMM` is `sym`. -/
def formatS (n : BitVec 4) (imm : Byte) (i : Byte → Instr) : Except Illegal Instr :=
  legalIf (n == 0) true (i imm)

/-- Format B (R101): `N` fixed, `IMM[0]` is the operand, `IMM[7:1]` must be 0. -/
def formatB (n : BitVec 4) (imm : Byte) (sub : BitVec 4) (i : Bool → Instr) : Except Illegal Instr :=
  legalIf (n == sub) (imm.extractLsb' 1 7 == 0) (i (imm.getLsbD 0))

/-- Format M (R101): `N` must be 0, `IMM[4:0]` is `mask`, `IMM[7:5]` must be 0. -/
def formatM (n : BitVec 4) (imm : Byte) (i : BitVec 5 → Instr) : Except Illegal Instr :=
  legalIf (n == 0) (imm.extractLsb' 5 3 == 0) (i (imm.extractLsb' 0 5))

/-- The `count` of formats P and G (R102): `N[2:0] + 1`. -/
def countOf (n : BitVec 4) : Nat := (n.extractLsb' 0 3).toNat + 1

/-- Format P (R101): `N[3]` must be 0, `IMM` is `value`. -/
def formatP (n : BitVec 4) (imm : Byte) (i : Nat → Byte → Instr) : Except Illegal Instr :=
  legalIf (!n.getLsbD 3) true (i (countOf n) imm)

/-- Format G (R101): `N[3]` must be 0, `IMM` must be `0x00`. -/
def formatG (n : BitVec 4) (imm : Byte) (i : Nat → Instr) : Except Illegal Instr :=
  legalIf (!n.getLsbD 3) (imm == 0) (i (countOf n))

/-- The decoder (R103, R105): a verdict for every word, from the word alone. -/
def decode (w : Cmd) : Except Illegal Instr :=
  let n := nOf w
  let imm := immOf w
  match (opOf w).toNat with
  | 0x0 => formatZ n imm 0 .nop
  | 0x1 => formatM n imm .init
  | 0x2 => formatS n imm .observe
  | 0x3 => formatS n imm .isobs
  | 0x4 => formatS n imm .code
  | 0x5 => formatZ n imm 0 .esccode
  | 0x6 => if n == 0 then formatZ n imm 0 .wreset else formatB n imm 1 .wadv
  | 0x7 => if n == 0 then formatZ n imm 0 .encrun else formatZ n imm 1 .decrun
  | 0x8 => formatP n imm .putbits
  | 0x9 => formatZ n imm 0 .putcode
  | 0xA => formatZ n imm 0 .flush
  | 0xB => formatG n imm .getbits
  | 0xC => formatS n imm .encb
  | 0xD => formatZ n imm 0 .encend
  | 0xE => formatZ n imm 0 .decstep
  | _ => formatB n imm 0 .setctrl

/-- The same decoder on a word numbered as opcode_table.json numbers it. Every command is one 16-bit word (R109),
and its bit 0 is the table's bit 0, so bits above the word are no part of a command. -/
def decodeTableWord (nbits w : Nat) : Option Instr :=
  if nbits ≤ 16 && decide (w < 65536) then (decode (BitVec.ofNat 16 w)).toOption else none

/-! ## The encoder -/

/-- The one layout of a command word (R100): `OP`, `N`, `IMM`, from the most significant bit down. -/
def layout (op n : BitVec 4) (imm : Byte) : Cmd := op ++ n ++ imm

/-- The field `N` of formats P and G (R101): `N[3] = 0` and `N[2:0] = count - 1`. -/
def countField (count : Nat) : BitVec 4 := 0#1 ++ BitVec.ofNat 3 (count - 1)

/-- The `IMM` of format B (R101): the operand in bit 0. -/
def bitField (b : Bool) : Byte := 0#7 ++ BitVec.ofBool b

/-- The command word of a well-formed command (R103). -/
def encode : Instr → Cmd
  | .nop => layout 0x0 0 0
  | .init mask => layout 0x1 0 (0#3 ++ mask)
  | .observe sym => layout 0x2 0 sym
  | .isobs sym => layout 0x3 0 sym
  | .code sym => layout 0x4 0 sym
  | .esccode => layout 0x5 0 0
  | .wreset => layout 0x6 0 0
  | .wadv bit => layout 0x6 1 (bitField bit)
  | .encrun => layout 0x7 0 0
  | .decrun => layout 0x7 1 0
  | .putbits count value => layout 0x8 (countField count) value
  | .putcode => layout 0x9 0 0
  | .flush => layout 0xA 0 0
  | .getbits count => layout 0xB (countField count) 0
  | .encb sym => layout 0xC 0 sym
  | .encend => layout 0xD 0 0
  | .decstep => layout 0xE 0 0
  | .setctrl v => layout 0xF 0 (bitField v)

/-! ## The opcode table (R104) -/

/-- One row of R104: a word is the row's command when `(w AND mask) = fixed`. -/
structure Row where
  mnemonic : String
  mask : Cmd
  fixed : Cmd
deriving DecidableEq, Repr

/-- The match and mask values of every legal command word (R104). -/
def opcodeRows : List Row :=
  [⟨"NOP", 0xFFFF, 0x0000⟩, ⟨"INIT", 0xFFE0, 0x1000⟩, ⟨"OBSERVE", 0xFF00, 0x2000⟩, ⟨"ISOBS", 0xFF00, 0x3000⟩,
   ⟨"CODE", 0xFF00, 0x4000⟩, ⟨"ESCCODE", 0xFFFF, 0x5000⟩, ⟨"WRESET", 0xFFFF, 0x6000⟩, ⟨"WADV", 0xFFFE, 0x6100⟩,
   ⟨"ENCRUN", 0xFFFF, 0x7000⟩] ++
  [⟨"DECRUN", 0xFFFF, 0x7100⟩, ⟨"PUTBITS", 0xF800, 0x8000⟩, ⟨"PUTCODE", 0xFFFF, 0x9000⟩, ⟨"FLUSH", 0xFFFF, 0xA000⟩,
   ⟨"GETBITS", 0xF8FF, 0xB000⟩, ⟨"ENCB", 0xFF00, 0xC000⟩, ⟨"ENCEND", 0xFFFF, 0xD000⟩, ⟨"DECSTEP", 0xFFFF, 0xE000⟩,
   ⟨"SETCTRL", 0xFFFE, 0xF000⟩]

/-- The mnemonic of a command (R103). -/
def Instr.mnemonic : Instr → String
  | .nop => "NOP"
  | .init _ => "INIT"
  | .observe _ => "OBSERVE"
  | .isobs _ => "ISOBS"
  | .code _ => "CODE"
  | .esccode => "ESCCODE"
  | .wreset => "WRESET"
  | .wadv _ => "WADV"
  | .encrun => "ENCRUN"
  | .decrun => "DECRUN"
  | .putbits _ _ => "PUTBITS"
  | .putcode => "PUTCODE"
  | .flush => "FLUSH"
  | .getbits _ => "GETBITS"
  | .encb _ => "ENCB"
  | .encend => "ENCEND"
  | .decstep => "DECSTEP"
  | .setctrl _ => "SETCTRL"

/-! ## Pseudo-commands (R111) -/

/-- The pseudo-commands, each another name of one command; their text is not modelled (log entry 16). -/
inductive Pseudo where
  /-- `PUTLIT c` -/
  | putlit (c : Byte)
  /-- `RESETALL` -/
  | resetall
  /-- `NEWRUN` -/
  | newrun
  /-- `CLRERR` -/
  | clrerr
  /-- `TERMON` -/
  | termon
  /-- `TERMOFF` -/
  | termoff
  /-- `WADV0` -/
  | wadv0
  /-- `WADV1` -/
  | wadv1
  /-- `GETLIT` -/
  | getlit
deriving DecidableEq, Repr

/-- The expansion of a pseudo-command (R111). -/
def Pseudo.expand : Pseudo → Instr
  | .putlit c => .putbits 8 c
  | .resetall => .init 0x1F
  | .newrun => .init 0x0F
  | .clrerr => .init 0x10
  | .termon => .setctrl true
  | .termoff => .setctrl false
  | .wadv0 => .wadv false
  | .wadv1 => .wadv true
  | .getlit => .getbits 8

end Sys2Proof
end

