-- ==== Sys2Proof/Machine/State.lean ====
section
/-! DEFINITION. The state of the AHT as 10_state.md lists it (R20 to R49), and its value after hardware reset (R59).
Each array has exactly the entries the spec gives it. -/

namespace Sys2Proof.Machine

/-! ## The engine -/

/-- `KIND` (R24). -/
inductive Kind where
  /-- `0`: the entry is not allocated -/
  | free
  /-- `1`: the escape leaf -/
  | esc
  /-- `2`: a symbol leaf -/
  | sym
  /-- `3`: an internal node -/
  | int
deriving DecidableEq, Repr

/-- `SIDE` (R25). -/
inductive Side where
  /-- `0`, equal to the branch bit of a left child -/
  | left
  /-- `1`, equal to the branch bit of a right child -/
  | right
  /-- `2`: the root -/
  | root
  /-- `3`: a free entry -/
  | none
deriving DecidableEq, Repr

/-- One entry of the node array (R23). `weight` is a count whose arithmetic is exact (R10, R13); R133 keeps it
within `W` bits (log entry 4). -/
structure Node where
  weight : Nat
  kind : Kind
  symv : Byte
  parent : Idx
  side : Side
  left : Idx
  right : Idx
  pos : Idx
deriving DecidableEq, Repr

/-- A free entry (R31). -/
def Node.free : Node :=
  { weight := 0, kind := .free, symv := 0, parent := NIL, side := .none, left := NIL, right := NIL, pos := NIL }

/-- One entry of `SYMTAB` (R34). -/
structure SymEntry where
  seen : Bool
  leaf : Idx
deriving DecidableEq, Repr

/-- The tree model: the node array (R23), `ORD` (R32), `SYMTAB` (R34), `ESC` (R36) and `NEXT` (R37). -/
structure Tree where
  nodes : Vector Node 513
  ord : Vector Idx 513
  symtab : Vector SymEntry 256
  esc : Idx
  next : Idx
deriving DecidableEq, Repr

/-- The walker registers `CUR`, `W_RES`, `W_ISSYM`, `W_SYM` (R38). -/
structure Walker where
  cur : Idx
  res : Bool
  isSym : Bool
  sym : Byte
deriving DecidableEq, Repr

/-- The code buffer: `CODE_BUF[i]` is bit `i` of `buf`, and `CODE_LEN` is `len` (R39). -/
structure Code where
  buf : BitVec 256
  len : BitVec 9
deriving DecidableEq, Repr

/-- The packer registers `PK_BUF` and `PK_CNT` (R40). -/
structure Packer where
  buf : Byte
  cnt : BitVec 3
deriving DecidableEq, Repr

/-- The unpacker registers `UP_BUF` and `UP_CNT` (R42). -/
structure Unpacker where
  buf : Byte
  cnt : BitVec 4
deriving DecidableEq, Repr

/-- `DEC_STATE` (R43). "The value 3 never occurs." -/
inductive DecState where
  /-- `0`: AWAITING_FIRST_BYTE -/
  | await
  /-- `1`: DECODING -/
  | decoding
  /-- `2`: DONE -/
  | done
deriving DecidableEq, Repr

/-- The error codes (60_exceptions.md R231). Codes 5 to 15 are reserved and "never raised". -/
inductive ErrCode where
  /-- code 0: no failure recorded -/
  | none
  /-- code 1: the command word is not legal -/
  | illegal
  /-- code 2: CODE of a symbol with `SEEN = 0` -/
  | unobserved
  /-- code 3: WADV with the cursor on a leaf -/
  | walkAtLeaf
  /-- code 4: `WEIGHT[ROOT] = WMAX` -/
  | weightOvf
deriving DecidableEq, Repr

/-- The sticky error record `ERR`, `ERR_CODE`, `ERR_CMD` (R44, R46, R47). -/
structure ErrRecord where
  err : Bool
  code : ErrCode
  cmd : Cmd
deriving DecidableEq, Repr

/-- The engine (R20): everything that persists between commands. `weightBits` is the parameter `WEIGHT_BITS` (R6),
which the PARAM register reports and nothing writes. `termEn` is `CTRL.TERM_EN` (R41), the only stored bit of CTRL. -/
structure Engine where
  weightBits : Nat
  tree : Tree
  walker : Walker
  code : Code
  packer : Packer
  unpacker : Unpacker
  termEn : Bool
  decState : DecState
  error : ErrRecord
  result : Word
deriving DecidableEq, Repr

/-! ## A command in progress -/

/-- The stream port a command can wait on (R48). -/
inductive Port where
  /-- waiting on `InRead`: `WAIT_IN` (R81) -/
  | input
  /-- waiting on `OutWrite`: `WAIT_OUT` (R82) -/
  | output
deriving DecidableEq, Repr

/-- A command that has been accepted and holds on a stream port (R8, R99). While one stands, `BUSY = 1`, and `port`
says which of `WAIT_IN` and `WAIT_OUT` is 1 (R44). Where the command stands inside its pseudocode is held as what
determines it (R98): the engine at its acceptance, the input bytes it has taken and the number of output bytes
it has written (log entry 5). -/
structure Hold where
  instr : Instr
  port : Port
  start : Engine
  taken : List Byte
  sent : Nat
deriving DecidableEq, Repr

/-! ## The host's side -/

/-- What the host can do to the AHT (20_memory.md R96, 70_reset_and_hazards.md R262). DESIGN CHOICE: no move withdraws a
byte that is offered and not taken, so it stays in front of the input stream of the next run; 45_control.md R226 leaves
that open (log entry 19). -/
inductive HostMove where
  /-- offer a 16-bit word on the command port (R79) -/
  | command (w : Cmd)
  /-- add a byte at the end of what the input port has to offer (R81) -/
  | offer (b : Byte)
  /-- raise `in_eod` (R81) -/
  | raiseEod
  /-- lower `in_eod`, which only the start of a new run allows (R97 (b), R265) -/
  | lowerEod
  /-- set `out_ready`: for every further byte (`none`), or for the next `n` bytes (`some n`) (R82, R96) -/
  | accept (room : Option Nat)
  /-- read a register on the register read port (R83) -/
  | read (addr : BitVec 16)
  /-- let the engine go on -/
  | wait
  /-- assert `rst` now, which is possible in every state (R96, R260, R262) -/
  | rst
  /-- assert `rst` inside a command (R96, R262): the one that word `w` starts (`some w`) or the holding one (`none`), once
  it has taken `ins` bytes and written `outs` bytes from there on, or has no more to do before its response -/
  | rstWithin (w : Option Cmd) (ins outs : Nat)
deriving DecidableEq, Repr

/-- The whole machine: the engine, a holding command, and the host's side of the ports.

The host's side is "a parameter of a model" (R49): `inBytes` and `inEod` are the bytes the host still has to offer and
its end-of-data signal, `outBytes` the bytes it has accepted, `outRoom` how many more it takes before `out_ready` falls
(`none`: no limit), `responses` the words presented on `rsp_data` (R79), `reads` the words read on the register read
port (R83), and `host` the moves it has still to make, in order. `eodMayFall` records that a new run has started since
`in_eod` was raised, which R97 (b) asks before it may fall. `draws` is the model's own: it counts the free values
taken (log entry 2). The signals of single cycles are no state (log entry 15). -/
structure State where
  eng : Engine
  hold : Option Hold
  inBytes : List Byte
  inEod : Bool
  eodMayFall : Bool
  outBytes : List Byte
  outRoom : Option Nat
  responses : List Word
  reads : List Word
  draws : Nat
  host : List HostMove
deriving DecidableEq, Repr

/-! ## How a step can stop -/

/-- Why a step stops with a fault. No command faults: a command that cannot do its job fails, which is a next
state (R230, R236). Both faults are moves of the host that R97 (b) forbids and that 93_implementation_defined.md U9
takes out of a model: "Breaking (b) makes later input consumption depend on timing." -/
inductive Fault where
  /-- The host offers a byte while `in_eod` is raised. Raised by the host's move `offer`; safe (log entry 6). -/
  | byteAfterEod
  /-- The host lowers `in_eod` within a run. Raised by the host's move `lowerEod`; safe (log entry 6). -/
  | eodLoweredInRun
deriving DecidableEq, Repr

/-- Why a step refuses. -/
inductive Refusal where
  /-- An instruction with no meaning in this model, by its mnemonic. Every command has its meaning, so no step
  answers it; safe. -/
  | notModelled (mnemonic : String)
deriving DecidableEq, Repr

/-! ## Hardware reset -/

/-- Node 0 at reset: the root, which is the escape leaf (R59). -/
def Node.initialRoot : Node :=
  { weight := 0, kind := .esc, symv := 0, parent := NIL, side := .root, left := NIL, right := NIL, pos := ROOT_SLOT }

/-- The single-node tree (R59). -/
def Tree.initial : Tree :=
  { nodes := (Vector.replicate 513 Node.free).set 0 Node.initialRoot
    ord := (Vector.replicate 513 NIL).set 512 ROOT
    symtab := Vector.replicate 256 { seen := false, leaf := NIL }
    esc := ROOT
    next := 1 }

/-- The engine after hardware reset (R59), for a given `WEIGHT_BITS`. -/
def Engine.initial (weightBits : Nat) : Engine :=
  { weightBits := weightBits
    tree := Tree.initial
    walker := { cur := ROOT, res := false, isSym := false, sym := 0 }
    code := { buf := 0, len := 0 }
    packer := { buf := 0, cnt := 0 }
    unpacker := { buf := 0, cnt := 0 }
    termEn := false
    decState := .await
    error := { err := false, code := .none, cmd := 0 }
    result := 0 }

/-- The machine right after reset, for a given `WEIGHT_BITS`: the engine of R59, idle (R260), and a host that has
offered and taken nothing yet, accepts every output byte (R97 (a)) and has no move to make (log entries 3 and 11). -/
def State.resetWith (weightBits : Nat) : State :=
  { eng := Engine.initial weightBits
    hold := none
    inBytes := []
    inEod := false
    eodMayFall := true
    outBytes := []
    outRoom := none
    responses := []
    reads := []
    draws := 0
    host := [] }

/-- The machine right after reset, with the default `WEIGHT_BITS` (R6, R59). -/
def State.reset : State := State.resetWith Config.defaultWeightBits

end Sys2Proof.Machine
end

