-- ==== Sys2Proof/Machine/Ops.lean ====
section
/-! DEFINITION. The named operations the commands are written from: reading and writing the arrays, the two stream
primitives (00_scope.md R11), and how a command ends: it completes, it fails (60_exceptions.md R233), or it holds. -/

namespace Sys2Proof.Machine

/-! ## The arrays (10_state.md R23, R32, R34)

An index outside 0 to 512 names no entry: reading one gives a free entry or `NIL`, and writing one does nothing. R10
says no index leaves that range but `NIL`, which no rule reads through (log entry 7). -/

/-- The entry of node `n`. -/
def Tree.node (t : Tree) (n : Idx) : Node :=
  if h : n.toNat < 513 then t.nodes[n.toNat] else Node.free

/-- Write the entry of node `n`. -/
def Tree.setNode (t : Tree) (n : Idx) (v : Node) : Tree :=
  if h : n.toNat < 513 then { t with nodes := t.nodes.set n.toNat v h } else t

/-- Change the entry of node `n`. -/
def Tree.modNode (t : Tree) (n : Idx) (f : Node → Node) : Tree :=
  t.setNode n (f (t.node n))

/-- `ORD[s]`. -/
def Tree.ordAt (t : Tree) (s : Idx) : Idx :=
  if h : s.toNat < 513 then t.ord[s.toNat] else NIL

/-- `ORD[s] <- n`. -/
def Tree.setOrd (t : Tree) (s n : Idx) : Tree :=
  if h : s.toNat < 513 then { t with ord := t.ord.set s.toNat n h } else t

/-- `SEEN[c]` and `LEAF[c]`. -/
def Tree.symEntry (t : Tree) (c : Byte) : SymEntry := t.symtab[c.toNat]

/-- Write `SEEN[c]` and `LEAF[c]`. -/
def Tree.setSym (t : Tree) (c : Byte) (e : SymEntry) : Tree :=
  { t with symtab := t.symtab.set c.toNat e }

/-- `WEIGHT[ROOT]`. -/
def Tree.rootWeight (t : Tree) : Nat := (t.node ROOT).weight

/-- `WMAX = 2^W - 1` (R6). -/
def Engine.wmax (e : Engine) : Nat := 2 ^ e.weightBits - 1

/-! ## Running a command

A command runs on an engine and on the streams. `taken` and `sent` are the bytes it has taken from the input port and
written to the output port, in order (R91). -/

/-- What a command in progress works on. -/
structure Ctx where
  eng : Engine
  inp : List Byte
  eod : Bool
  room : Option Nat
  taken : List Byte
  sent : List Byte
deriving DecidableEq, Repr

/-- How far a command, or a primitive inside one, has come: done, failed, or waiting on a port ("The only ways a
command ends are success, failure, and (while it waits on a port) hold", R230). -/
inductive Run (α : Type) where
  | done (a : α) (c : Ctx)
  | fail (e : ErrCode) (c : Ctx)
  | wait (p : Port) (c : Ctx)
deriving DecidableEq, Repr

/-- Go on with `f` where `r` is done. A failure and a wait stop everything after them. -/
def Run.bind {α β : Type} (r : Run α) (f : α → Ctx → Run β) : Run β :=
  match r with
  | .done a c => f a c
  | .fail e c => .fail e c
  | .wait p c => .wait p c

/-- `InRead()` (20_memory.md R81): the head of the host's bytes, `none` for `EXHAUSTED`, or a hold. A byte offered
together with `in_eod = 1` is still taken. -/
def inRead (c : Ctx) : Run (Option Byte) :=
  match c.inp with
  | v :: rest => .done (some v) { c with inp := rest, taken := c.taken ++ [v] }
  | [] => if c.eod then .done none c else .wait .input c

/-- `OutWrite(v)` (R82): the byte goes out when `out_ready` is 1, and the command holds until then. -/
def outWrite (v : Byte) (c : Ctx) : Run Unit :=
  match c.room with
  | none => .done () { c with sent := c.sent ++ [v] }
  | some 0 => .wait .output c
  | some (k + 1) => .done () { c with room := some k, sent := c.sent ++ [v] }

/-! ## Failing (R230 to R236) -/

/-- The numbers of the error codes (R231). -/
def ErrCode.number : ErrCode → BitVec 4
  | .none => 0
  | .illegal => 1
  | .unobserved => 2
  | .walkAtLeaf => 3
  | .weightOvf => 4

/-- The error word `0x8000_0000 | e` (R232). -/
def errorWord (e : ErrCode) : Word := 0x80000000#32 ||| e.number.setWidth 32

/-- The record keeps the first failure since the last clear (R46, R233 (b)). -/
def ErrRecord.record (r : ErrRecord) (e : ErrCode) (w : Cmd) : ErrRecord :=
  if r.err then r else { err := true, code := e, cmd := w }

/-- TAKING A FAILURE: what the AHT has in the place of an exception (R236). The error word goes to `RESULT`, the
command word and code to the record if it is clear, and nothing else changes (R233). There is no handler to enter and
no return from one (R238). -/
def Engine.takeFailure (g : Engine) (e : ErrCode) (w : Cmd) : Engine :=
  { g with result := errorWord e, error := g.error.record e w }

/-! ## Accepting and ending a command (R79) -/

/-- What a command accepted in `s` starts from. -/
def State.ctx (s : State) : Ctx :=
  { eng := s.eng, inp := s.inBytes, eod := s.inEod, room := s.outRoom, taken := [], sent := [] }

/-- The stream transfers of a command, seen from the host's side (R91). -/
def State.withStreams (s : State) (c : Ctx) : State :=
  { s with inBytes := c.inp, outBytes := s.outBytes ++ c.sent, outRoom := c.room }

/-- Step 3 of R79: the response word goes to `RESULT` and to the host, and `BUSY` falls. -/
def State.respond (s : State) (g : Engine) (r : Word) : State :=
  { s with eng := { g with result := r }, hold := none, responses := s.responses ++ [r] }

/-- The command completes with the response word `r` (R45, R79). -/
def State.complete (s : State) (r : Word) (c : Ctx) : State :=
  (s.withStreams c).respond c.eng r

/-- The command with word `w` fails with code `e` (R233, R79). -/
def State.failWith (s : State) (e : ErrCode) (w : Cmd) (c : Ctx) : State :=
  (s.withStreams c).respond (c.eng.takeFailure e w) (errorWord e)

/-- The command waits on a port (R81, R82): `BUSY` and the wait bit stand, the bytes moved so far stay moved, and
there is no response yet. -/
def State.waitOn (s : State) (i : Instr) (p : Port) (c : Ctx) : State :=
  { s.withStreams c with
    eng := c.eng
    hold := some { instr := i, port := p, start := s.eng, taken := c.taken, sent := c.sent.length } }

/-- The state after running as much of command `i` as can be run. -/
def State.settle (s : State) (i : Instr) : Run Word → State
  | .done r c => s.complete r c
  | .fail e c => s.failWith e (encode i) c
  | .wait p c => s.waitOn i p c

/-- Accept command `i` and run its pseudocode `body` (R79). Every command is one atomic step, given the bytes it
consumes (R99), and each of the three ends is a next state: a failure stops nothing (R234), and a hold is lifted by the
host (R99). A command that already holds in `s` is not looked at (log entry 14). -/
def issue (i : Instr) (body : Ctx → Run Word) (s : State) : Host.Outcome State Fault Refusal :=
  .next (s.settle i (body s.ctx))

/-- `BUSY` (R44): seen from outside a command, it is 1 exactly while one holds (R48). -/
def State.busy (s : State) : Bool := s.hold.isSome

/-- `WAIT_IN` (R44). -/
def State.waitIn (s : State) : Bool := s.hold.any (fun h => h.port == .input)

/-- `WAIT_OUT` (R44). -/
def State.waitOut (s : State) : Bool := s.hold.any (fun h => h.port == .output)

/-- `cmd_ready` (R79): "equals `NOT BUSY`". -/
def State.cmdReady (s : State) : Bool := !s.busy

/-! ## Updates of one part of the engine -/

/-- The tree of a command in progress is replaced. -/
def Ctx.setTree (c : Ctx) (t : Tree) : Ctx := { c with eng := { c.eng with tree := t } }

/-- The walker registers are replaced. -/
def Ctx.setWalker (c : Ctx) (w : Walker) : Ctx := { c with eng := { c.eng with walker := w } }

/-- The code buffer is replaced. -/
def Ctx.setCode (c : Ctx) (k : Code) : Ctx := { c with eng := { c.eng with code := k } }

/-- The packer registers are replaced. -/
def Ctx.setPacker (c : Ctx) (p : Packer) : Ctx := { c with eng := { c.eng with packer := p } }

/-- The unpacker registers are replaced. -/
def Ctx.setUnpacker (c : Ctx) (u : Unpacker) : Ctx := { c with eng := { c.eng with unpacker := u } }

/-- `DEC_STATE` is replaced. -/
def Ctx.setDecState (c : Ctx) (d : DecState) : Ctx := { c with eng := { c.eng with decState := d } }

end Sys2Proof.Machine
end

