-- ==== Sys2Proof/Machine/Operands.lean ====
section
/-! DEFINITION. The operand forms of 30_encoding.md R102, as the commands use them. `sym`, `bit`, `mask` and `count`
are used as they stand. -/

namespace Sys2Proof.Machine

/-- `v[n-1], …, v[0]`: the bits PUTBITS and a literal are sent as, most significant first (R102, 43_bit_io.md R174). The
bits of `v` at and above `n` are ignored. -/
def bitsDown (v : Byte) : Nat → List Bool
  | 0 => []
  | n + 1 => v.getLsbD n :: bitsDown v n

/-- The 8 bits of a literal, `c[7]` first (20_memory.md R86). -/
def literalBits (c : Byte) : List Bool := bitsDown c 8

/-- `CODE_BUF[0], …, CODE_BUF[CODE_LEN-1]`: the bits `PUT_CODE` sends (R174). -/
def Code.bits (k : Code) : List Bool := (List.range k.len.toNat).map fun i => k.buf.getLsbD i

/-- The code buffer that holds a path, given root to leaf; its entries past the path read 0 (10_state.md R39). -/
def Code.ofPath (p : List Bool) : Code :=
  { buf := (BitVec.ofBoolListLE p).setWidth 256, len := BitVec.ofNat 9 p.length }

/-- The parts INIT's `mask` selects (45_control.md R221): bit 0, the tree, the walker and the code buffer. -/
def selectsTree (mask : BitVec 5) : Bool := mask.getLsbD 0

/-- Bit 1 of INIT's `mask`: the packer (R221). -/
def selectsPacker (mask : BitVec 5) : Bool := mask.getLsbD 1

/-- Bit 2 of INIT's `mask`: the unpacker (R221). -/
def selectsUnpacker (mask : BitVec 5) : Bool := mask.getLsbD 2

/-- Bit 3 of INIT's `mask`: the decoder state (R221). -/
def selectsDecoder (mask : BitVec 5) : Bool := mask.getLsbD 3

/-- Bit 4 of INIT's `mask`: the error record (R221). -/
def selectsError (mask : BitVec 5) : Bool := mask.getLsbD 4

end Sys2Proof.Machine
end

