-- ==== Sys2Proof/Machine/Flags.lean ====
section
/-! DEFINITION. The flags and the response words. The AHT has no arithmetic condition codes (10_state.md R58): its
flags are the fields of STATUS (R44), the walker flags `W_RES` and `W_ISSYM` (R38), and the overflow check that guards
every observation (41_tree_model.md R133). The response layouts are those of each command's rule (R45). -/

namespace Sys2Proof.Machine

/-- `WEIGHT[ROOT] = WMAX`: the check of R133. -/
def Engine.overflows (g : Engine) : Bool := g.tree.rootWeight == g.wmax

/-- `ALL_SEEN` (R44): `NEXT = 513`. -/
def Tree.allSeen (t : Tree) : Bool := t.next == 513

/-- The numbers of `DEC_STATE` (R43). -/
def DecState.number : DecState → BitVec 2
  | .await => 0
  | .decoding => 1
  | .done => 2

/-- One bit as a bit vector. -/
abbrev flag (b : Bool) : BitVec 1 := BitVec.ofBool b

/-- The STATUS word (R44), from bit 31 down: reserved, `ERR_CODE`, `ALL_SEEN`, `EOD`, `DEC_STATE`, `WAIT_OUT`,
`WAIT_IN`, `ERR`, `BUSY`. -/
def State.status (s : State) : Word :=
  0#20 ++ s.eng.error.code.number ++ flag s.eng.tree.allSeen ++ flag s.inEod ++ s.eng.decState.number
    ++ flag s.waitOut ++ flag s.waitIn ++ flag s.eng.error.err ++ flag s.busy

/-- The walker registers once the cursor has moved to node `n` with entry `x` (42_walker.md R161). -/
def Walker.arrive (n : Idx) (x : Node) : Walker :=
  { cur := n
    res := x.kind == .esc || x.kind == .sym
    isSym := x.kind == .sym
    sym := if x.kind = .sym then x.symv else 0 }

/-- The walker registers after `WALK_CLEAR()` (R160). -/
def Walker.cleared : Walker := { cur := ROOT, res := false, isSym := false, sym := 0 }

/-! ## Response words -/

/-- OBSERVE (41_tree_model.md R140): `{6'b0, leaf[9:0], 3'b0, swaps[8:0], 3'b0, first}`. -/
def observeResponse (first : Bool) (swaps : Nat) (leaf : Idx) : Word :=
  0#6 ++ leaf ++ 0#3 ++ BitVec.ofNat 9 swaps ++ 0#3 ++ flag first

/-- ISOBS (R141): `{6'b0, LEAF[sym][9:0], 15'b0, SEEN[sym]}`. -/
def isobsResponse (e : SymEntry) : Word := 0#6 ++ e.leaf ++ 0#15 ++ flag e.seen

/-- CODE and ESCCODE (R142, R143): `zext_32(CODE_LEN)`. -/
def codeResponse (k : Code) : Word := k.len.setWidth 32

/-- WADV (42_walker.md R163): `{6'b0, CUR[9:0], W_SYM[7:0], 6'b0, W_ISSYM, W_RES}`. -/
def wadvResponse (w : Walker) : Word := 0#6 ++ w.cur ++ w.sym ++ 0#6 ++ flag w.isSym ++ flag w.res

/-- PUTBITS, PUTCODE and FLUSH (43_bit_io.md R177 to R179): `{8'b0, bytes[7:0], 7'b0, n[8:0]}`. -/
def packResponse (bytes n : Nat) : Word := 0#8 ++ BitVec.ofNat 8 bytes ++ 0#7 ++ BitVec.ofNat 9 n

/-- GETBITS (R180): `{15'b0, exh, 4'b0, k[3:0], v[7:0]}`. -/
def getbitsResponse (v : Byte) (k : Nat) (exh : Bool) : Word :=
  0#15 ++ flag exh ++ 0#4 ++ BitVec.ofNat 4 k ++ v

/-- ENCB and ENCEND (44_sequencers.md R191, R192): `{8'b0, bytes[7:0], 3'b0, b, 3'b0, bits[8:0]}`, where `b` is `esc` or
`term`. -/
def encodeResponse (bytes : Nat) (b : Bool) (bits : Nat) : Word :=
  0#8 ++ BitVec.ofNat 8 bytes ++ 0#3 ++ flag b ++ 0#3 ++ BitVec.ofNat 9 bits

/-- DECSTEP (R194): `{22'b0, outcome[1:0], byte[7:0]}`. -/
def decstepResponse (outcome : BitVec 2) (byte : Byte) : Word := 0#22 ++ outcome ++ byte

/-- ENCRUN and DECRUN (R197, R198): `min(n, 0x7FFF_FFFF)`. -/
def runResponse (n : Nat) : Word := BitVec.ofNat 32 (min n 0x7FFFFFFF)

end Sys2Proof.Machine
end

