-- ==== Sys2Proof/Machine/TreeModel.lean ====
section
/-! DEFINITION. The tree model family (41_tree_model.md): the update that keeps the sibling property, the code
derivation, and OBSERVE, ISOBS, CODE and ESCCODE. -/

namespace Sys2Proof.Machine

/-- The document's identity value, which is not stored: `ID(n)` (10_state.md R30). No command reads it. -/
def Tree.identity (t : Tree) (n : Idx) : Nat :=
  if (t.node n).kind = .sym then (t.node n).symv.toNat else 256 + n.toNat

/-! ## The split (R123, R124) -/

/-- `SPLIT(c)` (R124). It returns the tree and the new symbol leaf. The old escape leaf becomes an internal node in
place; the new symbol leaf is its right child and the new escape leaf its left child. -/
def Tree.split (t : Tree) (c : Byte) : Tree × Idx :=
  let e := t.esc
  let s := (t.node e).pos
  let ns := t.next
  let ne := t.next + 1
  let t := { t with next := t.next + 2 }
  let t := t.modNode e fun x => { x with kind := .int, left := ne, right := ns }
  let t := t.setNode ns
    { weight := 0, kind := .sym, symv := c, parent := e, side := .right, left := NIL, right := NIL, pos := s - 1 }
  let t := t.setOrd (s - 1) ns
  let t := t.setNode ne
    { weight := 0, kind := .esc, symv := 0, parent := e, side := .left, left := NIL, right := NIL, pos := s - 2 }
  let t := t.setOrd (s - 2) ne
  let t := { t with esc := ne }
  (t.setSym c { seen := true, leaf := ns }, ns)

/-! ## The exchange and its target (R128, R129) -/

/-- One child-pointer write of `SWAP`: "if side = LEFT then LEFT[p] <- n else RIGHT[p] <- n" (R128). -/
def Tree.setChild (t : Tree) (p : Idx) (side : Side) (n : Idx) : Tree :=
  t.modNode p fun x => if side = .left then { x with left := n } else { x with right := n }

/-- `SWAP(a, b)` (R128): the two nodes exchange their places in the tree and in the sequence. -/
def Tree.swap (t : Tree) (a b : Idx) : Tree :=
  let pa := (t.node a).parent
  let pb := (t.node b).parent
  let sa := (t.node a).side
  let sb := (t.node b).side
  let qa := (t.node a).pos
  let qb := (t.node b).pos
  let t := t.setChild pa sa b
  let t := t.setChild pb sb a
  let t := t.modNode a fun x => { x with parent := pb, side := sb, pos := qb }
  let t := t.modNode b fun x => { x with parent := pa, side := sa, pos := qa }
  let t := t.setOrd qa b
  t.setOrd qb a

/-- The loop of `LEADER` (R129), from slot `t`: it ends at `ROOT_SLOT` at the latest, so 512 rounds are enough (log
entry 8). -/
def Tree.leaderSlot (t : Tree) (w : Nat) : Nat → Idx → Idx
  | 0, s => s
  | fuel + 1, s =>
    if s < ROOT_SLOT ∧ (t.node (t.ordAt (s + 1))).weight = w then t.leaderSlot w fuel (s + 1) else s

/-- `LEADER(q)` (R129): the node at the highest slot of the run of slots, from `POS[q]` up, of `q`'s weight. -/
def Tree.leader (t : Tree) (q : Idx) : Idx :=
  t.ordAt (t.leaderSlot (t.node q).weight 512 (t.node q).pos)

/-! ## Weight propagation (R127, R130, R131) -/

/-- `WEIGHT[n] <- WEIGHT[n] + 1` (R130). -/
def Tree.bump (t : Tree) (n : Idx) : Tree :=
  t.modNode n fun x => { x with weight := x.weight + 1 }

/-- Does `PROPAGATE` exchange `q` with `l = LEADER(q)`? "if l != q and l != PARENT[q]" (R127, R131). -/
def Tree.exchanges (t : Tree) (q : Idx) : Bool :=
  t.leader q != q && t.leader q != (t.node q).parent

/-- One round of the loop of `PROPAGATE` (R127): the exchange, if there is one, then the increment. -/
def Tree.propagateRound (t : Tree) (q : Idx) : Tree :=
  (if t.exchanges q then t.swap q (t.leader q) else t).bump q

/-- `PROPAGATE(q)` (R127), with the number of exchanges made so far. It returns the tree and the number of exchanges.
The loop "ends after at most 256 iterations" (R127), which is the bound it is run with (log entry 8). -/
def Tree.propagateFrom : Nat → Tree → Idx → Nat → Tree × Nat
  | 0, t, _, swaps => (t.bump ROOT, swaps)
  | fuel + 1, t, q, swaps =>
    if q = ROOT then (t.bump ROOT, swaps)
    else
      let t' := t.propagateRound q
      t'.propagateFrom fuel (t'.node q).parent (if t.exchanges q then swaps + 1 else swaps)

/-- `PROPAGATE(q)` (R127). -/
def Tree.propagate (t : Tree) (q : Idx) : Tree × Nat := t.propagateFrom MAX_DEPTH q 0

/-- The result of one observation (R134). -/
structure Observed where
  tree : Tree
  first : Bool
  swaps : Nat
  leaf : Idx
deriving DecidableEq, Repr

/-- The tree part of `OBSERVE_CORE(c)` (R120): a first occurrence splits the escape leaf, a repeat starts from the
symbol's leaf (R126), and the weight is propagated to the root. -/
def Tree.observe (t : Tree) (c : Byte) : Observed :=
  let first := !(t.symEntry c).seen
  let start := if first then t.split c else (t, (t.symEntry c).leaf)
  let r := start.1.propagate start.2
  { tree := r.1, first := first, swaps := r.2, leaf := (r.1.symEntry c).leaf }

/-- `OBSERVE_CORE(c)` (R120) on the engine: the tree is updated and `WALK_CLEAR()` returns the cursor to the root
(R136). Nothing else is written (R122). -/
def Ctx.observe (c : Ctx) (sym : Byte) : Ctx :=
  (c.setTree (c.eng.tree.observe sym).tree).setWalker Walker.cleared

/-! ## Code derivation (R137, R138) -/

/-- The number of a side (R25). -/
def Side.number : Side → BitVec 2
  | .left => 0
  | .right => 1
  | .root => 2
  | .none => 3

/-- The branch bit `PATH` records for a node, a one-bit entry that holds `SIDE` (R138): 0 for LEFT, 1 for RIGHT
(log entry 18 for the other sides). -/
def Side.branch (d : Side) : Bool := d.number.getLsbD 0

/-- The walk of `PATH` from `x` up to the root (R138). `acc` is the path below `x`, root to leaf, so each step puts
its branch bit in front. It "ends after at most 256 steps", the bound it is run with (log entry 8). -/
def Tree.pathFrom : Nat → Tree → Idx → List Bool → List Bool
  | 0, _, _, acc => acc
  | fuel + 1, t, x, acc =>
    if x = ROOT then acc else t.pathFrom fuel (t.node x).parent ((t.node x).side.branch :: acc)

/-- The path from the root to node `n`, root to leaf (R137). -/
def Tree.path (t : Tree) (n : Idx) : List Bool := t.pathFrom MAX_DEPTH n []

/-- `PATH(n)` (R138): the code buffer takes the path of `n`. -/
def Ctx.derivePath (c : Ctx) (n : Idx) : Ctx := c.setCode (Code.ofPath (c.eng.tree.path n))

/-! ## OBSERVE (R140) -/

/-- The pseudocode of OBSERVE (R140). -/
def observeBody (sym : Byte) (c : Ctx) : Run Word :=
  if c.eng.overflows then .fail .weightOvf c
  else
    let o := c.eng.tree.observe sym
    .done (observeResponse o.first o.swaps o.leaf) (c.observe sym)

/-- OBSERVE `sym` (R140). -/
def execObserve (sym : Byte) (s : State) : Host.Outcome State Fault Refusal :=
  issue (.observe sym) (observeBody sym) s

/-! ## ISOBS (R141) -/

/-- The pseudocode of ISOBS (R141). -/
def isobsBody (sym : Byte) (c : Ctx) : Run Word :=
  .done (isobsResponse (c.eng.tree.symEntry sym)) c

/-- ISOBS `sym` (R141). -/
def execIsobs (sym : Byte) (s : State) : Host.Outcome State Fault Refusal :=
  issue (.isobs sym) (isobsBody sym) s

/-! ## CODE (R142) -/

/-- The pseudocode of CODE (R142). -/
def codeBody (sym : Byte) (c : Ctx) : Run Word :=
  if (c.eng.tree.symEntry sym).seen then
    let c := c.derivePath (c.eng.tree.symEntry sym).leaf
    .done (codeResponse c.eng.code) c
  else .fail .unobserved c

/-- CODE `sym` (R142). -/
def execCode (sym : Byte) (s : State) : Host.Outcome State Fault Refusal :=
  issue (.code sym) (codeBody sym) s

/-! ## ESCCODE (R143) -/

/-- The pseudocode of ESCCODE (R143). -/
def esccodeBody (c : Ctx) : Run Word :=
  let c := c.derivePath c.eng.tree.esc
  .done (codeResponse c.eng.code) c

/-- ESCCODE (R143). -/
def execEsccode (s : State) : Host.Outcome State Fault Refusal :=
  issue .esccode esccodeBody s

end Sys2Proof.Machine
end

