-- ==== Sys2Proof/Machine/WalkerOps.lean ====
section
/-! DEFINITION. The tree walker family (42_walker.md): the cursor, WRESET and WADV. The walker never changes the
tree (R164). -/

namespace Sys2Proof.Machine

/-- `WALK_CLEAR()` (R160). -/
def Ctx.walkClear (c : Ctx) : Ctx := c.setWalker Walker.cleared

/-- `KIND[CUR]`. -/
def Engine.curKind (g : Engine) : Kind := (g.tree.node g.walker.cur).kind

/-- `ADV(b)` (R161): the cursor goes to the left child if `b` is 0 and to the right child if `b` is 1. -/
def Ctx.adv (c : Ctx) (b : Bool) : Ctx :=
  let x := c.eng.tree.node c.eng.walker.cur
  let n := if b then x.right else x.left
  c.setWalker (Walker.arrive n (c.eng.tree.node n))

/-! ## WRESET (R162) -/

/-- The pseudocode of WRESET (R162). -/
def wresetBody (c : Ctx) : Run Word := .done 0 c.walkClear

/-- WRESET (R162). -/
def execWreset (s : State) : Host.Outcome State Fault Refusal :=
  issue .wreset wresetBody s

/-! ## WADV (R163) -/

/-- The pseudocode of WADV (R163). -/
def wadvBody (bit : Bool) (c : Ctx) : Run Word :=
  if c.eng.curKind = .int then
    let c := c.adv bit
    .done (wadvResponse c.eng.walker) c
  else .fail .walkAtLeaf c

/-- WADV `bit` (R163). -/
def execWadv (bit : Bool) (s : State) : Host.Outcome State Fault Refusal :=
  issue (.wadv bit) (wadvBody bit) s

end Sys2Proof.Machine
end

