-- ==== Sys2Proof/Machine/BitIo.lean ====
section
/-! DEFINITION. The bit packer and unpacker family (43_bit_io.md): the bit primitives, PUTBITS, PUTCODE, FLUSH and
GETBITS. -/

namespace Sys2Proof.Machine

/-! ## The packer (R170 to R174) -/

/-- `{PK_BUF[6:0], b}` (R170). -/
def Packer.shiftIn (p : Packer) (b : Bool) : Byte := p.buf.extractLsb' 0 7 ++ BitVec.ofBool b

/-- The packer with nothing pending. -/
def Packer.empty : Packer := { buf := 0, cnt := 0 }

/-- `PUT_BIT(b)` (R170). The packer registers change once the byte has been transferred (R171). -/
def putBit (b : Bool) (c : Ctx) : Run Unit :=
  if c.eng.packer.cnt = 7 then
    (outWrite (c.eng.packer.shiftIn b) c).bind fun _ c => .done () (c.setPacker Packer.empty)
  else
    .done () (c.setPacker { buf := c.eng.packer.shiftIn b, cnt := c.eng.packer.cnt + 1 })

/-- `PUT_BIT` of each bit in turn: `PUT_BITS` and `PUT_CODE` (R174). -/
def putAll : List Bool → Ctx → Run Unit
  | [], c => .done () c
  | b :: bs, c => (putBit b c).bind fun _ c => putAll bs c

/-- `PUT_CODE()` (R174): the valid entries of the code buffer. -/
def putCode (c : Ctx) : Run Unit := putAll c.eng.code.bits c

/-- `FLUSH_CORE()` (R172): it returns the number of padding bits. -/
def flushCore (c : Ctx) : Run Nat :=
  if c.eng.packer.cnt = 0 then .done 0 c
  else
    let pad := 8 - c.eng.packer.cnt.toNat
    (outWrite (c.eng.packer.buf <<< pad) c).bind fun _ c => .done pad (c.setPacker Packer.empty)

/-! ## The unpacker (R175, R176) -/

/-- The unpacker with a bit to give, and the bit it gives: `UP_CNT <- UP_CNT - 1; return UP_BUF[UP_CNT]` (R175). -/
def Unpacker.take (u : Unpacker) : Bool × Unpacker :=
  (u.buf.getLsbD (u.cnt - 1).toNat, { u with cnt := u.cnt - 1 })

/-- `GET_BIT()` (R175): the next bit, `none` for `EXH`, or a hold. -/
def getBit (c : Ctx) : Run (Option Bool) :=
  if c.eng.unpacker.cnt = 0 then
    (inRead c).bind fun v c =>
      match v with
      | none => .done none c
      | some v =>
        let (b, u) := Unpacker.take { buf := v, cnt := 8 }
        .done (some b) (c.setUnpacker u)
  else
    let (b, u) := c.eng.unpacker.take
    .done (some b) (c.setUnpacker u)

/-- What `GET_BITS` returns (R176): the bits right-aligned, their number, and whether the input ran out. -/
structure Got where
  v : Byte
  k : Nat
  exh : Bool
deriving DecidableEq, Repr

/-- The loop of `GET_BITS` (R176), with `n` bits still wanted, `k` bits obtained and `v` holding them. -/
def getBitsFrom : Nat → Byte → Nat → Ctx → Run Got
  | 0, v, k, c => .done { v := v, k := k, exh := false } c
  | n + 1, v, k, c =>
    (getBit c).bind fun b c =>
      match b with
      | none => .done { v := v, k := k, exh := true } c
      | some b => getBitsFrom n ((v <<< 1) ||| (BitVec.ofBool b).setWidth 8) (k + 1) c

/-- `GET_BITS(n)` (R176). -/
def getBits (n : Nat) (c : Ctx) : Run Got := getBitsFrom n 0 0 c

/-! ## PUTBITS (R177) -/

/-- The pseudocode of PUTBITS (R177). -/
def putbitsBody (count : Nat) (value : Byte) (c : Ctx) : Run Word :=
  (putAll (bitsDown value count) c).bind fun _ c => .done (packResponse c.sent.length count) c

/-- PUTBITS `count, value` (R177). -/
def execPutbits (count : Nat) (value : Byte) (s : State) : Host.Outcome State Fault Refusal :=
  issue (.putbits count value) (putbitsBody count value) s

/-! ## PUTCODE (R178) -/

/-- The pseudocode of PUTCODE (R178). -/
def putcodeBody (c : Ctx) : Run Word :=
  (putCode c).bind fun _ c => .done (packResponse c.sent.length c.eng.code.len.toNat) c

/-- PUTCODE (R178). -/
def execPutcode (s : State) : Host.Outcome State Fault Refusal :=
  issue .putcode putcodeBody s

/-! ## FLUSH (R179) -/

/-- The pseudocode of FLUSH (R179). -/
def flushBody (c : Ctx) : Run Word :=
  (flushCore c).bind fun pad c => .done (packResponse c.sent.length pad) c

/-- FLUSH (R179). -/
def execFlush (s : State) : Host.Outcome State Fault Refusal :=
  issue .flush flushBody s

/-! ## GETBITS (R180) -/

/-- The pseudocode of GETBITS (R180). Exhaustion is not an error. -/
def getbitsBody (count : Nat) (c : Ctx) : Run Word :=
  (getBits count c).bind fun g c => .done (getbitsResponse g.v g.k g.exh) c

/-- GETBITS `count` (R180). -/
def execGetbits (count : Nat) (s : State) : Host.Outcome State Fault Refusal :=
  issue (.getbits count) (getbitsBody count) s

end Sys2Proof.Machine
end

