-- ==== Sys2Proof/Machine/Sequencers.lean ====
section
/-! DEFINITION. The encode and decode sequencer family (44_sequencers.md): ENCB, ENCEND, DECSTEP, ENCRUN and DECRUN.
Each run command is a loop over the same core as its single-step command. -/

namespace Sys2Proof.Machine

/-! ## Encoding (R190 to R193) -/

/-- What `ENCB_CORE` and `ENCEND_CORE` return: the number of bits emitted, and `esc` or `term` (R191, R192). -/
structure Emitted where
  bits : Nat
  mark : Bool
deriving DecidableEq, Repr

/-- `ENCB_CORE(c)` (R191): the symbol's code, or the escape code and the 8 literal bits; then `OBSERVE_CORE`. -/
def encbCore (sym : Byte) (c : Ctx) : Run Emitted :=
  if (c.eng.tree.symEntry sym).seen then
    let c := c.derivePath (c.eng.tree.symEntry sym).leaf
    (putCode c).bind fun _ c =>
      .done { bits := c.eng.code.len.toNat, mark := false } (c.observe sym)
  else
    let c := c.derivePath c.eng.tree.esc
    (putCode c).bind fun _ c =>
      (putAll (literalBits sym) c).bind fun _ c =>
        .done { bits := c.eng.code.len.toNat + 8, mark := true } (c.observe sym)

/-- Is the terminator sent? "`TERM_EN = 1` and `WEIGHT[ROOT] != 0`" (R192, R193). -/
def Engine.terminates (g : Engine) : Bool := g.termEn && g.tree.rootWeight != 0

/-- `ENCEND_CORE()` (R192): the terminator, if it is enabled and something was observed, then the flush. -/
def encendCore (c : Ctx) : Run Emitted :=
  if c.eng.terminates then
    let c := c.derivePath c.eng.tree.esc
    (putCode c).bind fun _ c =>
      (putAll (literalBits 0) c).bind fun _ c =>
        (flushCore c).bind fun _ c =>
          .done { bits := c.eng.code.len.toNat + 8, mark := true } c
  else
    (flushCore c).bind fun _ c => .done { bits := 0, mark := false } c

/-! ## ENCB (R191) -/

/-- The pseudocode of ENCB (R191). -/
def encbBody (sym : Byte) (c : Ctx) : Run Word :=
  if c.eng.overflows then .fail .weightOvf c
  else (encbCore sym c).bind fun r c => .done (encodeResponse c.sent.length r.mark r.bits) c

/-- ENCB `sym` (R191). -/
def execEncb (sym : Byte) (s : State) : Host.Outcome State Fault Refusal :=
  issue (.encb sym) (encbBody sym) s

/-! ## ENCEND (R192) -/

/-- The pseudocode of ENCEND (R192). -/
def encendBody (c : Ctx) : Run Word :=
  (encendCore c).bind fun r c => .done (encodeResponse c.sent.length r.mark r.bits) c

/-- ENCEND (R192). -/
def execEncend (s : State) : Host.Outcome State Fault Refusal :=
  issue .encend encendBody s

/-! ## Decoding (R194, R195) -/

/-- The outcomes of a decode step (R194). -/
inductive DecOutcome where
  /-- `0` BYTE: one byte was decoded and written -/
  | byte
  /-- `1` END_EXH: the input was exhausted before a byte was resolved -/
  | endExh
  /-- `2` END_SENTINEL: the escape leaf was resolved and the literal read was `0x00` -/
  | endSentinel
  /-- `3` END_DONE: `DEC_STATE` was already DONE -/
  | endDone
deriving DecidableEq, Repr

/-- The numbers of the outcomes (R194). -/
def DecOutcome.number : DecOutcome → BitVec 2
  | .byte => 0
  | .endExh => 1
  | .endSentinel => 2
  | .endDone => 3

/-- What `DECSTEP_CORE` returns: the outcome, and the byte written for BYTE, else 0 (R194). -/
structure Stepped where
  outcome : DecOutcome
  byte : Byte
deriving DecidableEq, Repr

/-- How many bits the input offered so far can still give. -/
def Ctx.bitsLeft (c : Ctx) : Nat := 8 * c.inp.length + c.eng.unpacker.cnt.toNat

/-- The descent "`while KIND[CUR] = INT`" (R195): `true` once the cursor is on a leaf, `false` on `EXH`. Each round
takes a bit, so the bits left and one more round are enough; the first argument counts them (log entry 8). -/
def descend : Nat → Ctx → Run Bool
  | 0, c => .done (c.eng.curKind != .int) c
  | fuel + 1, c =>
    if c.eng.curKind = .int then
      (getBit c).bind fun b c =>
        match b with
        | none => .done false c
        | some b => descend fuel (c.adv b)
    else .done true c

/-- "`OutWrite(v); OBSERVE_CORE(v)`", which ends every step that decodes a byte (R195; log entry 10 on R228). -/
def decodeByte (v : Byte) (c : Ctx) : Run Stepped :=
  (outWrite v c).bind fun _ c => .done { outcome := .byte, byte := v } (c.observe v)

/-- The AWAITING_FIRST_BYTE part of `DECSTEP_CORE` (R195): 8 raw bits are the first byte. -/
def decodeFirst (c : Ctx) : Run Stepped :=
  (getBits 8 c).bind fun g c =>
    if g.exh then .done { outcome := .endExh, byte := 0 } c
    else (decodeByte g.v c).bind fun r c => .done r (c.setDecState .decoding)

/-- The literal after the escape leaf (R195): exactly zero is the sentinel, anything else is a byte. -/
def decodeLiteral (c : Ctx) : Run Stepped :=
  (getBits 8 c).bind fun g c =>
    if g.exh then .done { outcome := .endExh, byte := 0 } (c.setDecState .done)
    else if g.v = 0 then .done { outcome := .endSentinel, byte := 0 } (c.setDecState .done)
    else decodeByte g.v c

/-- The DECODING part of `DECSTEP_CORE` (R195): descend, then resolve a symbol leaf or the escape leaf. -/
def decodeNext (c : Ctx) : Run Stepped :=
  (descend (c.bitsLeft + 1) c.walkClear).bind fun resolved c =>
    if resolved then
      if c.eng.curKind = .sym then
        decodeByte (c.eng.tree.node c.eng.walker.cur).symv c.walkClear
      else decodeLiteral c.walkClear
    else .done { outcome := .endExh, byte := 0 } (c.setDecState .done).walkClear

/-- `DECSTEP_CORE()` (R195). DONE is tested before the overflow check (60_exceptions.md R237). -/
def decstepCore (c : Ctx) : Run Stepped :=
  if c.eng.decState = .done then .done { outcome := .endDone, byte := 0 } c
  else if c.eng.overflows then .fail .weightOvf c
  else if c.eng.decState = .await then decodeFirst c
  else decodeNext c

/-! ## DECSTEP (R194) -/

/-- The pseudocode of DECSTEP (R194). -/
def decstepBody (c : Ctx) : Run Word :=
  (decstepCore c).bind fun r c => .done (decstepResponse r.outcome.number r.byte) c

/-- DECSTEP (R194). -/
def execDecstep (s : State) : Host.Outcome State Fault Refusal :=
  issue .decstep decstepBody s

/-! ## ENCRUN (R197) -/

/-- The loop of ENCRUN (R197), with `n` bytes encoded. The overflow check comes before the `InRead`. Each round takes
a byte, so the bytes offered and one more round are enough; the first argument counts them (log entry 8). -/
def encrunLoop : Nat → Nat → Ctx → Run Word
  | 0, n, c => .done (runResponse n) c
  | fuel + 1, n, c =>
    if c.eng.overflows then .fail .weightOvf c
    else
      (inRead c).bind fun v c =>
        match v with
        | none => (encendCore c).bind fun _ c => .done (runResponse n) c
        | some v => (encbCore v c).bind fun _ c => encrunLoop fuel (n + 1) c

/-- The pseudocode of ENCRUN (R197). -/
def encrunBody (c : Ctx) : Run Word := encrunLoop (c.inp.length + 1) 0 c

/-- ENCRUN (R197). -/
def execEncrun (s : State) : Host.Outcome State Fault Refusal :=
  issue .encrun encrunBody s

/-! ## DECRUN (R198) -/

/-- The loop of DECRUN (R198), with `n` bytes written. Every round but the last observes a byte, which takes
`WEIGHT[ROOT]` one nearer to `WMAX`, where the step fails (R133); the first argument counts the observations left, and
with none left the only outcome of a round is its end (log entry 8). -/
def decrunLoop : Nat → Nat → Ctx → Run Word
  | 0, n, c =>
    (decstepCore c).bind fun r c =>
      if r.outcome = .byte then .fail .weightOvf c else .done (runResponse n) c
  | fuel + 1, n, c =>
    (decstepCore c).bind fun r c =>
      if r.outcome = .byte then decrunLoop fuel (n + 1) c else .done (runResponse n) c

/-- The pseudocode of DECRUN (R198). -/
def decrunBody (c : Ctx) : Run Word := decrunLoop (c.eng.wmax - c.eng.tree.rootWeight) 0 c

/-- DECRUN (R198). -/
def execDecrun (s : State) : Host.Outcome State Fault Refusal :=
  issue .decrun decrunBody s

end Sys2Proof.Machine
end

