-- ==== Sys2Proof/Machine/Control.lean ====
section
/-! DEFINITION. The control family (45_control.md): NOP, INIT and SETCTRL, and the hardware reset of
70_reset_and_hazards.md, which is INIT with more parts (R260). -/

namespace Sys2Proof.Machine

/-! ## NOP (R220) -/

/-- The pseudocode of NOP (R220). -/
def nopBody (c : Ctx) : Run Word := .done 0 c

/-- NOP (R220). -/
def execNop (s : State) : Host.Outcome State Fault Refusal :=
  issue .nop nopBody s

/-! ## INIT (R221) -/

/-- `TREE_INIT()` (R222): the single-node tree, the cursor at the root, and an empty code buffer. -/
def Engine.treeInit (g : Engine) : Engine :=
  { g with tree := Tree.initial, walker := Walker.cleared, code := { buf := 0, len := 0 } }

/-- INIT's five parts (R221). They are disjoint, "so the order of the lines does not matter". -/
def Engine.initParts (g : Engine) (mask : BitVec 5) : Engine :=
  let g := if selectsTree mask then g.treeInit else g
  let g := if selectsPacker mask then { g with packer := Packer.empty } else g
  let g := if selectsUnpacker mask then { g with unpacker := { buf := 0, cnt := 0 } } else g
  let g := if selectsDecoder mask then { g with decState := .await } else g
  if selectsError mask then { g with error := { err := false, code := .none, cmd := 0 } } else g

/-- The pseudocode of INIT (R221). -/
def initBody (mask : BitVec 5) (c : Ctx) : Run Word :=
  .done 0 { c with eng := c.eng.initParts mask }

/-- An INIT that re-initialises the unpacker starts a new run, so the host may lower `in_eod` after it
(20_memory.md R97 (b)). -/
def State.noteNewRun (s : State) (starts : Bool) : State :=
  { s with eodMayFall := s.eodMayFall || starts }

/-- INIT `mask` (R221). -/
def execInit (mask : BitVec 5) (s : State) : Host.Outcome State Fault Refusal :=
  issue (.init mask) (initBody mask) (s.noteNewRun (selectsUnpacker mask))

/-! ## SETCTRL (R224) -/

/-- The pseudocode of SETCTRL (R224). -/
def setctrlBody (v : Bool) (c : Ctx) : Run Word :=
  .done 0 { c with eng := { c.eng with termEn := v } }

/-- SETCTRL `v` (R224). -/
def execSetctrl (v : Bool) (s : State) : Host.Outcome State Fault Refusal :=
  issue (.setctrl v) (setctrlBody v) s

/-! ## Hardware reset (R260) -/

/-- "exactly `INIT 0x1F` plus `CTRL <- 0`, `RESULT <- 0`" (R260). -/
def Engine.hardwareReset (g : Engine) : Engine :=
  { g.initParts 0x1F with termEn := false, result := 0 }

/-- `rst` (R260, R262): the engine is reset, a holding command is abandoned without a response, and the host's side
of the streams stays as it is. A new run may start (R97 (b)). -/
def State.hardwareReset (s : State) : State :=
  { s with eng := s.eng.hardwareReset, hold := none, eodMayFall := true }

end Sys2Proof.Machine
end

