-- ==== Sys2Proof/Machine/RegPort.lean ====
section
/-! DEFINITION. The register read port (20_memory.md R70, R73 to R78, R83, R84): a 16-bit word address space that shows
every piece of engine state, read without side effects. -/

namespace Sys2Proof.Machine

/-- ID (R74): `0x4148_0100`. -/
def idWord : Word := 0x41480100#32

/-- PARAM (R75): `[5:0] = W`, `[25:16] = NODES - 1` (log entry 17). -/
def paramWord (g : Engine) : Word := 0#6 ++ 512#10 ++ 0#10 ++ BitVec.ofNat 6 g.weightBits

/-- CTRL (10_state.md R41): `[0] = TERM_EN`. -/
def ctrlWord (g : Engine) : Word := 0#31 ++ flag g.termEn

/-- ERR_CMD (R47): `[15:0]`. -/
def errCmdWord (g : Engine) : Word := 0#16 ++ g.error.cmd

/-- TREE (R37): `[9:0] = ESC`, `[25:16] = NEXT`. -/
def treeWord (g : Engine) : Word := 0#6 ++ g.tree.next ++ 0#6 ++ g.tree.esc

/-- WALK (R38): `[9:0] = CUR`, `[16] = W_RES`, `[17] = W_ISSYM`, `[31:24] = W_SYM`. -/
def walkWord (g : Engine) : Word :=
  g.walker.sym ++ 0#6 ++ flag g.walker.isSym ++ flag g.walker.res ++ 0#6 ++ g.walker.cur

/-- PACK (R40): `[7:0] = PK_BUF`, `[10:8] = PK_CNT`. -/
def packWord (g : Engine) : Word := 0#21 ++ g.packer.cnt ++ g.packer.buf

/-- UNPACK (R42): `[7:0] = UP_BUF`, `[11:8] = UP_CNT`. -/
def unpackWord (g : Engine) : Word := 0#20 ++ g.unpacker.cnt ++ g.unpacker.buf

/-- CODE_LEN (R39): `[8:0]`. -/
def codeLenWord (g : Engine) : Word := 0#23 ++ g.code.len

/-- `CODEW[k]` (R39): `CODEW[k][31 - j] = CODE_BUF[32k + j]`. -/
def codeWord (g : Engine) (k : Nat) : Word := (g.code.buf.extractLsb' (32 * k) 32).reverse

/-- The numbers of `KIND` (R24). -/
def Kind.number : Kind → BitVec 2
  | .free => 0
  | .esc => 1
  | .sym => 2
  | .int => 3

/-- Word `k` of the NODE view of an entry (R76). -/
def nodeWord (x : Node) (k : Nat) : Word :=
  match k with
  | 0 => BitVec.ofNat 32 x.weight
  | 1 => x.symv ++ 0#6 ++ x.kind.number ++ 0#2 ++ x.side.number ++ 0#2 ++ x.parent
  | 2 => 0#6 ++ x.right ++ 0#6 ++ x.left
  | _ => 0#22 ++ x.pos

/-- Word of the SYMTAB view (R78): `[0] = SEEN[c]`, `[25:16] = LEAF[c]`. -/
def symWord (e : SymEntry) : Word := 0#6 ++ e.leaf ++ 0#15 ++ flag e.seen

/-- The register read map (R73). "Every address not listed reads `0x0000_0000`." -/
def State.regWord (s : State) (addr : BitVec 16) : Word :=
  let a := addr.toNat
  if a = 0x0000 then idWord
  else if a = 0x0001 then paramWord s.eng
  else if a = 0x0002 then s.status
  else if a = 0x0003 then ctrlWord s.eng
  else if a = 0x0004 then s.eng.result
  else if a = 0x0005 then errCmdWord s.eng
  else if a = 0x0006 then treeWord s.eng
  else if a = 0x0007 then walkWord s.eng
  else if a = 0x0008 then packWord s.eng
  else if a = 0x0009 then unpackWord s.eng
  else if a = 0x000A then codeLenWord s.eng
  else if 0x0010 ≤ a ∧ a ≤ 0x0017 then codeWord s.eng (a - 0x0010)
  else if 0x1000 ≤ a ∧ a ≤ 0x1803 then
    nodeWord (s.eng.tree.node (BitVec.ofNat 10 ((a - 0x1000) / 4))) ((a - 0x1000) % 4)
  else if 0x2000 ≤ a ∧ a ≤ 0x2200 then 0#22 ++ s.eng.tree.ordAt (BitVec.ofNat 10 (a - 0x2000))
  else if 0x2400 ≤ a ∧ a ≤ 0x24FF then symWord (s.eng.tree.symEntry (BitVec.ofNat 8 (a - 0x2400)))
  else 0

/-- Is a read of this address defined while `BUSY = 1`? Only "STATUS, ID, PARAM and CTRL return their current
values" (R84). -/
def definedWhileBusy (addr : BitVec 16) : Bool :=
  addr == 0x0000 || addr == 0x0001 || addr == 0x0002 || addr == 0x0003

/-- Does a read of this address now return a value the spec leaves open (R84)? -/
def State.readsOpen (s : State) (addr : BitVec 16) : Bool := s.busy && !definedWhileBusy addr

/-- `rd_data` for `rd_addr` (R83, R84). -/
def State.readPort (s : State) (addr : BitVec 16) : Word :=
  if s.readsOpen addr then Config.busyRead s.draws addr else s.regWord addr

end Sys2Proof.Machine
end

