-- ==== Sys2Proof/Machine/Dispatch.lean ====
section
/-! DEFINITION. One arm for each command: the meaning its rule gives it. -/

namespace Sys2Proof.Machine

def exec (i : Instr) (s : State) : Host.Outcome State Fault Refusal :=
  match i with
  -- control (45_control.md)
  | .nop => Sys2Proof.Machine.execNop s
  | .init mask => Sys2Proof.Machine.execInit mask s
  -- tree model (41_tree_model.md)
  | .observe sym => Sys2Proof.Machine.execObserve sym s
  | .isobs sym => Sys2Proof.Machine.execIsobs sym s
  | .code sym => Sys2Proof.Machine.execCode sym s
  | .esccode => Sys2Proof.Machine.execEsccode s
  -- tree walker (42_walker.md)
  | .wreset => Sys2Proof.Machine.execWreset s
  | .wadv bit => Sys2Proof.Machine.execWadv bit s
  -- whole passes (44_sequencers.md)
  | .encrun => Sys2Proof.Machine.execEncrun s
  | .decrun => Sys2Proof.Machine.execDecrun s
  -- bit packer and unpacker (43_bit_io.md)
  | .putbits count value => Sys2Proof.Machine.execPutbits count value s
  | .putcode => Sys2Proof.Machine.execPutcode s
  | .flush => Sys2Proof.Machine.execFlush s
  | .getbits count => Sys2Proof.Machine.execGetbits count s
  -- single steps (44_sequencers.md)
  | .encb sym => Sys2Proof.Machine.execEncb sym s
  | .encend => Sys2Proof.Machine.execEncend s
  | .decstep => Sys2Proof.Machine.execDecstep s
  -- control (45_control.md)
  | .setctrl v => Sys2Proof.Machine.execSetctrl v s

end Sys2Proof.Machine
end

