-- ==== Sys2Proof/Machine/HostPort.lean ====
section
/-! DEFINITION. What the host does to the AHT: it offers command words, input bytes and end-of-data, takes output
bytes, reads registers and asserts `rst` (20_memory.md R79 to R83, R96; 70_reset_and_hazards.md R262). -/

namespace Sys2Proof.Machine

/-- An illegal word "is accepted on the command port like any other" and fails with ILLEGAL (R108). -/
def State.rejectWord (s : State) (w : Cmd) : State := s.failWith .illegal w s.ctx

/-- Accept a command word (R79): the command it decodes to, or the failure ILLEGAL, decided "from the word alone,
before anything else" (R237). -/
def acceptWord (w : Cmd) (s : State) : Host.Outcome State Fault Refusal :=
  match decode w with
  | .ok i => exec i s
  | .error _ => .next (s.rejectWord w)

/-- The host's contract on its input bytes (R97 (b)): none after `in_eod`. -/
def offerByte (b : Byte) (s : State) : Host.Outcome State Fault Refusal :=
  if s.inEod then .fault .byteAfterEod else .next { s with inBytes := s.inBytes ++ [b] }

/-- The commands that read input (45_control.md R228): "only in GETBITS, DECSTEP, ENCRUN and DECRUN". -/
def readsInput : Instr → Bool
  | .getbits _ => true
  | .decstep => true
  | .encrun => true
  | .decrun => true
  | .nop | .init _ | .observe _ | .isobs _ | .code _ | .esccode | .wreset | .wadv _ | .putbits _ _ | .putcode => false
  | .flush | .encb _ | .encend | .setctrl _ => false

/-- May the host lower `in_eod`? Once a new run has started (R97 (b)), and not within a command that reads input: before
such a command the host must "raise `in_eod` and keep it raised" (70_reset_and_hazards.md R265). -/
def State.eodFree (s : State) : Bool := s.eodMayFall && !s.hold.any fun h => readsInput h.instr

/-- `in_eod` falls only where the host's contract lets it (R97 (b), R265; log entry 6). -/
def lowerInEod (s : State) : Host.Outcome State Fault Refusal :=
  if s.inEod then
    if s.eodFree then .next { s with inEod := false } else .fault .eodLoweredInRun
  else .next s

/-- One register read (R83, R84): the word goes to the host and no engine state changes. -/
def readRegister (addr : BitVec 16) (s : State) : State :=
  { s with
    reads := s.reads ++ [s.readPort addr]
    draws := if s.readsOpen addr then s.draws + 1 else s.draws }

/-- Has the port condition a command holds on come to an end (R81, R82)? On input: a byte is offered or `in_eod` is 1.
On output: `out_ready` is 1. -/
def State.lifted (s : State) (h : Hold) : Bool :=
  match h.port with
  | .input => !s.inBytes.isEmpty || s.inEod
  | .output => s.outRoom != some 0

/-- The state a holding command would have been accepted in, had the host been as far then as it is now: the engine
at its acceptance, the bytes it has taken in front of those offered since, and the bytes it has written withdrawn. -/
def State.rewind (s : State) (h : Hold) : State :=
  { s with
    eng := h.start
    hold := none
    inBytes := h.taken ++ s.inBytes
    outBytes := s.outBytes.take (s.outBytes.length - h.sent)
    outRoom := s.outRoom.map (· + h.sent) }

/-- The streams as a command sees them that is to make at most `ins` transfers in and `outs` out: no further byte is
offered, end-of-data is not seen before the last byte, and `out_ready` falls. -/
def State.limit (s : State) (ins outs : Nat) : State :=
  { s with
    inBytes := s.inBytes.take ins
    inEod := s.inEod && decide (s.inBytes.length ≤ ins)
    outRoom := some (match s.outRoom with
      | none => outs
      | some k => min k outs) }

/-- `s` once command `i`, accepted in `r`, has been abandoned by `rst` inside its run: "stream transfers that have
already happened" stay, everything else is reset, and there is no response (R262). The transfers of a command come in
one order (R91), so the two numbers reach every point between two of them. -/
def State.abandonIn (s r : State) (i : Instr) (ins outs : Nat) : State :=
  match exec i (r.limit ins outs) with
  | .next t => ({ s with
      inBytes := t.inBytes ++ r.inBytes.drop ins
      outBytes := t.outBytes
      outRoom := r.outRoom.map (· - (t.outBytes.length - r.outBytes.length)) } : State).hardwareReset
  | .fault _ => s.hardwareReset
  | .refused _ => s.hardwareReset

/-- `rst` inside the holding command, once it has made `ins` further transfers in and `outs` out (R262). Its run is the
one from its acceptance (R98), so the transfers it has made count too. With none holding it is `rst`. -/
def State.abandon (s : State) (ins outs : Nat) : State :=
  match s.hold with
  | some h => s.abandonIn (s.rewind h) h.instr (h.taken.length + ins) (h.sent + outs)
  | none => s.hardwareReset

/-- `rst` inside the command that word `w` starts (R262). An illegal word makes no transfer (R108). -/
def State.abandonWord (s : State) (w : Cmd) (ins outs : Nat) : State :=
  match decode w with
  | .ok i => s.abandonIn s i ins outs
  | .error _ => s.hardwareReset

/-- Is the host's next move an `rst` that does not wait for the command port? It comes before anything the engine does,
since `rst` may be asserted at any time, in a hold too (R96, R262). -/
def State.resetNext (s : State) : Bool :=
  match s.host with
  | .rst :: _ => true
  | .rstWithin none _ _ :: _ => true
  | _ => false

/-- The host makes its next move. With none left it does nothing, and the engine keeps all state (R247). While
`cmd_ready = 0` the port does not transfer a command word, "so it is not a command" (R79, 93_implementation_defined.md
U10): the word stays offered, and nothing changes (log entry 13). -/
def hostMove (s : State) : Host.Outcome State Fault Refusal :=
  match s.host with
  | [] => .next s
  | .command w :: rest => if s.cmdReady then acceptWord w { s with host := rest } else .next s
  | .offer b :: rest => offerByte b { s with host := rest }
  | .raiseEod :: rest => .next { s with host := rest, inEod := true, eodMayFall := false }
  | .lowerEod :: rest => lowerInEod { s with host := rest }
  | .accept room :: rest => .next { s with host := rest, outRoom := room }
  | .read addr :: rest => .next (readRegister addr { s with host := rest })
  | .wait :: rest => .next { s with host := rest }
  | .rst :: rest => .next ({ s with host := rest } : State).hardwareReset
  | .rstWithin none ins outs :: rest => .next (({ s with host := rest } : State).abandon ins outs)
  | .rstWithin (some w) ins outs :: rest =>
    if s.cmdReady then .next (({ s with host := rest } : State).abandonWord w ins outs) else .next s

/-- A lifted hold goes on. "A command that holds and then resumes gives the same result as one run with all its input
already offered" (R98), so it goes on as that run (log entry 5). -/
def resume (h : Hold) (s : State) : Host.Outcome State Fault Refusal := exec h.instr (s.rewind h)

/-- The word the host offers next is `w`, to an engine that is ready for it. -/
def State.withWord (s : State) (w : Cmd) : State :=
  { s with hold := none, host := .command w :: s.host }

end Sys2Proof.Machine
end

