-- ==== Sys2Proof/Machine/Step.lean ====
section
/-! DEFINITION. One step of the machine: a holding command whose port condition has come goes on, unless the host
asserts `rst`; otherwise the host makes its next move, a command word being one of them. -/

namespace Sys2Proof.Machine

/-- One step (20_memory.md R79, R90, R99). A command runs to completion in the step that accepts it, unless it holds;
"a host action lifts every hold" (R99). A lifted hold goes on before the host's next move, unless that is `rst`, which
comes first (R262; log entry 12). -/
def step (s : State) : Host.Outcome State Fault Refusal :=
  match s.hold with
  | some h => if s.lifted h && !s.resetNext then resume h s else hostMove s
  | none => hostMove s

/-- `s` with a command word as the next one the host issues. The AHT fetches nothing (10_state.md R22): its program is
the host's command sequence, so the word goes to the front of the host's moves, and the engine is ready (log entry 1). -/
def State.withFetchWord (s : State) (nbits w : Nat) : State :=
  s.withWord (BitVec.ofNat 16 (w % 2 ^ nbits))

end Sys2Proof.Machine
end

