-- ==== Sys2Proof/Safety.lean ====
section
/-! DEFINITION. What holds in every state a command sequence reaches (10_state.md R40 to R43, R50 to R57), and the
views of the bit streams that claims are stated in. Nothing the machine does depends on this file. -/

namespace Sys2Proof.Machine

/-! ## The tree invariants (R50 to R57) -/

/-- The number of byte values observed since tree initialisation. -/
def Tree.seenCount (t : Tree) : Nat :=
  ((List.range 256).filter fun c => (t.symEntry (BitVec.ofNat 8 c)).seen).length

/-- R50 and R31: which nodes are allocated and which slots are occupied, and that `ORD` and `POS` are inverse. An index
above 512 reads as a free entry and `NIL`, so it is among the free ones. -/
structure Tree.AllocationInv (t : Tree) : Prop where
  allocated : ∀ n : Idx, n < t.next → (t.node n).kind ≠ .free
  free : ∀ n : Idx, ¬ n < t.next → t.node n = Node.free
  nextOdd : t.next.toNat = 1 + 2 * t.seenCount
  nextLe : t.next.toNat ≤ 513
  unoccupied : ∀ s : Idx, s.toNat < 513 - t.next.toNat → t.ordAt s = NIL
  posRange : ∀ n : Idx, n < t.next → 513 - t.next.toNat ≤ (t.node n).pos.toNat ∧ (t.node n).pos.toNat ≤ 512
  ordPos : ∀ n : Idx, n < t.next → t.ordAt (t.node n).pos = n
  posOrd : ∀ s : Idx, 513 - t.next.toNat ≤ s.toNat → s.toNat ≤ 512 →
    t.ordAt s < t.next ∧ (t.node (t.ordAt s)).pos = s
  posEsc : (t.node t.esc).pos.toNat = 513 - t.next.toNat

/-- R51: weights are non-decreasing with the slot. -/
def Tree.OrderInv (t : Tree) : Prop :=
  ∀ s : Idx, 513 - t.next.toNat ≤ s.toNat → s.toNat < 512 →
    (t.node (t.ordAt s)).weight ≤ (t.node (t.ordAt (s + 1))).weight

/-- R52: an internal node weighs what its children weigh. -/
def Tree.SumInv (t : Tree) : Prop :=
  ∀ n : Idx, (t.node n).kind = .int →
    (t.node n).weight = (t.node (t.node n).left).weight + (t.node (t.node n).right).weight

/-- R53: parent and child links agree, and only internal nodes have children. -/
structure Tree.LinkInv (t : Tree) : Prop where
  left : ∀ n : Idx, (t.node n).kind = .int → (t.node n).left < t.next ∧
    (t.node (t.node n).left).parent = n ∧ (t.node (t.node n).left).side = .left
  right : ∀ n : Idx, (t.node n).kind = .int → (t.node n).right < t.next ∧
    (t.node (t.node n).right).parent = n ∧ (t.node (t.node n).right).side = .right
  root : (t.node ROOT).side = .root ∧ (t.node ROOT).parent = NIL
  leaf : ∀ n : Idx, (t.node n).kind ≠ .int → (t.node n).left = NIL ∧ (t.node n).right = NIL
  parent : ∀ n : Idx, n < t.next → n ≠ ROOT →
    (t.node (t.node n).parent).kind = .int ∧
      ((t.node n).side = .left ∧ (t.node (t.node n).parent).left = n ∨
        (t.node n).side = .right ∧ (t.node (t.node n).parent).right = n)

/-- R54: the two children of an internal node sit in adjacent slots, both below their parent's. -/
def Tree.SiblingInv (t : Tree) : Prop :=
  ∀ n : Idx, (t.node n).kind = .int →
    let l := (t.node (t.node n).left).pos.toNat
    let r := (t.node (t.node n).right).pos.toNat
    (l + 1 = r ∨ r + 1 = l) ∧ l < (t.node n).pos.toNat ∧ r < (t.node n).pos.toNat

/-- R55: the escape leaf and the root. -/
structure Tree.EscRootInv (t : Tree) : Prop where
  escAllocated : t.esc < t.next
  escKind : ∀ n : Idx, (t.node n).kind = .esc ↔ n = t.esc
  escWeight : (t.node t.esc).weight = 0
  rootSlot : t.ordAt ROOT_SLOT = ROOT
  positive : ∀ n : Idx, n < t.next → n ≠ t.esc → 1 ≤ (t.node n).weight

/-- R56, with R27 and R34: the symbol table and the symbol leaves name each other. -/
structure Tree.SymbolInv (t : Tree) : Prop where
  seen : ∀ c : Byte, (t.symEntry c).seen = true →
    (t.node (t.symEntry c).leaf).kind = .sym ∧ (t.node (t.symEntry c).leaf).symv = c
  unseen : ∀ c : Byte, (t.symEntry c).seen = false → (t.symEntry c).leaf = NIL
  leaf : ∀ n : Idx, (t.node n).kind = .sym →
    (t.symEntry (t.node n).symv).seen = true ∧ (t.symEntry (t.node n).symv).leaf = n
  other : ∀ n : Idx, (t.node n).kind ≠ .sym → (t.node n).symv = 0

/-- The invariants of the tree state that the spec states, R50 to R56. Those of R57 follow from them. -/
structure Tree.SpecInv (t : Tree) : Prop where
  allocation : t.AllocationInv
  order : t.OrderInv
  sums : t.SumInv
  links : t.LinkInv
  siblings : t.SiblingInv
  escRoot : t.EscRootInv
  symbols : t.SymbolInv

/-- The invariant an observation keeps: R50 to R56, and that the parent of the escape leaf sits two slots above it. The
second is DEDUCED, not a rule of the spec: a split puts the parent there (R124) and no exchange moves it, and
without it R51 is not kept (log entry 9). -/
structure Tree.Inv (t : Tree) : Prop where
  spec : t.SpecInv
  escParent : t.esc ≠ ROOT → (t.node (t.node t.esc).parent).pos.toNat = (t.node t.esc).pos.toNat + 2

/-- The `k`-th ancestor of `n`, `n` itself for `k = 0`. -/
def Tree.ancestor (t : Tree) (n : Idx) : Nat → Idx
  | 0 => n
  | k + 1 => (t.node (t.ancestor n k)).parent

/-! ## The exchanges of an observation (R127, R130, R131) -/

/-- `PROPAGATE(q)`, started on tree `t`, makes `n` exchanges and leaves tree `u` (R127). At the root it adds 1 and ends.
At any other node a round exchanges `q` with its leader, but not where the leader is `q` itself or its parent (R131),
adds 1 to `q` (R130), and goes on at the parent `q` has then. -/
inductive Tree.Propagated : Tree → Idx → Nat → Tree → Prop where
  | root (t : Tree) : Propagated t ROOT 0 (t.bump ROOT)
  | keep {t u : Tree} {q : Idx} {n : Nat} : q ≠ ROOT → t.leader q = q ∨ t.leader q = (t.node q).parent →
      Propagated (t.bump q) ((t.bump q).node q).parent n u → Propagated t q n u
  | exchange {t u : Tree} {q : Idx} {n : Nat} : q ≠ ROOT → t.leader q ≠ q → t.leader q ≠ (t.node q).parent →
      Propagated ((t.swap q (t.leader q)).bump q) (((t.swap q (t.leader q)).bump q).node q).parent n u →
      Propagated t q (n + 1) u

/-! ## The register invariants (R6, R38 to R43, R46) -/

/-- R40: "The bits of `PK_BUF` above `PK_CNT - 1` are 0." -/
def Packer.Ok (p : Packer) : Prop := p.buf.toNat < 2 ^ p.cnt.toNat

/-- R42: `UP_CNT` is "at most 7 between commands". -/
def Unpacker.Ok (u : Unpacker) : Prop := u.cnt.toNat ≤ 7

/-- R39: `CODE_LEN` is 0 to 256, and "Entries at and above `CODE_LEN` read 0". -/
def Code.Ok (k : Code) : Prop :=
  k.len.toNat ≤ 256 ∧ ∀ i, k.len.toNat ≤ i → k.buf.getLsbD i = false

/-- R38: `W_ISSYM` and `W_SYM` read 0 whenever `W_RES = 0`, and `W_SYM` reads 0 when `W_ISSYM = 0`. -/
def Walker.Ok (w : Walker) : Prop :=
  (w.res = false → w.isSym = false) ∧ (w.isSym = false → w.sym = 0)

/-- R231, R46, R47: the record is empty exactly while `ERR = 0`. -/
def ErrRecord.Ok (r : ErrRecord) : Prop :=
  (r.err = true ↔ r.code ≠ .none) ∧ (r.err = false → r.cmd = 0)

/-- The register invariants of an engine. -/
structure Engine.RegsOk (g : Engine) : Prop where
  packer : g.packer.Ok
  unpacker : g.unpacker.Ok
  code : g.code.Ok
  walker : g.walker.Ok
  error : g.error.Ok

/-- The parameter is in its range and the root weight within it: "A weight never exceeds `WMAX`" (R6). -/
def Engine.WeightOk (g : Engine) : Prop :=
  1 ≤ g.weightBits ∧ g.weightBits ≤ 32 ∧ g.tree.rootWeight ≤ g.wmax

/-- A property of the engine, and of the engine a holding command started from. -/
def State.Everywhere (P : Engine → Prop) (s : State) : Prop :=
  P s.eng ∧ ∀ h, s.hold = some h → P h.start

/-! ## The bit streams (R86, R173, R176) -/

/-- The bits of a byte sequence in stream order, each byte's bit 7 first (R86). -/
def bytesBits (bs : List Byte) : List Bool := bs.flatMap literalBits

/-- The bits waiting in the packer, oldest first (R40). -/
def Packer.pending (p : Packer) : List Bool := bitsDown p.buf p.cnt.toNat

/-- The bits of the last byte fetched that are not yet consumed, next first (R42). -/
def Unpacker.unread (u : Unpacker) : List Bool := bitsDown u.buf u.cnt.toNat

/-- The bits the unpacker can still give from what the host has offered. -/
def State.inputBits (s : State) : List Bool := s.eng.unpacker.unread ++ bytesBits s.inBytes

/-- What `UP_BUF` holds once the input left is `inp`: the last byte fetched, or what it held if none was (R42). -/
def State.lastFetched (s : State) (inp : List Byte) : Byte :=
  (s.inBytes.take (s.inBytes.length - inp.length)).getLastD s.eng.unpacker.buf

/-- A list of bits as a number, first bit most significant. -/
def bitsValue (bits : List Bool) : Nat := bits.foldl (fun v b => 2 * v + b.toNat) 0

/-- Does the host take `n` more output bytes before `out_ready` falls (R82)? -/
def roomFor (room : Option Nat) (n : Nat) : Prop := ∀ k, room = some k → n ≤ k

/-- How many more bytes the host takes after `n` more. -/
def roomAfter (room : Option Nat) (n : Nat) : Option Nat := room.map (· - n)

/-! ## The wire format (44_sequencers.md R190, R200 to R202) -/

/-- The tree after observing the bytes of a list in turn. -/
def Tree.observeAll (t : Tree) (bs : List Byte) : Tree := bs.foldl (fun t b => (t.observe b).tree) t

/-- The sentinel collision of R201: a first occurrence of `0x00` that is not the first byte. -/
def sentinelCollision (bs : List Byte) : Prop := (0 : Byte) ∈ bs ∧ bs.head? ≠ some 0

/-! ## Failing (R233) -/

/-- The state after a failure with code `e` of the command word `w`: the error word in `RESULT` and in the response, the
first failure in the record, and nothing else (R232, R233). -/
def State.afterFailure (s : State) (e : ErrCode) (w : Cmd) : State :=
  { s with
    eng := { s.eng with
      result := 0x80000000#32 + BitVec.ofNat 32 e.number.toNat
      error := if s.eng.error.err then s.eng.error else { err := true, code := e, cmd := w } }
    hold := none
    responses := s.responses ++ [0x80000000#32 + BitVec.ofNat 32 e.number.toNat] }

/-! ## `rst` inside a command (R262) -/

/-- `t` is what `rst` inside a run makes of `s`, where `v` is the end the run would have had: the engine is reset,
nothing holds, there is no response, at most `ins` bytes have come off the input and at most `outs` have gone to the
output; they are the first that the run transfers, and all it transfers if there are no more. -/
structure State.Abandoned (s v t : State) (ins outs : Nat) : Prop where
  reset : ∃ inp out room, t = { s with
    eng := (State.resetWith s.eng.weightBits).eng, hold := none, eodMayFall := true
    inBytes := inp, outBytes := out, outRoom := room }
  input : ∃ bs, s.inBytes = bs ++ t.inBytes ∧ bs.length ≤ ins
  output : ∃ bs, t.outBytes = s.outBytes ++ bs ∧ bs.length ≤ outs ∧ t.outRoom = roomAfter s.outRoom bs.length
  firstIn : v.inBytes <:+ t.inBytes
  firstOut : t.outBytes <+: v.outBytes
  all : s.inBytes.length - v.inBytes.length ≤ ins → v.outBytes.length - s.outBytes.length ≤ outs →
    t.inBytes = v.inBytes ∧ t.outBytes = v.outBytes

/-! ## Sequences of commands (R90) -/

/-- Run a list of commands one after another, each of which has to complete: `none` if one holds or fails. -/
def execDone : List Instr → State → Option State
  | [], s => some s
  | i :: is, s =>
    match exec i s with
    | .next t => if t.hold.isNone && !t.eng.result.getLsbD 31 then execDone is t else none
    | .fault _ => none
    | .refused _ => none

/-- Run a list of commands one after another. It stops at the first outcome that is not a next state. -/
def execAll : List Instr → State → Host.Outcome State Fault Refusal
  | [], s => .next s
  | i :: is, s =>
    match exec i s with
    | .next t => execAll is t
    | .fault r => .fault r
    | .refused r => .refused r

end Sys2Proof.Machine
end

