-- ==== Sys2Proof/Certificates/Slice0/Obligations.lean ====
section
/-! DEFINITION. The statements for the provers. Each docstring names the rules of spec/ it formalises. A response or
register word is written as a number, field by field, so that a layout is stated and not repeated. -/

open Sys2Proof Sys2Proof.Machine

/-! ## Reset (10_state.md R59, 70_reset_and_hazards.md R260 to R262) -/

/-- R59: every piece of engine state after hardware reset, for every `WEIGHT_BITS`. -/
def Obligations.ResetGivesEveryRegisterItsValue : Prop :=
  ∀ w : Nat,
    let s := State.resetWith w
    s.eng.tree.node 0 = { weight := 0, kind := .esc, symv := 0, parent := NIL, side := .root, left := NIL,
                          right := NIL, pos := 512 } ∧
    (∀ n : Idx, n ≠ 0 → s.eng.tree.node n = { weight := 0, kind := .free, symv := 0, parent := NIL, side := .none,
                                               left := NIL, right := NIL, pos := NIL }) ∧
    s.eng.tree.ordAt 512 = 0 ∧ (∀ k : Idx, k ≠ 512 → s.eng.tree.ordAt k = NIL) ∧
    (∀ c : Byte, s.eng.tree.symEntry c = { seen := false, leaf := NIL }) ∧
    s.eng.tree.esc = 0 ∧ s.eng.tree.next = 1 ∧
    s.eng.walker = { cur := 0, res := false, isSym := false, sym := 0 } ∧
    s.eng.code = { buf := 0, len := 0 } ∧ s.eng.packer = { buf := 0, cnt := 0 } ∧
    s.eng.unpacker = { buf := 0, cnt := 0 } ∧ s.eng.decState = .await ∧ s.eng.termEn = false ∧
    s.eng.error = { err := false, code := .none, cmd := 0 } ∧ s.eng.result = 0 ∧
    s.busy = false ∧ s.waitIn = false ∧ s.waitOut = false

/-- R96, R260, R262: in every state, a hold among them, `rst` gives the reset state, produces no response, and leaves the
host's side of the streams as it is. Inside a command, whether it runs or holds, it does so once the command has made
some of its transfers, which stay made; with no command in progress that is a plain `rst`. (The move that says how many is the model's, log entry 12; `eodMayFall` is the
model's own field, log entry 6.) -/
def Obligations.HardwareResetAbandonsTheCommand : Prop :=
  (∀ (s : State) (rest : List HostMove), s.host = .rst :: rest →
    step s = .next { s with
      eng := (State.resetWith s.eng.weightBits).eng, hold := none, eodMayFall := true, host := rest }) ∧
  (∀ (s : State) (ins outs : Nat) (rest : List HostMove), s.hold = none → s.host = .rstWithin none ins outs :: rest →
    step s = .next { s with
      eng := (State.resetWith s.eng.weightBits).eng, eodMayFall := true, host := rest }) ∧
  (∀ (s : State) (w : Cmd) (ins outs : Nat) (rest : List HostMove),
    s.hold = none → s.host = .rstWithin (some w) ins outs :: rest →
    (∀ i v, decode w = .ok i → exec i { s with host := rest } = .next v →
      ∃ t, step s = .next t ∧ ({ s with host := rest } : State).Abandoned v t ins outs) ∧
    (∀ e, decode w = .error e → step s = .next { s with
      eng := (State.resetWith s.eng.weightBits).eng, eodMayFall := true, host := rest })) ∧
  ∀ (i : Instr) (s t v : State) (h : Hold) (bytes : List Byte) (eod : Bool) (room : Option Nat) (ins outs : Nat)
    (rest : List HostMove),
    s.hold = none → exec i s = .next t → t.hold = some h → (s.inEod = true → bytes = [] ∧ eod = true) →
    exec i { s with inBytes := s.inBytes ++ bytes, inEod := eod, outRoom := room.map (· + h.sent) } = .next v →
    let t' : State := { t with inBytes := t.inBytes ++ bytes, inEod := eod, outRoom := room, host := rest }
    ∃ u, step { t' with host := .rstWithin none ins outs :: rest } = .next u ∧ t'.Abandoned v u ins outs

/-- R261: `INIT 0x1F` leaves the engine as `rst` does, apart from `CTRL`, and `RESULT` is 0 after both. -/
def Obligations.SoftResetMatchesHardwareReset : Prop :=
  ∀ s : State, ∃ t, exec (.init 0x1F) s = .next t ∧
    t.eng = { s.hardwareReset.eng with termEn := s.eng.termEn } ∧ t.hold = none ∧ s.hardwareReset.hold = none ∧
    t.eng.result = 0 ∧ s.hardwareReset.eng.result = 0

/-- The reset state meets every invariant that a step keeps (R50 to R57, R38 to R43). The clause on the slot of the
escape leaf's parent is the model's own (log entry 9). -/
def Obligations.ResetStateMeetsTheInvariants : Prop :=
  ∀ w : Nat, 1 ≤ w → w ≤ 32 →
    (State.resetWith w).Everywhere fun g => g.tree.Inv ∧ g.WeightOk ∧ g.RegsOk

/-! ## Encoding (30_encoding.md) -/

/-- One command word of each family, written out from R103, decodes to its command. -/
def Obligations.SampleWordsDecode : Prop :=
  decode 0b0010000001000001#16 = .ok (.observe 0x41) ∧ decode 0b0110000100000001#16 = .ok (.wadv true) ∧
  decode 0b1000001000000101#16 = .ok (.putbits 3 5) ∧ decode 0b1011011100000000#16 = .ok (.getbits 8) ∧
  decode 0b1100000001000010#16 = .ok (.encb 0x42) ∧ decode 0b0001000000011111#16 = .ok (.init 0x1F) ∧
  decode 0b1111000000000010#16 = .error .reservedImm

/-- R100 to R103: encoding a well-formed command and decoding the word gives the command back, with every operand. -/
def Obligations.DecodeOfEncodeIsTheCommand : Prop :=
  ∀ i : Instr, i.wellFormed → decode (encode i) = .ok i

/-- R100 to R103: every legal word is the word of the command it decodes to, which is well-formed, so no word has a
bit its command does not keep. -/
def Obligations.EncodeOfDecodeIsTheWord : Prop :=
  ∀ (w : Cmd) (i : Instr), decode w = .ok i → encode i = w ∧ i.wellFormed

/-- R105: the decoder calls legal exactly the words the decoding procedure calls legal, and gives each the mnemonic of its
`OP` and `N`. -/
def Obligations.LegalWordsAreThoseOfTheProcedure : Prop :=
  ∀ (w : Cmd) (m : String),
    let op := w.toNat / 4096
    let n := w.toNat / 256 % 16
    let imm := w.toNat % 256
    (∃ i, decode w = .ok i ∧ i.mnemonic = m) ↔
      (op = 0x0 ∧ n = 0 ∧ imm = 0 ∧ m = "NOP") ∨
      (op = 0x1 ∧ n = 0 ∧ imm / 32 = 0 ∧ m = "INIT") ∨
      (n = 0 ∧ (op = 0x2 ∧ m = "OBSERVE" ∨ op = 0x3 ∧ m = "ISOBS" ∨ op = 0x4 ∧ m = "CODE" ∨ op = 0xC ∧ m = "ENCB")) ∨
      (n = 0 ∧ imm = 0 ∧ (op = 0x5 ∧ m = "ESCCODE" ∨ op = 0x9 ∧ m = "PUTCODE" ∨ op = 0xA ∧ m = "FLUSH" ∨
        op = 0xD ∧ m = "ENCEND" ∨ op = 0xE ∧ m = "DECSTEP")) ∨
      (op = 0x6 ∧ (n = 0 ∧ imm = 0 ∧ m = "WRESET" ∨ n = 1 ∧ imm / 2 = 0 ∧ m = "WADV")) ∨
      (op = 0x7 ∧ imm = 0 ∧ (n = 0 ∧ m = "ENCRUN" ∨ n = 1 ∧ m = "DECRUN")) ∨
      (op = 0x8 ∧ n / 8 = 0 ∧ m = "PUTBITS") ∨
      (op = 0xB ∧ n / 8 = 0 ∧ imm = 0 ∧ m = "GETBITS") ∨
      (op = 0xF ∧ n = 0 ∧ imm / 2 = 0 ∧ m = "SETCTRL")

/-- R104: a word is the command of a row exactly when `(w AND mask) = match`, and at most one row matches. -/
def Obligations.RowsMatchByMaskAndAreDisjoint : Prop :=
  (∀ (w : Cmd) (r : Row), r ∈ opcodeRows →
    (w &&& r.mask = r.fixed ↔ ∃ i, decode w = .ok i ∧ i.mnemonic = r.mnemonic)) ∧
  ∀ (w : Cmd) (r r' : Row), r ∈ opcodeRows → r' ∈ opcodeRows → w &&& r.mask = r.fixed → w &&& r'.mask = r'.fixed →
    r = r'

/-! ## The step (20_memory.md R79, R81 to R84, R98, R99) -/

/-- R79, R99: a step of an engine that is ready takes the host's next word, and runs the command the word decodes to
on a state whose only change is that the word is no longer offered. -/
def Obligations.StepRunsTheDecodedCommand : Prop :=
  ∀ (s : State) (w : Cmd) (rest : List HostMove) (i : Instr),
    s.hold = none → s.host = .command w :: rest → decode w = .ok i → step s = exec i { s with host := rest }

/-- R108: an ILLEGAL word fails with ILLEGAL. It changes no state but `RESULT` and, if `ERR = 0`, the error record; it
consumes no input and emits no output. -/
def Obligations.IllegalWordFailsWithoutEffect : Prop :=
  ∀ (s : State) (w : Cmd) (rest : List HostMove) (e : Illegal),
    s.hold = none → s.host = .command w :: rest → decode w = .error e →
    step s = .next (({ s with host := rest } : State).afterFailure .illegal w)

/-- R99, R247 and 93_implementation_defined.md U10: an engine that waits for the host keeps all state, and while it
holds the command port transfers nothing. The last two clauses are about moves that only the model has, DESIGN CHOICE of
log entry 12: `rstWithin` with a word, which like any word is not transferred while a command holds, and `wait`. That a
word not transferred stays offered is log entry 13. -/
def Obligations.WaitingEngineKeepsAllState : Prop :=
  ∀ s : State, (∀ h, s.hold = some h → s.lifted h = false) →
    (s.host = [] → step s = .next s) ∧
    (∀ w rest, s.host = .command w :: rest → s.hold.isSome → step s = .next s) ∧
    (∀ w ins outs rest, s.host = .rstWithin (some w) ins outs :: rest → s.hold.isSome → step s = .next s) ∧
    (∀ rest, s.host = .wait :: rest → step s = .next { s with host := rest })

/-- R98: "A command that holds and then resumes gives the same result as one run with all its input already offered."
`t` is the hold the command ends in; the host then offers bytes, raises `in_eod`, or takes output bytes, and does not
assert `rst` next. -/
def Obligations.ResumedCommandMatchesUninterruptedRun : Prop :=
  ∀ (i : Instr) (s t : State) (h : Hold) (bytes : List Byte) (eod : Bool) (room : Option Nat),
    s.hold = none → exec i s = .next t → t.hold = some h → (s.inEod = true → bytes = [] ∧ eod = true) →
    (∀ rest, s.host ≠ .rst :: rest) → (∀ ins outs rest, s.host ≠ .rstWithin none ins outs :: rest) →
    let t' : State := { t with inBytes := t.inBytes ++ bytes, inEod := eod, outRoom := room }
    t'.lifted h →
    step t' = exec i { s with
      inBytes := s.inBytes ++ bytes, inEod := eod, outRoom := room.map (· + h.sent) }

/-- R80 to R82, R96: a byte the host offers comes after those offered before, `in_eod` goes up, `out_ready` is what the
host says. R97 (b), 93_implementation_defined.md U9: a host that offers a byte after `in_eod`, or lowers `in_eod`
within a run, makes no move of the model; it may lower it once a new run has started. That raising `in_eod` is what ends
the leave to lower it, and that a holding command that reads input takes the leave away (R265) and no other does,
is the model's, log entry 6. -/
def Obligations.ContractBreachStopsByName : Prop :=
  ∀ (s : State) (rest : List HostMove), (∀ h, s.hold = some h → s.lifted h = false) →
    (∀ b, s.host = .offer b :: rest → s.inEod = false →
      step s = .next { s with host := rest, inBytes := s.inBytes ++ [b] }) ∧
    (∀ b, s.host = .offer b :: rest → s.inEod = true → step s = .fault .byteAfterEod) ∧
    (s.host = .raiseEod :: rest → step s = .next { s with host := rest, inEod := true, eodMayFall := false }) ∧
    (∀ room, s.host = .accept room :: rest → step s = .next { s with host := rest, outRoom := room }) ∧
    (s.host = .lowerEod :: rest → s.inEod = false → step s = .next { s with host := rest }) ∧
    (s.host = .lowerEod :: rest → s.inEod = true → s.eodMayFall = false → step s = .fault .eodLoweredInRun) ∧
    (s.host = .lowerEod :: rest → s.inEod = true → s.eodMayFall = true → s.hold = none →
      step s = .next { s with host := rest, inEod := false }) ∧
    (∀ h, s.host = .lowerEod :: rest → s.inEod = true → s.hold = some h →
      h.instr = .encrun ∨ h.instr = .decrun ∨ h.instr = .decstep ∨ (∃ n, h.instr = .getbits n) →
      step s = .fault .eodLoweredInRun) ∧
    (∀ h, s.host = .lowerEod :: rest → s.inEod = true → s.eodMayFall = true → s.hold = some h →
      h.instr ≠ .encrun → h.instr ≠ .decrun → h.instr ≠ .decstep → (∀ n, h.instr ≠ .getbits n) →
      step s = .next { s with host := rest, inEod := false })

/-- R83: a register read has no side effect on any engine state, nor on the streams, so it can be repeated with the same
result, wherever the result is defined (R84). -/
def Obligations.RegisterReadHasNoSideEffect : Prop :=
  ∀ (s : State) (a : BitVec 16) (rest : List HostMove), s.host = .read a :: rest →
    (∀ h, s.hold = some h → s.lifted h = false) →
    ∃ t, step s = .next t ∧ t.eng = s.eng ∧ t.hold = s.hold ∧ t.inBytes = s.inBytes ∧ t.inEod = s.inEod ∧
      t.outBytes = s.outBytes ∧ t.outRoom = s.outRoom ∧ t.responses = s.responses ∧
      t.reads = s.reads ++ [s.readPort a] ∧ ∀ b, s.busy = false ∨ b.toNat ≤ 3 → t.readPort b = s.readPort b

/-- R84: while `BUSY = 0` every read returns the state left by the last command; while `BUSY = 1` STATUS, ID, PARAM and
CTRL return their current values, and any other address an unspecified one. That one is the model's free value, which
nothing constrains (log entry 2). -/
def Obligations.BusyReadsDefineFourRegisters : Prop :=
  ∀ (s : State) (a : BitVec 16),
    (s.busy = false → s.readPort a = s.regWord a) ∧
    (a.toNat ≤ 3 → s.readPort a = s.regWord a) ∧
    (s.busy = true → 4 ≤ a.toNat → s.readPort a = Config.busyRead s.draws a)

/-! ## The register read map (10_state.md R37 to R47, 20_memory.md R73 to R78) -/

/-- R44, R48: the fields of STATUS, bit by bit, with the numbers of the error codes (R231) and of `DEC_STATE` (R43),
which the error words of the failing commands show too. BUSY is 1 exactly while a command holds, WAIT_IN while it holds
on the input (R81) and WAIT_OUT while it holds on the output (R82); the record of the holding command is the model's
(log entry 5). -/
def Obligations.StatusShowsItsFields : Prop :=
  (∀ s : State,
    s.status.getLsbD 0 = s.hold.isSome ∧ s.status.getLsbD 1 = s.eng.error.err ∧
    (s.status.getLsbD 2 = true ↔ ∃ h, s.hold = some h ∧ h.port = .input) ∧
    (s.status.getLsbD 3 = true ↔ ∃ h, s.hold = some h ∧ h.port = .output) ∧
    s.busy = s.status.getLsbD 0 ∧ s.waitIn = s.status.getLsbD 2 ∧ s.waitOut = s.status.getLsbD 3 ∧
    s.status.extractLsb' 4 2 = s.eng.decState.number ∧
    s.status.getLsbD 6 = s.inEod ∧ s.status.getLsbD 7 = decide (s.eng.tree.next = 513) ∧
    s.status.extractLsb' 8 4 = s.eng.error.code.number ∧ s.status.extractLsb' 12 20 = 0) ∧
  ErrCode.none.number = 0 ∧ ErrCode.illegal.number = 1 ∧ ErrCode.unobserved.number = 2 ∧
  ErrCode.walkAtLeaf.number = 3 ∧ ErrCode.weightOvf.number = 4 ∧
  DecState.await.number = 0 ∧ DecState.decoding.number = 1 ∧ DecState.done.number = 2

/-- R73 to R78: what each address of the register read map shows, as a number, that every other address reads 0, and the
numbers of KIND (R24) and SIDE (R25). Outside `WEIGHT_BITS` 1 to 32 what PARAM and the weight word of the NODE view show
is the model's (log entry 17). -/
def Obligations.RegisterMapShowsEachWord : Prop :=
  (Kind.free.number = 0 ∧ Kind.esc.number = 1 ∧ Kind.sym.number = 2 ∧ Kind.int.number = 3 ∧
    Side.left.number = 0 ∧ Side.right.number = 1 ∧ Side.root.number = 2 ∧ Side.none.number = 3) ∧
  ∀ s : State,
    s.regWord 0x0000 = 0x41480100 ∧
    s.regWord 0x0001 = BitVec.ofNat 32 (512 * 2 ^ 16 + s.eng.weightBits % 64) ∧
    s.regWord 0x0002 = s.status ∧
    s.regWord 0x0003 = BitVec.ofNat 32 s.eng.termEn.toNat ∧
    s.regWord 0x0004 = s.eng.result ∧
    s.regWord 0x0005 = BitVec.ofNat 32 s.eng.error.cmd.toNat ∧
    s.regWord 0x0006 = BitVec.ofNat 32 (s.eng.tree.next.toNat * 2 ^ 16 + s.eng.tree.esc.toNat) ∧
    s.regWord 0x0007 = BitVec.ofNat 32 (s.eng.walker.sym.toNat * 2 ^ 24 + s.eng.walker.isSym.toNat * 2 ^ 17 +
      s.eng.walker.res.toNat * 2 ^ 16 + s.eng.walker.cur.toNat) ∧
    s.regWord 0x0008 = BitVec.ofNat 32 (s.eng.packer.cnt.toNat * 2 ^ 8 + s.eng.packer.buf.toNat) ∧
    s.regWord 0x0009 = BitVec.ofNat 32 (s.eng.unpacker.cnt.toNat * 2 ^ 8 + s.eng.unpacker.buf.toNat) ∧
    s.regWord 0x000A = BitVec.ofNat 32 s.eng.code.len.toNat ∧
    (∀ k j : Nat, k < 8 → j < 32 →
      (s.regWord (BitVec.ofNat 16 (0x0010 + k))).getLsbD (31 - j) = s.eng.code.buf.getLsbD (32 * k + j)) ∧
    (∀ n : Nat, n ≤ 512 →
      let x := s.eng.tree.node (BitVec.ofNat 10 n)
      s.regWord (BitVec.ofNat 16 (0x1000 + 4 * n)) = BitVec.ofNat 32 x.weight ∧
      s.regWord (BitVec.ofNat 16 (0x1000 + 4 * n + 1)) = BitVec.ofNat 32 (x.symv.toNat * 2 ^ 24 +
        x.kind.number.toNat * 2 ^ 16 + x.side.number.toNat * 2 ^ 12 + x.parent.toNat) ∧
      s.regWord (BitVec.ofNat 16 (0x1000 + 4 * n + 2)) = BitVec.ofNat 32 (x.right.toNat * 2 ^ 16 + x.left.toNat) ∧
      s.regWord (BitVec.ofNat 16 (0x1000 + 4 * n + 3)) = BitVec.ofNat 32 x.pos.toNat) ∧
    (∀ k : Nat, k ≤ 512 →
      s.regWord (BitVec.ofNat 16 (0x2000 + k)) = BitVec.ofNat 32 (s.eng.tree.ordAt (BitVec.ofNat 10 k)).toNat) ∧
    (∀ c : Byte, s.regWord (BitVec.ofNat 16 (0x2400 + c.toNat)) =
      BitVec.ofNat 32 ((s.eng.tree.symEntry c).leaf.toNat * 2 ^ 16 + (s.eng.tree.symEntry c).seen.toNat)) ∧
    (∀ a : Nat, 0x000A < a → a < 0x10000 → ¬ (0x0010 ≤ a ∧ a ≤ 0x0017) → ¬ (0x1000 ≤ a ∧ a ≤ 0x1803) →
      ¬ (0x2000 ≤ a ∧ a ≤ 0x2200) → ¬ (0x2400 ≤ a ∧ a ≤ 0x24FF) → s.regWord (BitVec.ofNat 16 a) = 0)

/-- R246: the register port exposes every piece of engine state between commands: two idle machines that read alike at
every address have the same engine. -/
def Obligations.RegisterPortShowsTheWholeEngine : Prop :=
  ∀ s s' : State, s.busy = false → s'.busy = false → s.eng.weightBits ≤ 32 → s'.eng.weightBits ≤ 32 →
    (∀ n, (s.eng.tree.node n).weight < 2 ^ 32) → (∀ n, (s'.eng.tree.node n).weight < 2 ^ 32) →
    (∀ a, s.readPort a = s'.readPort a) → s.eng = s'.eng

/-! ## Control (45_control.md) -/

/-- R220: NOP. -/
def Obligations.NopOnlyAnswersZero : Prop :=
  encode .nop = 0x0000 ∧ ∀ s : State, exec .nop s = .next (s.respond s.eng 0)

/-- R221, R222: INIT re-initialises the parts its mask selects, and nothing else; its words with a bit above the mask set
are ILLEGAL. With bit 2 it starts a new run, after which the host may lower `in_eod` (R97 (b)); `eodMayFall`, the model's
own field, records it (log entry 6). -/
def Obligations.InitReinitialisesTheSelectedParts : Prop :=
  (∀ (mask : BitVec 5) (s : State),
    encode (.init mask) = 0x1000#16 + mask.setWidth 16 ∧
    exec (.init mask) s = .next
      (({ s with eodMayFall := s.eodMayFall || mask.getLsbD 2 } : State).respond
        { s.eng with
          tree := if mask.getLsbD 0 then (State.resetWith s.eng.weightBits).eng.tree else s.eng.tree
          walker := if mask.getLsbD 0 then { cur := 0, res := false, isSym := false, sym := 0 } else s.eng.walker
          code := if mask.getLsbD 0 then { buf := 0, len := 0 } else s.eng.code
          packer := if mask.getLsbD 1 then { buf := 0, cnt := 0 } else s.eng.packer
          unpacker := if mask.getLsbD 2 then { buf := 0, cnt := 0 } else s.eng.unpacker
          decState := if mask.getLsbD 3 then .await else s.eng.decState
          error := if mask.getLsbD 4 then { err := false, code := .none, cmd := 0 } else s.eng.error }
        0)) ∧
  ∀ w : Cmd, 0x1020 ≤ w.toNat → w.toNat < 0x2000 → ∃ e, decode w = .error e

/-- R224: SETCTRL writes `TERM_EN` and nothing else, and its words with a reserved bit set are ILLEGAL. -/
def Obligations.SetctrlWritesTermEn : Prop :=
  (∀ (v : Bool) (s : State), encode (.setctrl v) = 0xF000#16 + BitVec.ofNat 16 v.toNat ∧
    exec (.setctrl v) s = .next (s.respond { s.eng with termEn := v } 0)) ∧
  ∀ w : Cmd, 0xF002 ≤ w.toNat → ∃ e, decode w = .error e

/-- R41: "It is written only by SETCTRL … and by hardware reset." -/
def Obligations.OnlySetctrlWritesTermEn : Prop :=
  ∀ (i : Instr) (s t : State), exec i s = .next t → (∀ v, i ≠ .setctrl v) → t.eng.termEn = s.eng.termEn

/-! ## Walker (42_walker.md) -/

/-- R162: WRESET. -/
def Obligations.WresetReturnsTheCursor : Prop :=
  encode .wreset = 0x6000 ∧
  ∀ s : State, exec .wreset s = .next
    (s.respond { s.eng with walker := { cur := 0, res := false, isSym := false, sym := 0 } } 0)

/-- R163, R161: WADV from an internal node moves the cursor to the child the bit names and reports what it has reached;
from a leaf it fails and the cursor stays. -/
def Obligations.WadvMovesTheCursorOrFails : Prop :=
  ∀ (bit : Bool) (s : State),
    encode (.wadv bit) = 0x6100#16 + BitVec.ofNat 16 bit.toNat ∧
    let x := s.eng.tree.node s.eng.walker.cur
    let n := if bit then x.right else x.left
    let y := s.eng.tree.node n
    (x.kind = .int → exec (.wadv bit) s = .next
      (s.respond
        { s.eng with walker :=
            { cur := n
              res := decide (y.kind = .esc ∨ y.kind = .sym)
              isSym := decide (y.kind = .sym)
              sym := if y.kind = .sym then y.symv else 0 } }
        (BitVec.ofNat 32 (n.toNat * 2 ^ 16 + (if y.kind = .sym then y.symv.toNat else 0) * 2 ^ 8 +
          (if y.kind = .sym then 3 else if y.kind = .esc then 1 else 0))))) ∧
    (x.kind ≠ .int → exec (.wadv bit) s = .next
      (s.afterFailure .walkAtLeaf (0x6100#16 + BitVec.ofNat 16 bit.toNat)))

/-- R167: "Apart from these and WADV itself, no command changes `CUR`"; WRESET, INIT with bit 0, and OBSERVE and ENCB that
do not fail leave it at the root; and so does every command that ends with the tree changed. -/
def Obligations.CursorIsMovedOnlyByItsCommands : Prop :=
  ∀ (i : Instr) (s t : State), exec i s = .next t →
    (match i with
      | .observe _ | .encb _ | .encrun | .decstep | .decrun | .wreset | .wadv _ => True
      | .init mask => mask.getLsbD 0 = false → t.eng.walker = s.eng.walker
      | _ => t.eng.walker = s.eng.walker) ∧
    (match i with
      | .observe _ | .encb _ => t.hold = none → s.eng.tree.rootWeight ≠ 2 ^ s.eng.weightBits - 1 → t.eng.walker.cur = 0
      | .wreset => t.eng.walker.cur = 0
      | .init mask => mask.getLsbD 0 = true → t.eng.walker.cur = 0
      | _ => True) ∧
    (t.hold = none → t.eng.tree ≠ s.eng.tree → t.eng.walker.cur = 0)

/-- R166: with a tree that meets the invariants, feeding a leaf's path to the walker from the root, one WADV a bit,
resolves at that leaf, after as many commands as its depth. -/
def Obligations.WalkingAPathEndsAtItsLeaf : Prop :=
  ∀ (s : State) (n : Idx), s.eng.tree.Inv → n < s.eng.tree.next → (s.eng.tree.node n).kind ≠ .int → n ≠ ROOT →
    s.eng.walker = { cur := ROOT, res := false, isSym := false, sym := 0 } →
    ∃ t, execAll ((s.eng.tree.path n).map .wadv) s = .next t ∧ t.eng.tree = s.eng.tree ∧
      t.eng.walker.cur = n ∧ t.eng.walker.res = true ∧
      t.eng.walker.isSym = decide ((s.eng.tree.node n).kind = .sym) ∧
      t.eng.walker.sym = (s.eng.tree.node n).symv ∧ t.eng.error = s.eng.error

/-! ## Tree model (41_tree_model.md) -/

/-- R141: ISOBS. -/
def Obligations.IsobsReportsTheSymbolEntry : Prop :=
  ∀ (sym : Byte) (s : State),
    encode (.isobs sym) = 0x3000#16 + sym.setWidth 16 ∧
    exec (.isobs sym) s = .next (s.respond s.eng
      (BitVec.ofNat 32 ((s.eng.tree.symEntry sym).leaf.toNat * 2 ^ 16 + (s.eng.tree.symEntry sym).seen.toNat)))

/-- R142, R143, R138, R139: CODE of an observed symbol, and ESCCODE, put the path of the leaf in the code buffer, entry `i`
the `i`-th branch bit from the root and every further entry 0, and answer its length; CODE of an unobserved symbol
fails; the escape path is empty while the escape leaf is the root. -/
def Obligations.CodeAndEsccodeDeriveThePath : Prop :=
  ∀ (i : Instr) (sym : Byte) (s : State),
    (∀ n : Idx,
      i = .code sym ∧ (s.eng.tree.symEntry sym).seen = true ∧ n = (s.eng.tree.symEntry sym).leaf ∨
        i = .esccode ∧ n = s.eng.tree.esc →
      let p := s.eng.tree.path n
      ∃ k : Code, exec i s = .next (s.respond { s.eng with code := k } (BitVec.ofNat 32 p.length)) ∧
        k.len.toNat = p.length ∧ p.length ≤ 256 ∧ ∀ j, k.buf.getLsbD j = p.getD j false) ∧
    ((s.eng.tree.symEntry sym).seen = false →
      exec (.code sym) s = .next (s.afterFailure .unobserved (0x4000#16 + sym.setWidth 16))) ∧
    (s.eng.tree.esc = ROOT → s.eng.tree.path s.eng.tree.esc = [])

/-- R137, R138: in a tree that meets the invariants the path of a node is the branch bits of its ancestors, root to
leaf, with at most 256 of them (R57). -/
def Obligations.PathIsTheSidesOfTheAncestors : Prop :=
  ∀ (t : Tree) (n : Idx), t.Inv → n < t.next →
    let p := t.path n
    p.length ≤ 256 ∧ t.ancestor n p.length = ROOT ∧
    ∀ k, k < p.length → t.ancestor n k ≠ ROOT ∧
      p[p.length - 1 - k]? = some (decide ((t.node (t.ancestor n k)).side = .right))

/-- R124: what `SPLIT(c)` writes, and that it writes nothing else. -/
def Obligations.SplitReplacesTheEscapeLeaf : Prop :=
  ∀ (t : Tree) (c : Byte), t.SpecInv → (t.symEntry c).seen = false →
    let e := t.esc
    let s := (t.node e).pos
    let ns := t.next
    let ne := t.next + 1
    let t' := (t.split c).1
    (t.split c).2 = ns ∧ t'.next = t.next + 2 ∧ t'.esc = ne ∧
    t'.node e = { t.node e with kind := .int, left := ne, right := ns } ∧
    t'.node ns = { weight := 0, kind := .sym, symv := c, parent := e, side := .right, left := NIL, right := NIL, pos := s - 1 } ∧
    t'.node ne = { weight := 0, kind := .esc, symv := 0, parent := e, side := .left, left := NIL, right := NIL, pos := s - 2 } ∧
    (∀ n, n ≠ e → n ≠ ns → n ≠ ne → t'.node n = t.node n) ∧
    t'.ordAt (s - 1) = ns ∧ t'.ordAt (s - 2) = ne ∧ (∀ k, k ≠ s - 1 → k ≠ s - 2 → t'.ordAt k = t.ordAt k) ∧
    t'.symEntry c = { seen := true, leaf := ns } ∧ ∀ d, d ≠ c → t'.symEntry d = t.symEntry d

/-- R128: what `SWAP(a, b)` writes, for siblings and for nodes of different parents, and that it writes nothing else. -/
def Obligations.SwapExchangesTwoNodes : Prop :=
  ∀ (t : Tree) (a b : Idx),
    let pa := (t.node a).parent
    let pb := (t.node b).parent
    let sa := (t.node a).side
    let sb := (t.node b).side
    let qa := (t.node a).pos
    let qb := (t.node b).pos
    let t' := t.swap a b
    a.toNat < 513 → b.toNat < 513 → pa.toNat < 513 → pb.toNat < 513 → qa.toNat < 513 → qb.toNat < 513 →
    a ≠ b → pa ≠ a → pa ≠ b → pb ≠ a → pb ≠ b → qa ≠ qb →
    t'.node a = { t.node a with parent := pb, side := sb, pos := qb } ∧
    t'.node b = { t.node b with parent := pa, side := sa, pos := qa } ∧
    (∀ n, n ≠ a → n ≠ b → t'.node n = { t.node n with
      left := if n = pb ∧ sb = .left then a else if n = pa ∧ sa = .left then b else (t.node n).left
      right := if n = pb ∧ sb ≠ .left then a else if n = pa ∧ sa ≠ .left then b else (t.node n).right }) ∧
    t'.ordAt qa = b ∧ t'.ordAt qb = a ∧ (∀ k, k ≠ qa → k ≠ qb → t'.ordAt k = t.ordAt k) ∧
    t'.symtab = t.symtab ∧ t'.esc = t.esc ∧ t'.next = t.next

/-- R129: `LEADER(q)` is the node at the highest slot of the run of slots, starting at `POS[q]`, whose nodes all have
`q`'s weight. Where R50 to R56 hold it is `q` itself exactly when the node at the next higher slot is heavier, or `q` is
at slot 512, and no slot of the whole sequence above it has that weight. -/
def Obligations.LeaderIsTheTopOfTheRun : Prop :=
  ∀ (t : Tree) (q : Idx), (t.node q).pos.toNat ≤ 512 →
    ∃ s : Idx, t.leader q = t.ordAt s ∧ (t.node q).pos.toNat ≤ s.toNat ∧ s.toNat ≤ 512 ∧
      (∀ u : Idx, (t.node q).pos.toNat < u.toNat → u.toNat ≤ s.toNat → (t.node (t.ordAt u)).weight = (t.node q).weight) ∧
      (s.toNat < 512 → (t.node (t.ordAt (s + 1))).weight ≠ (t.node q).weight) ∧
      (t.SpecInv → q < t.next →
        (t.leader q = q ↔ (t.node q).pos = 512 ∨
          (t.node q).weight < (t.node (t.ordAt ((t.node q).pos + 1))).weight) ∧
        ∀ u : Idx, s.toNat < u.toNat → u.toNat ≤ 512 → (t.node (t.ordAt u)).weight ≠ (t.node q).weight)

/-- R130: an observation adds exactly 1 to exactly the nodes that are ancestors-or-self of the symbol's leaf once the
exchanges are done, root included, and R57: the root weight counts the observations. -/
def Obligations.ObserveAddsOneAlongThePath : Prop :=
  ∀ (t : Tree) (c : Byte), t.Inv →
    let o := t.observe c
    (∀ n : Idx, (∃ k, o.tree.ancestor o.leaf k = n ∧ n < o.tree.next) → (o.tree.node n).weight = (t.node n).weight + 1) ∧
    (∀ n : Idx, ¬ (∃ k, o.tree.ancestor o.leaf k = n ∧ n < o.tree.next) → (o.tree.node n).weight = (t.node n).weight) ∧
    o.tree.rootWeight = t.rootWeight + 1

/-- R140, R122, R134, R136: OBSERVE updates the tree, returns the cursor to the root, changes nothing else, and reports
`first`, the number of exchanges and the leaf; at `WEIGHT[ROOT] = WMAX` it fails. R120, R126, R127, R131: the tree, and the
number of exchanges, are those of `PROPAGATE` from the new symbol leaf after a split, or from the symbol's leaf; this
where the tree invariants hold, with the clause of log entry 9. -/
def Obligations.ObserveUpdatesTheTreeOrFails : Prop :=
  ∀ (sym : Byte) (s : State),
    encode (.observe sym) = 0x2000#16 + sym.setWidth 16 ∧
    let o := s.eng.tree.observe sym
    (s.eng.tree.rootWeight ≠ 2 ^ s.eng.weightBits - 1 →
      o.first = !(s.eng.tree.symEntry sym).seen ∧ o.leaf = (o.tree.symEntry sym).leaf ∧ o.swaps ≤ 256 ∧
      exec (.observe sym) s = .next (s.respond
        { s.eng with tree := o.tree, walker := { cur := 0, res := false, isSym := false, sym := 0 } }
        (BitVec.ofNat 32 (o.leaf.toNat * 2 ^ 16 + o.swaps * 2 ^ 4 + o.first.toNat)))) ∧
    (s.eng.tree.rootWeight = 2 ^ s.eng.weightBits - 1 →
      exec (.observe sym) s = .next (s.afterFailure .weightOvf (0x2000#16 + sym.setWidth 16))) ∧
    (s.eng.tree.Inv →
      ((s.eng.tree.symEntry sym).seen = false →
        (s.eng.tree.split sym).1.Propagated (s.eng.tree.split sym).2 o.swaps o.tree) ∧
      ((s.eng.tree.symEntry sym).seen = true →
        s.eng.tree.Propagated (s.eng.tree.symEntry sym).leaf o.swaps o.tree))

/-- R34: an entry of the symbol table goes from unobserved to observed once: no command but INIT with bit 0 takes it
back, or gives the symbol another leaf. -/
def Obligations.ObservedSymbolsStayObserved : Prop :=
  ∀ (i : Instr) (s t : State) (c : Byte), exec i s = .next t → (s.eng.tree.symEntry c).seen = true →
    (∀ mask, i = .init mask → mask.getLsbD 0 = false) → t.eng.tree.symEntry c = s.eng.tree.symEntry c

/-- R135, with R50 to R56: an observation keeps the invariants. The clause on the slot of the escape leaf's parent is
the model's own (log entry 9). -/
def Obligations.ObserveKeepsTheTreeInvariant : Prop :=
  ∀ (t : Tree) (c : Byte), t.Inv → (t.observe c).tree.Inv

/-- R135: after every `OBSERVE_CORE`, R50 to R57 hold again, from the initial tree and any sequence of bytes. -/
def Obligations.EveryObservedTreeMeetsTheInvariants : Prop :=
  ∀ bytes : List Byte,
    let t := Tree.initial.observeAll bytes
    t.SpecInv ∧ t.rootWeight = bytes.length ∧
    (∀ n, n < t.next → (t.path n).length ≤ 256 ∧ t.ancestor n (t.path n).length = ROOT) ∧
    ∀ a b, a < t.next → b < t.next → (t.node a).kind ≠ .int → (t.node b).kind ≠ .int → t.path a <+: t.path b → a = b

/-! ## Packer and unpacker (43_bit_io.md) -/

/-- R177, R173, R86: PUTBITS sends `value[count-1:0]`, most significant bit first: the bytes written and the bits then
pending are the bits pending before followed by the new ones. -/
def Obligations.PutbitsSendsItsBits : Prop :=
  ∀ (count : Nat) (value : Byte) (s : State), 1 ≤ count → count ≤ 8 →
    encode (.putbits count value) = BitVec.ofNat 16 (0x8000 + (count - 1) * 0x100 + value.toNat) ∧
    let n := (s.eng.packer.cnt.toNat + count) / 8
    roomFor s.outRoom n →
    ∃ (bytes : List Byte) (p : Packer),
      exec (.putbits count value) s = .next
        (({ s with outBytes := s.outBytes ++ bytes, outRoom := roomAfter s.outRoom n } : State).respond
          { s.eng with packer := p } (BitVec.ofNat 32 (n * 2 ^ 16 + count))) ∧
      bytes.length = n ∧ p.cnt.toNat = (s.eng.packer.cnt.toNat + count) % 8 ∧
      bytesBits bytes ++ p.pending = s.eng.packer.pending ++ bitsDown value count

/-- R178: PUTCODE sends the valid entries of the code buffer, and keeps the buffer. -/
def Obligations.PutcodeSendsTheCodeBuffer : Prop :=
  encode .putcode = 0x9000 ∧
  ∀ s : State,
    let len := s.eng.code.len.toNat
    let n := (s.eng.packer.cnt.toNat + len) / 8
    roomFor s.outRoom n →
    ∃ (bytes : List Byte) (p : Packer),
      exec .putcode s = .next
        (({ s with outBytes := s.outBytes ++ bytes, outRoom := roomAfter s.outRoom n } : State).respond
          { s.eng with packer := p } (BitVec.ofNat 32 (n * 2 ^ 16 + len))) ∧
      bytes.length = n ∧ p.cnt.toNat = (s.eng.packer.cnt.toNat + len) % 8 ∧
      bytesBits bytes ++ p.pending = s.eng.packer.pending ++ (List.range len).map fun i => s.eng.code.buf.getLsbD i

/-- R179, R172: FLUSH pads the pending bits with 0 bits and writes the byte, or does nothing with none pending. -/
def Obligations.FlushPadsThePendingBits : Prop :=
  encode .flush = 0xA000 ∧
  ∀ s : State,
    (s.eng.packer.cnt = 0 → exec .flush s = .next (s.respond s.eng 0)) ∧
    (s.eng.packer.cnt ≠ 0 → roomFor s.outRoom 1 →
      let pad := 8 - s.eng.packer.cnt.toNat
      ∃ b : Byte, exec .flush s = .next
        (({ s with outBytes := s.outBytes ++ [b], outRoom := roomAfter s.outRoom 1 } : State).respond
          { s.eng with packer := { buf := 0, cnt := 0 } } (BitVec.ofNat 32 (2 ^ 16 + pad))) ∧
        bytesBits [b] = s.eng.packer.pending ++ List.replicate pad false)

/-- R180, R176, R86, R235: with enough bits left, GETBITS takes the next `count`, most significant first, and leaves the
rest of the input for the next read; with too few and `in_eod` raised it takes all of them and reports the exhaustion in
`RESULT[16]`, which is no failure.
`UP_BUF` keeps the last byte fetched (R42). -/
def Obligations.GetbitsTakesTheNextBits : Prop :=
  ∀ (count : Nat) (s : State), 1 ≤ count → count ≤ 8 → s.eng.unpacker.Ok →
    encode (.getbits count) = BitVec.ofNat 16 (0xB000 + (count - 1) * 0x100) ∧
    (count ≤ s.inputBits.length →
      ∃ (u : Unpacker) (inp : List Byte),
        exec (.getbits count) s = .next
          (({ s with inBytes := inp } : State).respond { s.eng with unpacker := u }
            (BitVec.ofNat 32 (count * 2 ^ 8 + bitsValue (s.inputBits.take count)))) ∧
        u.Ok ∧ u.buf = s.lastFetched inp ∧ u.unread ++ bytesBits inp = s.inputBits.drop count) ∧
    (s.inputBits.length < count → s.inEod = true →
      ∃ u : Unpacker,
        exec (.getbits count) s = .next
          (({ s with inBytes := [] } : State).respond { s.eng with unpacker := u }
            (BitVec.ofNat 32 (2 ^ 16 + s.inputBits.length * 2 ^ 8 + bitsValue s.inputBits))) ∧
        u.cnt = 0 ∧ u.buf = s.inBytes.getLastD s.eng.unpacker.buf)

/-- R81, R48, 95_test_vectors.md B14: with too few bits left and `in_eod` low, GETBITS and DECSTEP hold on the input: every
byte offered is taken, nothing but the unpacker changes, and in DECODING the cursor, and there is no response. In
DECODING the cursor stands where the bits have led it, at the root once the escape leaf is resolved (R195). ENCRUN and
DECRUN are under EncrunIsEncbForEachByteThenEncend and DecrunIsDecstepUntilTheEnd.
`UP_BUF` keeps the last byte fetched (R42). -/
def Obligations.ShortInputHolds : Prop :=
  (∀ (i : Instr) (s : State) (want : Nat), s.eng.unpacker.Ok → s.inEod = false → s.inputBits.length < want → want ≤ 8 →
    (i = .getbits want ∨ want = 8 ∧ i = .decstep ∧ s.eng.decState = .await ∧
      s.eng.tree.rootWeight ≠ 2 ^ s.eng.weightBits - 1) →
    ∃ u : Unpacker, u.cnt = 0 ∧ u.buf = s.lastFetched [] ∧ exec i s = .next { s with
      eng := { s.eng with unpacker := u }
      inBytes := []
      hold := some { instr := i, port := .input, start := s.eng, taken := s.inBytes, sent := 0 } }) ∧
  ∀ s : State, s.eng.decState = .decoding → s.eng.tree.Inv → s.eng.tree.rootWeight ≠ 2 ^ s.eng.weightBits - 1 →
    s.eng.unpacker.Ok → s.inEod = false →
    ((∃ n, n < s.eng.tree.next ∧ s.inputBits <+: s.eng.tree.path n ∧ s.inputBits ≠ s.eng.tree.path n) ∨
      ∃ bits : List Bool, bits.length < 8 ∧ s.inputBits = s.eng.tree.path s.eng.tree.esc ++ bits) →
    ∃ (u : Unpacker) (n : Idx), u.cnt = 0 ∧ u.buf = s.lastFetched [] ∧ n < s.eng.tree.next ∧
      (s.eng.tree.path s.eng.tree.esc <+: s.inputBits → n = ROOT) ∧
      (¬ s.eng.tree.path s.eng.tree.esc <+: s.inputBits → s.eng.tree.path n = s.inputBits) ∧
      exec .decstep s = .next { s with
        eng := { s.eng with walker := { cur := n, res := false, isSym := false, sym := 0 }, unpacker := u }
        inBytes := []
        hold := some { instr := .decstep, port := .input, start := s.eng, taken := s.inBytes, sent := 0 } }

/-- R82, R171: a command that has more bytes to write than the host takes writes as many as it takes and holds on the
output: the bits sent so far are in those bytes and in the packer, there is no response, and nothing else changes but,
for ENCB and ENCEND's terminator, the code buffer, and for DECSTEP the unpacker, the input and, in DECODING, the cursor
(R195). `n` is the number of bytes the whole command writes. ENCRUN and DECRUN are under
EncrunIsEncbForEachByteThenEncend and DecrunIsDecstepUntilTheEnd.
`UP_BUF` keeps the last byte fetched (R42). -/
def Obligations.FullOutputHolds : Prop :=
  (∀ (i : Instr) (s : State) (r n : Nat) (bits : List Bool) (path : Option (List Bool)), s.outRoom = some r → r < n →
    let cnt := s.eng.packer.cnt.toNat
    ((∃ count value, count ≤ 8 ∧ i = .putbits count value ∧ bits = bitsDown value count ∧ path = none ∧
        n = (cnt + bits.length) / 8) ∨
      i = .putcode ∧ bits = ((List.range s.eng.code.len.toNat).map fun j => s.eng.code.buf.getLsbD j) ∧ path = none ∧
        n = (cnt + bits.length) / 8 ∨
      i = .flush ∧ bits = [] ∧ path = none ∧ n = (cnt + 7) / 8 ∨
      (∃ sym, i = .encb sym ∧ s.eng.tree.rootWeight ≠ 2 ^ s.eng.weightBits - 1 ∧
        (let seen := (s.eng.tree.symEntry sym).seen
          let p := s.eng.tree.path (if seen then (s.eng.tree.symEntry sym).leaf else s.eng.tree.esc)
          path = some p ∧ bits = p ++ if seen then [] else literalBits sym) ∧
        n = (cnt + bits.length) / 8) ∨
      i = .encend ∧
        (if s.eng.termEn = true ∧ s.eng.tree.rootWeight ≠ 0 then
          path = some (s.eng.tree.path s.eng.tree.esc) ∧ bits = s.eng.tree.path s.eng.tree.esc ++ List.replicate 8 false
        else path = none ∧ bits = []) ∧
        n = (cnt + bits.length + 7) / 8) →
    ∃ (bytes : List Byte) (p : Packer) (k : Code),
      exec i s = .next { s with
        eng := { s.eng with packer := p, code := k }
        outBytes := s.outBytes ++ bytes
        outRoom := some 0
        hold := some { instr := i, port := .output, start := s.eng, taken := [], sent := r } } ∧
      bytes.length = r ∧ bytesBits bytes ++ p.pending = (s.eng.packer.pending ++ bits).take (8 * r + 7) ∧
      (i = .flush → p = s.eng.packer) ∧ (path = none → k = s.eng.code) ∧
      ∀ q, path = some q → k.len.toNat = q.length ∧ ∀ j, k.buf.getLsbD j = q.getD j false) ∧
  ∀ (s : State) (v : Byte) (rest : List Bool), s.outRoom = some 0 → s.eng.unpacker.Ok →
    s.eng.tree.rootWeight ≠ 2 ^ s.eng.weightBits - 1 →
    (s.eng.decState = .await ∧ s.inputBits = literalBits v ++ rest ∨
      s.eng.decState = .decoding ∧ s.eng.tree.Inv ∧
        ((s.eng.tree.symEntry v).seen = true ∧ s.inputBits = s.eng.tree.path (s.eng.tree.symEntry v).leaf ++ rest ∨
          v ≠ 0 ∧ s.inputBits = s.eng.tree.path s.eng.tree.esc ++ literalBits v ++ rest)) →
    ∃ (u : Unpacker) (taken inp : List Byte),
      exec .decstep s = .next { s with
        eng := { s.eng with
          walker := if s.eng.decState = .await then s.eng.walker
            else { cur := 0, res := false, isSym := false, sym := 0 }
          unpacker := u }
        inBytes := inp
        hold := some { instr := .decstep, port := .output, start := s.eng, taken := taken, sent := 0 } } ∧
      s.inBytes = taken ++ inp ∧ u.Ok ∧ u.buf = s.lastFetched inp ∧ u.unread ++ bytesBits inp = rest

/-! ## Sequencers (44_sequencers.md) -/

/-- R191, R190, R133: ENCB sends the symbol's code, or the escape code and the 8 literal bits, then observes the byte;
it leaves the path it sent in the code buffer; at `WEIGHT[ROOT] = WMAX` it fails before anything is emitted. -/
def Obligations.EncbEmitsTheCodeAndObserves : Prop :=
  ∀ (sym : Byte) (s : State),
    encode (.encb sym) = 0xC000#16 + sym.setWidth 16 ∧
    (s.eng.tree.rootWeight ≠ 2 ^ s.eng.weightBits - 1 →
      let seen := (s.eng.tree.symEntry sym).seen
      let path := s.eng.tree.path (if seen then (s.eng.tree.symEntry sym).leaf else s.eng.tree.esc)
      let bits := path ++ if seen then [] else literalBits sym
      let n := (s.eng.packer.cnt.toNat + bits.length) / 8
      roomFor s.outRoom n →
      ∃ (bytes : List Byte) (p : Packer) (k : Code),
        exec (.encb sym) s = .next
          (({ s with outBytes := s.outBytes ++ bytes, outRoom := roomAfter s.outRoom n } : State).respond
            { s.eng with
              tree := (s.eng.tree.observe sym).tree
              walker := { cur := 0, res := false, isSym := false, sym := 0 }
              code := k
              packer := p }
            (BitVec.ofNat 32 (n * 2 ^ 16 + (if seen then 0 else 1) * 2 ^ 12 + bits.length))) ∧
        bytes.length = n ∧ p.cnt.toNat = (s.eng.packer.cnt.toNat + bits.length) % 8 ∧
        bytesBits bytes ++ p.pending = s.eng.packer.pending ++ bits ∧
        k.len.toNat = path.length ∧ ∀ i, k.buf.getLsbD i = path.getD i false) ∧
    (s.eng.tree.rootWeight = 2 ^ s.eng.weightBits - 1 →
      exec (.encb sym) s = .next (s.afterFailure .weightOvf (0xC000#16 + sym.setWidth 16)))

/-- R192, R193: ENCEND sends the terminator if `TERM_EN = 1` and something was observed, and pads and writes what is
pending; without the terminator it leaves the code buffer alone. -/
def Obligations.EncendTerminatesAndFlushes : Prop :=
  encode .encend = 0xD000 ∧
  ∀ s : State,
    let term := s.eng.termEn && s.eng.tree.rootWeight != 0
    let path := s.eng.tree.path s.eng.tree.esc
    let bits := if term then path ++ List.replicate 8 false else []
    let total := s.eng.packer.cnt.toNat + bits.length
    let n := (total + 7) / 8
    roomFor s.outRoom n →
    ∃ (bytes : List Byte) (p : Packer) (k : Code),
      exec .encend s = .next
        (({ s with outBytes := s.outBytes ++ bytes, outRoom := roomAfter s.outRoom n } : State).respond
          { s.eng with packer := p, code := k }
          (BitVec.ofNat 32 (n * 2 ^ 16 + term.toNat * 2 ^ 12 + bits.length))) ∧
      bytes.length = n ∧ p.cnt = 0 ∧
      bytesBits bytes = s.eng.packer.pending ++ bits ++ List.replicate (8 * n - total) false ∧
      (term = false → k = s.eng.code) ∧
      (term = true → k.len.toNat = path.length ∧ ∀ i, k.buf.getLsbD i = path.getD i false)

/-- R194, R195, R199: in AWAITING_FIRST_BYTE, 8 bits are the first byte, whatever its value.
`UP_BUF` keeps the last byte fetched (R42). -/
def Obligations.DecstepTakesTheFirstByteRaw : Prop :=
  ∀ (s : State) (v : Byte) (rest : List Bool), s.eng.decState = .await →
    s.eng.tree.rootWeight ≠ 2 ^ s.eng.weightBits - 1 → s.eng.unpacker.Ok → roomFor s.outRoom 1 →
    s.inputBits = literalBits v ++ rest →
    ∃ (u : Unpacker) (inp : List Byte),
      exec .decstep s = .next
        (({ s with inBytes := inp, outBytes := s.outBytes ++ [v], outRoom := roomAfter s.outRoom 1 } : State).respond
          { s.eng with
            tree := (s.eng.tree.observe v).tree
            walker := { cur := 0, res := false, isSym := false, sym := 0 }
            unpacker := u
            decState := .decoding }
          (BitVec.ofNat 32 v.toNat)) ∧
      u.Ok ∧ u.buf = s.lastFetched inp ∧ u.unread ++ bytesBits inp = rest

/-- R194, R195, R203: in DECODING, with a tree that meets the invariants, the code of a symbol decodes to the symbol, and
the escape code with a nonzero literal to the literal, seen before or not.
`UP_BUF` keeps the last byte fetched (R42). -/
def Obligations.DecstepDecodesACodeword : Prop :=
  ∀ (s : State) (v : Byte) (rest : List Bool), s.eng.decState = .decoding → s.eng.tree.Inv →
    s.eng.tree.rootWeight ≠ 2 ^ s.eng.weightBits - 1 → s.eng.unpacker.Ok → roomFor s.outRoom 1 →
    ((s.eng.tree.symEntry v).seen = true ∧ s.inputBits = s.eng.tree.path (s.eng.tree.symEntry v).leaf ++ rest ∨
      v ≠ 0 ∧ s.inputBits = s.eng.tree.path s.eng.tree.esc ++ literalBits v ++ rest) →
    ∃ (u : Unpacker) (inp : List Byte),
      exec .decstep s = .next
        (({ s with inBytes := inp, outBytes := s.outBytes ++ [v], outRoom := roomAfter s.outRoom 1 } : State).respond
          { s.eng with
            tree := (s.eng.tree.observe v).tree
            walker := { cur := 0, res := false, isSym := false, sym := 0 }
            unpacker := u }
          (BitVec.ofNat 32 v.toNat)) ∧
      u.Ok ∧ u.buf = s.lastFetched inp ∧ u.unread ++ bytesBits inp = rest

/-- R194, R195, R201: in DECODING, the escape code and the literal `0x00` are the sentinel: `DEC_STATE` becomes DONE and
nothing is written or observed.
`UP_BUF` keeps the last byte fetched (R42). -/
def Obligations.DecstepStopsAtTheSentinel : Prop :=
  ∀ (s : State) (rest : List Bool), s.eng.decState = .decoding → s.eng.tree.Inv →
    s.eng.tree.rootWeight ≠ 2 ^ s.eng.weightBits - 1 → s.eng.unpacker.Ok →
    s.inputBits = s.eng.tree.path s.eng.tree.esc ++ List.replicate 8 false ++ rest →
    ∃ (u : Unpacker) (inp : List Byte),
      exec .decstep s = .next
        (({ s with inBytes := inp } : State).respond
          { s.eng with
            walker := { cur := 0, res := false, isSym := false, sym := 0 }
            unpacker := u
            decState := .done }
          0x200) ∧
      u.Ok ∧ u.buf = s.lastFetched inp ∧ u.unread ++ bytesBits inp = rest

/-- R195, R133, R237: DECSTEP in DONE does nothing and says so, even at `WEIGHT[ROOT] = WMAX`; otherwise at `WMAX` it fails
before any bit is read; with `in_eod` raised, in AWAITING_FIRST_BYTE with fewer than 8 bits left it reports END_EXH and
`DEC_STATE` stays, and in DECODING with less left than a codeword it reports END_EXH and `DEC_STATE` becomes DONE.
`UP_BUF` keeps the last byte fetched (R42). -/
def Obligations.DecstepEndsWithoutAByte : Prop :=
  ∀ s : State,
    (s.eng.decState = .done → exec .decstep s = .next (s.respond s.eng 0x300)) ∧
    (s.eng.decState ≠ .done → s.eng.tree.rootWeight = 2 ^ s.eng.weightBits - 1 →
      exec .decstep s = .next (s.afterFailure .weightOvf 0xE000)) ∧
    (s.eng.decState = .await → s.eng.tree.rootWeight ≠ 2 ^ s.eng.weightBits - 1 → s.eng.unpacker.Ok →
      s.inputBits.length < 8 → s.inEod = true →
      ∃ u : Unpacker, u.cnt = 0 ∧ u.buf = s.lastFetched [] ∧
        exec .decstep s = .next (({ s with inBytes := [] } : State).respond { s.eng with unpacker := u } 0x100)) ∧
    (s.eng.decState = .decoding → s.eng.tree.Inv → s.eng.tree.rootWeight ≠ 2 ^ s.eng.weightBits - 1 → s.eng.unpacker.Ok →
      s.inEod = true →
      ((∃ n, n < s.eng.tree.next ∧ s.inputBits <+: s.eng.tree.path n ∧ s.inputBits ≠ s.eng.tree.path n) ∨
        ∃ bits : List Bool, bits.length < 8 ∧ s.inputBits = s.eng.tree.path s.eng.tree.esc ++ bits) →
      ∃ u : Unpacker, u.cnt = 0 ∧ u.buf = s.lastFetched [] ∧
        exec .decstep s = .next (({ s with inBytes := [] } : State).respond
          { s.eng with
            walker := { cur := 0, res := false, isSym := false, sym := 0 }
            unpacker := u
            decState := .done }
          0x100))

/-- R43: DONE "is left only by INIT bit 3 or hardware reset". -/
def Obligations.DoneIsLeftOnlyByInit : Prop :=
  ∀ (i : Instr) (s t : State), exec i s = .next t → s.eng.decState = .done →
    (∀ mask, i = .init mask → mask.getLsbD 3 = false) → t.eng.decState = .done

/-- R197, R190: a whole encode pass is one ENCB for each input byte and then ENCEND, with one response, the number of
bytes. At `WEIGHT[ROOT] = WMAX` it fails even if the input is exhausted (R237), and the bytes already encoded stay
encoded, with the byte that would overflow not taken (R233 (d)). It holds where ENCB or ENCEND holds, or for a byte. -/
def Obligations.EncrunIsEncbForEachByteThenEncend : Prop :=
  ∀ s : State,
    (s.eng.tree.Inv → s.inEod = true → s.outRoom = none →
      s.eng.tree.rootWeight + s.inBytes.length < 2 ^ s.eng.weightBits - 1 →
      ∃ u : State, execAll (s.inBytes.map .encb ++ [.encend]) { s with inBytes := [] } = .next u ∧
        exec .encrun s = .next (({ s with inBytes := [], outBytes := u.outBytes } : State).respond u.eng
          (BitVec.ofNat 32 (min s.inBytes.length 0x7FFFFFFF)))) ∧
    (s.eng.tree.Inv → s.outRoom = none → s.eng.tree.rootWeight ≤ 2 ^ s.eng.weightBits - 1 →
      2 ^ s.eng.weightBits - 1 ≤ s.eng.tree.rootWeight + s.inBytes.length →
      let k := 2 ^ s.eng.weightBits - 1 - s.eng.tree.rootWeight
      ∃ v : State, execAll ((s.inBytes.take k).map .encb) { s with inBytes := [] } = .next v ∧
        exec .encrun s = .next (({ s with eng := v.eng, inBytes := s.inBytes.drop k, outBytes := v.outBytes } :
          State).afterFailure .weightOvf 0x7000)) ∧
    (s.eng.tree.rootWeight = 2 ^ s.eng.weightBits - 1 →
      exec .encrun s = .next (s.afterFailure .weightOvf 0x7000)) ∧
    ∀ (k : Nat) (v : State), execDone ((s.inBytes.take k).map .encb) { s with inBytes := [] } = some v →
      let held (t : State) (p : Port) (inp : List Byte) : State := { s with
        eng := { t.eng with result := s.eng.result }
        inBytes := inp
        outBytes := t.outBytes
        outRoom := t.outRoom
        hold := some
          { instr := .encrun, port := p, start := s.eng, taken := s.inBytes.take (s.inBytes.length - inp.length)
            sent := t.outBytes.length - s.outBytes.length } }
      (v.eng.tree.rootWeight = 2 ^ v.eng.weightBits - 1 →
        exec .encrun s = .next (({ s with
          eng := v.eng, inBytes := s.inBytes.drop k, outBytes := v.outBytes, outRoom := v.outRoom } :
            State).afterFailure .weightOvf 0x7000)) ∧
      (v.eng.tree.rootWeight ≠ 2 ^ v.eng.weightBits - 1 →
        (∀ c t, s.inBytes[k]? = some c → exec (.encb c) v = .next t → t.hold ≠ none →
          exec .encrun s = .next (held t .output (s.inBytes.drop (k + 1)))) ∧
        (s.inBytes.length ≤ k → s.inEod = false → exec .encrun s = .next (held v .input [])) ∧
        (∀ t, s.inBytes.length ≤ k → s.inEod = true → exec .encend v = .next t →
          (t.hold ≠ none → exec .encrun s = .next (held t .output [])) ∧
          (t.hold = none →
            exec .encrun s = .next (({ s with inBytes := [], outBytes := t.outBytes, outRoom := t.outRoom } : State).respond
              t.eng (BitVec.ofNat 32 (min s.inBytes.length 0x7FFFFFFF))))))

/-- R198: a whole decode pass is DECSTEP until an outcome other than BYTE, with one response, the number of bytes written;
in DONE it does nothing and answers 0, and otherwise at `WEIGHT[ROOT] = WMAX` it fails (R237), and the bytes already
decoded stay decoded (R233 (d)). It holds where the DECSTEP holds. `v` is the state after the first `k` bytes, and `u`
the one after the DECSTEP that follows. -/
def Obligations.DecrunIsDecstepUntilTheEnd : Prop :=
  ∀ s : State,
    (s.eng.tree.Inv → s.eng.unpacker.Ok → s.inEod = true → s.outRoom = none →
      s.eng.tree.rootWeight + s.inputBits.length < 2 ^ s.eng.weightBits - 1 →
      ∃ (bytes : List Byte) (u : State),
        execAll (List.replicate (bytes.length + 1) .decstep) s = .next u ∧ u.eng.result.extractLsb' 8 2 ≠ 0 ∧
        u.outBytes = s.outBytes ++ bytes ∧
        exec .decrun s = .next (({ s with inBytes := u.inBytes, outBytes := u.outBytes } : State).respond u.eng
          (BitVec.ofNat 32 (min bytes.length 0x7FFFFFFF)))) ∧
    (s.eng.decState = .done → exec .decrun s = .next (s.respond s.eng 0)) ∧
    (s.eng.decState ≠ .done → s.eng.tree.rootWeight = 2 ^ s.eng.weightBits - 1 →
      exec .decrun s = .next (s.afterFailure .weightOvf 0x7100)) ∧
    ∀ (k : Nat) (v u : State), s.eng.tree.Inv → s.eng.tree.rootWeight ≤ 2 ^ s.eng.weightBits - 1 →
      execDone (List.replicate k .decstep) s = some v → v.outBytes.length = s.outBytes.length + k →
      exec .decstep v = .next u →
      (v.eng.decState ≠ .done → v.eng.tree.rootWeight = 2 ^ v.eng.weightBits - 1 →
        exec .decrun s = .next (({ s with
          eng := v.eng, inBytes := v.inBytes, outBytes := v.outBytes, outRoom := v.outRoom } :
            State).afterFailure .weightOvf 0x7100)) ∧
      (u.hold = none → u.eng.result.getLsbD 31 = false → u.eng.result.extractLsb' 8 2 ≠ 0 →
        exec .decrun s = .next (({ s with inBytes := u.inBytes, outBytes := u.outBytes, outRoom := u.outRoom } :
          State).respond u.eng (BitVec.ofNat 32 (min k 0x7FFFFFFF)))) ∧
      ∀ h, u.hold = some h →
        exec .decrun s = .next { s with
          eng := { u.eng with result := s.eng.result }
          inBytes := u.inBytes
          outBytes := u.outBytes
          outRoom := u.outRoom
          hold := some
            { instr := .decrun, port := h.port, start := s.eng
              taken := s.inBytes.take (s.inBytes.length - u.inBytes.length), sent := k } }

/-- R200: a decoder that reads what ENCB and ENCEND wrote is in lockstep with the encoder: after its `k`-th byte, that
byte is the encoder's `k`-th, and its tree is the encoder's after its `k`-th ENCB, as long as no byte so far is a first
occurrence of `0x00` after the first byte.The host takes every byte, as the model's reset state has it (log entry 3). -/
def Obligations.DecoderKeepsStepWithTheEncoder : Prop :=
  ∀ (w : Nat) (term : Bool) (bytes : List Byte) (k : Nat), 1 ≤ w → w ≤ 32 → bytes.length ≤ 2 ^ w - 1 →
    k ≤ bytes.length → ¬ sentinelCollision (bytes.take k) →
    let s := State.resetWith w
    let enc : State := { s with eng := { s.eng with termEn := term } }
    ∃ t v u, execAll (bytes.map .encb ++ [.encend]) enc = .next t ∧
      execAll ((bytes.take k).map .encb) enc = .next v ∧
      execAll (List.replicate k .decstep) { s with inBytes := t.outBytes, inEod := true } = .next u ∧
      u.outBytes = bytes.take k ∧ u.eng.tree = v.eng.tree

/-- R202: with `TERM_EN = 1`, decoding what ENCRUN wrote gives the input back, for every input without a first
occurrence of `0x00` after its first byte; with `TERM_EN = 0` it does not for `41 42 43`. The input is shorter than `WMAX`,
where ENCRUN would fail (R133, R197), and the host takes every byte; that, and the default `WEIGHT_BITS` of the example,
are the model's reset values (log entry 3). -/
def Obligations.TerminatedStreamsRoundTrip : Prop :=
  (∀ (w : Nat) (bytes : List Byte), 1 ≤ w → w ≤ 32 → bytes.length < 2 ^ w - 1 → ¬ sentinelCollision bytes →
    let s := State.resetWith w
    ∃ t u, exec .encrun { s with eng := { s.eng with termEn := true }, inBytes := bytes, inEod := true } = .next t ∧
      exec .decrun { s with inBytes := t.outBytes, inEod := true } = .next u ∧ u.outBytes = bytes) ∧
  ∃ t u, exec .encrun { State.reset with inBytes := [0x41, 0x42, 0x43], inEod := true } = .next t ∧
    t.outBytes = [0x41, 0x21, 0x08, 0x60] ∧
    exec .decrun { State.reset with inBytes := t.outBytes, inEod := true } = .next u ∧
    u.outBytes = [0x41, 0x42, 0x43, 0x41, 0x41]

/-! ## Failures and responses (60_exceptions.md, 10_state.md R45, R46) -/

/-- R46, R234: the record keeps the first failure until INIT bit 4 clears it: no later command changes it, and no illegal
word does; while it is clear an illegal word, and a command that answers an error word, write it. -/
def Obligations.ErrorRecordKeepsTheFirstFailure : Prop :=
  (∀ (i : Instr) (s t : State), exec i s = .next t → (∀ mask, i = .init mask → mask.getLsbD 4 = false) →
    (s.eng.error.err = true → t.eng.error = s.eng.error) ∧
    (s.eng.error.err = false → t.hold = none → t.eng.result.getLsbD 31 = true →
      t.eng.error.err = true ∧ t.eng.error.cmd = encode i ∧
        t.eng.result = 0x80000000#32 + BitVec.ofNat 32 t.eng.error.code.number.toNat)) ∧
  ∀ (w : Cmd) (e : Illegal) (s t : State), decode w = .error e → acceptWord w s = .next t →
    (s.eng.error.err = true → t.eng.error = s.eng.error) ∧
    (s.eng.error.err = false → t.eng.error = { err := true, code := .illegal, cmd := w })

/-- R45, R232, R79: a command that ends writes one response, in `RESULT` and on `rsp_data`; bit 31 is 1 in it only in the
three error words a command can answer (ILLEGAL is an illegal word's, IllegalWordFailsWithoutEffect). One that holds
writes none. -/
def Obligations.EveryEndedCommandAnswersOnce : Prop :=
  ∀ (i : Instr) (s : State), ∃ t, exec i s = .next t ∧
    (t.hold = none → t.responses = s.responses ++ [t.eng.result] ∧
      (t.eng.result.getLsbD 31 = false ∨ t.eng.result = 0x80000002 ∨ t.eng.result = 0x80000003 ∨
        t.eng.result = 0x80000004)) ∧
    (t.hold ≠ none → t.responses = s.responses ∧ t.eng.result = s.eng.result)

/-- R71, R72, R228: the tree state is written only by the commands that observe a byte and by INIT with bit 0; only
GETBITS, DECSTEP, ENCRUN and DECRUN take input bytes; only PUTBITS, PUTCODE, FLUSH, ENCB, ENCEND, DECSTEP, ENCRUN and
DECRUN write output bytes (log entry 10). -/
def Obligations.TreeAndStreamsMoveOnlyByTheirCommands : Prop :=
  ∀ (i : Instr) (s t : State), exec i s = .next t →
    (match i with
      | .observe _ | .encb _ | .encrun | .decstep | .decrun => True
      | .init mask => mask.getLsbD 0 = false → t.eng.tree = s.eng.tree
      | _ => t.eng.tree = s.eng.tree) ∧
    (match i with
      | .getbits _ | .decstep | .encrun | .decrun => True
      | _ => t.inBytes = s.inBytes) ∧
    (match i with
      | .putbits _ _ | .putcode | .flush | .encb _ | .encend | .decstep | .encrun | .decrun => True
      | _ => t.outBytes = s.outBytes ∧ t.outRoom = s.outRoom)

/-! ## What every step keeps -/

/-- R38 to R42, R46: the register invariants, of the engine and of the engine a holding command started from. -/
def Obligations.StepKeepsTheRegisterInvariants : Prop :=
  ∀ s t : State, s.Everywhere Engine.RegsOk → step s = .next t → t.Everywhere Engine.RegsOk

/-- R50 to R57 and R6: the tree invariants and the bound of the root weight. The clause on the slot of the escape leaf's
parent is the model's own (log entry 9). -/
def Obligations.StepKeepsTheTreeInvariants : Prop :=
  ∀ s t : State, (s.Everywhere fun g => g.tree.Inv ∧ g.WeightOk) → step s = .next t →
    t.Everywhere fun g => g.tree.Inv ∧ g.WeightOk
end

