-- ==== Sys2Proof/Laws/State.lean ====
section
/-! SUPPORT. One equation for each field of each update, true by `rfl`, so that no proof unfolds a record update. -/

namespace Sys2Proof.Machine

/-! ## The state when a command ends -/

@[simp] theorem State.respond_eng (s : State) (g : Engine) (r : Word) :
    (s.respond g r).eng = { g with result := r } := rfl
@[simp] theorem State.respond_hold (s : State) (g : Engine) (r : Word) :
    (s.respond g r).hold = none := rfl
@[simp] theorem State.respond_inBytes (s : State) (g : Engine) (r : Word) :
    (s.respond g r).inBytes = s.inBytes := rfl
@[simp] theorem State.respond_inEod (s : State) (g : Engine) (r : Word) :
    (s.respond g r).inEod = s.inEod := rfl
@[simp] theorem State.respond_eodMayFall (s : State) (g : Engine) (r : Word) :
    (s.respond g r).eodMayFall = s.eodMayFall := rfl
@[simp] theorem State.respond_outBytes (s : State) (g : Engine) (r : Word) :
    (s.respond g r).outBytes = s.outBytes := rfl
@[simp] theorem State.respond_outRoom (s : State) (g : Engine) (r : Word) :
    (s.respond g r).outRoom = s.outRoom := rfl
@[simp] theorem State.respond_responses (s : State) (g : Engine) (r : Word) :
    (s.respond g r).responses = s.responses ++ [r] := rfl
@[simp] theorem State.respond_reads (s : State) (g : Engine) (r : Word) :
    (s.respond g r).reads = s.reads := rfl
@[simp] theorem State.respond_draws (s : State) (g : Engine) (r : Word) :
    (s.respond g r).draws = s.draws := rfl
@[simp] theorem State.respond_host (s : State) (g : Engine) (r : Word) :
    (s.respond g r).host = s.host := rfl

@[simp] theorem State.withStreams_eng (s : State) (c : Ctx) :
    (s.withStreams c).eng = s.eng := rfl
@[simp] theorem State.withStreams_hold (s : State) (c : Ctx) :
    (s.withStreams c).hold = s.hold := rfl
@[simp] theorem State.withStreams_inBytes (s : State) (c : Ctx) :
    (s.withStreams c).inBytes = c.inp := rfl
@[simp] theorem State.withStreams_inEod (s : State) (c : Ctx) :
    (s.withStreams c).inEod = s.inEod := rfl
@[simp] theorem State.withStreams_eodMayFall (s : State) (c : Ctx) :
    (s.withStreams c).eodMayFall = s.eodMayFall := rfl
@[simp] theorem State.withStreams_outBytes (s : State) (c : Ctx) :
    (s.withStreams c).outBytes = s.outBytes ++ c.sent := rfl
@[simp] theorem State.withStreams_outRoom (s : State) (c : Ctx) :
    (s.withStreams c).outRoom = c.room := rfl
@[simp] theorem State.withStreams_responses (s : State) (c : Ctx) :
    (s.withStreams c).responses = s.responses := rfl
@[simp] theorem State.withStreams_reads (s : State) (c : Ctx) :
    (s.withStreams c).reads = s.reads := rfl
@[simp] theorem State.withStreams_draws (s : State) (c : Ctx) :
    (s.withStreams c).draws = s.draws := rfl
@[simp] theorem State.withStreams_host (s : State) (c : Ctx) :
    (s.withStreams c).host = s.host := rfl

@[simp] theorem State.complete_eng (s : State) (r : Word) (c : Ctx) :
    (s.complete r c).eng = { c.eng with result := r } := rfl
@[simp] theorem State.complete_hold (s : State) (r : Word) (c : Ctx) :
    (s.complete r c).hold = none := rfl
@[simp] theorem State.complete_inBytes (s : State) (r : Word) (c : Ctx) :
    (s.complete r c).inBytes = c.inp := rfl
@[simp] theorem State.complete_inEod (s : State) (r : Word) (c : Ctx) :
    (s.complete r c).inEod = s.inEod := rfl
@[simp] theorem State.complete_eodMayFall (s : State) (r : Word) (c : Ctx) :
    (s.complete r c).eodMayFall = s.eodMayFall := rfl
@[simp] theorem State.complete_outBytes (s : State) (r : Word) (c : Ctx) :
    (s.complete r c).outBytes = s.outBytes ++ c.sent := rfl
@[simp] theorem State.complete_outRoom (s : State) (r : Word) (c : Ctx) :
    (s.complete r c).outRoom = c.room := rfl
@[simp] theorem State.complete_responses (s : State) (r : Word) (c : Ctx) :
    (s.complete r c).responses = s.responses ++ [r] := rfl
@[simp] theorem State.complete_reads (s : State) (r : Word) (c : Ctx) :
    (s.complete r c).reads = s.reads := rfl
@[simp] theorem State.complete_draws (s : State) (r : Word) (c : Ctx) :
    (s.complete r c).draws = s.draws := rfl
@[simp] theorem State.complete_host (s : State) (r : Word) (c : Ctx) :
    (s.complete r c).host = s.host := rfl

@[simp] theorem State.failWith_eng (s : State) (e : ErrCode) (w : Cmd) (c : Ctx) :
    (s.failWith e w c).eng = { c.eng with result := errorWord e, error := c.eng.error.record e w } := rfl
@[simp] theorem State.failWith_hold (s : State) (e : ErrCode) (w : Cmd) (c : Ctx) :
    (s.failWith e w c).hold = none := rfl
@[simp] theorem State.failWith_inBytes (s : State) (e : ErrCode) (w : Cmd) (c : Ctx) :
    (s.failWith e w c).inBytes = c.inp := rfl
@[simp] theorem State.failWith_inEod (s : State) (e : ErrCode) (w : Cmd) (c : Ctx) :
    (s.failWith e w c).inEod = s.inEod := rfl
@[simp] theorem State.failWith_eodMayFall (s : State) (e : ErrCode) (w : Cmd) (c : Ctx) :
    (s.failWith e w c).eodMayFall = s.eodMayFall := rfl
@[simp] theorem State.failWith_outBytes (s : State) (e : ErrCode) (w : Cmd) (c : Ctx) :
    (s.failWith e w c).outBytes = s.outBytes ++ c.sent := rfl
@[simp] theorem State.failWith_outRoom (s : State) (e : ErrCode) (w : Cmd) (c : Ctx) :
    (s.failWith e w c).outRoom = c.room := rfl
@[simp] theorem State.failWith_responses (s : State) (e : ErrCode) (w : Cmd) (c : Ctx) :
    (s.failWith e w c).responses = s.responses ++ [errorWord e] := rfl
@[simp] theorem State.failWith_reads (s : State) (e : ErrCode) (w : Cmd) (c : Ctx) :
    (s.failWith e w c).reads = s.reads := rfl
@[simp] theorem State.failWith_draws (s : State) (e : ErrCode) (w : Cmd) (c : Ctx) :
    (s.failWith e w c).draws = s.draws := rfl
@[simp] theorem State.failWith_host (s : State) (e : ErrCode) (w : Cmd) (c : Ctx) :
    (s.failWith e w c).host = s.host := rfl

@[simp] theorem State.waitOn_eng (s : State) (i : Instr) (p : Port) (c : Ctx) :
    (s.waitOn i p c).eng = c.eng := rfl
@[simp] theorem State.waitOn_hold (s : State) (i : Instr) (p : Port) (c : Ctx) :
    (s.waitOn i p c).hold = some { instr := i, port := p, start := s.eng, taken := c.taken, sent := c.sent.length } := rfl
@[simp] theorem State.waitOn_inBytes (s : State) (i : Instr) (p : Port) (c : Ctx) :
    (s.waitOn i p c).inBytes = c.inp := rfl
@[simp] theorem State.waitOn_inEod (s : State) (i : Instr) (p : Port) (c : Ctx) :
    (s.waitOn i p c).inEod = s.inEod := rfl
@[simp] theorem State.waitOn_eodMayFall (s : State) (i : Instr) (p : Port) (c : Ctx) :
    (s.waitOn i p c).eodMayFall = s.eodMayFall := rfl
@[simp] theorem State.waitOn_outBytes (s : State) (i : Instr) (p : Port) (c : Ctx) :
    (s.waitOn i p c).outBytes = s.outBytes ++ c.sent := rfl
@[simp] theorem State.waitOn_outRoom (s : State) (i : Instr) (p : Port) (c : Ctx) :
    (s.waitOn i p c).outRoom = c.room := rfl
@[simp] theorem State.waitOn_responses (s : State) (i : Instr) (p : Port) (c : Ctx) :
    (s.waitOn i p c).responses = s.responses := rfl
@[simp] theorem State.waitOn_reads (s : State) (i : Instr) (p : Port) (c : Ctx) :
    (s.waitOn i p c).reads = s.reads := rfl
@[simp] theorem State.waitOn_draws (s : State) (i : Instr) (p : Port) (c : Ctx) :
    (s.waitOn i p c).draws = s.draws := rfl
@[simp] theorem State.waitOn_host (s : State) (i : Instr) (p : Port) (c : Ctx) :
    (s.waitOn i p c).host = s.host := rfl

@[simp] theorem State.noteNewRun_eng (s : State) (b : Bool) :
    (s.noteNewRun b).eng = s.eng := rfl
@[simp] theorem State.noteNewRun_hold (s : State) (b : Bool) :
    (s.noteNewRun b).hold = s.hold := rfl
@[simp] theorem State.noteNewRun_inBytes (s : State) (b : Bool) :
    (s.noteNewRun b).inBytes = s.inBytes := rfl
@[simp] theorem State.noteNewRun_inEod (s : State) (b : Bool) :
    (s.noteNewRun b).inEod = s.inEod := rfl
@[simp] theorem State.noteNewRun_eodMayFall (s : State) (b : Bool) :
    (s.noteNewRun b).eodMayFall = (s.eodMayFall || b) := rfl
@[simp] theorem State.noteNewRun_outBytes (s : State) (b : Bool) :
    (s.noteNewRun b).outBytes = s.outBytes := rfl
@[simp] theorem State.noteNewRun_outRoom (s : State) (b : Bool) :
    (s.noteNewRun b).outRoom = s.outRoom := rfl
@[simp] theorem State.noteNewRun_responses (s : State) (b : Bool) :
    (s.noteNewRun b).responses = s.responses := rfl
@[simp] theorem State.noteNewRun_reads (s : State) (b : Bool) :
    (s.noteNewRun b).reads = s.reads := rfl
@[simp] theorem State.noteNewRun_draws (s : State) (b : Bool) :
    (s.noteNewRun b).draws = s.draws := rfl
@[simp] theorem State.noteNewRun_host (s : State) (b : Bool) :
    (s.noteNewRun b).host = s.host := rfl

@[simp] theorem State.hardwareReset_eng (s : State) :
    (s.hardwareReset).eng = s.eng.hardwareReset := rfl
@[simp] theorem State.hardwareReset_hold (s : State) :
    (s.hardwareReset).hold = none := rfl
@[simp] theorem State.hardwareReset_inBytes (s : State) :
    (s.hardwareReset).inBytes = s.inBytes := rfl
@[simp] theorem State.hardwareReset_inEod (s : State) :
    (s.hardwareReset).inEod = s.inEod := rfl
@[simp] theorem State.hardwareReset_eodMayFall (s : State) :
    (s.hardwareReset).eodMayFall = true := rfl
@[simp] theorem State.hardwareReset_outBytes (s : State) :
    (s.hardwareReset).outBytes = s.outBytes := rfl
@[simp] theorem State.hardwareReset_outRoom (s : State) :
    (s.hardwareReset).outRoom = s.outRoom := rfl
@[simp] theorem State.hardwareReset_responses (s : State) :
    (s.hardwareReset).responses = s.responses := rfl
@[simp] theorem State.hardwareReset_reads (s : State) :
    (s.hardwareReset).reads = s.reads := rfl
@[simp] theorem State.hardwareReset_draws (s : State) :
    (s.hardwareReset).draws = s.draws := rfl
@[simp] theorem State.hardwareReset_host (s : State) :
    (s.hardwareReset).host = s.host := rfl

@[simp] theorem State.rewind_eng (s : State) (h : Hold) :
    (s.rewind h).eng = h.start := rfl
@[simp] theorem State.rewind_hold (s : State) (h : Hold) :
    (s.rewind h).hold = none := rfl
@[simp] theorem State.rewind_inBytes (s : State) (h : Hold) :
    (s.rewind h).inBytes = h.taken ++ s.inBytes := rfl
@[simp] theorem State.rewind_inEod (s : State) (h : Hold) :
    (s.rewind h).inEod = s.inEod := rfl
@[simp] theorem State.rewind_eodMayFall (s : State) (h : Hold) :
    (s.rewind h).eodMayFall = s.eodMayFall := rfl
@[simp] theorem State.rewind_outBytes (s : State) (h : Hold) :
    (s.rewind h).outBytes = s.outBytes.take (s.outBytes.length - h.sent) := rfl
@[simp] theorem State.rewind_outRoom (s : State) (h : Hold) :
    (s.rewind h).outRoom = s.outRoom.map (· + h.sent) := rfl
@[simp] theorem State.rewind_responses (s : State) (h : Hold) :
    (s.rewind h).responses = s.responses := rfl
@[simp] theorem State.rewind_reads (s : State) (h : Hold) :
    (s.rewind h).reads = s.reads := rfl
@[simp] theorem State.rewind_draws (s : State) (h : Hold) :
    (s.rewind h).draws = s.draws := rfl
@[simp] theorem State.rewind_host (s : State) (h : Hold) :
    (s.rewind h).host = s.host := rfl

@[simp] theorem State.limit_eng (s : State) (ins outs : Nat) :
    (s.limit ins outs).eng = s.eng := rfl
@[simp] theorem State.limit_hold (s : State) (ins outs : Nat) :
    (s.limit ins outs).hold = s.hold := rfl
@[simp] theorem State.limit_inBytes (s : State) (ins outs : Nat) :
    (s.limit ins outs).inBytes = s.inBytes.take ins := rfl
@[simp] theorem State.limit_inEod (s : State) (ins outs : Nat) :
    (s.limit ins outs).inEod = (s.inEod && decide (s.inBytes.length ≤ ins)) := rfl
@[simp] theorem State.limit_eodMayFall (s : State) (ins outs : Nat) :
    (s.limit ins outs).eodMayFall = s.eodMayFall := rfl
@[simp] theorem State.limit_outBytes (s : State) (ins outs : Nat) :
    (s.limit ins outs).outBytes = s.outBytes := rfl
@[simp] theorem State.limit_outRoom (s : State) (ins outs : Nat) :
    (s.limit ins outs).outRoom = some (match s.outRoom with | none => outs | some k => min k outs) := rfl
@[simp] theorem State.limit_responses (s : State) (ins outs : Nat) :
    (s.limit ins outs).responses = s.responses := rfl
@[simp] theorem State.limit_reads (s : State) (ins outs : Nat) :
    (s.limit ins outs).reads = s.reads := rfl
@[simp] theorem State.limit_draws (s : State) (ins outs : Nat) :
    (s.limit ins outs).draws = s.draws := rfl
@[simp] theorem State.limit_host (s : State) (ins outs : Nat) :
    (s.limit ins outs).host = s.host := rfl

@[simp] theorem State.withWord_eng (s : State) (w : Cmd) :
    (s.withWord w).eng = s.eng := rfl
@[simp] theorem State.withWord_hold (s : State) (w : Cmd) :
    (s.withWord w).hold = none := rfl
@[simp] theorem State.withWord_inBytes (s : State) (w : Cmd) :
    (s.withWord w).inBytes = s.inBytes := rfl
@[simp] theorem State.withWord_inEod (s : State) (w : Cmd) :
    (s.withWord w).inEod = s.inEod := rfl
@[simp] theorem State.withWord_eodMayFall (s : State) (w : Cmd) :
    (s.withWord w).eodMayFall = s.eodMayFall := rfl
@[simp] theorem State.withWord_outBytes (s : State) (w : Cmd) :
    (s.withWord w).outBytes = s.outBytes := rfl
@[simp] theorem State.withWord_outRoom (s : State) (w : Cmd) :
    (s.withWord w).outRoom = s.outRoom := rfl
@[simp] theorem State.withWord_responses (s : State) (w : Cmd) :
    (s.withWord w).responses = s.responses := rfl
@[simp] theorem State.withWord_reads (s : State) (w : Cmd) :
    (s.withWord w).reads = s.reads := rfl
@[simp] theorem State.withWord_draws (s : State) (w : Cmd) :
    (s.withWord w).draws = s.draws := rfl
@[simp] theorem State.withWord_host (s : State) (w : Cmd) :
    (s.withWord w).host = .command w :: s.host := rfl

@[simp] theorem State.readRegister_eng (a : BitVec 16) (s : State) :
    (readRegister a s).eng = s.eng := rfl
@[simp] theorem State.readRegister_hold (a : BitVec 16) (s : State) :
    (readRegister a s).hold = s.hold := rfl
@[simp] theorem State.readRegister_inBytes (a : BitVec 16) (s : State) :
    (readRegister a s).inBytes = s.inBytes := rfl
@[simp] theorem State.readRegister_inEod (a : BitVec 16) (s : State) :
    (readRegister a s).inEod = s.inEod := rfl
@[simp] theorem State.readRegister_eodMayFall (a : BitVec 16) (s : State) :
    (readRegister a s).eodMayFall = s.eodMayFall := rfl
@[simp] theorem State.readRegister_outBytes (a : BitVec 16) (s : State) :
    (readRegister a s).outBytes = s.outBytes := rfl
@[simp] theorem State.readRegister_outRoom (a : BitVec 16) (s : State) :
    (readRegister a s).outRoom = s.outRoom := rfl
@[simp] theorem State.readRegister_responses (a : BitVec 16) (s : State) :
    (readRegister a s).responses = s.responses := rfl
@[simp] theorem State.readRegister_reads (a : BitVec 16) (s : State) :
    (readRegister a s).reads = s.reads ++ [s.readPort a] := rfl
@[simp] theorem State.readRegister_draws (a : BitVec 16) (s : State) :
    (readRegister a s).draws = if s.readsOpen a then s.draws + 1 else s.draws := rfl
@[simp] theorem State.readRegister_host (a : BitVec 16) (s : State) :
    (readRegister a s).host = s.host := rfl

/-! ## What a command starts from -/

@[simp] theorem State.ctx_eng (s : State) :
    s.ctx.eng = s.eng := rfl
@[simp] theorem State.ctx_inp (s : State) :
    s.ctx.inp = s.inBytes := rfl
@[simp] theorem State.ctx_eod (s : State) :
    s.ctx.eod = s.inEod := rfl
@[simp] theorem State.ctx_room (s : State) :
    s.ctx.room = s.outRoom := rfl
@[simp] theorem State.ctx_taken (s : State) :
    s.ctx.taken = [] := rfl
@[simp] theorem State.ctx_sent (s : State) :
    s.ctx.sent = [] := rfl

/-! ## How a run settles -/

@[simp] theorem State.settle_done (s : State) (i : Instr) (r : Word) (c : Ctx) :
    s.settle i (.done r c) = s.complete r c := rfl
@[simp] theorem State.settle_fail (s : State) (i : Instr) (e : ErrCode) (c : Ctx) :
    s.settle i (.fail e c) = s.failWith e (encode i) c := rfl
@[simp] theorem State.settle_wait (s : State) (i : Instr) (p : Port) (c : Ctx) :
    s.settle i (.wait p c) = s.waitOn i p c := rfl

/-! ## Updates of one part of the engine -/

@[simp] theorem Ctx.setTree_weightBits (c : Ctx) (t : Tree) :
    (c.setTree t).eng.weightBits = c.eng.weightBits := rfl
@[simp] theorem Ctx.setTree_tree (c : Ctx) (t : Tree) :
    (c.setTree t).eng.tree = t := rfl
@[simp] theorem Ctx.setTree_walker (c : Ctx) (t : Tree) :
    (c.setTree t).eng.walker = c.eng.walker := rfl
@[simp] theorem Ctx.setTree_code (c : Ctx) (t : Tree) :
    (c.setTree t).eng.code = c.eng.code := rfl
@[simp] theorem Ctx.setTree_packer (c : Ctx) (t : Tree) :
    (c.setTree t).eng.packer = c.eng.packer := rfl
@[simp] theorem Ctx.setTree_unpacker (c : Ctx) (t : Tree) :
    (c.setTree t).eng.unpacker = c.eng.unpacker := rfl
@[simp] theorem Ctx.setTree_termEn (c : Ctx) (t : Tree) :
    (c.setTree t).eng.termEn = c.eng.termEn := rfl
@[simp] theorem Ctx.setTree_decState (c : Ctx) (t : Tree) :
    (c.setTree t).eng.decState = c.eng.decState := rfl
@[simp] theorem Ctx.setTree_error (c : Ctx) (t : Tree) :
    (c.setTree t).eng.error = c.eng.error := rfl
@[simp] theorem Ctx.setTree_result (c : Ctx) (t : Tree) :
    (c.setTree t).eng.result = c.eng.result := rfl
@[simp] theorem Ctx.setTree_inp (c : Ctx) (t : Tree) :
    (c.setTree t).inp = c.inp := rfl
@[simp] theorem Ctx.setTree_eod (c : Ctx) (t : Tree) :
    (c.setTree t).eod = c.eod := rfl
@[simp] theorem Ctx.setTree_room (c : Ctx) (t : Tree) :
    (c.setTree t).room = c.room := rfl
@[simp] theorem Ctx.setTree_taken (c : Ctx) (t : Tree) :
    (c.setTree t).taken = c.taken := rfl
@[simp] theorem Ctx.setTree_sent (c : Ctx) (t : Tree) :
    (c.setTree t).sent = c.sent := rfl

@[simp] theorem Ctx.setWalker_weightBits (c : Ctx) (w : Walker) :
    (c.setWalker w).eng.weightBits = c.eng.weightBits := rfl
@[simp] theorem Ctx.setWalker_tree (c : Ctx) (w : Walker) :
    (c.setWalker w).eng.tree = c.eng.tree := rfl
@[simp] theorem Ctx.setWalker_walker (c : Ctx) (w : Walker) :
    (c.setWalker w).eng.walker = w := rfl
@[simp] theorem Ctx.setWalker_code (c : Ctx) (w : Walker) :
    (c.setWalker w).eng.code = c.eng.code := rfl
@[simp] theorem Ctx.setWalker_packer (c : Ctx) (w : Walker) :
    (c.setWalker w).eng.packer = c.eng.packer := rfl
@[simp] theorem Ctx.setWalker_unpacker (c : Ctx) (w : Walker) :
    (c.setWalker w).eng.unpacker = c.eng.unpacker := rfl
@[simp] theorem Ctx.setWalker_termEn (c : Ctx) (w : Walker) :
    (c.setWalker w).eng.termEn = c.eng.termEn := rfl
@[simp] theorem Ctx.setWalker_decState (c : Ctx) (w : Walker) :
    (c.setWalker w).eng.decState = c.eng.decState := rfl
@[simp] theorem Ctx.setWalker_error (c : Ctx) (w : Walker) :
    (c.setWalker w).eng.error = c.eng.error := rfl
@[simp] theorem Ctx.setWalker_result (c : Ctx) (w : Walker) :
    (c.setWalker w).eng.result = c.eng.result := rfl
@[simp] theorem Ctx.setWalker_inp (c : Ctx) (w : Walker) :
    (c.setWalker w).inp = c.inp := rfl
@[simp] theorem Ctx.setWalker_eod (c : Ctx) (w : Walker) :
    (c.setWalker w).eod = c.eod := rfl
@[simp] theorem Ctx.setWalker_room (c : Ctx) (w : Walker) :
    (c.setWalker w).room = c.room := rfl
@[simp] theorem Ctx.setWalker_taken (c : Ctx) (w : Walker) :
    (c.setWalker w).taken = c.taken := rfl
@[simp] theorem Ctx.setWalker_sent (c : Ctx) (w : Walker) :
    (c.setWalker w).sent = c.sent := rfl

@[simp] theorem Ctx.setCode_weightBits (c : Ctx) (k : Code) :
    (c.setCode k).eng.weightBits = c.eng.weightBits := rfl
@[simp] theorem Ctx.setCode_tree (c : Ctx) (k : Code) :
    (c.setCode k).eng.tree = c.eng.tree := rfl
@[simp] theorem Ctx.setCode_walker (c : Ctx) (k : Code) :
    (c.setCode k).eng.walker = c.eng.walker := rfl
@[simp] theorem Ctx.setCode_code (c : Ctx) (k : Code) :
    (c.setCode k).eng.code = k := rfl
@[simp] theorem Ctx.setCode_packer (c : Ctx) (k : Code) :
    (c.setCode k).eng.packer = c.eng.packer := rfl
@[simp] theorem Ctx.setCode_unpacker (c : Ctx) (k : Code) :
    (c.setCode k).eng.unpacker = c.eng.unpacker := rfl
@[simp] theorem Ctx.setCode_termEn (c : Ctx) (k : Code) :
    (c.setCode k).eng.termEn = c.eng.termEn := rfl
@[simp] theorem Ctx.setCode_decState (c : Ctx) (k : Code) :
    (c.setCode k).eng.decState = c.eng.decState := rfl
@[simp] theorem Ctx.setCode_error (c : Ctx) (k : Code) :
    (c.setCode k).eng.error = c.eng.error := rfl
@[simp] theorem Ctx.setCode_result (c : Ctx) (k : Code) :
    (c.setCode k).eng.result = c.eng.result := rfl
@[simp] theorem Ctx.setCode_inp (c : Ctx) (k : Code) :
    (c.setCode k).inp = c.inp := rfl
@[simp] theorem Ctx.setCode_eod (c : Ctx) (k : Code) :
    (c.setCode k).eod = c.eod := rfl
@[simp] theorem Ctx.setCode_room (c : Ctx) (k : Code) :
    (c.setCode k).room = c.room := rfl
@[simp] theorem Ctx.setCode_taken (c : Ctx) (k : Code) :
    (c.setCode k).taken = c.taken := rfl
@[simp] theorem Ctx.setCode_sent (c : Ctx) (k : Code) :
    (c.setCode k).sent = c.sent := rfl

@[simp] theorem Ctx.setPacker_weightBits (c : Ctx) (p : Packer) :
    (c.setPacker p).eng.weightBits = c.eng.weightBits := rfl
@[simp] theorem Ctx.setPacker_tree (c : Ctx) (p : Packer) :
    (c.setPacker p).eng.tree = c.eng.tree := rfl
@[simp] theorem Ctx.setPacker_walker (c : Ctx) (p : Packer) :
    (c.setPacker p).eng.walker = c.eng.walker := rfl
@[simp] theorem Ctx.setPacker_code (c : Ctx) (p : Packer) :
    (c.setPacker p).eng.code = c.eng.code := rfl
@[simp] theorem Ctx.setPacker_packer (c : Ctx) (p : Packer) :
    (c.setPacker p).eng.packer = p := rfl
@[simp] theorem Ctx.setPacker_unpacker (c : Ctx) (p : Packer) :
    (c.setPacker p).eng.unpacker = c.eng.unpacker := rfl
@[simp] theorem Ctx.setPacker_termEn (c : Ctx) (p : Packer) :
    (c.setPacker p).eng.termEn = c.eng.termEn := rfl
@[simp] theorem Ctx.setPacker_decState (c : Ctx) (p : Packer) :
    (c.setPacker p).eng.decState = c.eng.decState := rfl
@[simp] theorem Ctx.setPacker_error (c : Ctx) (p : Packer) :
    (c.setPacker p).eng.error = c.eng.error := rfl
@[simp] theorem Ctx.setPacker_result (c : Ctx) (p : Packer) :
    (c.setPacker p).eng.result = c.eng.result := rfl
@[simp] theorem Ctx.setPacker_inp (c : Ctx) (p : Packer) :
    (c.setPacker p).inp = c.inp := rfl
@[simp] theorem Ctx.setPacker_eod (c : Ctx) (p : Packer) :
    (c.setPacker p).eod = c.eod := rfl
@[simp] theorem Ctx.setPacker_room (c : Ctx) (p : Packer) :
    (c.setPacker p).room = c.room := rfl
@[simp] theorem Ctx.setPacker_taken (c : Ctx) (p : Packer) :
    (c.setPacker p).taken = c.taken := rfl
@[simp] theorem Ctx.setPacker_sent (c : Ctx) (p : Packer) :
    (c.setPacker p).sent = c.sent := rfl

@[simp] theorem Ctx.setUnpacker_weightBits (c : Ctx) (u : Unpacker) :
    (c.setUnpacker u).eng.weightBits = c.eng.weightBits := rfl
@[simp] theorem Ctx.setUnpacker_tree (c : Ctx) (u : Unpacker) :
    (c.setUnpacker u).eng.tree = c.eng.tree := rfl
@[simp] theorem Ctx.setUnpacker_walker (c : Ctx) (u : Unpacker) :
    (c.setUnpacker u).eng.walker = c.eng.walker := rfl
@[simp] theorem Ctx.setUnpacker_code (c : Ctx) (u : Unpacker) :
    (c.setUnpacker u).eng.code = c.eng.code := rfl
@[simp] theorem Ctx.setUnpacker_packer (c : Ctx) (u : Unpacker) :
    (c.setUnpacker u).eng.packer = c.eng.packer := rfl
@[simp] theorem Ctx.setUnpacker_unpacker (c : Ctx) (u : Unpacker) :
    (c.setUnpacker u).eng.unpacker = u := rfl
@[simp] theorem Ctx.setUnpacker_termEn (c : Ctx) (u : Unpacker) :
    (c.setUnpacker u).eng.termEn = c.eng.termEn := rfl
@[simp] theorem Ctx.setUnpacker_decState (c : Ctx) (u : Unpacker) :
    (c.setUnpacker u).eng.decState = c.eng.decState := rfl
@[simp] theorem Ctx.setUnpacker_error (c : Ctx) (u : Unpacker) :
    (c.setUnpacker u).eng.error = c.eng.error := rfl
@[simp] theorem Ctx.setUnpacker_result (c : Ctx) (u : Unpacker) :
    (c.setUnpacker u).eng.result = c.eng.result := rfl
@[simp] theorem Ctx.setUnpacker_inp (c : Ctx) (u : Unpacker) :
    (c.setUnpacker u).inp = c.inp := rfl
@[simp] theorem Ctx.setUnpacker_eod (c : Ctx) (u : Unpacker) :
    (c.setUnpacker u).eod = c.eod := rfl
@[simp] theorem Ctx.setUnpacker_room (c : Ctx) (u : Unpacker) :
    (c.setUnpacker u).room = c.room := rfl
@[simp] theorem Ctx.setUnpacker_taken (c : Ctx) (u : Unpacker) :
    (c.setUnpacker u).taken = c.taken := rfl
@[simp] theorem Ctx.setUnpacker_sent (c : Ctx) (u : Unpacker) :
    (c.setUnpacker u).sent = c.sent := rfl

@[simp] theorem Ctx.setDecState_weightBits (c : Ctx) (d : DecState) :
    (c.setDecState d).eng.weightBits = c.eng.weightBits := rfl
@[simp] theorem Ctx.setDecState_tree (c : Ctx) (d : DecState) :
    (c.setDecState d).eng.tree = c.eng.tree := rfl
@[simp] theorem Ctx.setDecState_walker (c : Ctx) (d : DecState) :
    (c.setDecState d).eng.walker = c.eng.walker := rfl
@[simp] theorem Ctx.setDecState_code (c : Ctx) (d : DecState) :
    (c.setDecState d).eng.code = c.eng.code := rfl
@[simp] theorem Ctx.setDecState_packer (c : Ctx) (d : DecState) :
    (c.setDecState d).eng.packer = c.eng.packer := rfl
@[simp] theorem Ctx.setDecState_unpacker (c : Ctx) (d : DecState) :
    (c.setDecState d).eng.unpacker = c.eng.unpacker := rfl
@[simp] theorem Ctx.setDecState_termEn (c : Ctx) (d : DecState) :
    (c.setDecState d).eng.termEn = c.eng.termEn := rfl
@[simp] theorem Ctx.setDecState_decState (c : Ctx) (d : DecState) :
    (c.setDecState d).eng.decState = d := rfl
@[simp] theorem Ctx.setDecState_error (c : Ctx) (d : DecState) :
    (c.setDecState d).eng.error = c.eng.error := rfl
@[simp] theorem Ctx.setDecState_result (c : Ctx) (d : DecState) :
    (c.setDecState d).eng.result = c.eng.result := rfl
@[simp] theorem Ctx.setDecState_inp (c : Ctx) (d : DecState) :
    (c.setDecState d).inp = c.inp := rfl
@[simp] theorem Ctx.setDecState_eod (c : Ctx) (d : DecState) :
    (c.setDecState d).eod = c.eod := rfl
@[simp] theorem Ctx.setDecState_room (c : Ctx) (d : DecState) :
    (c.setDecState d).room = c.room := rfl
@[simp] theorem Ctx.setDecState_taken (c : Ctx) (d : DecState) :
    (c.setDecState d).taken = c.taken := rfl
@[simp] theorem Ctx.setDecState_sent (c : Ctx) (d : DecState) :
    (c.setDecState d).sent = c.sent := rfl

@[simp] theorem Ctx.observe_weightBits (c : Ctx) (b : Byte) :
    (c.observe b).eng.weightBits = c.eng.weightBits := rfl
@[simp] theorem Ctx.observe_tree (c : Ctx) (b : Byte) :
    (c.observe b).eng.tree = (c.eng.tree.observe b).tree := rfl
@[simp] theorem Ctx.observe_walker (c : Ctx) (b : Byte) :
    (c.observe b).eng.walker = Walker.cleared := rfl
@[simp] theorem Ctx.observe_code (c : Ctx) (b : Byte) :
    (c.observe b).eng.code = c.eng.code := rfl
@[simp] theorem Ctx.observe_packer (c : Ctx) (b : Byte) :
    (c.observe b).eng.packer = c.eng.packer := rfl
@[simp] theorem Ctx.observe_unpacker (c : Ctx) (b : Byte) :
    (c.observe b).eng.unpacker = c.eng.unpacker := rfl
@[simp] theorem Ctx.observe_termEn (c : Ctx) (b : Byte) :
    (c.observe b).eng.termEn = c.eng.termEn := rfl
@[simp] theorem Ctx.observe_decState (c : Ctx) (b : Byte) :
    (c.observe b).eng.decState = c.eng.decState := rfl
@[simp] theorem Ctx.observe_error (c : Ctx) (b : Byte) :
    (c.observe b).eng.error = c.eng.error := rfl
@[simp] theorem Ctx.observe_result (c : Ctx) (b : Byte) :
    (c.observe b).eng.result = c.eng.result := rfl
@[simp] theorem Ctx.observe_inp (c : Ctx) (b : Byte) :
    (c.observe b).inp = c.inp := rfl
@[simp] theorem Ctx.observe_eod (c : Ctx) (b : Byte) :
    (c.observe b).eod = c.eod := rfl
@[simp] theorem Ctx.observe_room (c : Ctx) (b : Byte) :
    (c.observe b).room = c.room := rfl
@[simp] theorem Ctx.observe_taken (c : Ctx) (b : Byte) :
    (c.observe b).taken = c.taken := rfl
@[simp] theorem Ctx.observe_sent (c : Ctx) (b : Byte) :
    (c.observe b).sent = c.sent := rfl

@[simp] theorem Ctx.walkClear_weightBits (c : Ctx) :
    (c.walkClear).eng.weightBits = c.eng.weightBits := rfl
@[simp] theorem Ctx.walkClear_tree (c : Ctx) :
    (c.walkClear).eng.tree = c.eng.tree := rfl
@[simp] theorem Ctx.walkClear_walker (c : Ctx) :
    (c.walkClear).eng.walker = Walker.cleared := rfl
@[simp] theorem Ctx.walkClear_code (c : Ctx) :
    (c.walkClear).eng.code = c.eng.code := rfl
@[simp] theorem Ctx.walkClear_packer (c : Ctx) :
    (c.walkClear).eng.packer = c.eng.packer := rfl
@[simp] theorem Ctx.walkClear_unpacker (c : Ctx) :
    (c.walkClear).eng.unpacker = c.eng.unpacker := rfl
@[simp] theorem Ctx.walkClear_termEn (c : Ctx) :
    (c.walkClear).eng.termEn = c.eng.termEn := rfl
@[simp] theorem Ctx.walkClear_decState (c : Ctx) :
    (c.walkClear).eng.decState = c.eng.decState := rfl
@[simp] theorem Ctx.walkClear_error (c : Ctx) :
    (c.walkClear).eng.error = c.eng.error := rfl
@[simp] theorem Ctx.walkClear_result (c : Ctx) :
    (c.walkClear).eng.result = c.eng.result := rfl
@[simp] theorem Ctx.walkClear_inp (c : Ctx) :
    (c.walkClear).inp = c.inp := rfl
@[simp] theorem Ctx.walkClear_eod (c : Ctx) :
    (c.walkClear).eod = c.eod := rfl
@[simp] theorem Ctx.walkClear_room (c : Ctx) :
    (c.walkClear).room = c.room := rfl
@[simp] theorem Ctx.walkClear_taken (c : Ctx) :
    (c.walkClear).taken = c.taken := rfl
@[simp] theorem Ctx.walkClear_sent (c : Ctx) :
    (c.walkClear).sent = c.sent := rfl

@[simp] theorem Ctx.derivePath_weightBits (c : Ctx) (n : Idx) :
    (c.derivePath n).eng.weightBits = c.eng.weightBits := rfl
@[simp] theorem Ctx.derivePath_tree (c : Ctx) (n : Idx) :
    (c.derivePath n).eng.tree = c.eng.tree := rfl
@[simp] theorem Ctx.derivePath_walker (c : Ctx) (n : Idx) :
    (c.derivePath n).eng.walker = c.eng.walker := rfl
@[simp] theorem Ctx.derivePath_code (c : Ctx) (n : Idx) :
    (c.derivePath n).eng.code = Code.ofPath (c.eng.tree.path n) := rfl
@[simp] theorem Ctx.derivePath_packer (c : Ctx) (n : Idx) :
    (c.derivePath n).eng.packer = c.eng.packer := rfl
@[simp] theorem Ctx.derivePath_unpacker (c : Ctx) (n : Idx) :
    (c.derivePath n).eng.unpacker = c.eng.unpacker := rfl
@[simp] theorem Ctx.derivePath_termEn (c : Ctx) (n : Idx) :
    (c.derivePath n).eng.termEn = c.eng.termEn := rfl
@[simp] theorem Ctx.derivePath_decState (c : Ctx) (n : Idx) :
    (c.derivePath n).eng.decState = c.eng.decState := rfl
@[simp] theorem Ctx.derivePath_error (c : Ctx) (n : Idx) :
    (c.derivePath n).eng.error = c.eng.error := rfl
@[simp] theorem Ctx.derivePath_result (c : Ctx) (n : Idx) :
    (c.derivePath n).eng.result = c.eng.result := rfl
@[simp] theorem Ctx.derivePath_inp (c : Ctx) (n : Idx) :
    (c.derivePath n).inp = c.inp := rfl
@[simp] theorem Ctx.derivePath_eod (c : Ctx) (n : Idx) :
    (c.derivePath n).eod = c.eod := rfl
@[simp] theorem Ctx.derivePath_room (c : Ctx) (n : Idx) :
    (c.derivePath n).room = c.room := rfl
@[simp] theorem Ctx.derivePath_taken (c : Ctx) (n : Idx) :
    (c.derivePath n).taken = c.taken := rfl
@[simp] theorem Ctx.derivePath_sent (c : Ctx) (n : Idx) :
    (c.derivePath n).sent = c.sent := rfl

@[simp] theorem Ctx.adv_weightBits (c : Ctx) (b : Bool) :
    (c.adv b).eng.weightBits = c.eng.weightBits := rfl
@[simp] theorem Ctx.adv_tree (c : Ctx) (b : Bool) :
    (c.adv b).eng.tree = c.eng.tree := rfl
@[simp] theorem Ctx.adv_code (c : Ctx) (b : Bool) :
    (c.adv b).eng.code = c.eng.code := rfl
@[simp] theorem Ctx.adv_packer (c : Ctx) (b : Bool) :
    (c.adv b).eng.packer = c.eng.packer := rfl
@[simp] theorem Ctx.adv_unpacker (c : Ctx) (b : Bool) :
    (c.adv b).eng.unpacker = c.eng.unpacker := rfl
@[simp] theorem Ctx.adv_termEn (c : Ctx) (b : Bool) :
    (c.adv b).eng.termEn = c.eng.termEn := rfl
@[simp] theorem Ctx.adv_decState (c : Ctx) (b : Bool) :
    (c.adv b).eng.decState = c.eng.decState := rfl
@[simp] theorem Ctx.adv_error (c : Ctx) (b : Bool) :
    (c.adv b).eng.error = c.eng.error := rfl
@[simp] theorem Ctx.adv_result (c : Ctx) (b : Bool) :
    (c.adv b).eng.result = c.eng.result := rfl
@[simp] theorem Ctx.adv_inp (c : Ctx) (b : Bool) :
    (c.adv b).inp = c.inp := rfl
@[simp] theorem Ctx.adv_eod (c : Ctx) (b : Bool) :
    (c.adv b).eod = c.eod := rfl
@[simp] theorem Ctx.adv_room (c : Ctx) (b : Bool) :
    (c.adv b).room = c.room := rfl
@[simp] theorem Ctx.adv_taken (c : Ctx) (b : Bool) :
    (c.adv b).taken = c.taken := rfl
@[simp] theorem Ctx.adv_sent (c : Ctx) (b : Bool) :
    (c.adv b).sent = c.sent := rfl

/-! ## Failing and reset -/

@[simp] theorem Engine.takeFailure_weightBits (g : Engine) (e : ErrCode) (w : Cmd) :
    (g.takeFailure e w).weightBits = g.weightBits := rfl
@[simp] theorem Engine.takeFailure_tree (g : Engine) (e : ErrCode) (w : Cmd) :
    (g.takeFailure e w).tree = g.tree := rfl
@[simp] theorem Engine.takeFailure_walker (g : Engine) (e : ErrCode) (w : Cmd) :
    (g.takeFailure e w).walker = g.walker := rfl
@[simp] theorem Engine.takeFailure_code (g : Engine) (e : ErrCode) (w : Cmd) :
    (g.takeFailure e w).code = g.code := rfl
@[simp] theorem Engine.takeFailure_packer (g : Engine) (e : ErrCode) (w : Cmd) :
    (g.takeFailure e w).packer = g.packer := rfl
@[simp] theorem Engine.takeFailure_unpacker (g : Engine) (e : ErrCode) (w : Cmd) :
    (g.takeFailure e w).unpacker = g.unpacker := rfl
@[simp] theorem Engine.takeFailure_termEn (g : Engine) (e : ErrCode) (w : Cmd) :
    (g.takeFailure e w).termEn = g.termEn := rfl
@[simp] theorem Engine.takeFailure_decState (g : Engine) (e : ErrCode) (w : Cmd) :
    (g.takeFailure e w).decState = g.decState := rfl
@[simp] theorem Engine.takeFailure_error (g : Engine) (e : ErrCode) (w : Cmd) :
    (g.takeFailure e w).error = g.error.record e w := rfl
@[simp] theorem Engine.takeFailure_result (g : Engine) (e : ErrCode) (w : Cmd) :
    (g.takeFailure e w).result = errorWord e := rfl
@[simp] theorem Engine.hardwareReset_weightBits (g : Engine) :
    g.hardwareReset.weightBits = g.weightBits := rfl
@[simp] theorem Engine.hardwareReset_tree (g : Engine) :
    g.hardwareReset.tree = Tree.initial := rfl
@[simp] theorem Engine.hardwareReset_walker (g : Engine) :
    g.hardwareReset.walker = Walker.cleared := rfl
@[simp] theorem Engine.hardwareReset_code (g : Engine) :
    g.hardwareReset.code = { buf := 0, len := 0 } := rfl
@[simp] theorem Engine.hardwareReset_packer (g : Engine) :
    g.hardwareReset.packer = Packer.empty := rfl
@[simp] theorem Engine.hardwareReset_unpacker (g : Engine) :
    g.hardwareReset.unpacker = { buf := 0, cnt := 0 } := rfl
@[simp] theorem Engine.hardwareReset_termEn (g : Engine) :
    g.hardwareReset.termEn = false := rfl
@[simp] theorem Engine.hardwareReset_decState (g : Engine) :
    g.hardwareReset.decState = .await := rfl
@[simp] theorem Engine.hardwareReset_error (g : Engine) :
    g.hardwareReset.error = { err := false, code := .none, cmd := 0 } := rfl
@[simp] theorem Engine.hardwareReset_result (g : Engine) :
    g.hardwareReset.result = 0 := rfl
@[simp] theorem Engine.initial_weightBits (w : Nat) :
    (Engine.initial w).weightBits = w := rfl
@[simp] theorem Engine.initial_tree (w : Nat) :
    (Engine.initial w).tree = Tree.initial := rfl
@[simp] theorem Engine.initial_walker (w : Nat) :
    (Engine.initial w).walker = Walker.cleared := rfl
@[simp] theorem Engine.initial_code (w : Nat) :
    (Engine.initial w).code = { buf := 0, len := 0 } := rfl
@[simp] theorem Engine.initial_packer (w : Nat) :
    (Engine.initial w).packer = Packer.empty := rfl
@[simp] theorem Engine.initial_unpacker (w : Nat) :
    (Engine.initial w).unpacker = { buf := 0, cnt := 0 } := rfl
@[simp] theorem Engine.initial_termEn (w : Nat) :
    (Engine.initial w).termEn = false := rfl
@[simp] theorem Engine.initial_decState (w : Nat) :
    (Engine.initial w).decState = .await := rfl
@[simp] theorem Engine.initial_error (w : Nat) :
    (Engine.initial w).error = { err := false, code := .none, cmd := 0 } := rfl
@[simp] theorem Engine.initial_result (w : Nat) :
    (Engine.initial w).result = 0 := rfl
@[simp] theorem State.resetWith_eng (w : Nat) :
    (State.resetWith w).eng = Engine.initial w := rfl
@[simp] theorem State.resetWith_hold (w : Nat) :
    (State.resetWith w).hold = none := rfl
@[simp] theorem State.resetWith_inBytes (w : Nat) :
    (State.resetWith w).inBytes = [] := rfl
@[simp] theorem State.resetWith_inEod (w : Nat) :
    (State.resetWith w).inEod = false := rfl
@[simp] theorem State.resetWith_eodMayFall (w : Nat) :
    (State.resetWith w).eodMayFall = true := rfl
@[simp] theorem State.resetWith_outBytes (w : Nat) :
    (State.resetWith w).outBytes = [] := rfl
@[simp] theorem State.resetWith_outRoom (w : Nat) :
    (State.resetWith w).outRoom = none := rfl
@[simp] theorem State.resetWith_responses (w : Nat) :
    (State.resetWith w).responses = [] := rfl
@[simp] theorem State.resetWith_reads (w : Nat) :
    (State.resetWith w).reads = [] := rfl
@[simp] theorem State.resetWith_draws (w : Nat) :
    (State.resetWith w).draws = 0 := rfl
@[simp] theorem State.resetWith_host (w : Nat) :
    (State.resetWith w).host = [] := rfl

/-! ## Commands: each is its pseudocode, issued -/

@[simp] theorem exec_nop (s : State) :
    exec .nop s = issue .nop nopBody s := rfl
@[simp] theorem exec_observe (sym : Byte) (s : State) :
    exec (.observe sym) s = issue (.observe sym) (observeBody sym) s := rfl
@[simp] theorem exec_isobs (sym : Byte) (s : State) :
    exec (.isobs sym) s = issue (.isobs sym) (isobsBody sym) s := rfl
@[simp] theorem exec_code (sym : Byte) (s : State) :
    exec (.code sym) s = issue (.code sym) (codeBody sym) s := rfl
@[simp] theorem exec_esccode (s : State) :
    exec .esccode s = issue .esccode esccodeBody s := rfl
@[simp] theorem exec_wreset (s : State) :
    exec .wreset s = issue .wreset wresetBody s := rfl
@[simp] theorem exec_wadv (bit : Bool) (s : State) :
    exec (.wadv bit) s = issue (.wadv bit) (wadvBody bit) s := rfl
@[simp] theorem exec_encrun (s : State) :
    exec .encrun s = issue .encrun encrunBody s := rfl
@[simp] theorem exec_decrun (s : State) :
    exec .decrun s = issue .decrun decrunBody s := rfl
@[simp] theorem exec_putbits (count : Nat) (value : Byte) (s : State) :
    exec (.putbits count value) s = issue (.putbits count value) (putbitsBody count value) s := rfl
@[simp] theorem exec_putcode (s : State) :
    exec .putcode s = issue .putcode putcodeBody s := rfl
@[simp] theorem exec_flush (s : State) :
    exec .flush s = issue .flush flushBody s := rfl
@[simp] theorem exec_getbits (count : Nat) (s : State) :
    exec (.getbits count) s = issue (.getbits count) (getbitsBody count) s := rfl
@[simp] theorem exec_encb (sym : Byte) (s : State) :
    exec (.encb sym) s = issue (.encb sym) (encbBody sym) s := rfl
@[simp] theorem exec_encend (s : State) :
    exec .encend s = issue .encend encendBody s := rfl
@[simp] theorem exec_decstep (s : State) :
    exec .decstep s = issue .decstep decstepBody s := rfl
@[simp] theorem exec_setctrl (v : Bool) (s : State) :
    exec (.setctrl v) s = issue (.setctrl v) (setctrlBody v) s := rfl
@[simp] theorem exec_init (mask : BitVec 5) (s : State) :
    exec (.init mask) s = issue (.init mask) (initBody mask) (s.noteNewRun (selectsUnpacker mask)) := rfl

@[simp] theorem issue_eq (i : Instr) (body : Ctx → Run Word) (s : State) :
    issue i body s = .next (s.settle i (body s.ctx)) := rfl

end Sys2Proof.Machine
end

