-- ==== Sys2Proof/Laws/Tables.lean ====
section
/-! SUPPORT. Reading the arrays of the tree after writing them: a write is read back at its own index, and every other
index, and every other array, reads as before. -/

namespace Sys2Proof.Machine

theorem Idx.toNat_ne {m n : Idx} (h : m ≠ n) : n.toNat ≠ m.toNat := fun he => h (BitVec.eq_of_toNat_eq he.symm)

/-! ## The node array -/

theorem Tree.node_of_lt {t : Tree} {n : Idx} (h : n.toNat < 513) : t.node n = t.nodes[n.toNat] := by
  simp [Tree.node, h]

theorem Tree.node_out (t : Tree) {n : Idx} (h : ¬ n.toNat < 513) : t.node n = Node.free := by
  simp [Tree.node, h]

@[simp] theorem Tree.node_NIL (t : Tree) : t.node NIL = Node.free := t.node_out (by decide)

@[simp] theorem Tree.setNode_ord (t : Tree) (n : Idx) (v : Node) : (t.setNode n v).ord = t.ord := by
  unfold Tree.setNode; split <;> rfl

@[simp] theorem Tree.setNode_symtab (t : Tree) (n : Idx) (v : Node) : (t.setNode n v).symtab = t.symtab := by
  unfold Tree.setNode; split <;> rfl

@[simp] theorem Tree.setNode_esc (t : Tree) (n : Idx) (v : Node) : (t.setNode n v).esc = t.esc := by
  unfold Tree.setNode; split <;> rfl

@[simp] theorem Tree.setNode_next (t : Tree) (n : Idx) (v : Node) : (t.setNode n v).next = t.next := by
  unfold Tree.setNode; split <;> rfl

theorem Tree.node_setNode_same (t : Tree) {n : Idx} (v : Node) (h : n.toNat < 513) : (t.setNode n v).node n = v := by
  simp [Tree.setNode, Tree.node, h]

theorem Tree.node_setNode_ne (t : Tree) {m n : Idx} (v : Node) (h : m ≠ n) : (t.setNode n v).node m = t.node m := by
  unfold Tree.setNode
  split
  · simp only [Tree.node]
    split
    · exact Vector.getElem_set_ne _ _ (Idx.toNat_ne h)
    · rfl
  · rfl

/-- Reading a node after writing one. -/
theorem Tree.node_setNode (t : Tree) (m n : Idx) (v : Node) (h : n.toNat < 513) :
    (t.setNode n v).node m = if m = n then v else t.node m := by
  split
  · next he => subst he; exact t.node_setNode_same v h
  · next hne => exact t.node_setNode_ne v hne

theorem Tree.node_modNode (t : Tree) (m n : Idx) (f : Node → Node) (h : n.toNat < 513) :
    (t.modNode n f).node m = if m = n then f (t.node n) else t.node m := t.node_setNode m n _ h

theorem Tree.node_modNode_ne (t : Tree) {m n : Idx} (f : Node → Node) (h : m ≠ n) :
    (t.modNode n f).node m = t.node m := t.node_setNode_ne _ h

@[simp] theorem Tree.modNode_ord (t : Tree) (n : Idx) (f : Node → Node) : (t.modNode n f).ord = t.ord := by
  simp [Tree.modNode]

@[simp] theorem Tree.modNode_symtab (t : Tree) (n : Idx) (f : Node → Node) : (t.modNode n f).symtab = t.symtab := by
  simp [Tree.modNode]

@[simp] theorem Tree.modNode_esc (t : Tree) (n : Idx) (f : Node → Node) : (t.modNode n f).esc = t.esc := by
  simp [Tree.modNode]

@[simp] theorem Tree.modNode_next (t : Tree) (n : Idx) (f : Node → Node) : (t.modNode n f).next = t.next := by
  simp [Tree.modNode]

/-! ## The sequence -/

@[simp] theorem Tree.setOrd_nodes (t : Tree) (s n : Idx) : (t.setOrd s n).nodes = t.nodes := by
  unfold Tree.setOrd; split <;> rfl

@[simp] theorem Tree.setOrd_node (t : Tree) (s n m : Idx) : (t.setOrd s n).node m = t.node m := by
  simp [Tree.node]

@[simp] theorem Tree.setOrd_symtab (t : Tree) (s n : Idx) : (t.setOrd s n).symtab = t.symtab := by
  unfold Tree.setOrd; split <;> rfl

@[simp] theorem Tree.setOrd_esc (t : Tree) (s n : Idx) : (t.setOrd s n).esc = t.esc := by
  unfold Tree.setOrd; split <;> rfl

@[simp] theorem Tree.setOrd_next (t : Tree) (s n : Idx) : (t.setOrd s n).next = t.next := by
  unfold Tree.setOrd; split <;> rfl

theorem Tree.ordAt_setOrd_same (t : Tree) {s : Idx} (n : Idx) (h : s.toNat < 513) : (t.setOrd s n).ordAt s = n := by
  simp [Tree.setOrd, Tree.ordAt, h]

theorem Tree.ordAt_setOrd_ne (t : Tree) {k s : Idx} (n : Idx) (h : k ≠ s) : (t.setOrd s n).ordAt k = t.ordAt k := by
  unfold Tree.setOrd
  split
  · simp only [Tree.ordAt]
    split
    · exact Vector.getElem_set_ne _ _ (Idx.toNat_ne h)
    · rfl
  · rfl

/-- Reading a slot after writing one. -/
theorem Tree.ordAt_setOrd (t : Tree) (k s n : Idx) (h : s.toNat < 513) :
    (t.setOrd s n).ordAt k = if k = s then n else t.ordAt k := by
  split
  · next he => subst he; exact t.ordAt_setOrd_same n h
  · next hne => exact t.ordAt_setOrd_ne n hne

@[simp] theorem Tree.setNode_ordAt (t : Tree) (n s : Idx) (v : Node) : (t.setNode n v).ordAt s = t.ordAt s := by
  simp [Tree.ordAt]

@[simp] theorem Tree.modNode_ordAt (t : Tree) (n s : Idx) (f : Node → Node) : (t.modNode n f).ordAt s = t.ordAt s := by
  simp [Tree.ordAt]

/-! ## The symbol table -/

theorem Tree.symEntry_setSym_same (t : Tree) (c : Byte) (e : SymEntry) : (t.setSym c e).symEntry c = e := by
  simp [Tree.setSym, Tree.symEntry]

theorem Tree.symEntry_setSym_ne (t : Tree) {c d : Byte} (e : SymEntry) (h : d ≠ c) :
    (t.setSym c e).symEntry d = t.symEntry d :=
  Vector.getElem_set_ne c.isLt d.isLt fun he => h (BitVec.eq_of_toNat_eq he.symm)

/-- Reading an entry of the symbol table after writing one. -/
theorem Tree.symEntry_setSym (t : Tree) (c d : Byte) (e : SymEntry) :
    (t.setSym c e).symEntry d = if d = c then e else t.symEntry d := by
  split
  · next he => subst he; exact t.symEntry_setSym_same _ e
  · next hne => exact t.symEntry_setSym_ne e hne

@[simp] theorem Tree.setSym_nodes (t : Tree) (c : Byte) (e : SymEntry) : (t.setSym c e).nodes = t.nodes := rfl
@[simp] theorem Tree.setSym_ord (t : Tree) (c : Byte) (e : SymEntry) : (t.setSym c e).ord = t.ord := rfl
@[simp] theorem Tree.setSym_esc (t : Tree) (c : Byte) (e : SymEntry) : (t.setSym c e).esc = t.esc := rfl
@[simp] theorem Tree.setSym_next (t : Tree) (c : Byte) (e : SymEntry) : (t.setSym c e).next = t.next := rfl
@[simp] theorem Tree.setSym_node (t : Tree) (c : Byte) (e : SymEntry) (n : Idx) : (t.setSym c e).node n = t.node n := rfl
@[simp] theorem Tree.setSym_ordAt (t : Tree) (c : Byte) (e : SymEntry) (s : Idx) :
    (t.setSym c e).ordAt s = t.ordAt s := rfl

@[simp] theorem Tree.setNode_symEntry (t : Tree) (n : Idx) (v : Node) (c : Byte) :
    (t.setNode n v).symEntry c = t.symEntry c := by
  simp [Tree.symEntry]

@[simp] theorem Tree.modNode_symEntry (t : Tree) (n : Idx) (f : Node → Node) (c : Byte) :
    (t.modNode n f).symEntry c = t.symEntry c := by
  simp [Tree.symEntry]

@[simp] theorem Tree.setOrd_symEntry (t : Tree) (s n : Idx) (c : Byte) :
    (t.setOrd s n).symEntry c = t.symEntry c := by
  simp [Tree.symEntry]

/-! ## Two trees are equal when every entry is -/

/-- The node array is what its entries are. -/
theorem Tree.nodes_ext {t u : Tree} (h : ∀ n : Idx, t.node n = u.node n) : t.nodes = u.nodes := by
  ext i hi
  have e : (BitVec.ofNat 10 i).toNat = i := by simp; omega
  have := h (BitVec.ofNat 10 i)
  rw [Tree.node_of_lt (by omega), Tree.node_of_lt (by omega)] at this
  simpa only [e] using this

/-- The sequence is what its slots are. -/
theorem Tree.ord_ext {t u : Tree} (h : ∀ s : Idx, t.ordAt s = u.ordAt s) : t.ord = u.ord := by
  ext i hi
  have e : (BitVec.ofNat 10 i).toNat = i := by simp; omega
  have := h (BitVec.ofNat 10 i)
  simp only [Tree.ordAt, e, hi, dite_true] at this
  rw [this]

/-- The symbol table is what its entries are. -/
theorem Tree.symtab_ext {t u : Tree} (h : ∀ c : Byte, t.symEntry c = u.symEntry c) : t.symtab = u.symtab := by
  ext i hi
  have e : (BitVec.ofNat 8 i).toNat = i := by simp; omega
  have := h (BitVec.ofNat 8 i)
  simp only [Tree.symEntry, e] at this
  all_goals rw [this]

/-! ## What the tree operations leave alone -/

@[simp] theorem Tree.bump_ordAt (t : Tree) (n s : Idx) : (t.bump n).ordAt s = t.ordAt s := by simp [Tree.bump]
@[simp] theorem Tree.bump_symtab (t : Tree) (n : Idx) : (t.bump n).symtab = t.symtab := by simp [Tree.bump]
@[simp] theorem Tree.bump_esc (t : Tree) (n : Idx) : (t.bump n).esc = t.esc := by simp [Tree.bump]
@[simp] theorem Tree.bump_next (t : Tree) (n : Idx) : (t.bump n).next = t.next := by simp [Tree.bump]

@[simp] theorem Tree.setChild_symtab (t : Tree) (p n : Idx) (d : Side) : (t.setChild p d n).symtab = t.symtab := by
  simp [Tree.setChild]
@[simp] theorem Tree.setChild_esc (t : Tree) (p n : Idx) (d : Side) : (t.setChild p d n).esc = t.esc := by
  simp [Tree.setChild]
@[simp] theorem Tree.setChild_next (t : Tree) (p n : Idx) (d : Side) : (t.setChild p d n).next = t.next := by
  simp [Tree.setChild]

@[simp] theorem Tree.swap_symtab (t : Tree) (a b : Idx) : (t.swap a b).symtab = t.symtab := by simp [Tree.swap]
@[simp] theorem Tree.swap_esc (t : Tree) (a b : Idx) : (t.swap a b).esc = t.esc := by simp [Tree.swap]
@[simp] theorem Tree.swap_next (t : Tree) (a b : Idx) : (t.swap a b).next = t.next := by simp [Tree.swap]

@[simp] theorem Tree.propagateRound_symtab (t : Tree) (q : Idx) : (t.propagateRound q).symtab = t.symtab := by
  unfold Tree.propagateRound; split <;> simp
@[simp] theorem Tree.propagateRound_esc (t : Tree) (q : Idx) : (t.propagateRound q).esc = t.esc := by
  unfold Tree.propagateRound; split <;> simp
@[simp] theorem Tree.propagateRound_next (t : Tree) (q : Idx) : (t.propagateRound q).next = t.next := by
  unfold Tree.propagateRound; split <;> simp

/-- Propagation writes the node array and the sequence only (R127, R128, R130). -/
theorem Tree.propagateFrom_keeps (fuel : Nat) (t : Tree) (q : Idx) (k : Nat) :
    (t.propagateFrom fuel q k).1.symtab = t.symtab ∧ (t.propagateFrom fuel q k).1.esc = t.esc ∧
      (t.propagateFrom fuel q k).1.next = t.next := by
  induction fuel generalizing t q k with
  | zero => simp [Tree.propagateFrom]
  | succ fuel ih =>
    unfold Tree.propagateFrom
    split
    · simp
    · simpa using ih (t.propagateRound q) ((t.propagateRound q).node q).parent _

@[simp] theorem Tree.propagate_symtab (t : Tree) (q : Idx) : (t.propagate q).1.symtab = t.symtab :=
  (t.propagateFrom_keeps _ q 0).1
@[simp] theorem Tree.propagate_esc (t : Tree) (q : Idx) : (t.propagate q).1.esc = t.esc :=
  (t.propagateFrom_keeps _ q 0).2.1
@[simp] theorem Tree.propagate_next (t : Tree) (q : Idx) : (t.propagate q).1.next = t.next :=
  (t.propagateFrom_keeps _ q 0).2.2

/-- A propagation makes at most one exchange for each level (R127). -/
theorem Tree.propagateFrom_swaps_le (fuel : Nat) (t : Tree) (q : Idx) (k : Nat) :
    (t.propagateFrom fuel q k).2 ≤ k + fuel := by
  induction fuel generalizing t q k with
  | zero => simp [Tree.propagateFrom]
  | succ fuel ih =>
    unfold Tree.propagateFrom
    split
    · simp
    · have := ih (t.propagateRound q) ((t.propagateRound q).node q).parent (if t.exchanges q then k + 1 else k)
      have hk : (if t.exchanges q then k + 1 else k) ≤ k + 1 := by split <;> omega
      simp only
      omega

/-! ## Paths -/

/-- A path has at most as many bits as the walk has steps (R138). -/
theorem Tree.pathFrom_length_le (fuel : Nat) (t : Tree) (x : Idx) (acc : List Bool) :
    (t.pathFrom fuel x acc).length ≤ fuel + acc.length := by
  induction fuel generalizing x acc with
  | zero => simp [Tree.pathFrom]
  | succ fuel ih =>
    unfold Tree.pathFrom
    split
    · omega
    · have := ih (t.node x).parent ((t.node x).side.branch :: acc)
      simp only [List.length_cons] at this
      omega

/-- R5 `MAX_DEPTH`: a path has at most 256 bits. -/
theorem Tree.path_length_le (t : Tree) (n : Idx) : (t.path n).length ≤ 256 := by
  simpa [Tree.path] using t.pathFrom_length_le MAX_DEPTH n []

end Sys2Proof.Machine
end

