-- ==== Sys2Proof/Laws/Runs.lean ====
section
/-! SUPPORT. What a command in progress can do, said once for each primitive: how the streams move, which registers
stay, and what it waits for. The laws of whole commands are made from these. -/

namespace Sys2Proof.Machine

/-! ## Sequencing -/

@[simp] theorem Run.done_bind {α β : Type} (a : α) (c : Ctx) (f : α → Ctx → Run β) :
    (Run.done a c).bind f = f a c := rfl
@[simp] theorem Run.fail_bind {α β : Type} (e : ErrCode) (c : Ctx) (f : α → Ctx → Run β) :
    (Run.fail e c : Run α).bind f = .fail e c := rfl
@[simp] theorem Run.wait_bind {α β : Type} (p : Port) (c : Ctx) (f : α → Ctx → Run β) :
    (Run.wait p c : Run α).bind f = .wait p c := rfl

theorem Run.bind_assoc {α β γ : Type} (r : Run α) (f : α → Ctx → Run β) (g : β → Ctx → Run γ) :
    (r.bind f).bind g = r.bind fun a c => (f a c).bind g := by
  cases r <;> rfl

/-- A sequence that is done was done at every part. -/
theorem Run.bind_eq_done {α β : Type} {r : Run α} {f : α → Ctx → Run β} {b : β} {d : Ctx} :
    r.bind f = .done b d ↔ ∃ a c, r = .done a c ∧ f a c = .done b d := by
  cases r <;> simp

/-- A sequence that failed, failed in one of its parts. -/
theorem Run.bind_eq_fail {α β : Type} {r : Run α} {f : α → Ctx → Run β} {e : ErrCode} {d : Ctx} :
    r.bind f = .fail e d ↔ r = .fail e d ∨ ∃ a c, r = .done a c ∧ f a c = .fail e d := by
  cases r <;> simp

/-- A sequence that waits, waits in one of its parts. -/
theorem Run.bind_eq_wait {α β : Type} {r : Run α} {f : α → Ctx → Run β} {p : Port} {d : Ctx} :
    r.bind f = .wait p d ↔ r = .wait p d ∨ ∃ a c, r = .done a c ∧ f a c = .wait p d := by
  cases r <;> simp

/-- What is left to work on, however far the run has come. -/
def Run.ctx {α : Type} : Run α → Ctx
  | .done _ c => c
  | .fail _ c => c
  | .wait _ c => c

@[simp] theorem Run.ctx_done {α : Type} (a : α) (c : Ctx) : (Run.done a c).ctx = c := rfl
@[simp] theorem Run.ctx_fail {α : Type} (e : ErrCode) (c : Ctx) : (Run.fail e c : Run α).ctx = c := rfl
@[simp] theorem Run.ctx_wait {α : Type} (p : Port) (c : Ctx) : (Run.wait p c : Run α).ctx = c := rfl

/-- A sequence ends where its last part ends. -/
theorem Run.ctx_bind {α β : Type} {P : Ctx → Prop} (r : Run α) (f : α → Ctx → Run β) (h : P r.ctx)
    (hf : ∀ a c, r = .done a c → P (f a c).ctx) : P (r.bind f).ctx := by
  cases r with
  | done a c => exact hf a c rfl
  | fail e c => exact h
  | wait p c => exact h

/-! ## How the streams move (R81, R82, R91) -/

/-- `d` comes after `c` in one command: the bytes taken come off the front of the bytes offered, the bytes sent are
put behind those sent before, `out_ready` has counted them, and end-of-data is the host's own. -/
structure Ctx.Streams (c d : Ctx) : Prop where
  eod : d.eod = c.eod
  input : d.taken ++ d.inp = c.taken ++ c.inp
  taken : ∃ bs, d.taken = c.taken ++ bs
  sent : ∃ bs, d.sent = c.sent ++ bs ∧ d.room = c.room.map (· - bs.length) ∧ ∀ k, c.room = some k → bs.length ≤ k

theorem Ctx.Streams.refl (c : Ctx) : c.Streams c := by
  refine ⟨rfl, rfl, ⟨[], by simp⟩, [], by simp, ?_, by simp⟩
  cases c.room <;> simp

theorem Ctx.Streams.trans {a b c : Ctx} (h : a.Streams b) (k : b.Streams c) : a.Streams c := by
  obtain ⟨xs, ht⟩ := h.taken
  obtain ⟨ys, kt⟩ := k.taken
  obtain ⟨us, hs, hr, hk⟩ := h.sent
  obtain ⟨vs, ks, kr, kk⟩ := k.sent
  refine ⟨k.eod.trans h.eod, k.input.trans h.input, ⟨xs ++ ys, by simp [kt, ht]⟩, us ++ vs, by simp [ks, hs], ?_, ?_⟩
  · rw [kr, hr]
    cases a.room with
    | none => rfl
    | some n => simp [Nat.sub_sub]
  · intro n hn
    have h1 := hk n hn
    have h2 := kk (n - us.length) (by rw [hr, hn]; rfl)
    simp only [List.length_append]
    omega

/-- Nothing but the engine changed. -/
theorem Ctx.Streams.of_eng (c : Ctx) (g : Engine) : c.Streams { c with eng := g } := by
  have h := Ctx.Streams.refl c
  exact ⟨h.eod, h.input, h.taken, h.sent⟩

/-! ## Registers that only their own commands write (R6, R41, R45 to R47) -/

/-- The parameter, `TERM_EN`, the error record and `RESULT` are as they were. -/
structure Engine.Keeps (g h : Engine) : Prop where
  weightBits : h.weightBits = g.weightBits
  termEn : h.termEn = g.termEn
  error : h.error = g.error
  result : h.result = g.result

theorem Engine.Keeps.refl (g : Engine) : g.Keeps g := ⟨rfl, rfl, rfl, rfl⟩

theorem Engine.Keeps.trans {a b c : Engine} (h : a.Keeps b) (k : b.Keeps c) : a.Keeps c :=
  ⟨k.weightBits.trans h.weightBits, k.termEn.trans h.termEn, k.error.trans h.error, k.result.trans h.result⟩

/-- What every primitive does, and every command but INIT and SETCTRL. -/
structure Ctx.Follows (c d : Ctx) : Prop where
  streams : c.Streams d
  keeps : c.eng.Keeps d.eng

theorem Ctx.Follows.refl (c : Ctx) : c.Follows c := ⟨.refl c, .refl c.eng⟩

theorem Ctx.Follows.trans {a b c : Ctx} (h : a.Follows b) (k : b.Follows c) : a.Follows c :=
  ⟨h.streams.trans k.streams, h.keeps.trans k.keeps⟩

theorem Ctx.Follows.of_eng {c : Ctx} {g : Engine} (h : c.eng.Keeps g) : c.Follows { c with eng := g } :=
  ⟨.of_eng c g, h⟩

theorem Ctx.Follows.setTree (c : Ctx) (t : Tree) : c.Follows (c.setTree t) := .of_eng ⟨rfl, rfl, rfl, rfl⟩
theorem Ctx.Follows.setWalker (c : Ctx) (w : Walker) : c.Follows (c.setWalker w) := .of_eng ⟨rfl, rfl, rfl, rfl⟩
theorem Ctx.Follows.setCode (c : Ctx) (k : Code) : c.Follows (c.setCode k) := .of_eng ⟨rfl, rfl, rfl, rfl⟩
theorem Ctx.Follows.setPacker (c : Ctx) (p : Packer) : c.Follows (c.setPacker p) := .of_eng ⟨rfl, rfl, rfl, rfl⟩
theorem Ctx.Follows.setUnpacker (c : Ctx) (u : Unpacker) : c.Follows (c.setUnpacker u) :=
  .of_eng ⟨rfl, rfl, rfl, rfl⟩
theorem Ctx.Follows.setDecState (c : Ctx) (d : DecState) : c.Follows (c.setDecState d) :=
  .of_eng ⟨rfl, rfl, rfl, rfl⟩
theorem Ctx.Follows.observe (c : Ctx) (b : Byte) : c.Follows (c.observe b) := .of_eng ⟨rfl, rfl, rfl, rfl⟩
theorem Ctx.Follows.walkClear (c : Ctx) : c.Follows c.walkClear := .setWalker c _
theorem Ctx.Follows.adv (c : Ctx) (b : Bool) : c.Follows (c.adv b) := .setWalker c _
theorem Ctx.Follows.derivePath (c : Ctx) (n : Idx) : c.Follows (c.derivePath n) := .setCode c _

/-- A sequence of parts that follow, follows. -/
theorem Ctx.Follows.bind {α β : Type} {c : Ctx} {r : Run α} {f : α → Ctx → Run β} (h : c.Follows r.ctx)
    (hf : ∀ (a : α) (d : Ctx), d.Follows (f a d).ctx) : c.Follows (r.bind f).ctx :=
  Run.ctx_bind r f h fun a d hd => (by simpa [hd] using h : c.Follows d).trans (hf a d)

/-! ## What a command waits for (R81, R82) -/

/-- The port gives the command nothing now. -/
def Ctx.stuckOn (c : Ctx) : Port → Prop
  | .input => c.inp = [] ∧ c.eod = false
  | .output => c.room = some 0

/-- Wherever the run waits, it has to. -/
def Run.WaitsRightly {α : Type} (r : Run α) : Prop := ∀ p c, r = .wait p c → c.stuckOn p

theorem Run.WaitsRightly.done {α : Type} (a : α) (c : Ctx) : (Run.done a c).WaitsRightly := by
  intro p d h; cases h

theorem Run.WaitsRightly.fail {α : Type} (e : ErrCode) (c : Ctx) : (Run.fail e c : Run α).WaitsRightly := by
  intro p d h; cases h

theorem Run.WaitsRightly.bind {α β : Type} {r : Run α} {f : α → Ctx → Run β} (h : r.WaitsRightly)
    (hf : ∀ (a : α) (c : Ctx), (f a c).WaitsRightly) : (r.bind f).WaitsRightly := by
  intro p c hw
  obtain hw | ⟨a, d, -, hw⟩ := Run.bind_eq_wait.1 hw
  · exact h p c hw
  · exact hf a d p c hw

/-! ## The stream primitives -/

theorem inRead_follows (c : Ctx) : c.Follows (inRead c).ctx := by
  unfold inRead
  split
  · next v rest h =>
    refine ⟨⟨rfl, by simp [h], ⟨[v], rfl⟩, [], by simp, ?_, by simp⟩, .refl _⟩
    simp only [Run.ctx_done]
    cases c.room <;> simp
  · split <;> exact .refl c

theorem inRead_waitsRightly (c : Ctx) : (inRead c).WaitsRightly := by
  unfold inRead
  split
  · exact .done _ _
  · next h =>
    split
    · exact .done _ _
    · next he => intro p d hw; cases hw; exact ⟨h, by simpa using he⟩

/-- `InRead` never fails, and leaves the engine alone (R81). -/
theorem inRead_eng (c : Ctx) : (inRead c).ctx.eng = c.eng := by
  unfold inRead
  split
  · rfl
  · split <;> rfl

theorem outWrite_follows (v : Byte) (c : Ctx) : c.Follows (outWrite v c).ctx := by
  unfold outWrite
  split
  · next h => exact ⟨⟨rfl, rfl, ⟨[], by simp⟩, [v], rfl, by simp [h], by simp [h]⟩, .refl _⟩
  · exact .refl c
  · next k h => exact ⟨⟨rfl, rfl, ⟨[], by simp⟩, [v], rfl, by simp [h], by simp [h]⟩, .refl _⟩

theorem outWrite_waitsRightly (v : Byte) (c : Ctx) : (outWrite v c).WaitsRightly := by
  unfold outWrite
  split
  · exact .done _ _
  · next h => intro p d hw; cases hw; exact h
  · exact .done _ _

/-- `OutWrite` leaves the engine and the input alone (R82). -/
theorem outWrite_eng (v : Byte) (c : Ctx) : (outWrite v c).ctx.eng = c.eng := by
  unfold outWrite; split <;> rfl

/-- With room for a byte, `OutWrite` is done (R82). -/
theorem outWrite_done (v : Byte) (c : Ctx) (h : c.room ≠ some 0) :
    outWrite v c = .done () { c with room := c.room.map (· - 1), sent := c.sent ++ [v] } := by
  unfold outWrite
  split
  · next hr => simp [hr]
  · next hr => exact absurd hr h
  · next k hr => simp [hr]

/-! ## The packer -/

theorem putBit_follows (b : Bool) (c : Ctx) : c.Follows (putBit b c).ctx := by
  unfold putBit
  split
  · exact .bind (outWrite_follows _ c) fun _ d => .setPacker d _
  · exact .setPacker c _

theorem putBit_waitsRightly (b : Bool) (c : Ctx) : (putBit b c).WaitsRightly := by
  unfold putBit
  split
  · exact .bind (outWrite_waitsRightly _ c) fun _ _ => .done _ _
  · exact .done _ _

theorem putAll_follows (bs : List Bool) (c : Ctx) : c.Follows (putAll bs c).ctx := by
  induction bs generalizing c with
  | nil => exact .refl c
  | cons b bs ih => exact .bind (putBit_follows b c) fun _ d => ih d

theorem putAll_waitsRightly (bs : List Bool) (c : Ctx) : (putAll bs c).WaitsRightly := by
  induction bs generalizing c with
  | nil => exact .done _ _
  | cons b bs ih => exact .bind (putBit_waitsRightly b c) fun _ d => ih d

theorem putAll_append (xs ys : List Bool) (c : Ctx) :
    putAll (xs ++ ys) c = (putAll xs c).bind fun _ d => putAll ys d := by
  induction xs generalizing c with
  | nil => rfl
  | cons b xs ih => simp only [List.cons_append, putAll, Run.bind_assoc, ih]

theorem putCode_follows (c : Ctx) : c.Follows (putCode c).ctx := putAll_follows _ c

theorem putCode_waitsRightly (c : Ctx) : (putCode c).WaitsRightly := putAll_waitsRightly _ c

/-- The packer primitives write the packer registers and nothing else of the engine (R40, R170). -/
theorem putBit_eng (b : Bool) (c : Ctx) : { (putBit b c).ctx.eng with packer := c.eng.packer } = c.eng := by
  unfold putBit
  split
  · refine Run.ctx_bind (P := fun d => { d.eng with packer := c.eng.packer } = c.eng) _ _ ?_ ?_
    · rw [outWrite_eng]
    · intro a d hd
      have := outWrite_eng (c.eng.packer.shiftIn b) c
      rw [hd] at this
      simp only [Run.ctx_done] at this
      simp [Ctx.setPacker, this]
  · rfl

theorem putAll_eng (bs : List Bool) (c : Ctx) : { (putAll bs c).ctx.eng with packer := c.eng.packer } = c.eng := by
  induction bs generalizing c with
  | nil => rfl
  | cons b bs ih =>
    refine Run.ctx_bind (P := fun d => { d.eng with packer := c.eng.packer } = c.eng) _ _ (putBit_eng b c) ?_
    intro a d hd
    have h1 := putBit_eng b c
    have h2 := ih d
    rw [hd] at h1
    simp only [Run.ctx_done] at h1
    rw [← h1, ← h2]

theorem flushCore_follows (c : Ctx) : c.Follows (flushCore c).ctx := by
  unfold flushCore
  split
  · exact .refl c
  · exact .bind (outWrite_follows _ c) fun _ d => .setPacker d _

theorem flushCore_waitsRightly (c : Ctx) : (flushCore c).WaitsRightly := by
  unfold flushCore
  split
  · exact .done _ _
  · exact .bind (outWrite_waitsRightly _ c) fun _ _ => .done _ _

/-! ## The unpacker -/

theorem getBit_follows (c : Ctx) : c.Follows (getBit c).ctx := by
  unfold getBit
  split
  · refine .bind (inRead_follows c) fun v d => ?_
    cases v with
    | none => exact .refl d
    | some v => exact .setUnpacker d _
  · exact .setUnpacker c _

theorem getBit_waitsRightly (c : Ctx) : (getBit c).WaitsRightly := by
  unfold getBit
  split
  · refine .bind (inRead_waitsRightly c) fun v d => ?_
    cases v <;> exact .done _ _
  · exact .done _ _

theorem getBitsFrom_follows (n : Nat) (v : Byte) (k : Nat) (c : Ctx) : c.Follows (getBitsFrom n v k c).ctx := by
  induction n generalizing v k c with
  | zero => exact .refl c
  | succ n ih =>
    refine .bind (getBit_follows c) fun b d => ?_
    cases b with
    | none => exact .refl d
    | some b => exact ih _ _ d

theorem getBitsFrom_waitsRightly (n : Nat) (v : Byte) (k : Nat) (c : Ctx) :
    (getBitsFrom n v k c).WaitsRightly := by
  induction n generalizing v k c with
  | zero => exact .done _ _
  | succ n ih =>
    refine .bind (getBit_waitsRightly c) fun b d => ?_
    cases b with
    | none => exact .done _ _
    | some b => exact ih _ _ d

theorem getBits_follows (n : Nat) (c : Ctx) : c.Follows (getBits n c).ctx := getBitsFrom_follows n 0 0 c

theorem getBits_waitsRightly (n : Nat) (c : Ctx) : (getBits n c).WaitsRightly := getBitsFrom_waitsRightly n 0 0 c

/-! ## The sequencers -/

theorem encbCore_follows (b : Byte) (c : Ctx) : c.Follows (encbCore b c).ctx := by
  unfold encbCore
  split
  · exact (Ctx.Follows.derivePath c _).trans (.bind (putCode_follows _) fun _ d => .observe d b)
  · exact (Ctx.Follows.derivePath c _).trans
      (.bind (putCode_follows _) fun _ d => .bind (putAll_follows _ d) fun _ e => .observe e b)

theorem encbCore_waitsRightly (b : Byte) (c : Ctx) : (encbCore b c).WaitsRightly := by
  unfold encbCore
  split
  · exact .bind (putCode_waitsRightly _) fun _ _ => .done _ _
  · exact .bind (putCode_waitsRightly _) fun _ d => .bind (putAll_waitsRightly _ d) fun _ _ => .done _ _

theorem encendCore_follows (c : Ctx) : c.Follows (encendCore c).ctx := by
  unfold encendCore
  split
  · exact (Ctx.Follows.derivePath c _).trans (.bind (putCode_follows _) fun _ d =>
      .bind (putAll_follows _ d) fun _ e => .bind (flushCore_follows e) fun _ f => .refl f)
  · exact .bind (flushCore_follows c) fun _ d => .refl d

theorem encendCore_waitsRightly (c : Ctx) : (encendCore c).WaitsRightly := by
  unfold encendCore
  split
  · exact .bind (putCode_waitsRightly _) fun _ d => .bind (putAll_waitsRightly _ d) fun _ e =>
      .bind (flushCore_waitsRightly e) fun _ _ => .done _ _
  · exact .bind (flushCore_waitsRightly c) fun _ _ => .done _ _

theorem descend_follows (fuel : Nat) (c : Ctx) : c.Follows (descend fuel c).ctx := by
  induction fuel generalizing c with
  | zero => exact .refl c
  | succ fuel ih =>
    unfold descend
    split
    · refine .bind (getBit_follows c) fun b d => ?_
      cases b with
      | none => exact .refl d
      | some b => exact (Ctx.Follows.adv d b).trans (ih _)
    · exact .refl c

theorem descend_waitsRightly (fuel : Nat) (c : Ctx) : (descend fuel c).WaitsRightly := by
  induction fuel generalizing c with
  | zero => exact .done _ _
  | succ fuel ih =>
    unfold descend
    split
    · refine .bind (getBit_waitsRightly c) fun b d => ?_
      cases b with
      | none => exact .done _ _
      | some b => exact ih _
    · exact .done _ _

theorem decodeByte_follows (v : Byte) (c : Ctx) : c.Follows (decodeByte v c).ctx :=
  .bind (outWrite_follows v c) fun _ d => .observe d v

theorem decodeByte_waitsRightly (v : Byte) (c : Ctx) : (decodeByte v c).WaitsRightly :=
  .bind (outWrite_waitsRightly v c) fun _ _ => .done _ _

theorem decodeFirst_follows (c : Ctx) : c.Follows (decodeFirst c).ctx := by
  refine .bind (getBits_follows 8 c) fun g d => ?_
  split
  · exact .refl d
  · exact .bind (decodeByte_follows _ d) fun _ e => .setDecState e _

theorem decodeFirst_waitsRightly (c : Ctx) : (decodeFirst c).WaitsRightly := by
  refine .bind (getBits_waitsRightly 8 c) fun g d => ?_
  split
  · exact .done _ _
  · exact .bind (decodeByte_waitsRightly _ d) fun _ _ => .done _ _

theorem decodeLiteral_follows (c : Ctx) : c.Follows (decodeLiteral c).ctx := by
  refine .bind (getBits_follows 8 c) fun g d => ?_
  split
  · exact .setDecState d _
  · split
    · exact .setDecState d _
    · exact decodeByte_follows _ d

theorem decodeLiteral_waitsRightly (c : Ctx) : (decodeLiteral c).WaitsRightly := by
  refine .bind (getBits_waitsRightly 8 c) fun g d => ?_
  split
  · exact .done _ _
  · split
    · exact .done _ _
    · exact decodeByte_waitsRightly _ d

theorem decodeNext_follows (c : Ctx) : c.Follows (decodeNext c).ctx := by
  refine (Ctx.Follows.walkClear c).trans (.bind (descend_follows _ _) fun r d => ?_)
  split
  · split
    · exact (Ctx.Follows.walkClear d).trans (decodeByte_follows _ _)
    · exact (Ctx.Follows.walkClear d).trans (decodeLiteral_follows _)
  · exact (Ctx.Follows.setDecState d _).trans (.walkClear _)

theorem decodeNext_waitsRightly (c : Ctx) : (decodeNext c).WaitsRightly := by
  refine .bind (descend_waitsRightly _ _) fun r d => ?_
  split
  · split
    · exact decodeByte_waitsRightly _ _
    · exact decodeLiteral_waitsRightly _
  · exact .done _ _

theorem decstepCore_follows (c : Ctx) : c.Follows (decstepCore c).ctx := by
  unfold decstepCore
  split
  · exact .refl c
  · split
    · exact .refl c
    · split
      · exact decodeFirst_follows c
      · exact decodeNext_follows c

theorem decstepCore_waitsRightly (c : Ctx) : (decstepCore c).WaitsRightly := by
  unfold decstepCore
  split
  · exact .done _ _
  · split
    · exact .fail _ _
    · split
      · exact decodeFirst_waitsRightly c
      · exact decodeNext_waitsRightly c

theorem encrunLoop_follows (fuel n : Nat) (c : Ctx) : c.Follows (encrunLoop fuel n c).ctx := by
  induction fuel generalizing n c with
  | zero => exact .refl c
  | succ fuel ih =>
    unfold encrunLoop
    split
    · exact .refl c
    · refine .bind (inRead_follows c) fun v d => ?_
      cases v with
      | none => exact .bind (encendCore_follows d) fun _ e => .refl e
      | some v => exact .bind (encbCore_follows v d) fun _ e => ih _ e

theorem encrunLoop_waitsRightly (fuel n : Nat) (c : Ctx) : (encrunLoop fuel n c).WaitsRightly := by
  induction fuel generalizing n c with
  | zero => exact .done _ _
  | succ fuel ih =>
    unfold encrunLoop
    split
    · exact .fail _ _
    · refine .bind (inRead_waitsRightly c) fun v d => ?_
      cases v with
      | none => exact .bind (encendCore_waitsRightly d) fun _ _ => .done _ _
      | some v => exact .bind (encbCore_waitsRightly v d) fun _ e => ih _ e

theorem decrunLoop_follows (fuel n : Nat) (c : Ctx) : c.Follows (decrunLoop fuel n c).ctx := by
  induction fuel generalizing n c with
  | zero =>
    refine .bind (decstepCore_follows c) fun r d => ?_
    split <;> exact .refl d
  | succ fuel ih =>
    refine .bind (decstepCore_follows c) fun r d => ?_
    split
    · exact ih _ d
    · exact .refl d

theorem decrunLoop_waitsRightly (fuel n : Nat) (c : Ctx) : (decrunLoop fuel n c).WaitsRightly := by
  induction fuel generalizing n c with
  | zero =>
    refine .bind (decstepCore_waitsRightly c) fun r d => ?_
    split
    · exact .fail _ _
    · exact .done _ _
  | succ fuel ih =>
    refine .bind (decstepCore_waitsRightly c) fun r d => ?_
    split
    · exact ih _ d
    · exact .done _ _

/-! ## Whole commands -/

/-- The pseudocode of each command, in one place (R103). -/
def bodyOf : Instr → Ctx → Run Word
  | .nop => nopBody
  | .init mask => initBody mask
  | .observe sym => observeBody sym
  | .isobs sym => isobsBody sym
  | .code sym => codeBody sym
  | .esccode => esccodeBody
  | .wreset => wresetBody
  | .wadv bit => wadvBody bit
  | .encrun => encrunBody
  | .decrun => decrunBody
  | .putbits count value => putbitsBody count value
  | .putcode => putcodeBody
  | .flush => flushBody
  | .getbits count => getbitsBody count
  | .encb sym => encbBody sym
  | .encend => encendBody
  | .decstep => decstepBody
  | .setctrl v => setctrlBody v

/-- Does the command start a new run (R97 (b))? -/
def startsRun : Instr → Bool
  | .init mask => selectsUnpacker mask
  | _ => false

/-- Every command is its pseudocode, issued. This is the one lemma about `exec` that the laws of all commands use. -/
theorem exec_eq (i : Instr) (s : State) :
    exec i s = .next ((s.noteNewRun (startsRun i)).settle i (bodyOf i s.ctx)) := by
  have h : s.noteNewRun false = s := by simp [State.noteNewRun]
  cases i with
  | init mask => rfl
  | _ => simp only [startsRun, h]; rfl

/-- Every command but INIT and SETCTRL follows. -/
theorem bodyOf_follows (i : Instr) (c : Ctx) (hi : ∀ mask, i ≠ .init mask) (hs : ∀ v, i ≠ .setctrl v) :
    c.Follows (bodyOf i c).ctx := by
  cases i with
  | nop => exact .refl c
  | init mask => exact absurd rfl (hi mask)
  | observe sym =>
    simp only [bodyOf, observeBody]
    split
    · exact .refl c
    · exact .observe c sym
  | isobs sym => exact .refl c
  | code sym =>
    simp only [bodyOf, codeBody]
    split
    · exact .derivePath c _
    · exact .refl c
  | esccode => exact .derivePath c _
  | wreset => exact .walkClear c
  | wadv bit =>
    simp only [bodyOf, wadvBody]
    split
    · exact .adv c bit
    · exact .refl c
  | encrun => exact encrunLoop_follows _ _ c
  | decrun => exact decrunLoop_follows _ _ c
  | putbits count value => exact .bind (putAll_follows _ c) fun _ d => .refl d
  | putcode => exact .bind (putCode_follows c) fun _ d => .refl d
  | flush => exact .bind (flushCore_follows c) fun _ d => .refl d
  | getbits count => exact .bind (getBits_follows count c) fun _ d => .refl d
  | encb sym =>
    simp only [bodyOf, encbBody]
    split
    · exact .refl c
    · exact .bind (encbCore_follows sym c) fun _ d => .refl d
  | encend => exact .bind (encendCore_follows c) fun _ d => .refl d
  | decstep => exact .bind (decstepCore_follows c) fun _ d => .refl d
  | setctrl v => exact absurd rfl (hs v)

/-- No command moves the streams in another way than R91 says. -/
theorem bodyOf_streams (i : Instr) (c : Ctx) : c.Streams (bodyOf i c).ctx := by
  by_cases hi : ∃ mask, i = .init mask
  · obtain ⟨mask, rfl⟩ := hi
    exact .of_eng c _
  · by_cases hs : ∃ v, i = .setctrl v
    · obtain ⟨v, rfl⟩ := hs
      exact .of_eng c _
    · exact (bodyOf_follows i c (fun m h => hi ⟨m, h⟩) fun v h => hs ⟨v, h⟩).streams

/-- A command waits only on a port that gives it nothing (R81, R82). -/
theorem bodyOf_waitsRightly (i : Instr) (c : Ctx) : (bodyOf i c).WaitsRightly := by
  cases i with
  | nop => exact .done _ _
  | init mask => exact .done _ _
  | observe sym =>
    simp only [bodyOf, observeBody]
    split
    · exact .fail _ _
    · exact .done _ _
  | isobs sym => exact .done _ _
  | code sym =>
    simp only [bodyOf, codeBody]
    split
    · exact .done _ _
    · exact .fail _ _
  | esccode => exact .done _ _
  | wreset => exact .done _ _
  | wadv bit =>
    simp only [bodyOf, wadvBody]
    split
    · exact .done _ _
    · exact .fail _ _
  | encrun => exact encrunLoop_waitsRightly _ _ c
  | decrun => exact decrunLoop_waitsRightly _ _ c
  | putbits count value => exact .bind (putAll_waitsRightly _ c) fun _ _ => .done _ _
  | putcode => exact .bind (putCode_waitsRightly c) fun _ _ => .done _ _
  | flush => exact .bind (flushCore_waitsRightly c) fun _ _ => .done _ _
  | getbits count => exact .bind (getBits_waitsRightly count c) fun _ _ => .done _ _
  | encb sym =>
    simp only [bodyOf, encbBody]
    split
    · exact .fail _ _
    · exact .bind (encbCore_waitsRightly sym c) fun _ _ => .done _ _
  | encend => exact .bind (encendCore_waitsRightly c) fun _ _ => .done _ _
  | decstep => exact .bind (decstepCore_waitsRightly c) fun _ _ => .done _ _
  | setctrl v => exact .done _ _

end Sys2Proof.Machine
end

