-- ==== Sys2Proof/Laws/Bits.lean ====
section
/-! SUPPORT. The bit primitives, each by its cases, and what one bit does to the bit streams. -/

namespace Sys2Proof.Machine

/-! ## Bits of a byte -/

@[simp] theorem bitsDown_length (v : Byte) (n : Nat) : (bitsDown v n).length = n := by
  induction n with
  | zero => rfl
  | succ n ih => simp [bitsDown, ih]

@[simp] theorem literalBits_length (v : Byte) : (literalBits v).length = 8 := bitsDown_length v 8

theorem bytesBits_length (bs : List Byte) : (bytesBits bs).length = 8 * bs.length := by
  induction bs with
  | nil => rfl
  | cons b bs ih =>
    simp only [bytesBits, List.flatMap_cons, List.length_append, literalBits_length, List.length_cons] at ih ⊢
    omega

@[simp] theorem bytesBits_cons (b : Byte) (bs : List Byte) : bytesBits (b :: bs) = literalBits b ++ bytesBits bs := rfl

theorem bytesBits_append (xs ys : List Byte) : bytesBits (xs ++ ys) = bytesBits xs ++ bytesBits ys := by
  simp [bytesBits]

/-- A bit shifted in at the bottom (R170). -/
theorem Packer.shiftIn_getLsbD (p : Packer) (b : Bool) (i : Nat) :
    (p.shiftIn b).getLsbD i = if i = 0 then b else if i < 8 then p.buf.getLsbD (i - 1) else false := by
  unfold Packer.shiftIn
  rw [BitVec.getLsbD_append]
  rcases i with _ | i
  · simp
  · by_cases h : i < 7
    · simp [h, show i + 1 < 8 from by omega]
    · simp [h, show ¬ i + 1 < 8 from by omega]

/-- The bits held are the bits held before and then the new one, oldest first (R40, R170). -/
theorem Packer.bitsDown_shiftIn (p : Packer) (b : Bool) (n : Nat) (h : n ≤ 7) :
    bitsDown (p.shiftIn b) (n + 1) = bitsDown p.buf n ++ [b] := by
  induction n with
  | zero => simp only [bitsDown, Packer.shiftIn_getLsbD]; rfl
  | succ n ih =>
    rw [bitsDown, ih (by omega), bitsDown, Packer.shiftIn_getLsbD]
    simp only [Nat.add_one_ne_zero, if_false, Nat.add_sub_cancel, List.cons_append]
    rw [if_pos (by omega)]

/-! ## The code buffer (R39, R138) -/

/-- Entry `i` is the `i`-th bit of the path, and every entry past the path reads 0. -/
theorem Code.ofPath_getLsbD (p : List Bool) (i : Nat) (h : p.length ≤ 256) :
    (Code.ofPath p).buf.getLsbD i = p.getD i false := by
  simp only [Code.ofPath, BitVec.getLsbD_setWidth, BitVec.getLsbD_ofBoolListLE]
  by_cases hi : i < p.length
  · simp [hi, show i < 256 from by omega]
  · simp [hi]

/-- `CODE_LEN` is the length of the path. -/
theorem Code.ofPath_len (p : List Bool) (h : p.length ≤ 256) : (Code.ofPath p).len.toNat = p.length := by
  simp only [Code.ofPath, BitVec.toNat_ofNat]
  omega

/-- The valid entries are the path. -/
theorem Code.ofPath_bits (p : List Bool) (h : p.length ≤ 256) : (Code.ofPath p).bits = p := by
  rw [Code.bits, Code.ofPath_len p h]
  apply List.ext_getElem
  · simp
  · intro i h1 h2
    simp [Code.ofPath_getLsbD p i h, h2]

/-! ## `PUT_BIT` and `FLUSH_CORE` (R170, R172) -/

/-- Everything `PUT_BIT` can do. -/
theorem putBit_cases (b : Bool) (c : Ctx) :
    (c.eng.packer.cnt ≠ 7 ∧
      putBit b c = .done () (c.setPacker { buf := c.eng.packer.shiftIn b, cnt := c.eng.packer.cnt + 1 })) ∨
    (c.eng.packer.cnt = 7 ∧ c.room ≠ some 0 ∧ putBit b c = .done () (Ctx.setPacker
      { c with room := c.room.map (· - 1), sent := c.sent ++ [c.eng.packer.shiftIn b] } Packer.empty)) ∨
    (c.eng.packer.cnt = 7 ∧ c.room = some 0 ∧ putBit b c = .wait .output c) := by
  by_cases h : c.eng.packer.cnt = 7
  · by_cases hr : c.room = some 0
    · exact .inr (.inr ⟨h, hr, by rw [putBit, if_pos h]; simp [outWrite, hr]⟩)
    · exact .inr (.inl ⟨h, hr, by rw [putBit, if_pos h, outWrite_done _ _ hr]; rfl⟩)
  · exact .inl ⟨h, by rw [putBit, if_neg h]⟩

/-- Everything `FLUSH_CORE` can do. -/
theorem flushCore_cases (c : Ctx) :
    (c.eng.packer.cnt = 0 ∧ flushCore c = .done 0 c) ∨
    (c.eng.packer.cnt ≠ 0 ∧ c.room ≠ some 0 ∧ flushCore c = .done (8 - c.eng.packer.cnt.toNat) (Ctx.setPacker
      { c with room := c.room.map (· - 1), sent := c.sent ++ [c.eng.packer.buf <<< (8 - c.eng.packer.cnt.toNat)] }
      Packer.empty)) ∨
    (c.eng.packer.cnt ≠ 0 ∧ c.room = some 0 ∧ flushCore c = .wait .output c) := by
  by_cases h : c.eng.packer.cnt = 0
  · exact .inl ⟨h, by rw [flushCore, if_pos h]⟩
  · by_cases hr : c.room = some 0
    · exact .inr (.inr ⟨h, hr, by rw [flushCore, if_neg h]; simp [outWrite, hr]⟩)
    · exact .inr (.inl ⟨h, hr, by rw [flushCore, if_neg h]; simp only [outWrite_done _ _ hr, Run.done_bind]⟩)

/-! ## `GET_BIT` (R175) -/

/-- Everything `GET_BIT` can do. -/
theorem getBit_cases (c : Ctx) :
    (c.eng.unpacker.cnt ≠ 0 ∧ getBit c = .done (some (c.eng.unpacker.buf.getLsbD (c.eng.unpacker.cnt - 1).toNat))
      (c.setUnpacker { c.eng.unpacker with cnt := c.eng.unpacker.cnt - 1 })) ∨
    (c.eng.unpacker.cnt = 0 ∧ ∃ v rest, c.inp = v :: rest ∧ getBit c = .done (some (v.getLsbD 7)) (Ctx.setUnpacker
      { c with inp := rest, taken := c.taken ++ [v] } { buf := v, cnt := 7 })) ∨
    (c.eng.unpacker.cnt = 0 ∧ c.inp = [] ∧ c.eod = true ∧ getBit c = .done none c) ∨
    (c.eng.unpacker.cnt = 0 ∧ c.inp = [] ∧ c.eod = false ∧ getBit c = .wait .input c) := by
  by_cases h : c.eng.unpacker.cnt = 0
  · cases hi : c.inp with
    | cons v rest =>
      refine .inr (.inl ⟨h, v, rest, rfl, ?_⟩)
      have ht : ({ buf := v, cnt := 8 } : Unpacker).take = (v.getLsbD 7, { buf := v, cnt := 7 }) := by
        simp [Unpacker.take]
      simp only [getBit, if_pos h, inRead, hi, Run.done_bind, ht]
    | nil =>
      cases he : c.eod with
      | true => exact .inr (.inr (.inl ⟨h, rfl, rfl, by rw [getBit, if_pos h]; simp [inRead, hi, he]⟩))
      | false => exact .inr (.inr (.inr ⟨h, rfl, rfl, by rw [getBit, if_pos h]; simp [inRead, hi, he]⟩))
  · exact .inl ⟨h, by simp only [getBit, if_neg h]; rfl⟩

/-- The unread bits, with one at least, are the next bit and then the rest (R42, R175). -/
theorem Unpacker.unread_of_ne_zero (u : Unpacker) (h : u.cnt ≠ 0) :
    u.unread = u.buf.getLsbD (u.cnt - 1).toNat :: ({ u with cnt := u.cnt - 1 } : Unpacker).unread := by
  have hn : u.cnt.toNat ≠ 0 := fun he => h (BitVec.eq_of_toNat_eq (by simpa using he))
  have hs : u.cnt.toNat = (u.cnt - 1).toNat + 1 := by bv_omega
  simp only [Unpacker.unread]
  conv => lhs; rw [hs, bitsDown]

end Sys2Proof.Machine
end

