-- ==== Sys2Proof/Laws/PerInstr.lean ====
section
/-! SUPPORT. The laws made per instruction: for every well-formed command, its word has the match value of its row of
30_encoding.md R104 under the row's mask. -/

namespace Sys2Proof.Laws

/-- A word of format S, M or B keeps its operand below the bits its row's mask fixes. -/
theorem layout_and_ff00 (op n : BitVec 4) (imm : Byte) : layout op n imm &&& 0xFF00#16 = layout op n 0 := by
  simp only [layout]
  refine BitVec.eq_of_getLsbD_eq fun i hi => ?_
  simp only [BitVec.getLsbD_and, BitVec.getLsbD_append]
  interval_cases i <;> simp

/-- The rows of R104 with a given mnemonic. -/
theorem row_of_mnemonic {r : Row} (h : r ∈ opcodeRows) (m : String) (hm : r.mnemonic = m) :
    r ∈ opcodeRows.filter (·.mnemonic == m) := by
  simpa [h] using hm

/-- What the family states of one command. -/
def EncodedRow.Statement (i : Instr) : Prop :=
  i.wellFormed = true → ∀ r ∈ opcodeRows, r.mnemonic = i.mnemonic → encode i &&& r.mask = r.fixed

/-- A command whose mnemonic names one row, and whose word matches that row. -/
theorem EncodedRow.of_row {i : Instr} {row : Row} (hi : i.mnemonic = row.mnemonic)
    (hr : opcodeRows.filter (·.mnemonic == row.mnemonic) = [row])
    (h : i.wellFormed = true → encode i &&& row.mask = row.fixed) : EncodedRow.Statement i := by
  intro hw r hmem hm
  have := row_of_mnemonic hmem _ (hm.trans hi)
  rw [hr, List.mem_singleton] at this
  exact this ▸ h hw

theorem EncodedRow.nop : EncodedRow.Statement .nop := EncodedRow.of_row (row := ⟨"NOP", 0xFFFF, 0x0000⟩) rfl (by decide) fun _ => by decide

theorem EncodedRow.init (mask : BitVec 5) : EncodedRow.Statement (.init mask) :=
  EncodedRow.of_row (row := ⟨"INIT", 0xFFE0, 0x1000⟩) rfl (by decide) fun _ => by revert mask; decide

theorem EncodedRow.observe (sym : Byte) : EncodedRow.Statement (.observe sym) :=
  EncodedRow.of_row (row := ⟨"OBSERVE", 0xFF00, 0x2000⟩) rfl (by decide) fun _ => layout_and_ff00 2 0 sym

theorem EncodedRow.isobs (sym : Byte) : EncodedRow.Statement (.isobs sym) :=
  EncodedRow.of_row (row := ⟨"ISOBS", 0xFF00, 0x3000⟩) rfl (by decide) fun _ => layout_and_ff00 3 0 sym

theorem EncodedRow.code (sym : Byte) : EncodedRow.Statement (.code sym) :=
  EncodedRow.of_row (row := ⟨"CODE", 0xFF00, 0x4000⟩) rfl (by decide) fun _ => layout_and_ff00 4 0 sym

theorem EncodedRow.esccode : EncodedRow.Statement .esccode :=
  EncodedRow.of_row (row := ⟨"ESCCODE", 0xFFFF, 0x5000⟩) rfl (by decide) fun _ => by decide

theorem EncodedRow.wreset : EncodedRow.Statement .wreset :=
  EncodedRow.of_row (row := ⟨"WRESET", 0xFFFF, 0x6000⟩) rfl (by decide) fun _ => by decide

theorem EncodedRow.wadv (bit : Bool) : EncodedRow.Statement (.wadv bit) :=
  EncodedRow.of_row (row := ⟨"WADV", 0xFFFE, 0x6100⟩) rfl (by decide) fun _ => by revert bit; decide

theorem EncodedRow.encrun : EncodedRow.Statement .encrun :=
  EncodedRow.of_row (row := ⟨"ENCRUN", 0xFFFF, 0x7000⟩) rfl (by decide) fun _ => by decide

theorem EncodedRow.decrun : EncodedRow.Statement .decrun :=
  EncodedRow.of_row (row := ⟨"DECRUN", 0xFFFF, 0x7100⟩) rfl (by decide) fun _ => by decide

theorem EncodedRow.putbits (count : Nat) (value : Byte) : EncodedRow.Statement (.putbits count value) :=
  EncodedRow.of_row (row := ⟨"PUTBITS", 0xF800, 0x8000⟩) rfl (by decide) fun _ => by
    simp only [encode, countField, layout]
    refine BitVec.eq_of_getLsbD_eq fun i hi => ?_
    simp only [BitVec.getLsbD_and, BitVec.getLsbD_append]
    interval_cases i <;> simp

theorem EncodedRow.putcode : EncodedRow.Statement .putcode :=
  EncodedRow.of_row (row := ⟨"PUTCODE", 0xFFFF, 0x9000⟩) rfl (by decide) fun _ => by decide

theorem EncodedRow.flush : EncodedRow.Statement .flush :=
  EncodedRow.of_row (row := ⟨"FLUSH", 0xFFFF, 0xA000⟩) rfl (by decide) fun _ => by decide

theorem EncodedRow.getbits (count : Nat) : EncodedRow.Statement (.getbits count) :=
  EncodedRow.of_row (row := ⟨"GETBITS", 0xF8FF, 0xB000⟩) rfl (by decide) fun _ => by
    simp only [encode, countField, layout]
    refine BitVec.eq_of_getLsbD_eq fun i hi => ?_
    simp only [BitVec.getLsbD_and, BitVec.getLsbD_append]
    interval_cases i <;> simp

theorem EncodedRow.encb (sym : Byte) : EncodedRow.Statement (.encb sym) :=
  EncodedRow.of_row (row := ⟨"ENCB", 0xFF00, 0xC000⟩) rfl (by decide) fun _ => layout_and_ff00 0xC 0 sym

theorem EncodedRow.encend : EncodedRow.Statement .encend :=
  EncodedRow.of_row (row := ⟨"ENCEND", 0xFFFF, 0xD000⟩) rfl (by decide) fun _ => by decide

theorem EncodedRow.decstep : EncodedRow.Statement .decstep :=
  EncodedRow.of_row (row := ⟨"DECSTEP", 0xFFFF, 0xE000⟩) rfl (by decide) fun _ => by decide

theorem EncodedRow.setctrl (v : Bool) : EncodedRow.Statement (.setctrl v) :=
  EncodedRow.of_row (row := ⟨"SETCTRL", 0xFFFE, 0xF000⟩) rfl (by decide) fun _ => by revert v; decide

end Sys2Proof.Laws
end

