-- ==== Sys2Proof/Laws/Step.lean ====
section
/-! SUPPORT. Everything one step can do, said once: a lifted hold goes on, or the host makes a move. -/

namespace Sys2Proof.Machine

/-- What a failure does to the state: R232 and R233. -/
theorem errorWord_eq (e : ErrCode) : errorWord e = 0x80000000#32 + BitVec.ofNat 32 e.number.toNat := by
  cases e <;> rfl

/-- Every command answers a next state, and no command faults or refuses (R230). -/
theorem exec_next (i : Instr) (s : State) : ∃ t, exec i s = .next t := ⟨_, exec_eq i s⟩

theorem exec_next_iff {i : Instr} {s t : State} :
    exec i s = .next t ↔ (s.noteNewRun (startsRun i)).settle i (bodyOf i s.ctx) = t := by
  rw [exec_eq]; exact ⟨fun h => Host.Outcome.next.inj h, fun h => h ▸ rfl⟩

/-- The three ends of a command (R230): it completes, it fails, or it holds. -/
theorem exec_ends {i : Instr} {s t : State} (h : exec i s = .next t) :
    (∃ r c, bodyOf i s.ctx = .done r c ∧ t = (s.noteNewRun (startsRun i)).complete r c) ∨
    (∃ e c, bodyOf i s.ctx = .fail e c ∧ t = (s.noteNewRun (startsRun i)).failWith e (encode i) c) ∨
    ∃ p c, bodyOf i s.ctx = .wait p c ∧ t = (s.noteNewRun (startsRun i)).waitOn i p c := by
  rw [exec_next_iff] at h
  cases hb : bodyOf i s.ctx with
  | done r c => exact .inl ⟨r, c, rfl, by rw [← h, hb]; rfl⟩
  | fail e c => exact .inr (.inl ⟨e, c, rfl, by rw [← h, hb]; rfl⟩)
  | wait p c => exact .inr (.inr ⟨p, c, rfl, by rw [← h, hb]; rfl⟩)

/-- The engine after a command, at every end. Apart from `RESULT` and the error record it is the engine its pseudocode
leaves. -/
theorem exec_eng {i : Instr} {s t : State} (h : exec i s = .next t) :
    ∃ r x, t.eng = { (bodyOf i s.ctx).ctx.eng with result := r, error := x } := by
  obtain ⟨r, c, hb, rfl⟩ | ⟨e, c, hb, rfl⟩ | ⟨p, c, hb, rfl⟩ := exec_ends h
  · exact ⟨r, c.eng.error, by simp [hb]⟩
  · exact ⟨errorWord e, c.eng.error.record e (encode i), by simp [hb]⟩
  · exact ⟨c.eng.result, c.eng.error, by simp [hb]⟩

/-- The streams after a command, at every end (R91). -/
theorem exec_streams {i : Instr} {s t : State} (h : exec i s = .next t) :
    t.inBytes = (bodyOf i s.ctx).ctx.inp ∧ t.outBytes = s.outBytes ++ (bodyOf i s.ctx).ctx.sent ∧
      t.outRoom = (bodyOf i s.ctx).ctx.room ∧ t.inEod = s.inEod := by
  obtain ⟨r, c, hb, rfl⟩ | ⟨e, c, hb, rfl⟩ | ⟨p, c, hb, rfl⟩ := exec_ends h <;> simp [hb]

/-- What every command leaves alone: the host's moves, its register reads and the free values drawn. -/
theorem exec_host {i : Instr} {s t : State} (h : exec i s = .next t) :
    t.host = s.host ∧ t.reads = s.reads ∧ t.draws = s.draws := by
  obtain ⟨r, c, hb, rfl⟩ | ⟨e, c, hb, rfl⟩ | ⟨p, c, hb, rfl⟩ := exec_ends h <;> simp

/-- A command that holds records itself, the engine it was accepted with, and the transfers it has made; and its port
gives it nothing. -/
theorem exec_hold {i : Instr} {s t : State} {k : Hold} (h : exec i s = .next t) (hk : t.hold = some k) :
    ∃ c, bodyOf i s.ctx = .wait k.port c ∧ k = (⟨i, k.port, s.eng, c.taken, c.sent.length⟩ : Hold) ∧ c.stuckOn k.port := by
  obtain ⟨r, c, hb, rfl⟩ | ⟨e, c, hb, rfl⟩ | ⟨p, c, hb, rfl⟩ := exec_ends h
  · simp at hk
  · simp at hk
  · simp only [State.waitOn_hold, State.noteNewRun_eng, Option.some.injEq] at hk
    subst hk
    exact ⟨c, hb, rfl, bodyOf_waitsRightly i s.ctx p c hb⟩

/-- Everything `rst` inside a command does (R262): the engine is reset, nothing holds, there is no response, and of the
host's side only the streams have moved. -/
theorem abandonIn_cases (s r : State) (i : Instr) (ins outs : Nat) :
    ∃ inp out room, s.abandonIn r i ins outs =
      ({ s with inBytes := inp, outBytes := out, outRoom := room } : State).hardwareReset := by
  unfold State.abandonIn
  split
  · exact ⟨_, _, _, rfl⟩
  · exact ⟨s.inBytes, s.outBytes, s.outRoom, rfl⟩
  · exact ⟨s.inBytes, s.outBytes, s.outRoom, rfl⟩

theorem abandon_cases (s : State) (ins outs : Nat) :
    ∃ inp out room, s.abandon ins outs =
      ({ s with inBytes := inp, outBytes := out, outRoom := room } : State).hardwareReset := by
  unfold State.abandon
  split
  · exact abandonIn_cases _ _ _ _ _
  · exact ⟨s.inBytes, s.outBytes, s.outRoom, rfl⟩

theorem abandonWord_cases (s : State) (w : Cmd) (ins outs : Nat) :
    ∃ inp out room, s.abandonWord w ins outs =
      ({ s with inBytes := inp, outBytes := out, outRoom := room } : State).hardwareReset := by
  unfold State.abandonWord
  split
  · exact abandonIn_cases _ _ _ _ _
  · exact ⟨s.inBytes, s.outBytes, s.outRoom, rfl⟩

/-- Of a command abandoned inside its run, at most `ins` bytes come off the front of the input and at most `outs` go
behind the output (R262, R91). -/
theorem abandonIn_streams (s r : State) (i : Instr) (ins outs : Nat) :
    (∃ bs, bs ++ (s.abandonIn r i ins outs).inBytes = r.inBytes ∧ bs.length ≤ ins) ∧
      ∃ bs, (s.abandonIn r i ins outs).outBytes = r.outBytes ++ bs ∧ bs.length ≤ outs := by
  obtain ⟨t, ht⟩ := exec_next i (r.limit ins outs)
  have hs := bodyOf_streams i (r.limit ins outs).ctx
  obtain ⟨hi, ho, -, -⟩ := exec_streams ht
  obtain ⟨bs, hsent, -, hroom⟩ := hs.sent
  obtain ⟨ts, htaken⟩ := hs.taken
  have hin := hs.input
  simp only [State.abandonIn, ht, State.hardwareReset_inBytes, State.hardwareReset_outBytes]
  simp only [State.ctx_taken, State.ctx_sent, State.ctx_inp, State.ctx_room, State.limit_inBytes, State.limit_outBytes,
    State.limit_outRoom, List.nil_append] at hin htaken hsent hroom ho
  rw [htaken] at hin
  refine ⟨⟨ts, ?_, ?_⟩, bs, by rw [ho, hsent], ?_⟩
  · rw [hi, ← List.append_assoc, hin, List.take_append_drop]
  · have := congrArg List.length hin
    simp only [List.length_append, List.length_take] at this
    omega
  · have := hroom _ rfl
    split at this <;> omega

/-- Everything the host's move can do. -/
theorem hostMove_cases {s t : State} (h : hostMove s = .next t) :
    t = s ∨
    (∃ w rest, s.host = .command w :: rest ∧ s.hold = none ∧ acceptWord w { s with host := rest } = .next t) ∨
    (∃ rest inp out room,
      t = ({ s with host := rest, inBytes := inp, outBytes := out, outRoom := room } : State).hardwareReset) ∨
    (t.eng = s.eng ∧ t.hold = s.hold ∧ t.outBytes = s.outBytes ∧ t.responses = s.responses) := by
  unfold hostMove at h
  split at h
  · exact .inl (Host.Outcome.next.inj h).symm
  · next w rest hh =>
    split at h
    · next hr =>
      refine .inr (.inl ⟨w, rest, hh, ?_, h⟩)
      simpa [State.cmdReady, State.busy] using hr
    · exact .inl (Host.Outcome.next.inj h).symm
  · next b rest hh =>
    unfold offerByte at h
    split at h
    · cases h
    · cases h; exact .inr (.inr (.inr ⟨rfl, rfl, rfl, rfl⟩))
  · cases h; exact .inr (.inr (.inr ⟨rfl, rfl, rfl, rfl⟩))
  · next rest hh =>
    unfold lowerInEod at h
    split at h
    · split at h
      · cases h; exact .inr (.inr (.inr ⟨rfl, rfl, rfl, rfl⟩))
      · cases h
    · cases h; exact .inr (.inr (.inr ⟨rfl, rfl, rfl, rfl⟩))
  · cases h; exact .inr (.inr (.inr ⟨rfl, rfl, rfl, rfl⟩))
  · cases h; exact .inr (.inr (.inr ⟨rfl, rfl, rfl, rfl⟩))
  · cases h; exact .inr (.inr (.inr ⟨rfl, rfl, rfl, rfl⟩))
  · next rest hh => cases h; exact .inr (.inr (.inl ⟨rest, _, _, _, rfl⟩))
  · next ins outs rest hh =>
    cases h
    obtain ⟨inp, out, room, ha⟩ := abandon_cases { s with host := rest } ins outs
    exact .inr (.inr (.inl ⟨rest, inp, out, room, ha⟩))
  · next w ins outs rest hh =>
    split at h
    · cases h
      obtain ⟨inp, out, room, ha⟩ := abandonWord_cases { s with host := rest } w ins outs
      exact .inr (.inr (.inl ⟨rest, inp, out, room, ha⟩))
    · exact .inl (Host.Outcome.next.inj h).symm

/-- Everything a word accepted on the command port can do (R79, R108). -/
theorem acceptWord_cases {w : Cmd} {s t : State} (h : acceptWord w s = .next t) :
    (∃ i, decode w = .ok i ∧ exec i s = .next t) ∨ (∃ e, decode w = .error e ∧ t = s.rejectWord w) := by
  unfold acceptWord at h
  split at h
  · next i hd => exact .inl ⟨i, hd, h⟩
  · next e hd => exact .inr ⟨e, hd, (Host.Outcome.next.inj h).symm⟩

/-- Everything a step can do. -/
theorem step_cases {s t : State} (h : step s = .next t) :
    (∃ k, s.hold = some k ∧ s.lifted k = true ∧ s.resetNext = false ∧ exec k.instr (s.rewind k) = .next t) ∨
      hostMove s = .next t := by
  unfold step at h
  split at h
  · next k hk =>
    split at h
    · next hl =>
      simp only [Bool.and_eq_true, Bool.not_eq_true'] at hl
      exact .inl ⟨k, hk, hl.1, hl.2, h⟩
    · exact .inr h
  · exact .inr h

/-- `rst` comes before everything the engine does (R96, R262). -/
theorem step_of_resetNext {s : State} (h : s.resetNext = true) : step s = hostMove s := by
  unfold step
  split
  · rw [if_neg (by simp [h])]
  · rfl

/-- A step of a ready engine, or of a command whose port still gives it nothing, is the host's move. -/
theorem step_hostMove {s : State} (h : ∀ k, s.hold = some k → s.lifted k = false) : step s = hostMove s := by
  unfold step
  split
  · next k hk => rw [if_neg (by simp [h k hk])]
  · rfl

end Sys2Proof.Machine
end

