-- ==== Sys2Proof/Laws/TreeCheck.lean ====
section
/-! SUPPORT. A check of the tree invariants that evaluates on a concrete tree, sound for R50 to R56, and with it the
finding of log entry 9: R50 to R56 alone are not kept by an observation. -/

namespace Sys2Proof.Machine

/-- The 10-bit indices from `lo` to below `hi`. -/
def allIdx (lo hi : Nat) (p : Idx → Bool) : Bool := (List.range' lo (hi - lo)).all fun k => p (BitVec.ofNat 10 k)

theorem allIdx_sound {lo hi : Nat} {p : Idx → Bool} (h : allIdx lo hi p = true) (n : Idx) (h1 : lo ≤ n.toNat)
    (h2 : n.toNat < hi) : p n = true := by
  have := List.all_eq_true.1 h n.toNat (by rw [List.mem_range'_1]; omega)
  simpa using this

/-! The arrays are read in one pass each, since reading an entry by its index walks the array. -/

/-- The symbol table holds the entry of byte `c` at place `c`. -/
theorem Tree.symtab_mem (t : Tree) (c : Byte) : (t.symEntry c, c.toNat) ∈ t.symtab.toList.zipIdx := by
  rw [List.mk_mem_zipIdx_iff_getElem?]
  have := c.isLt
  simp [Tree.symEntry]

/-- The number of bytes observed, counted in one pass. -/
theorem Tree.seenCount_eq (t : Tree) : t.seenCount = t.symtab.toList.countP (·.seen) := by
  have h : t.symtab.toList = (List.range 256).map fun c => t.symEntry (BitVec.ofNat 8 c) := by
    apply List.ext_getElem
    · simp
    · intro i h1 h2
      have hi : i < 256 := by simpa using h1
      simp [Tree.symEntry, Nat.mod_eq_of_lt hi]
  rw [h, List.countP_map, Tree.seenCount, List.countP_eq_length_filter]
  rfl

theorem Tree.free_of_drop {t : Tree} {k : Nat}
    (h : t.nodes.toList.drop k = List.replicate (513 - k) Node.free) (n : Idx) (hn : k ≤ n.toNat) :
    t.node n = Node.free := by
  by_cases hlt : n.toNat < 513
  · rw [Tree.node_of_lt hlt]
    have := congrArg (·[n.toNat - k]?) h
    simp only [List.getElem?_drop, List.getElem?_replicate] at this
    rw [show k + (n.toNat - k) = n.toNat from by omega, if_pos (by omega)] at this
    simpa [hlt] using this
  · exact t.node_out hlt

theorem Tree.nil_of_take {t : Tree} {k : Nat} (hk : k ≤ 513) (h : t.ord.toList.take k = List.replicate k NIL) (s : Idx)
    (hs : s.toNat < k) : t.ordAt s = NIL := by
  have hlt : s.toNat < 513 := by omega
  have := congrArg (·[s.toNat]?) h
  simp only [List.getElem?_take, List.getElem?_replicate, if_pos hs] at this
  simpa [hlt, Tree.ordAt] using this

/-- What R50 to R56 say of one allocated node. -/
abbrev Tree.NodeOk (t : Tree) (n : Idx) : Prop :=
  (t.node n).kind ≠ .free ∧
  (513 - t.next.toNat ≤ (t.node n).pos.toNat ∧ (t.node n).pos.toNat ≤ 512) ∧
  t.ordAt (t.node n).pos = n ∧
  (n ≠ t.esc → 1 ≤ (t.node n).weight) ∧
  (n ≠ ROOT → (t.node (t.node n).parent).kind = .int ∧
    ((t.node n).side = .left ∧ (t.node (t.node n).parent).left = n ∨
      (t.node n).side = .right ∧ (t.node (t.node n).parent).right = n)) ∧
  ((t.node n).kind = .int →
    (t.node n).weight = (t.node (t.node n).left).weight + (t.node (t.node n).right).weight ∧
    ((t.node n).left < t.next ∧ (t.node (t.node n).left).parent = n ∧ (t.node (t.node n).left).side = .left) ∧
    ((t.node n).right < t.next ∧ (t.node (t.node n).right).parent = n ∧ (t.node (t.node n).right).side = .right) ∧
    ((t.node (t.node n).left).pos.toNat + 1 = (t.node (t.node n).right).pos.toNat ∨
      (t.node (t.node n).right).pos.toNat + 1 = (t.node (t.node n).left).pos.toNat) ∧
    (t.node (t.node n).left).pos.toNat < (t.node n).pos.toNat ∧
    (t.node (t.node n).right).pos.toNat < (t.node n).pos.toNat) ∧
  ((t.node n).kind ≠ .int → (t.node n).left = NIL ∧ (t.node n).right = NIL) ∧
  ((t.node n).kind = .esc ↔ n = t.esc) ∧
  ((t.node n).kind = .sym →
    (t.symEntry (t.node n).symv).seen = true ∧ (t.symEntry (t.node n).symv).leaf = n) ∧
  ((t.node n).kind ≠ .sym → (t.node n).symv = 0)

/-- What R50 and R51 say of one occupied slot. -/
abbrev Tree.SlotOk (t : Tree) (s : Idx) : Prop :=
  t.ordAt s < t.next ∧ (t.node (t.ordAt s)).pos = s ∧
    (s.toNat < 512 → (t.node (t.ordAt s)).weight ≤ (t.node (t.ordAt (s + 1))).weight)

/-- What R56 says of one byte and its entry. -/
abbrev Tree.ByteOk (t : Tree) (e : SymEntry) (c : Byte) : Prop :=
  if e.seen then (t.node e.leaf).kind = .sym ∧ (t.node e.leaf).symv = c else e.leaf = NIL

/-- What R50, R53 and R55 say of the tree registers, the root, and the free entries and slots. -/
abbrev Tree.RegistersOk (t : Tree) : Prop :=
  t.next.toNat = 1 + 2 * t.symtab.toList.countP (·.seen) ∧ t.next.toNat ≤ 513 ∧
  (t.node t.esc).pos.toNat = 513 - t.next.toNat ∧
  t.esc < t.next ∧ (t.node t.esc).weight = 0 ∧ t.ordAt ROOT_SLOT = ROOT ∧
  (t.node ROOT).side = .root ∧ (t.node ROOT).parent = NIL ∧
  t.nodes.toList.drop t.next.toNat = List.replicate (513 - t.next.toNat) Node.free ∧
  t.ord.toList.take (513 - t.next.toNat) = List.replicate (513 - t.next.toNat) NIL

/-- The check of R50 to R56. -/
def Tree.check (t : Tree) : Bool :=
  decide t.RegistersOk && allIdx 0 t.next.toNat (fun n => decide (t.NodeOk n)) &&
    allIdx (513 - t.next.toNat) 513 (fun s => decide (t.SlotOk s)) &&
    t.symtab.toList.zipIdx.all fun x => decide (t.ByteOk x.1 (BitVec.ofNat 8 x.2))

/-- A tree that passes the check meets R50 to R56. -/
theorem Tree.specInv_of_check {t : Tree} (h : t.check = true) : t.SpecInv := by
  simp only [Tree.check, Bool.and_eq_true, decide_eq_true_eq] at h
  obtain ⟨⟨⟨⟨hn, hle, hpe, hea, hew, hrs, hrd, hrp, hfree, hnil⟩, hN⟩, hS⟩, hB⟩ := h
  have node (n : Idx) (hlt : n < t.next) : t.NodeOk n :=
    of_decide_eq_true (allIdx_sound hN n (by omega) hlt)
  have free (n : Idx) (hlt : ¬ n < t.next) : t.node n = Node.free :=
    Tree.free_of_drop hfree n (Nat.le_of_not_lt hlt)
  have slot (s : Idx) (h1 : 513 - t.next.toNat ≤ s.toNat) (h2 : s.toNat ≤ 512) : t.SlotOk s :=
    of_decide_eq_true (allIdx_sound hS s h1 (by omega))
  have byte (c : Byte) : t.ByteOk (t.symEntry c) c := by
    have := List.all_eq_true.1 hB _ (t.symtab_mem c)
    simpa using of_decide_eq_true this
  rw [← t.seenCount_eq] at hn
  have alloc (n : Idx) (k : Kind) (hk : k ≠ .free) (h : (t.node n).kind = k) : n < t.next := by
    by_cases hlt : n < t.next
    · exact hlt
    · exact absurd ((congrArg Node.kind (free n hlt)).symm.trans h) (Ne.symm hk)
  have int (n : Idx) (h : (t.node n).kind = .int) := (node n (alloc n .int (by decide) h)).2.2.2.2.2.1 h
  refine ⟨⟨fun n h => (node n h).1, free, hn, hle, Tree.nil_of_take (by omega) hnil, fun n h => (node n h).2.1,
    fun n h => (node n h).2.2.1, fun s h1 h2 => ⟨(slot s h1 h2).1, (slot s h1 h2).2.1⟩, hpe⟩,
    fun s h1 h2 => (slot s h1 (by omega)).2.2 h2,
    fun n h => (int n h).1,
    ⟨fun n h => (int n h).2.1, fun n h => (int n h).2.2.1, ⟨hrd, hrp⟩, ?_, fun n h => (node n h).2.2.2.2.1⟩,
    fun n h => (int n h).2.2.2,
    ⟨hea, ?_, hew, hrs, fun n h => (node n h).2.2.2.1⟩, ⟨?_, ?_, ?_, ?_⟩⟩
  · intro n h
    by_cases hlt : n < t.next
    · exact (node n hlt).2.2.2.2.2.2.1 h
    · simp [free n hlt, Node.free]
  · intro n
    by_cases hlt : n < t.next
    · exact (node n hlt).2.2.2.2.2.2.2.1
    · refine ⟨fun h => absurd (alloc n .esc (by decide) h) hlt, fun h => absurd (h ▸ hea) hlt⟩
  · intro c h
    have := byte c
    rwa [Tree.ByteOk, if_pos h] at this
  · intro c h
    have := byte c
    rwa [Tree.ByteOk, if_neg (by simp [h])] at this
  · exact fun n h => (node n (alloc n .sym (by decide) h)).2.2.2.2.2.2.2.2.1 h
  · intro n h
    by_cases hlt : n < t.next
    · exact (node n hlt).2.2.2.2.2.2.2.2.2 h
    · simp [free n hlt, Node.free]

/-- A tree that passes the check and keeps the escape leaf's parent where a split puts it meets the invariant that an
observation keeps. -/
theorem Tree.inv_of_check {t : Tree} (h : t.check = true)
    (he : t.esc ≠ ROOT → (t.node (t.node t.esc).parent).pos.toNat = (t.node t.esc).pos.toNat + 2) : t.Inv :=
  ⟨Tree.specInv_of_check h, he⟩

/-! ## R50 to R56 alone are not kept by an observation (log entry 9) -/

/-- A tree that meets R50 to R56, and that no run reaches: the escape leaf's parent sits three slots above it. -/
def Tree.stray : Tree :=
  let t := Tree.initial
  let t := t.setNode 0 { Node.free with weight := 2, kind := .int, side := .root, left := 2, right := 1, pos := 512 }
  let t := t.setNode 1 { Node.free with weight := 1, kind := .sym, symv := 0x41, parent := 0, side := .right, pos := 510 }
  let t := t.setNode 2 { weight := 1, kind := .int, symv := 0, parent := 0, side := .left, left := 4, right := 3, pos := 511 }
  let t := t.setNode 3 { Node.free with weight := 1, kind := .sym, symv := 0x42, parent := 2, side := .right, pos := 509 }
  let t := t.setNode 4 { Node.free with kind := .esc, parent := 2, side := .left, pos := 508 }
  let t := (((t.setOrd 511 2).setOrd 510 1).setOrd 509 3).setOrd 508 4
  let t := (t.setSym 0x41 { seen := true, leaf := 1 }).setSym 0x42 { seen := true, leaf := 3 }
  { t with next := 5, esc := 4 }

theorem stray_check : Tree.stray.check = true := by decide +kernel

/-- Observing `0x42` in that tree breaks R51: slot 509 becomes heavier than slot 510. -/
theorem stray_observed_unordered :
    (((Tree.stray.observe 0x42#8).tree.node ((Tree.stray.observe 0x42#8).tree.ordAt 509#10)).weight,
      ((Tree.stray.observe 0x42#8).tree.node ((Tree.stray.observe 0x42#8).tree.ordAt 510#10)).weight,
      (Tree.stray.observe 0x42#8).tree.next) = (2, 1, 5) := by decide +kernel

/-- R50 to R56 alone do not imply R51 after an observation, against the derivation R135 gives from R124 to R132. -/
theorem specInv_not_kept : ∃ (t : Tree) (c : Byte), t.SpecInv ∧ ¬ (t.observe c).tree.SpecInv := by
  refine ⟨Tree.stray, 0x42#8, Tree.specInv_of_check stray_check, fun h => ?_⟩
  have e := stray_observed_unordered
  simp only [Prod.mk.injEq] at e
  have := h.order 509#10 (by rw [e.2.2]; decide) (by decide)
  rw [show (509#10 + 1 : Idx) = 510#10 from by decide] at this
  have e1 := e.1
  have e2 := e.2.1
  omega

end Sys2Proof.Machine
end

