-- ==== Sys2Proof/Tests/Slice0.lean ====
section
/-! SUPPORT. The model's own tests. Every expected value is written out from the encodings of 30_encoding.md or is a
vector of 95_test_vectors.md, named by its number there. Then, for each statement with hypotheses, a state and operands
that meet them. -/

namespace Sys2Proof.Tests

set_option Elab.async false

open Sys2Proof.Machine

/-! ## Small states -/

/-- The reset state with another engine. -/
def engState (f : Engine → Engine) : State := { State.reset with eng := f State.reset.eng }

/-- Reset, and then the bytes of a list observed. -/
def seenState (bs : List Byte) : State := engState fun g => { g with tree := Tree.initial.observeAll bs }

/-- The tree of 41_tree_model.md R144: `0x41 0x42 0x42`. -/
def abb : List Byte := [0x41, 0x42, 0x42]

/-- The host's input, with end-of-data behind it. -/
def State.input (s : State) (bs : List Byte) : State := { s with inBytes := bs, inEod := true, eodMayFall := false }

/-- A number read from the state a command leaves. -/
def after {α : Type} (f : State → α) (i : Instr) (s : State) : Option α :=
  match exec i s with
  | .next t => some (f t)
  | .fault _ => none
  | .refused _ => none

/-- The response, and the bytes written. -/
def answer (s : State) : Word × List Byte := (s.eng.result, s.outBytes)

/-- An engine in which GETBITS 8 holds on input (B14). -/
def heldIn : State :=
  { State.reset with
    hold := some { instr := .getbits 8, port := .input, start := State.reset.eng, taken := [], sent := 0 } }

/-- An engine in which ENCRUN holds on output, with the input at its end. -/
def heldOut : State :=
  { engState fun g => { g with packer := { buf := 1, cnt := 1 } } with
    hold := some { instr := .encrun, port := .output, start := { State.reset.eng with packer := { buf := 1, cnt := 1 } },
                   taken := [], sent := 0 }
    inEod := true
    outRoom := some 0 }

/-! ## WellFormed refuses an ill-formed term (R102, R110) -/

theorem test_putbits_count_zero_refused : (Instr.putbits 0 0xFF).wellFormed = false := by decide
theorem test_putbits_count_nine_refused : (Instr.putbits 9 0xFF).wellFormed = false := by decide
theorem test_getbits_count_zero_refused : (Instr.getbits 0).wellFormed = false := by decide
theorem test_getbits_count_nine_refused : (Instr.getbits 9).wellFormed = false := by decide
theorem test_count_ends_accepted : (Instr.putbits 1 0).wellFormed ∧ (Instr.getbits 8).wellFormed := by decide

/-! ## Decoding, each word written out from R103 as `OP N IMM` -/

theorem test_decode_nop : decode 0b0000_0000_00000000#16 = .ok .nop := by decide
theorem test_decode_init : decode 0b0001_0000_00010110#16 = .ok (.init 0b10110) := by decide
theorem test_decode_observe : decode 0b0010_0000_11000001#16 = .ok (.observe 0xC1) := by decide
theorem test_decode_isobs : decode 0b0011_0000_01000010#16 = .ok (.isobs 0x42) := by decide
theorem test_decode_code : decode 0b0100_0000_10000001#16 = .ok (.code 0x81) := by decide
theorem test_decode_esccode : decode 0b0101_0000_00000000#16 = .ok .esccode := by decide
theorem test_decode_wreset : decode 0b0110_0000_00000000#16 = .ok .wreset := by decide
theorem test_decode_wadv : decode 0b0110_0001_00000001#16 = .ok (.wadv true) := by decide
theorem test_decode_encrun : decode 0b0111_0000_00000000#16 = .ok .encrun := by decide
theorem test_decode_decrun : decode 0b0111_0001_00000000#16 = .ok .decrun := by decide
theorem test_decode_putbits : decode 0b1000_0010_00000101#16 = .ok (.putbits 3 5) := by decide
theorem test_decode_putcode : decode 0b1001_0000_00000000#16 = .ok .putcode := by decide
theorem test_decode_flush : decode 0b1010_0000_00000000#16 = .ok .flush := by decide
theorem test_decode_getbits : decode 0b1011_0111_00000000#16 = .ok (.getbits 8) := by decide
theorem test_decode_encb : decode 0b1100_0000_01000010#16 = .ok (.encb 0x42) := by decide
theorem test_decode_encend : decode 0b1101_0000_00000000#16 = .ok .encend := by decide
theorem test_decode_decstep : decode 0b1110_0000_00000000#16 = .ok .decstep := by decide
theorem test_decode_setctrl : decode 0b1111_0000_00000001#16 = .ok (.setctrl true) := by decide

/-- E2, E3, E5, E7, E9, E10, E13, E14, E16, E17: words that are ILLEGAL, by the rule each breaks. -/
theorem test_decode_illegal :
    decode 0x0001 = .error .reservedImm ∧ decode 0x0100 = .error .reservedN ∧ decode 0x1020 = .error .reservedImm ∧
    decode 0x5001 = .error .reservedImm ∧ decode 0x6102 = .error .reservedImm ∧ decode 0x6200 = .error .reservedN ∧
    decode 0x7001 = .error .reservedImm ∧ decode 0x7200 = .error .reservedN ∧ decode 0x8800 = .error .reservedN ∧
    decode 0xA001 = .error .reservedImm ∧ decode 0xB001 = .error .reservedImm ∧ decode 0xB800 = .error .reservedN ∧
    decode 0xF002 = .error .reservedImm := by decide

/-- The words of R110's table, and R111's. -/
theorem test_encode_words :
    encode (.putbits 8 0x41) = 0x8741 ∧ encode (.getbits 8) = 0xB700 ∧ encode (.wadv false) = 0x6100 ∧
    encode (Pseudo.putlit 0x41).expand = 0x8741 ∧ encode Pseudo.resetall.expand = 0x101F ∧
    encode Pseudo.newrun.expand = 0x100F ∧ encode Pseudo.clrerr.expand = 0x1010 ∧ encode Pseudo.termon.expand = 0xF001 ∧
    encode Pseudo.termoff.expand = 0xF000 ∧ encode Pseudo.wadv0.expand = 0x6100 ∧ encode Pseudo.wadv1.expand = 0x6101 ∧
    encode Pseudo.getlit.expand = 0xB700 := by decide

/-! ## One command each, on a small state -/

/-- X1: NOP overwrites RESULT and leaves the tree. -/
theorem test_nop : after (fun t => (t.eng.result, treeWord t.eng)) .nop (seenState [0x41]) = some (0, 0x00030002) := by
  decide +kernel

/-- X2: INIT bit 0 gives the single-node tree. -/
theorem test_init_tree : after (fun t => treeWord t.eng) (.init 0x01) (seenState [0x41]) = some 0x00010000 := by
  decide +kernel

/-- B16: INIT bit 1 discards the pending bits and nothing else. -/
theorem test_init_packer :
    after (fun t => (packWord t.eng, unpackWord t.eng)) (.init 0x02)
      (engState fun g => { g with packer := { buf := 5, cnt := 3 }, unpacker := { buf := 0xA5, cnt := 5 } }) =
      some (0, 0x5A5) := by decide

/-- T3: the repeat makes one exchange. -/
theorem test_observe_exchange : after answer (.observe 0x42) (seenState [0x41, 0x42]) = some (0x00030010, []) := by
  decide +kernel

/-- T19: at `WMAX` OBSERVE fails and the tree stays. -/
theorem test_observe_overflow :
    after (fun t => (t.eng.result, treeWord t.eng, t.status)) (.observe 0x42)
      (engState fun g => { g with weightBits := 1, tree := Tree.initial.observeAll [0x41] }) =
      some (0x80000004, 0x00030002, 0x402) := by decide +kernel

/-- T4. -/
theorem test_isobs_seen : after answer (.isobs 0x41) (seenState abb) = some (0x00010001, []) := by decide +kernel
/-- T5. -/
theorem test_isobs_unseen : after answer (.isobs 0x43) (seenState abb) = some (0x03FF0000, []) := by decide +kernel

/-- T7: the code `01`. -/
theorem test_code : after (fun t => (t.eng.result, codeWord t.eng 0)) (.code 0x41) (seenState abb) =
    some (2, 0x40000000) := by decide +kernel
/-- T10. -/
theorem test_code_unobserved : after (fun t => (t.eng.result, t.status)) (.code 0x41) State.reset =
    some (0x80000002, 0x202) := by decide +kernel

/-- T8: the code `00`. -/
theorem test_esccode : after (fun t => (t.eng.result, codeWord t.eng 0, codeLenWord t.eng)) .esccode (seenState abb) =
    some (2, 0, 2) := by decide +kernel
/-- R139: empty while the escape leaf is the root. -/
theorem test_esccode_reset : after (fun t => (t.eng.result, codeLenWord t.eng)) .esccode State.reset = some (0, 0) := by
  decide +kernel

/-- K4: back to the root. -/
theorem test_wreset :
    after (fun t => walkWord t.eng) .wreset
      (engState fun g => { g with walker := { cur := 1, res := true, isSym := true, sym := 0x41 } }) = some 0 := by decide

/-- K5: the internal node 2. -/
theorem test_wadv_internal : after answer (.wadv false) (seenState abb) = some (0x00020000, []) := by decide +kernel
/-- K1: at a leaf. -/
theorem test_wadv_at_leaf : after (fun t => (t.eng.result, walkWord t.eng)) (.wadv false) State.reset =
    some (0x80000003, 0) := by decide +kernel

/-- B4: `101` pending, then `PUTBITS 8, 0xFF`. -/
theorem test_putbits :
    after (fun t => (answer t, packWord t.eng)) (.putbits 8 0xFF)
      (engState fun g => { g with packer := { buf := 5, cnt := 3 } }) = some ((0x00010008, [0xBF]), 0x307) := by
  decide +kernel
/-- B7: only `value[1:0]` is sent. -/
theorem test_putbits_ignores_high_bits :
    after (fun t => (answer t, packWord t.eng)) (.putbits 2 0xFD) State.reset = some ((2, []), 0x201) := by decide +kernel

/-- R178's example: the code `01`. -/
theorem test_putcode :
    after (fun t => (answer t, packWord t.eng)) .putcode
      (engState fun g => { g with code := { buf := 2, len := 2 } }) = some ((2, []), 0x201) := by decide +kernel

/-- B5. -/
theorem test_flush : after answer .flush (engState fun g => { g with packer := { buf := 7, cnt := 3 } }) =
    some (0x00010005, [0xE0]) := by decide +kernel
/-- B6. -/
theorem test_flush_empty : after answer .flush State.reset = some (0, []) := by decide +kernel

/-- B12: `101` of `A5`. -/
theorem test_getbits : after (fun t => (t.eng.result, unpackWord t.eng)) (.getbits 3) (State.input State.reset [0xA5]) =
    some (0x305, 0x5A5) := by decide +kernel
/-- B12: five bits, then exhaustion. -/
theorem test_getbits_exhausted :
    after (fun t => (t.eng.result, unpackWord t.eng)) (.getbits 8)
      (State.input (engState fun g => { g with unpacker := { buf := 0xA5, cnt := 5 } }) []) =
      some (0x00010505, 0x0A5) := by decide +kernel

/-- S1: the escape code `0` and the literal. -/
theorem test_encb_first : after (fun t => (answer t, packWord t.eng)) (.encb 0x42) (seenState [0x41]) =
    some ((0x00011009, [0x21]), 0x100) := by decide +kernel
/-- S1: the code `01` of the tree before the update. -/
theorem test_encb_repeat : after (fun t => (answer t, packWord t.eng)) (.encb 0x42) (seenState [0x41, 0x42]) =
    some ((2, []), 0x201) := by decide +kernel

/-- S2: the terminator. -/
theorem test_encend_terminates :
    after answer .encend
      (engState fun g => { g with tree := Tree.initial.observeAll abb, termEn := true, packer := { buf := 1, cnt := 3 } }) =
      some (0x0002100A, [0x20, 0x00]) := by decide +kernel
/-- S4: no terminator for an empty run. -/
theorem test_encend_empty : after answer .encend (engState fun g => { g with termEn := true }) = some (0, []) := by
  decide +kernel

/-- S7, step 2: the escape code `0` and the literal `0x42`. -/
theorem test_decstep_literal :
    after (fun t => (answer t, unpackWord t.eng)) .decstep
      (State.input (engState fun g => { g with tree := Tree.initial.observeAll [0x41], decState := .decoding }) [0x21, 0x20]) =
      some ((0x42, [0x42]), 0x720) := by decide +kernel
/-- S8, step 4: the terminator. -/
theorem test_decstep_sentinel :
    after (fun t => (answer t, t.eng.decState)) .decstep
      (State.input (engState fun g =>
        { g with tree := Tree.initial.observeAll abb, decState := .decoding, unpacker := { buf := 0x20, cnt := 5 } }) [0x00]) =
      some ((0x200, []), .done) := by decide +kernel

/-- S13. -/
theorem test_encrun : after answer .encrun (State.input State.reset [0x41, 0x42, 0x43]) =
    some (3, [0x41, 0x21, 0x08, 0x60]) := by decide +kernel
/-- P7: overflow in a run keeps what was done and takes no byte more. -/
theorem test_encrun_overflow :
    after (fun t => (answer t, t.inBytes, t.eng.error.cmd)) .encrun
      (State.input (engState fun g => { g with weightBits := 2 }) [0x41, 0x42, 0x43, 0x44]) =
      some ((0x80000004, [0x41, 0x21, 0x08]), [0x44], 0x7000) := by decide +kernel

/-- 90_conflicts.md C4: padding decodes as symbols. -/
theorem test_decrun : after answer .decrun (State.input State.reset [0x41, 0x21, 0x08, 0x60]) =
    some (5, [0x41, 0x42, 0x43, 0x41, 0x41]) := by decide +kernel
/-- S15: the terminated stream. -/
theorem test_decrun_terminated :
    after (fun t => (answer t, t.status, unpackWord t.eng)) .decrun
      (State.input State.reset [0x41, 0x21, 0x08, 0x70, 0x00]) =
      some ((3, [0x41, 0x42, 0x43]), 0x60, 0x200) := by decide +kernel

/-- X3. -/
theorem test_setctrl : after (fun t => (t.eng.result, ctrlWord t.eng)) (.setctrl true) State.reset = some (0, 1) := by decide

/-! ## The step and the ports -/

/-- The response of the step that runs a word placed where the next one is taken. -/
def stepAnswer (w : Nat) (s : State) : Option (Word × Word × Bool) :=
  match step (s.withFetchWord 16 w) with
  | .next t => some (t.eng.result, t.status, t.busy)
  | .fault _ => none
  | .refused _ => none

/-- R248: an illegal word. -/
theorem test_step_illegal : stepAnswer 0x0001 State.reset = some (0x80000001, 0x102, false) := by decide +kernel
/-- B14: GETBITS with no byte offered holds. -/
theorem test_step_hold : stepAnswer 0xB000 State.reset = some (0, 0x05, true) := by decide +kernel
/-- What the host sees of a step: `BUSY`, the bytes it still has to offer, and the responses. -/
def hostSees (s : State) : Option (Bool × List Byte × List Word) :=
  match step s with
  | .next t => some (t.busy, t.inBytes, t.responses)
  | .fault _ => none
  | .refused _ => none

/-- R262: `rst` in a hold whose port condition has come abandons the command, and the byte stays the host's. -/
theorem test_rst_in_lifted_hold : hostSees { heldIn with inBytes := [0x41], host := [.rst] } =
    some (false, [0x41], []) := by decide +kernel
/-- R262: of GETBITS abandoned after its transfer the byte "is gone from the host's sequence", and there is no
response. -/
theorem test_rst_within_command :
    hostSees { State.reset with inBytes := [0x41, 0x42], host := [.rstWithin (some 0xB700) 1 0] } =
      some (false, [0x42], []) := by decide +kernel
/-- R76: `WEIGHT`, and `PARENT`, `SIDE`, `KIND`, `SYMV` of node 1 (P1's node array). -/
theorem test_node_view : ((seenState abb).regWord 0x1004, (seenState abb).regWord 0x1005) = (1, 0x41021002) := by
  decide +kernel
/-- R75, R77, R78 and an unmapped address. -/
theorem test_register_map :
    ((seenState abb).regWord 0x0001, (seenState abb).regWord 0x21FF, (seenState abb).regWord 0x2442,
      (seenState abb).regWord 0x1804) = (0x02000020, 3, 0x00030001, 0) := by decide +kernel

/-! ## A state and operands that meet the hypotheses of each statement -/

theorem initial_inv : Tree.initial.Inv :=
  Tree.inv_of_check (by decide +kernel) fun h => absurd rfl h

theorem abb_inv : (Tree.initial.observeAll abb).Inv :=
  Tree.inv_of_check (by decide +kernel) fun _ => by decide +kernel

theorem seenState_tree (bs : List Byte) : (seenState bs).eng.tree = Tree.initial.observeAll bs := rfl

theorem seen_inv : (seenState abb).eng.tree.Inv := by rw [seenState_tree]; exact abb_inv

theorem abb_room : (seenState abb).eng.tree.rootWeight ≠ 2 ^ (seenState abb).eng.weightBits - 1 := by decide +kernel

/-- The engine of reset meets the register invariants. -/
theorem initial_regsOk (w : Nat) : (Engine.initial w).RegsOk := by
  refine ⟨show (0#8).toNat < 2 ^ (0#3).toNat from by decide, show (0#4).toNat ≤ 7 from by decide,
    ⟨show (0#9).toNat ≤ 256 from by decide, fun i _ => BitVec.getLsbD_zero⟩, ⟨fun _ => rfl, fun _ => rfl⟩,
    ⟨⟨fun h => (nomatch h), fun h => absurd rfl h⟩, fun _ => rfl⟩⟩

/-- R42, for a count that is written out. -/
theorem unpackerOk {u : Unpacker} (h : u.cnt.toNat ≤ 7) : u.Ok := h

/-- `0x41 0x42 0x42` observed, in DECODING, with bits in the unpacker and bytes behind it. -/
def decoding (buf : Byte) (cnt : BitVec 4) (bs : List Byte) : State :=
  State.input (engState fun g =>
    { g with tree := Tree.initial.observeAll abb, decState := .decoding, unpacker := { buf := buf, cnt := cnt } }) bs

theorem decoding_tree (buf : Byte) (cnt : BitVec 4) (bs : List Byte) :
    (decoding buf cnt bs).eng.tree = Tree.initial.observeAll abb := by
  simp only [decoding, State.input, engState]

theorem decoding_inv (buf : Byte) (cnt : BitVec 4) (bs : List Byte) : (decoding buf cnt bs).eng.tree.Inv := by
  rw [decoding_tree]; exact abb_inv

/-- R6: `W = 2` and the bytes of a list to encode, as in S21. -/
def smallRun (bs : List Byte) : State := State.input (engState fun g => { g with weightBits := 2 }) bs

theorem smallRun_inv (bs : List Byte) : (smallRun bs).eng.tree.Inv := initial_inv

/-- A full tree weight: `W = 1` and one byte observed. -/
def fullState : State := engState fun g => { g with weightBits := 1, tree := Tree.initial.observeAll [0x41] }

theorem fullState_full : fullState.eng.tree.rootWeight = 2 ^ fullState.eng.weightBits - 1 := by decide +kernel

/-- A lifted hold, an engine at rest, a command that can be issued, an illegal word, and a hold that the host's byte lifts. -/
theorem witness_HardwareResetAbandonsTheCommand :
    (∃ (s : State) (h : Hold), s.host = [.rst] ∧ s.hold = some h ∧ s.lifted h = true) ∧
    (∃ s : State, s.hold = none ∧ s.host = [.rstWithin none 1 1]) ∧
    (∃ (s v : State), s.hold = none ∧ s.host = [.rstWithin (some 0xB700) 1 0] ∧ decode 0xB700 = .ok (.getbits 8) ∧
      exec (.getbits 8) { s with host := [] } = .next v) ∧
    decode 0x0001 = .error .reservedImm ∧
    ∃ (t v : State) (h : Hold), State.reset.hold = none ∧ exec (.getbits 8) State.reset = .next t ∧ t.hold = some h ∧
      State.reset.inEod = false ∧
      exec (.getbits 8) { State.reset with
        inBytes := [0x41], inEod := false, outRoom := (none : Option Nat).map (· + h.sent) } = .next v :=
  ⟨⟨{ heldIn with inBytes := [0x41], host := [.rst] }, _, rfl, rfl, rfl⟩,
    ⟨{ State.reset with host := [.rstWithin none 1 1] }, rfl, rfl⟩,
    ⟨{ State.reset with host := [.rstWithin (some 0xB700) 1 0] }, _, rfl, rfl, by decide, exec_eq _ _⟩, by decide,
    _, _, _, rfl, exec_eq _ _, rfl, rfl, exec_eq _ _⟩

theorem witness_ResetStateMeetsTheInvariants : (1 ≤ 1 ∧ 1 ≤ 32) ∧ (1 ≤ 32 ∧ 32 ≤ 32) := by decide

theorem witness_DecodeOfEncodeIsTheCommand :
    (Instr.putbits 1 0xFF).wellFormed ∧ (Instr.putbits 8 0).wellFormed ∧ (Instr.getbits 1).wellFormed ∧
      (Instr.getbits 8).wellFormed ∧ (Instr.init 0x1F).wellFormed := by decide

theorem witness_EncodeOfDecodeIsTheWord : decode 0x101F#16 = .ok (.init 0x1F) ∧ decode 0x87FF#16 = .ok (.putbits 8 0xFF) := by
  decide

theorem witness_LegalWordsAreThoseOfTheProcedure :
    (∃ i, decode 0xB700#16 = .ok i) ∧ ¬ ∃ i, decode 0xB800#16 = .ok i :=
  ⟨⟨.getbits 8, by decide⟩, fun ⟨i, h⟩ => by rw [show decode 0xB800#16 = .error .reservedN from by decide] at h; cases h⟩

theorem witness_RowsMatchByMaskAndAreDisjoint :
    (⟨"PUTBITS", 0xF800, 0x8000⟩ : Row) ∈ opcodeRows ∧ 0x87FF#16 &&& 0xF800#16 = 0x8000#16 := by decide

theorem witness_StepRunsTheDecodedCommand :
    ∃ (s : State) (w : Cmd) (rest : List HostMove) (i : Instr),
      s.hold = none ∧ s.host = .command w :: rest ∧ decode w = .ok i :=
  ⟨{ State.reset with host := [.command 0xF001] }, 0xF001, [], .setctrl true, rfl, rfl, by decide⟩

theorem witness_IllegalWordFailsWithoutEffect :
    ∃ (s : State) (w : Cmd) (rest : List HostMove) (e : Illegal),
      s.hold = none ∧ s.host = .command w :: rest ∧ decode w = .error e :=
  ⟨{ State.reset with host := [.command 0x0001] }, 0x0001, [], .reservedImm, rfl, rfl, by decide⟩

theorem witness_WaitingEngineKeepsAllState :
    (heldIn.host = [] ∧ ∀ h, heldIn.hold = some h → heldIn.lifted h = false) ∧
    (∃ s : State, s.host = .command 0 :: [] ∧ s.hold.isSome ∧ ∀ h, s.hold = some h → s.lifted h = false) ∧
    (∃ s : State, s.host = .rstWithin (some 0) 1 1 :: [] ∧ s.hold.isSome ∧ ∀ h, s.hold = some h → s.lifted h = false) ∧
    ∃ s : State, s.host = .wait :: [] ∧ ∀ h, s.hold = some h → s.lifted h = false :=
  ⟨⟨rfl, fun h hh => by cases hh; rfl⟩, ⟨{ heldIn with host := [.command 0] }, rfl, rfl, fun h hh => by cases hh; rfl⟩,
    ⟨{ heldIn with host := [.rstWithin (some 0) 1 1] }, rfl, rfl, fun h hh => by cases hh; rfl⟩,
    { heldIn with host := [.wait] }, rfl, fun h hh => by cases hh; rfl⟩

theorem witness_ResumedCommandMatchesUninterruptedRun :
    ∃ (t : State) (h : Hold), State.reset.hold = none ∧ exec (.getbits 8) State.reset = .next t ∧ t.hold = some h ∧
      State.reset.inEod = false ∧ (∀ rest, State.reset.host ≠ .rst :: rest) ∧
      (∀ ins outs rest, State.reset.host ≠ .rstWithin none ins outs :: rest) ∧
      ({ t with inBytes := t.inBytes ++ [0x41], inEod := true, outRoom := none } : State).lifted h = true :=
  ⟨_, _, rfl, exec_eq _ _, rfl, rfl, fun _ h => (nomatch h), fun _ _ _ h => (nomatch h), rfl⟩

theorem witness_ContractBreachStopsByName :
    (∃ s : State, s.inEod = false ∧ s.hold = none ∧ s.host = [.offer 0x41]) ∧
    (∃ s : State, s.inEod = true ∧ s.hold = none ∧ s.host = [.offer 0x41]) ∧
    (∃ s : State, s.inEod = false ∧ s.eodMayFall = true ∧ s.hold = none ∧ s.host = [.raiseEod]) ∧
    (∃ (s : State) (h : Hold), s.hold = some h ∧ s.lifted h = false ∧ s.host = [.accept (some 1)]) ∧
    (∃ s : State, s.inEod = false ∧ s.hold = none ∧ s.host = [.lowerEod]) ∧
    (∃ s : State, s.inEod = true ∧ s.hold = none ∧ s.host = [.lowerEod] ∧ s.eodMayFall = false) ∧
    (∃ s : State, s.inEod = true ∧ s.hold = none ∧ s.host = [.lowerEod] ∧ s.eodMayFall = true) ∧
    (∃ (s : State) (h : Hold), s.inEod = true ∧ s.hold = some h ∧ s.lifted h = false ∧ s.host = [.lowerEod] ∧
      h.instr = .encrun) ∧
    (∃ (s : State) (h : Hold), s.inEod = true ∧ s.eodMayFall = true ∧ s.hold = some h ∧ s.lifted h = false ∧
      s.host = [.lowerEod] ∧ h.instr = .flush) :=
  ⟨⟨{ State.reset with host := [.offer 0x41] }, rfl, rfl, rfl⟩,
    ⟨{ State.input State.reset [] with host := [.offer 0x41] }, rfl, rfl, rfl⟩,
    ⟨{ State.reset with host := [.raiseEod] }, rfl, rfl, rfl, rfl⟩,
    ⟨{ heldOut with host := [.accept (some 1)] }, _, rfl, rfl, rfl⟩,
    ⟨{ State.reset with host := [.lowerEod] }, rfl, rfl, rfl⟩,
    ⟨{ State.input State.reset [] with host := [.lowerEod] }, rfl, rfl, rfl, rfl⟩,
    ⟨{ State.reset with inEod := true, host := [.lowerEod] }, rfl, rfl, rfl, rfl⟩,
    ⟨{ heldOut with host := [.lowerEod] }, _, rfl, rfl, rfl, rfl, rfl⟩,
    { heldOut with
      hold := some { instr := .flush, port := .output, start := heldOut.eng, taken := [], sent := 0 }
      host := [.lowerEod] }, _, rfl, rfl, rfl, rfl, rfl, rfl⟩

theorem witness_RegisterReadHasNoSideEffect :
    ∃ (s : State) (a : BitVec 16), s.host = [.read a] ∧ (∀ h, s.hold = some h → s.lifted h = false) ∧ s.busy = false :=
  ⟨{ State.reset with host := [.read 0x0006] }, 0x0006, rfl, fun _ h => (by cases h), rfl⟩

theorem witness_BusyReadsDefineFourRegisters :
    State.reset.busy = false ∧ (3#16).toNat ≤ 3 ∧ heldIn.busy = true ∧ 4 ≤ (4#16).toNat := by decide

/-- The ends of every range of the register map, and the addresses just outside. -/
theorem witness_RegisterMapShowsEachWord :
    (7 < 8 ∧ 31 < 32) ∧ 0x1000 + 4 * 512 + 3 = 0x1803 ∧ 0x2000 + 512 = 0x2200 ∧ 0x2400 + (255#8).toNat = 0x24FF ∧
    ([0x000B, 0x000F, 0x0018, 0x0FFF, 0x1804, 0x1FFF, 0x2201, 0x23FF, 0x2500, 0xFFFF] : List Nat).all fun a =>
      decide (0x000A < a ∧ a < 0x10000 ∧ ¬ (0x0010 ≤ a ∧ a ≤ 0x0017) ∧ ¬ (0x1000 ≤ a ∧ a ≤ 0x1803) ∧
        ¬ (0x2000 ≤ a ∧ a ≤ 0x2200) ∧ ¬ (0x2400 ≤ a ∧ a ≤ 0x24FF)) := by decide

theorem witness_RegisterPortShowsTheWholeEngine :
    ∃ s s' : State, s.busy = false ∧ s'.busy = false ∧ s ≠ s' ∧ s.eng.weightBits ≤ 32 ∧
      (∀ n, (s.eng.tree.node n).weight < 2 ^ 32) ∧ ∀ a, s.readPort a = s'.readPort a := by
  refine ⟨State.reset, { State.reset with inBytes := [0x41] }, rfl, rfl,
    fun h => (by cases congrArg State.inBytes h), by decide, fun n => ?_, fun _ => rfl⟩
  by_cases h : n < Tree.initial.next
  · have hn : n = 0 := by
      have : n.toNat < 1 := h
      exact BitVec.eq_of_toNat_eq (by simpa using this)
    subst hn
    decide +kernel
  · rw [show State.reset.eng.tree.node n = Node.free from initial_inv.spec.allocation.free n h]
    decide

theorem witness_InitReinitialisesTheSelectedParts :
    (0x1020 ≤ (0x1020#16).toNat ∧ (0x1020#16).toNat < 0x2000) ∧ 0x1020 ≤ (0x1FFF#16).toNat ∧ (0x1FFF#16).toNat < 0x2000 := by
  decide

theorem witness_SetctrlWritesTermEn : 0xF002 ≤ (0xF002#16).toNat ∧ 0xF002 ≤ (0xFFFF#16).toNat := by decide

theorem witness_OnlySetctrlWritesTermEn :
    (∃ t, exec (.init 0x1F) State.reset = .next t) ∧ ∀ v, (.init 0x1F : Instr) ≠ .setctrl v :=
  ⟨exec_next _ _, fun _ h => nomatch h⟩

theorem witness_WadvMovesTheCursorOrFails :
    ((seenState abb).eng.tree.node (seenState abb).eng.walker.cur).kind = .int ∧
      (State.reset.eng.tree.node State.reset.eng.walker.cur).kind ≠ .int := by decide +kernel

theorem witness_CursorIsMovedOnlyByItsCommands :
    (∃ t, exec (.observe 0x43) (seenState abb) = .next t ∧ t.hold = none ∧ t.eng.tree ≠ (seenState abb).eng.tree) ∧
      (seenState abb).eng.tree.rootWeight ≠ 2 ^ (seenState abb).eng.weightBits - 1 ∧
      (0x1E#5).getLsbD 0 = false ∧ (0x01#5).getLsbD 0 = true :=
  ⟨⟨_, exec_eq _ _, by decide +kernel, fun h => absurd (congrArg Tree.next h) (by decide +kernel)⟩, abb_room, by decide,
    by decide⟩

theorem witness_WalkingAPathEndsAtItsLeaf :
    (seenState abb).eng.tree.Inv ∧ (1 : Idx) < (seenState abb).eng.tree.next ∧
      ((seenState abb).eng.tree.node 1).kind ≠ .int ∧ (1 : Idx) ≠ ROOT ∧
      (seenState abb).eng.walker = { cur := ROOT, res := false, isSym := false, sym := 0 } :=
  ⟨seen_inv, by decide +kernel, by decide +kernel, by decide, rfl⟩

theorem witness_CodeAndEsccodeDeriveThePath :
    ((seenState abb).eng.tree.symEntry 0x41).seen = true ∧ ((seenState abb).eng.tree.symEntry 0x43).seen = false ∧
      State.reset.eng.tree.esc = ROOT := by decide +kernel

theorem witness_PathIsTheSidesOfTheAncestors :
    (Tree.initial.observeAll abb).Inv ∧ (4 : Idx) < (Tree.initial.observeAll abb).next ∧
      1 < ((Tree.initial.observeAll abb).path 4).length := ⟨abb_inv, by decide +kernel, by decide +kernel⟩

theorem witness_SplitReplacesTheEscapeLeaf :
    (Tree.initial.SpecInv ∧ (Tree.initial.symEntry 0).seen = false) ∧
      (Tree.initial.observeAll abb).SpecInv ∧ ((Tree.initial.observeAll abb).symEntry 0x43).seen = false :=
  ⟨⟨initial_inv.spec, by decide +kernel⟩, abb_inv.spec, by decide +kernel⟩

/-- What SWAP's statement asks of two nodes. -/
def swappable (t : Tree) (a b : Idx) : Bool :=
  let pa := (t.node a).parent
  let pb := (t.node b).parent
  decide (a.toNat < 513 ∧ b.toNat < 513 ∧ pa.toNat < 513 ∧ pb.toNat < 513 ∧ (t.node a).pos.toNat < 513 ∧
    (t.node b).pos.toNat < 513 ∧ a ≠ b ∧ pa ≠ a ∧ pa ≠ b ∧ pb ≠ a ∧ pb ≠ b ∧ (t.node a).pos ≠ (t.node b).pos)

/-- Siblings, and nodes of different parents. -/
theorem witness_SwapExchangesTwoNodes :
    swappable (Tree.initial.observeAll abb) 2 3 = true ∧ swappable (Tree.initial.observeAll abb) 1 3 = true := by
  decide +kernel

/-- The root, at slot 512, and the escape leaf, at the lowest slot. -/
theorem witness_LeaderIsTheTopOfTheRun :
    ((Tree.initial.observeAll abb).node 0).pos = 512 ∧ ((Tree.initial.observeAll abb).node 4).pos = 508 ∧
      (4 : Idx) < (Tree.initial.observeAll abb).next ∧ (Tree.initial.observeAll abb).SpecInv :=
  ⟨by decide +kernel, by decide +kernel, by decide +kernel, abb_inv.spec⟩

theorem witness_ObserveAddsOneAlongThePath : Tree.initial.Inv ∧ (Tree.initial.observeAll abb).Inv :=
  ⟨initial_inv, abb_inv⟩

/-- Below `WMAX` with a repeat that exchanges, at `WMAX`, and a tree that meets the invariants with a byte seen and one
not. -/
theorem witness_ObserveUpdatesTheTreeOrFails :
    ((seenState abb).eng.tree.rootWeight ≠ 2 ^ (seenState abb).eng.weightBits - 1 ∧
      fullState.eng.tree.rootWeight = 2 ^ fullState.eng.weightBits - 1) ∧
    (seenState abb).eng.tree.Inv ∧ ((seenState abb).eng.tree.symEntry 0x43).seen = false ∧
      ((seenState abb).eng.tree.symEntry 0x41).seen = true := ⟨⟨abb_room, fullState_full⟩, seen_inv, by decide +kernel,
        by decide +kernel⟩

theorem witness_ObservedSymbolsStayObserved :
    (∃ t, exec (.init 0x1E) (seenState abb) = .next t) ∧ ((seenState abb).eng.tree.symEntry 0x42).seen = true ∧
      ∀ mask, (.init 0x1E : Instr) = .init mask → mask.getLsbD 0 = false :=
  ⟨exec_next _ _, by decide +kernel, fun mask h => by cases h; decide⟩

theorem witness_ObserveKeepsTheTreeInvariant : (Tree.initial.observeAll abb).Inv := abb_inv

theorem witness_PutbitsSendsItsBits :
    (1 ≤ 1 ∧ 1 ≤ 8) ∧ (1 ≤ 8 ∧ 8 ≤ 8) ∧ roomFor State.reset.outRoom 1 ∧ roomFor (some 0) 0 ∧ roomFor (some 1) 1 := by
  simp [roomFor, State.reset, State.resetWith]

theorem witness_PutcodeSendsTheCodeBuffer : roomFor State.reset.outRoom 32 ∧ roomFor (some 32) 32 := by
  simp [roomFor, State.reset, State.resetWith]

theorem witness_FlushPadsThePendingBits :
    State.reset.eng.packer.cnt = 0 ∧ heldOut.eng.packer.cnt ≠ 0 ∧ roomFor (some 1) 1 :=
  ⟨rfl, by decide, by simp [roomFor]⟩

theorem witness_GetbitsTakesTheNextBits :
    ((decoding 0x40 7 [0x41]).eng.unpacker.Ok ∧ 8 ≤ (decoding 0x40 7 [0x41]).inputBits.length ∧
      1 ≤ (decoding 0x40 1 []).inputBits.length) ∧
    (decoding 0x40 7 []).eng.unpacker.Ok ∧ (decoding 0x40 7 []).inputBits.length < 8 ∧
      (decoding 0x40 0 []).inputBits.length < 1 ∧ (decoding 0x40 7 []).inEod = true :=
  ⟨⟨unpackerOk (by decide), by decide +kernel, by decide +kernel⟩, unpackerOk (by decide), by decide +kernel,
    by decide +kernel, rfl⟩

/-- GETBITS, DECSTEP in AWAITING_FIRST_BYTE, and DECSTEP in DECODING inside a path and inside a literal. -/
theorem witness_ShortInputHolds :
    (State.reset.eng.unpacker.Ok ∧ State.reset.inEod = false ∧ State.reset.inputBits.length < 1 ∧
      State.reset.eng.decState = .await ∧ State.reset.eng.tree.rootWeight ≠ 2 ^ State.reset.eng.weightBits - 1) ∧
    (∃ s : State, s.eng.decState = .decoding ∧ s.eng.tree.Inv ∧ s.eng.tree.rootWeight ≠ 2 ^ s.eng.weightBits - 1 ∧
      s.eng.unpacker.Ok ∧ s.inEod = false ∧ (1 : Idx) < s.eng.tree.next ∧ s.inputBits <+: s.eng.tree.path 1 ∧
      s.inputBits ≠ s.eng.tree.path 1) ∧
    ∃ s : State, s.eng.decState = .decoding ∧ s.inEod = false ∧
      s.inputBits = s.eng.tree.path s.eng.tree.esc ++ List.replicate 3 false :=
  ⟨⟨unpackerOk (by decide), rfl, by decide, rfl, by decide +kernel⟩,
    ⟨{ decoding 0 1 [] with inEod := false }, rfl, decoding_inv 0 1 [], by decide +kernel, unpackerOk (by decide), rfl,
      by decide +kernel, by decide +kernel, by decide +kernel⟩,
    { decoding 0 5 [] with inEod := false }, rfl, rfl, by decide +kernel⟩

/-- Less room than bytes to write for each of the five packing commands, and for DECSTEP in both states. -/
theorem witness_FullOutputHolds :
    (0 < (heldOut.eng.packer.cnt.toNat + 7) / 8 ∧ 0 < (State.reset.eng.packer.cnt.toNat + (bitsDown 0x41 8).length) / 8) ∧
    (∃ k : Code, 1 < (heldOut.eng.packer.cnt.toNat + ((List.range k.len.toNat).map fun j => k.buf.getLsbD j).length) / 8) ∧
    (let p := (seenState abb).eng.tree.path (seenState abb).eng.tree.esc;
      (seenState abb).eng.tree.rootWeight ≠ 2 ^ (seenState abb).eng.weightBits - 1 ∧
        ((seenState abb).eng.tree.symEntry 0x43).seen = false ∧ 0 < (7 + (p ++ literalBits 0x43).length) / 8 ∧
        1 < (7 + (p ++ List.replicate 8 false).length + 7) / 8) ∧
    (∃ s : State, s.outRoom = some 0 ∧ s.eng.unpacker.Ok ∧ s.eng.decState = .await ∧
      s.eng.tree.rootWeight ≠ 2 ^ s.eng.weightBits - 1 ∧ s.inputBits = literalBits 0x41 ++ []) ∧
    ∃ s : State, s.outRoom = some 0 ∧ s.eng.unpacker.Ok ∧ s.eng.decState = .decoding ∧ s.eng.tree.Inv ∧
      s.inputBits = s.eng.tree.path s.eng.tree.esc ++ literalBits 0x43 ++ [] :=
  ⟨by decide, ⟨{ buf := 0, len := 15 }, by decide⟩, by decide +kernel,
    ⟨{ State.input State.reset [0x41] with outRoom := some 0 }, rfl, unpackerOk (by decide), rfl, by decide +kernel,
      by decide⟩,
    { decoding 0 2 [0x43] with outRoom := some 0 }, rfl, unpackerOk (by decide), rfl, decoding_inv 0 2 [0x43],
    by decide +kernel⟩

theorem witness_EncbEmitsTheCodeAndObserves :
    ((seenState abb).eng.tree.rootWeight ≠ 2 ^ (seenState abb).eng.weightBits - 1 ∧ roomFor (seenState abb).outRoom 33) ∧
      fullState.eng.tree.rootWeight = 2 ^ fullState.eng.weightBits - 1 :=
  ⟨⟨abb_room, by simp [roomFor, seenState, engState, State.reset, State.resetWith]⟩, fullState_full⟩

theorem witness_EncendTerminatesAndFlushes :
    roomFor State.reset.outRoom 34 ∧ (seenState abb).eng.tree.rootWeight ≠ 0 ∧ State.reset.eng.tree.rootWeight = 0 :=
  ⟨by simp [roomFor, State.reset, State.resetWith], by decide +kernel, by decide +kernel⟩

theorem witness_DecstepTakesTheFirstByteRaw :
    ∃ (s : State) (v : Byte) (rest : List Bool), s.eng.decState = .await ∧
      s.eng.tree.rootWeight ≠ 2 ^ s.eng.weightBits - 1 ∧ s.eng.unpacker.Ok ∧ roomFor s.outRoom 1 ∧
      s.inputBits = literalBits v ++ rest :=
  ⟨State.input State.reset [0x00, 0x80], 0, literalBits 0x80, rfl, by decide +kernel, unpackerOk (by decide),
    by simp [roomFor, State.input, State.reset, State.resetWith], by decide⟩

/-- A symbol's code, and the escape code with the literal of a byte not seen, and of a byte seen. -/
theorem witness_DecstepDecodesACodeword :
    (Tree.initial.observeAll abb).Inv ∧ (decoding 0x40 7 []).eng.decState = .decoding ∧
    (decoding 0x40 7 []).eng.tree.rootWeight ≠ 2 ^ (decoding 0x40 7 []).eng.weightBits - 1 ∧
    (decoding 0x40 7 []).eng.unpacker.Ok ∧
    (decoding 0x40 7 []).inputBits =
      (decoding 0x40 7 []).eng.tree.path ((decoding 0x40 7 []).eng.tree.symEntry 0x42).leaf ++ List.replicate 6 false ∧
    (decoding 0 2 [0x43]).inputBits = (decoding 0 2 [0x43]).eng.tree.path (decoding 0 2 [0x43]).eng.tree.esc ++ literalBits 0x43 ∧
    (decoding 0 2 [0x41]).inputBits = (decoding 0 2 [0x41]).eng.tree.path (decoding 0 2 [0x41]).eng.tree.esc ++ literalBits 0x41 :=
  ⟨abb_inv, rfl, by decide +kernel, unpackerOk (by decide), by decide +kernel, by decide +kernel, by decide +kernel⟩

theorem witness_DecstepStopsAtTheSentinel :
    (decoding 0 2 [0, 1]).eng.tree.Inv ∧ (decoding 0 2 [0, 1]).eng.decState = .decoding ∧
    (decoding 0 2 [0, 1]).eng.tree.rootWeight ≠ 2 ^ (decoding 0 2 [0, 1]).eng.weightBits - 1 ∧
    (decoding 0 2 [0, 1]).eng.unpacker.Ok ∧
    (decoding 0 2 [0, 1]).inputBits =
      (decoding 0 2 [0, 1]).eng.tree.path (decoding 0 2 [0, 1]).eng.tree.esc ++ List.replicate 8 false ++ literalBits 1 :=
  ⟨decoding_inv _ _ _, rfl, by decide +kernel, unpackerOk (by decide), by decide +kernel⟩

theorem witness_DecstepEndsWithoutAByte :
    (engState fun g => { g with decState := .done }).eng.decState = .done ∧
    (fullState.eng.decState ≠ .done ∧ fullState.eng.tree.rootWeight = 2 ^ fullState.eng.weightBits - 1) ∧
    ((State.input State.reset []).eng.decState = .await ∧ (State.input State.reset []).eng.unpacker.Ok ∧
      (State.input State.reset []).inputBits.length < 8 ∧ (State.input State.reset []).inEod = true) ∧
    ((decoding 0 1 []).eng.decState = .decoding ∧ (decoding 0 1 []).eng.tree.Inv ∧ (decoding 0 1 []).eng.unpacker.Ok ∧
      (1 : Idx) < (decoding 0 1 []).eng.tree.next ∧ (decoding 0 1 []).inputBits <+: (decoding 0 1 []).eng.tree.path 1 ∧
      (decoding 0 1 []).inputBits ≠ (decoding 0 1 []).eng.tree.path 1) ∧
    (decoding 0 5 []).inputBits = (decoding 0 5 []).eng.tree.path (decoding 0 5 []).eng.tree.esc ++ List.replicate 3 false :=
  ⟨rfl, ⟨by decide, fullState_full⟩, ⟨rfl, unpackerOk (by decide), by decide, rfl⟩,
    ⟨rfl, decoding_inv _ _ _, unpackerOk (by decide), by decide +kernel, by decide +kernel, by decide +kernel⟩,
    by decide +kernel⟩

theorem witness_DoneIsLeftOnlyByInit :
    (∃ t, exec (.init 0x17) (engState fun g => { g with decState := .done }) = .next t) ∧
      (0x17#5).getLsbD 3 = false := ⟨exec_next _ _, by decide⟩

/-- A run that ends, one that reaches `WMAX` (S21), one that starts there, and one whose second ENCB holds, whose input
falls short, and whose ENCEND holds. -/
theorem witness_EncrunIsEncbForEachByteThenEncend :
    ((State.input (seenState abb) [0x43]).eng.tree.Inv ∧ (State.input (seenState abb) [0x43]).inEod = true ∧
      (State.input (seenState abb) [0x43]).outRoom = none ∧
      (State.input (seenState abb) [0x43]).eng.tree.rootWeight + 1 < 2 ^ (State.input (seenState abb) [0x43]).eng.weightBits - 1) ∧
    ((smallRun [0x41, 0x42, 0x43, 0x44]).eng.tree.Inv ∧ (smallRun [0x41, 0x42, 0x43, 0x44]).outRoom = none ∧
      (smallRun [0x41, 0x42, 0x43, 0x44]).eng.tree.rootWeight ≤ 2 ^ 2 - 1 ∧
      2 ^ 2 - 1 ≤ (smallRun [0x41, 0x42, 0x43, 0x44]).eng.tree.rootWeight + 4) ∧
    fullState.eng.tree.rootWeight = 2 ^ fullState.eng.weightBits - 1 ∧
    ((execDone ([0x41, 0x42, 0x43].map .encb) (smallRun [])).map fun v => v.eng.tree.rootWeight) = some (2 ^ 2 - 1) ∧
    ((execDone ([0x41].map .encb) { smallRun [] with outRoom := some 1 }).map fun v =>
      (after (fun t => t.hold.isSome) (.encb 0x42) v, v.eng.tree.rootWeight)) = some (some true, 1) ∧
    ((execDone ([0x41, 0x42].map .encb) { smallRun [] with outRoom := some 2 }).map fun v =>
      (after (fun t => t.hold.isSome) .encend v, v.eng.tree.rootWeight)) = some (some true, 2) :=
  ⟨⟨seen_inv, rfl, rfl, by decide +kernel⟩, ⟨smallRun_inv [0x41, 0x42, 0x43, 0x44], rfl, by decide +kernel, by decide +kernel⟩, fullState_full,
    by decide +kernel, by decide +kernel, by decide +kernel⟩

/-- A run that ends, one in DONE, one that starts at `WMAX`, and runs that reach `WMAX` after three bytes (S20), end
after one byte, hold on the input after one byte, and hold on the output. -/
theorem witness_DecrunIsDecstepUntilTheEnd :
    ((decoding 0x40 7 [0x43]).eng.tree.Inv ∧ (decoding 0x40 7 [0x43]).eng.unpacker.Ok ∧ (decoding 0x40 7 [0x43]).inEod = true ∧
      (decoding 0x40 7 [0x43]).outRoom = none ∧
      (decoding 0x40 7 [0x43]).eng.tree.rootWeight + (decoding 0x40 7 [0x43]).inputBits.length <
        2 ^ (decoding 0x40 7 [0x43]).eng.weightBits - 1) ∧
    (engState fun g => { g with decState := .done }).eng.decState = .done ∧
    (fullState.eng.decState ≠ .done ∧ fullState.eng.tree.rootWeight = 2 ^ fullState.eng.weightBits - 1) ∧
    ((smallRun [0x41]).eng.tree.Inv ∧ (smallRun [0x41]).eng.tree.rootWeight ≤ 2 ^ 2 - 1) ∧
    ((execDone (List.replicate 3 .decstep) (smallRun [0x41, 0x21, 0x08, 0x60])).map fun v =>
      (v.outBytes.length, v.eng.decState, v.eng.tree.rootWeight)) = some (3, .decoding, 2 ^ 2 - 1) ∧
    ((execDone (List.replicate 1 .decstep) (smallRun [0x41])).map fun v =>
      (v.outBytes.length, after (fun t => (t.hold.isSome, t.eng.result)) .decstep v)) = some (1, some (false, 0x100)) ∧
    ((execDone (List.replicate 1 .decstep) { smallRun [0x41] with inEod := false }).map fun v =>
      (v.outBytes.length, after (fun t => t.hold.isSome) .decstep v)) = some (1, some true) ∧
    ((execDone (List.replicate 1 .decstep) { smallRun [0x41, 0x21, 0x08] with outRoom := some 1 }).map fun v =>
      (v.outBytes.length, after (fun t => t.hold.isSome) .decstep v)) = some (1, some true) :=
  ⟨⟨decoding_inv _ _ _, unpackerOk (by decide), rfl, rfl, by decide +kernel⟩, rfl, ⟨by decide, fullState_full⟩,
    ⟨smallRun_inv [0x41], by decide +kernel⟩, by decide +kernel, by decide +kernel, by decide +kernel, by decide +kernel⟩

/-- The last byte may be the sentinel: `k = 2` of `41 42 00`. -/
theorem witness_DecoderKeepsStepWithTheEncoder :
    (1 ≤ 2 ∧ 2 ≤ 32) ∧ [0x41#8, 0x42#8, 0x00#8].length ≤ 2 ^ 2 - 1 ∧ 2 ≤ [0x41#8, 0x42#8, 0x00#8].length ∧
      ¬ sentinelCollision ([0x41#8, 0x42#8, 0x00#8].take 2) := by
  simp [sentinelCollision]

theorem witness_TerminatedStreamsRoundTrip :
    (1 ≤ 2 ∧ 2 ≤ 32) ∧ [0x00#8, 0x00#8].length < 2 ^ 2 - 1 ∧ ¬ sentinelCollision [0x00#8, 0x00#8] ∧
      ¬ sentinelCollision abb ∧ ¬ sentinelCollision [] := by
  simp [sentinelCollision, abb]

theorem witness_ErrorRecordKeepsTheFirstFailure :
    (∃ (s t : State), exec (.init 0x0F) s = .next t ∧ s.eng.error.err = true ∧ (0x0F#5).getLsbD 4 = false) ∧
    (∃ t, exec (.wadv true) State.reset = .next t ∧ State.reset.eng.error.err = false ∧ t.hold = none ∧
      t.eng.result.getLsbD 31 = true) ∧
    decode 0x0001#16 = .error .reservedImm ∧ ∃ t, acceptWord 0x0001#16 State.reset = .next t :=
  ⟨⟨engState fun g => { g with error := { err := true, code := .illegal, cmd := 1 } }, _, exec_eq _ _, rfl, by decide⟩,
    ⟨_, exec_eq _ _, rfl, by decide +kernel, by decide +kernel⟩, by decide, _, rfl⟩

/-- A command that ends, one that fails, and one that holds. -/
theorem witness_EveryEndedCommandAnswersOnce :
    (∃ t, exec .nop State.reset = .next t ∧ t.hold = none) ∧ (∃ t, exec (.wadv true) State.reset = .next t ∧ t.hold = none) ∧
      ∃ t, exec (.getbits 8) State.reset = .next t ∧ t.hold ≠ none :=
  ⟨⟨_, exec_eq _ _, rfl⟩, ⟨_, exec_eq _ _, by decide +kernel⟩, _, exec_eq _ _, by decide +kernel⟩

theorem witness_TreeAndStreamsMoveOnlyByTheirCommands :
    (∃ t, exec (.init 0x1E) State.reset = .next t) ∧ (0x1E#5).getLsbD 0 = false := ⟨exec_next _ _, by decide⟩

theorem witness_StepKeepsTheRegisterInvariants :
    State.reset.Everywhere Engine.RegsOk ∧ step State.reset = .next State.reset ∧ heldIn.Everywhere Engine.RegsOk ∧
      ∃ t, step { heldIn with inBytes := [0x41] } = .next t :=
  ⟨⟨initial_regsOk _, fun _ h => by cases h⟩, rfl, ⟨initial_regsOk _, fun h hh => by cases hh; exact initial_regsOk _⟩,
    _, (show step { heldIn with inBytes := [0x41] } = exec (.getbits 8) (State.rewind _ _) from rfl).trans (exec_eq _ _)⟩

theorem witness_StepKeepsTheTreeInvariants :
    ((seenState abb).Everywhere fun g => g.tree.Inv ∧ g.WeightOk) ∧
      ∃ t, step { seenState abb with host := [.command 0x2043] } = .next t :=
  ⟨⟨⟨seen_inv, by decide, by decide, by decide +kernel⟩, fun _ h => by cases h⟩, _, exec_eq (.observe 0x43) _⟩

end Sys2Proof.Tests
end

section
/-! The tree of nodes and slots: what the invariants R50 to R55 say apart from weights, and what each operation of
41_tree_model.md does to every entry. -/

namespace Sys2Proof.Machine

/-! ## Indices and slots -/

theorem Idx.toNat_succ {s : Idx} (h : s.toNat < 512) : (s + 1).toNat = s.toNat + 1 := by
  bv_omega

theorem Idx.toNat_inj {m n : Idx} : m.toNat = n.toNat ↔ m = n :=
  ⟨BitVec.eq_of_toNat_eq, fun h => h ▸ rfl⟩

/-! ## Changing one field of one entry -/

/-- A change of one entry that keeps a field keeps it in every entry. -/
theorem Tree.modNode_field {α : Type} (g : Node → α) (t : Tree) (m n : Idx) (f : Node → Node)
    (hf : ∀ x, g (f x) = g x) : g ((t.modNode n f).node m) = g (t.node m) := by
  by_cases hn : n.toNat < 513
  · rw [t.node_modNode m n f hn]
    split
    · next h => rw [hf, h]
    · rfl
  · simp [Tree.modNode, Tree.setNode, hn]

/-! ## `WEIGHT[n] <- WEIGHT[n] + 1` (R130) -/

@[simp] theorem Tree.bump_kind (t : Tree) (q n : Idx) : ((t.bump q).node n).kind = (t.node n).kind :=
  t.modNode_field (·.kind) n q _ fun _ => rfl
@[simp] theorem Tree.bump_symv (t : Tree) (q n : Idx) : ((t.bump q).node n).symv = (t.node n).symv :=
  t.modNode_field (·.symv) n q _ fun _ => rfl
@[simp] theorem Tree.bump_parent (t : Tree) (q n : Idx) : ((t.bump q).node n).parent = (t.node n).parent :=
  t.modNode_field (·.parent) n q _ fun _ => rfl
@[simp] theorem Tree.bump_side (t : Tree) (q n : Idx) : ((t.bump q).node n).side = (t.node n).side :=
  t.modNode_field (·.side) n q _ fun _ => rfl
@[simp] theorem Tree.bump_left (t : Tree) (q n : Idx) : ((t.bump q).node n).left = (t.node n).left :=
  t.modNode_field (·.left) n q _ fun _ => rfl
@[simp] theorem Tree.bump_right (t : Tree) (q n : Idx) : ((t.bump q).node n).right = (t.node n).right :=
  t.modNode_field (·.right) n q _ fun _ => rfl
@[simp] theorem Tree.bump_pos (t : Tree) (q n : Idx) : ((t.bump q).node n).pos = (t.node n).pos :=
  t.modNode_field (·.pos) n q _ fun _ => rfl

theorem Tree.bump_node_ne (t : Tree) {q n : Idx} (h : n ≠ q) : (t.bump q).node n = t.node n :=
  t.node_modNode_ne _ h

theorem Tree.bump_weight (t : Tree) {q : Idx} (hq : q.toNat < 513) (n : Idx) :
    ((t.bump q).node n).weight = (t.node n).weight + if n = q then 1 else 0 := by
  rw [Tree.bump, t.node_modNode n q _ hq]
  split
  · next h => rw [h]
  · rfl

@[simp] theorem Tree.bump_symEntry (t : Tree) (q : Idx) (c : Byte) : (t.bump q).symEntry c = t.symEntry c := by
  simp [Tree.symEntry]

theorem Tree.seenCount_congr {t u : Tree} (h : u.symtab = t.symtab) : u.seenCount = t.seenCount := by
  simp [Tree.seenCount, Tree.symEntry, h]

/-! ## What the invariants say apart from weights -/

/-- R50, R53, R54, R56 and the parts of R55 that speak of no weight, with the clause on the parent of the escape leaf
(log entry 9). -/
structure Tree.Shape (t : Tree) : Prop where
  allocation : t.AllocationInv
  links : t.LinkInv
  siblings : t.SiblingInv
  symbols : t.SymbolInv
  escAllocated : t.esc < t.next
  escKind : ∀ n : Idx, (t.node n).kind = .esc ↔ n = t.esc
  rootSlot : t.ordAt ROOT_SLOT = ROOT
  escParent : t.esc ≠ ROOT → (t.node (t.node t.esc).parent).pos.toNat = (t.node t.esc).pos.toNat + 2

/-- R55: every allocated node but the escape leaf has a weight. -/
def Tree.Positive (t : Tree) : Prop := ∀ n : Idx, n < t.next → n ≠ t.esc → 1 ≤ (t.node n).weight

theorem Tree.Inv.shape {t : Tree} (h : t.Inv) : t.Shape :=
  ⟨h.spec.allocation, h.spec.links, h.spec.siblings, h.spec.symbols, h.spec.escRoot.escAllocated,
    h.spec.escRoot.escKind, h.spec.escRoot.rootSlot, h.escParent⟩

/-- The invariant is its shape and its weights. -/
theorem Tree.Shape.inv {t : Tree} (h : t.Shape) (ho : t.OrderInv) (hs : t.SumInv) (he : (t.node t.esc).weight = 0)
    (hp : t.Positive) : t.Inv :=
  ⟨⟨h.allocation, ho, hs, h.links, h.siblings, ⟨h.escAllocated, h.escKind, he, h.rootSlot, hp⟩, h.symbols⟩, h.escParent⟩

/-- A weight is no part of the shape. -/
theorem Tree.Shape.bump {t : Tree} (h : t.Shape) {q : Idx} (hq : q < t.next) : (t.bump q).Shape := by
  have ha := h.allocation
  refine ⟨⟨?_, ?_, ?_, ?_, ?_, ?_, ?_, ?_, ?_⟩, ⟨?_, ?_, ?_, ?_, ?_⟩, ?_, ⟨?_, ?_, ?_, ?_⟩, ?_, ?_, ?_, ?_⟩
  · simpa using ha.allocated
  · intro n hn
    rw [Tree.bump_next] at hn
    have hne : n ≠ q := by rintro rfl; exact hn hq
    rw [t.bump_node_ne hne]
    exact ha.free n hn
  · rw [Tree.seenCount_congr (t.bump_symtab q)]
    simpa using ha.nextOdd
  · simpa using ha.nextLe
  · simpa using ha.unoccupied
  · simpa using ha.posRange
  · simpa using ha.ordPos
  · simpa using ha.posOrd
  · simpa using ha.posEsc
  · simpa using h.links.left
  · simpa using h.links.right
  · simpa using h.links.root
  · simpa using h.links.leaf
  · simpa using h.links.parent
  · simpa [Tree.SiblingInv] using h.siblings
  · simpa using h.symbols.seen
  · simpa using h.symbols.unseen
  · simpa using h.symbols.leaf
  · simpa using h.symbols.other
  · simpa using h.escAllocated
  · simpa using h.escKind
  · simpa using h.rootSlot
  · simpa using h.escParent

/-! ## Nodes and slots -/

section
variable {t : Tree} (h : t.Shape)
include h

theorem Tree.Shape.alloc_of_kind {n : Idx} (hk : (t.node n).kind ≠ .free) : n < t.next := by
  by_contra hn
  exact hk (by rw [h.allocation.free n hn]; rfl)

theorem Tree.Shape.toNat_lt {n : Idx} (hn : n < t.next) : n.toNat < 513 :=
  Nat.lt_of_lt_of_le (BitVec.lt_def.1 hn) h.allocation.nextLe

theorem Tree.Shape.ne_NIL {n : Idx} (hn : n < t.next) : n ≠ NIL := by
  rintro rfl
  exact absurd (h.toNat_lt hn) (by decide)

theorem Tree.Shape.next_pos : 1 ≤ t.next.toNat := by
  have := h.allocation.nextOdd
  omega

theorem Tree.Shape.root_alloc : ROOT < t.next := BitVec.lt_def.2 h.next_pos

theorem Tree.Shape.pos_le {n : Idx} (hn : n < t.next) : (t.node n).pos.toNat ≤ 512 := (h.allocation.posRange n hn).2

theorem Tree.Shape.esc_pos_le {n : Idx} (hn : n < t.next) : (t.node t.esc).pos.toNat ≤ (t.node n).pos.toNat := by
  rw [h.allocation.posEsc]
  exact (h.allocation.posRange n hn).1

theorem Tree.Shape.eq_of_pos {m n : Idx} (hm : m < t.next) (hn : n < t.next)
    (hp : (t.node m).pos.toNat = (t.node n).pos.toNat) : m = n := by
  rw [← h.allocation.ordPos m hm, ← h.allocation.ordPos n hn, BitVec.eq_of_toNat_eq hp]

/-- Every slot from the escape leaf's up holds a node. -/
theorem Tree.Shape.node_at {s : Nat} (h1 : (t.node t.esc).pos.toNat ≤ s) (h2 : s ≤ 512) :
    ∃ n, n < t.next ∧ (t.node n).pos.toNat = s ∧ ∀ k : Idx, k.toNat = s → t.ordAt k = n := by
  have e : (BitVec.ofNat 10 s).toNat = s := by simp; omega
  rw [h.allocation.posEsc] at h1
  obtain ⟨ha, hp⟩ := h.allocation.posOrd (BitVec.ofNat 10 s) (by omega) (by omega)
  refine ⟨_, ha, by rw [hp, e], fun k hk => ?_⟩
  rw [BitVec.eq_of_toNat_eq (hk.trans e.symm)]

theorem Tree.Shape.pos_root : (t.node ROOT).pos = ROOT_SLOT := by
  have hn := h.next_pos
  have := (h.allocation.posOrd ROOT_SLOT (by simp; omega) (by decide)).2
  rwa [h.rootSlot] at this

theorem Tree.Shape.pos_lt {n : Idx} (hn : n < t.next) (hr : n ≠ ROOT) : (t.node n).pos.toNat < 512 := by
  refine Nat.lt_of_le_of_ne (h.pos_le hn) fun e => hr (h.eq_of_pos hn h.root_alloc ?_)
  rw [h.pos_root, e]
  rfl

/-! ## Parents and siblings -/

theorem Tree.Shape.parent_int {n : Idx} (hn : n < t.next) (hr : n ≠ ROOT) : (t.node (t.node n).parent).kind = .int :=
  (h.links.parent n hn hr).1

theorem Tree.Shape.parent_alloc {n : Idx} (hn : n < t.next) (hr : n ≠ ROOT) : (t.node n).parent < t.next :=
  h.alloc_of_kind (by simp [h.parent_int hn hr])

theorem Tree.Shape.pos_lt_parent {n : Idx} (hn : n < t.next) (hr : n ≠ ROOT) :
    (t.node n).pos.toNat < (t.node (t.node n).parent).pos.toNat := by
  obtain ⟨hk, ⟨-, hc⟩ | ⟨-, hc⟩⟩ := h.links.parent n hn hr
  · simpa [hc] using (h.siblings _ hk).2.1
  · simpa [hc] using (h.siblings _ hk).2.2

theorem Tree.Shape.parent_ne {n : Idx} (hn : n < t.next) (hr : n ≠ ROOT) : (t.node n).parent ≠ n := by
  intro e
  have := h.pos_lt_parent hn hr
  rw [e] at this
  omega

/-- No node has the root for a child. -/
theorem Tree.Shape.ne_root_of_parent {m n : Idx} (hn : n < t.next) (hp : (t.node m).parent = n) : m ≠ ROOT := by
  rintro rfl
  exact h.ne_NIL hn (hp.symm.trans h.links.root.2)

end

/-- The other child of a node's parent. -/
def Tree.sibling (t : Tree) (n : Idx) : Idx :=
  if (t.node n).side = .left then (t.node (t.node n).parent).right else (t.node (t.node n).parent).left

/-- What R53 and R54 say of a node and its sibling. -/
structure Tree.SiblingOf (t : Tree) (n m : Idx) : Prop where
  alloc : m < t.next
  parent : (t.node m).parent = (t.node n).parent
  ne : m ≠ n
  adjacent : (t.node m).pos.toNat + 1 = (t.node n).pos.toNat ∨ (t.node n).pos.toNat + 1 = (t.node m).pos.toNat
  below : (t.node m).pos.toNat < (t.node (t.node n).parent).pos.toNat
  back : t.sibling m = n
  children : ∀ f : Idx → Nat, f (t.node (t.node n).parent).left + f (t.node (t.node n).parent).right = f n + f m

theorem Tree.Shape.sibling_spec {t : Tree} (h : t.Shape) {n : Idx} (hn : n < t.next) (hr : n ≠ ROOT) :
    t.SiblingOf n (t.sibling n) := by
  obtain ⟨hk, hside⟩ := h.links.parent n hn hr
  obtain ⟨la, lp, ls⟩ := h.links.left _ hk
  obtain ⟨ra, rp, rs⟩ := h.links.right _ hk
  obtain ⟨hadj, hl, hr'⟩ := h.siblings _ hk
  obtain ⟨hs, hc⟩ | ⟨hs, hc⟩ := hside
  · have e : t.sibling n = (t.node (t.node n).parent).right := by simp [Tree.sibling, hs]
    rw [hc] at hadj
    refine ⟨by rwa [e], by rw [e, rp], fun he => ?_, by rw [e]; omega, by rw [e]; omega, ?_, fun f => by rw [hc, e]⟩
    · rw [e] at he
      rw [he] at hadj
      omega
    · simp [Tree.sibling, hs, rp, rs, hc]
  · have e : t.sibling n = (t.node (t.node n).parent).left := by simp [Tree.sibling, hs]
    rw [hc] at hadj
    refine ⟨by rwa [e], by rw [e, lp], fun he => ?_, by rw [e]; omega, by rw [e]; omega, ?_,
      fun f => by rw [hc, e, Nat.add_comm]⟩
    · rw [e] at he
      rw [he] at hadj
      omega
    · simp [Tree.sibling, hs, lp, ls, hc]

/-- R54 and R55 put the sibling pairs in slots `2k` and `2k + 1`: from the top down, no pair can straddle two. -/
theorem Tree.Shape.sibling_of_odd {t : Tree} (h : t.Shape) (k : Nat) {n : Idx} (hn : n < t.next) (hr : n ≠ ROOT)
    (hp : (t.node n).pos.toNat + 2 * k = 511) : (t.node (t.sibling n)).pos.toNat + 1 = (t.node n).pos.toNat := by
  induction k generalizing n with
  | zero =>
    have hs := h.sibling_spec hn hr
    have := h.pos_lt hs.alloc (h.ne_root_of_parent (h.parent_alloc hn hr) hs.parent)
    have := hs.adjacent
    omega
  | succ k ih =>
    have hs := h.sibling_spec hn hr
    refine hs.adjacent.resolve_right fun hadj => ?_
    have hlow := h.esc_pos_le hn
    obtain ⟨m, hm, hmp, -⟩ := h.node_at (s := (t.node n).pos.toNat + 2) (by omega) (by omega)
    have hmr : m ≠ ROOT := by
      rintro rfl
      rw [h.pos_root] at hmp
      have : ROOT_SLOT.toNat = 512 := rfl
      omega
    have hs' := h.sibling_spec hm hmr
    have hmm := ih hm hmr (by omega)
    have e : t.sibling m = t.sibling n := h.eq_of_pos hs'.alloc hs.alloc (by omega)
    have : m = n := by rw [← hs'.back, e, hs.back]
    subst this
    omega

/-- A bound of a node's depth, from its slot alone. -/
def Tree.rank (t : Tree) (n : Idx) : Nat := (513 - (t.node n).pos.toNat) / 2

theorem Tree.rank_le (t : Tree) (n : Idx) : t.rank n ≤ 256 := by
  unfold Tree.rank
  omega

theorem Tree.Shape.rank_parent_lt {t : Tree} (h : t.Shape) {n : Idx} (hn : n < t.next) (hr : n ≠ ROOT) :
    t.rank (t.node n).parent < t.rank n := by
  have hs := h.sibling_spec hn hr
  have h1 := h.pos_lt hn hr
  have h2 := h.pos_lt_parent hn hr
  have h3 := hs.below
  have hodd : (t.node n).pos.toNat % 2 = 0 → (t.node n).pos.toNat + 1 = (t.node (t.sibling n)).pos.toNat := by
    intro he
    refine hs.adjacent.resolve_left fun hadj => ?_
    have := h.sibling_of_odd ((511 - (t.node (t.sibling n)).pos.toNat) / 2) hs.alloc
      (h.ne_root_of_parent (h.parent_alloc hn hr) hs.parent) (by omega)
    rw [hs.back] at this
    omega
  unfold Tree.rank
  omega

theorem Tree.Shape.eq_root_of_rank {t : Tree} (h : t.Shape) {n : Idx} (hn : n < t.next) (hr : t.rank n = 0) :
    n = ROOT := by
  by_contra hne
  have := h.pos_lt hn hne
  unfold Tree.rank at hr
  omega

/-- Below the parent of the escape leaf there is the escape leaf and its sibling, and nothing else (log entry 9). -/
theorem Tree.Shape.parent_eq_of_below {t : Tree} (h : t.Shape) (he : t.esc ≠ ROOT) {n : Idx} (hn : n < t.next)
    (hne : n ≠ t.esc) (hp : (t.node n).pos.toNat < (t.node (t.node t.esc).parent).pos.toNat) :
    n = t.sibling t.esc := by
  have hs := h.sibling_spec h.escAllocated he
  have h1 := h.escParent he
  have h2 := h.esc_pos_le hs.alloc
  have h3 := h.esc_pos_le hn
  have h4 : (t.node n).pos.toNat ≠ (t.node t.esc).pos.toNat := fun e => hne (h.eq_of_pos hn h.escAllocated e)
  have h5 := hs.adjacent
  exact h.eq_of_pos hn hs.alloc (by omega)

end Sys2Proof.Machine
end

section
/-! The exchange of two nodes (41_tree_model.md R128) and its target (R129). -/

namespace Sys2Proof.Machine

/-! ## Weights along the sequence (R51) -/

theorem Tree.OrderInv.slots {t : Tree} (ho : t.OrderInv) {s : Idx} (hs : 513 - t.next.toNat ≤ s.toNat) (k : Nat) :
    ∀ u : Idx, u.toNat = s.toNat + k → u.toNat ≤ 512 → (t.node (t.ordAt s)).weight ≤ (t.node (t.ordAt u)).weight := by
  induction k with
  | zero =>
    intro u hu _
    rw [Idx.toNat_inj.1 hu]
  | succ k ih =>
    intro u hu hle
    have e : (u - 1).toNat = s.toNat + k := by bv_omega
    have hstep := ho (u - 1) (by omega) (by omega)
    rw [show u - 1 + 1 = u from by bv_omega] at hstep
    exact (ih (u - 1) e (by omega)).trans hstep

/-- R51, of nodes: a node at a higher slot weighs at least as much. -/
theorem Tree.OrderInv.mono {t : Tree} (ho : t.OrderInv) (h : t.Shape) {m n : Idx} (hm : m < t.next) (hn : n < t.next)
    (hp : (t.node m).pos.toNat ≤ (t.node n).pos.toNat) : (t.node m).weight ≤ (t.node n).weight := by
  have := ho.slots (h.allocation.posRange m hm).1 _ (t.node n).pos (Nat.add_sub_of_le hp).symm (h.pos_le hn)
  rwa [h.allocation.ordPos m hm, h.allocation.ordPos n hn] at this

/-- A lighter node sits at a lower slot. -/
theorem Tree.OrderInv.pos_lt {t : Tree} (ho : t.OrderInv) (h : t.Shape) {m n : Idx} (hm : m < t.next) (hn : n < t.next)
    (hw : (t.node m).weight < (t.node n).weight) : (t.node m).pos.toNat < (t.node n).pos.toNat := by
  by_contra hp
  have := ho.mono h hn hm (by omega)
  omega

/-- R51, from the nodes of neighbouring slots. -/
theorem Tree.Shape.orderInv {t : Tree} (h : t.Shape) (hw : ∀ m n : Idx, m < t.next → n < t.next →
    (t.node m).pos.toNat + 1 = (t.node n).pos.toNat → (t.node m).weight ≤ (t.node n).weight) : t.OrderInv := by
  intro s h1 h2
  have e := Idx.toNat_succ h2
  obtain ⟨hm, pm⟩ := h.allocation.posOrd s h1 (by omega)
  obtain ⟨hn, pn⟩ := h.allocation.posOrd (s + 1) (by omega) (by omega)
  exact hw _ _ hm hn (by rw [pm, pn, e])

/-! ## `LEADER` (R129) -/

/-- The scan of `LEADER` stops at the top of the run of slots of weight `w`. -/
theorem Tree.leaderSlot_spec (t : Tree) (w fuel : Nat) (s : Idx) (hs : s.toNat ≤ 512) (hf : 512 ≤ s.toNat + fuel) :
    s.toNat ≤ (t.leaderSlot w fuel s).toNat ∧ (t.leaderSlot w fuel s).toNat ≤ 512 ∧
    (∀ u : Idx, s.toNat < u.toNat → u.toNat ≤ (t.leaderSlot w fuel s).toNat → (t.node (t.ordAt u)).weight = w) ∧
    ((t.leaderSlot w fuel s).toNat < 512 → (t.node (t.ordAt (t.leaderSlot w fuel s + 1))).weight ≠ w) := by
  induction fuel generalizing s with
  | zero =>
    rw [Tree.leaderSlot]
    exact ⟨le_rfl, hs, fun u h1 h2 => by omega, fun h1 => by omega⟩
  | succ fuel ih =>
    rw [Tree.leaderSlot]
    split
    · next hc =>
      have hlt : s.toNat < 512 := BitVec.lt_def.1 hc.1
      have e := Idx.toNat_succ hlt
      obtain ⟨h1, h2, h3, h4⟩ := ih (s + 1) (by omega) (by omega)
      refine ⟨by omega, h2, fun u hu hle => ?_, h4⟩
      rcases Nat.lt_or_eq_of_le (show s.toNat + 1 ≤ u.toNat from hu) with hlt' | heq
      · exact h3 u (by omega) hle
      · rw [← Idx.toNat_inj.1 (e.trans heq)]
        exact hc.2
    · next hc =>
      exact ⟨le_rfl, hs, fun u h1 h2 => by omega, fun h1 h2 => hc ⟨BitVec.lt_def.2 h1, h2⟩⟩

/-- `l` is the node at the top of the run of slots of `q`'s weight that starts at `q` (R129). -/
structure Tree.TopOfRun (t : Tree) (q l : Idx) : Prop where
  alloc : l < t.next
  weight : (t.node l).weight = (t.node q).weight
  above : (t.node q).pos.toNat ≤ (t.node l).pos.toNat
  between : ∀ n : Idx, n < t.next → (t.node q).pos.toNat ≤ (t.node n).pos.toNat →
    (t.node n).pos.toNat ≤ (t.node l).pos.toNat → (t.node n).weight = (t.node q).weight
  top : ∀ n : Idx, n < t.next → (t.node n).pos.toNat = (t.node l).pos.toNat + 1 → (t.node n).weight ≠ (t.node q).weight

theorem Tree.Shape.leader_spec {t : Tree} (h : t.Shape) {q : Idx} (hq : q < t.next) : t.TopOfRun q (t.leader q) := by
  have hlow := h.allocation.posRange q hq
  obtain ⟨h1, h2, h3, h4⟩ := t.leaderSlot_spec (t.node q).weight 512 (t.node q).pos (h.pos_le hq) (by omega)
  rw [Tree.leader]
  obtain ⟨ha, hp⟩ := h.allocation.posOrd (t.leaderSlot (t.node q).weight 512 (t.node q).pos) (by omega) h2
  have hpn := congrArg BitVec.toNat hp
  have hb (n : Idx) (hn : n < t.next) (hlo : (t.node q).pos.toNat ≤ (t.node n).pos.toNat)
      (hhi : (t.node n).pos.toNat ≤ (t.leaderSlot (t.node q).weight 512 (t.node q).pos).toNat) :
      (t.node n).weight = (t.node q).weight := by
    rcases Nat.lt_or_eq_of_le hlo with hlt | heq
    · have := h3 _ hlt hhi
      rwa [h.allocation.ordPos n hn] at this
    · rw [h.eq_of_pos hq hn heq]
  refine ⟨ha, hb _ ha (by omega) hpn.le, by omega, fun n hn hlo hhi => hb n hn hlo (by rwa [hp] at hhi), ?_⟩
  intro n hn hnp
  rw [hp] at hnp
  have hle := h.pos_le hn
  have := h4 (by omega)
  rwa [← Idx.toNat_inj.1 (hnp.trans (Idx.toNat_succ (by omega)).symm), h.allocation.ordPos n hn] at this

/-- In a tree in order, everything above the leader is heavier (R129). -/
theorem Tree.TopOfRun.lt_above {t : Tree} {q l : Idx} (hl : t.TopOfRun q l) (h : t.Shape) (ho : t.OrderInv) {n : Idx}
    (hn : n < t.next) (hp : (t.node n).pos.toNat = (t.node l).pos.toNat + 1) :
    (t.node q).weight < (t.node n).weight := by
  refine Nat.lt_of_le_of_ne ?_ (Ne.symm (hl.top n hn hp))
  rw [← hl.weight]
  exact ho.mono h hl.alloc hn (by omega)

/-! ## `SWAP` (R128)

The exchange renames places: with `σ` for the transposition of `a` and `b`, node `n` goes to the place of `σ n`, and
every link and slot that named `m` names `σ m`. -/

theorem Tree.setChild_node (t : Tree) (p m n : Idx) (d : Side) (h : p.toNat < 513) : (t.setChild p d m).node n =
    { t.node n with
      left := if n = p ∧ d = .left then m else (t.node n).left
      right := if n = p ∧ d ≠ .left then m else (t.node n).right } := by
  rw [Tree.setChild, t.node_modNode n p _ h]
  by_cases hn : n = p
  · by_cases hd : d = .left <;> simp [hn, hd]
  · simp [hn]

@[simp] theorem Tree.setChild_ordAt (t : Tree) (p m s : Idx) (d : Side) : (t.setChild p d m).ordAt s = t.ordAt s := by
  simp [Tree.setChild]

/-- What an exchange asks of its two nodes: neither is the root, and neither is the other's parent (R128). -/
structure Tree.Exchangeable (t : Tree) (a b : Idx) : Prop where
  allocA : a < t.next
  allocB : b < t.next
  ne : a ≠ b
  rootA : a ≠ ROOT
  rootB : b ≠ ROOT
  parentA : (t.node a).parent ≠ b
  parentB : (t.node b).parent ≠ a

/-- Where node `n` stands once `a` and `b` have been exchanged. -/
def Tree.renamed (t : Tree) (a b n : Idx) : Node :=
  { t.node n with
    parent := (t.node (Equiv.swap a b n)).parent
    side := (t.node (Equiv.swap a b n)).side
    pos := (t.node (Equiv.swap a b n)).pos
    left := Equiv.swap a b (t.node n).left
    right := Equiv.swap a b (t.node n).right }

section
variable {t : Tree} (h : t.Shape)
include h

theorem Tree.Shape.left_eq_iff {m : Idx} (hm : m < t.next) (hr : m ≠ ROOT) (n : Idx) :
    (t.node n).left = m ↔ (t.node m).parent = n ∧ (t.node m).side = .left := by
  constructor
  · rintro rfl
    by_cases hk : (t.node n).kind = .int
    · exact (h.links.left n hk).2
    · exact absurd (h.links.leaf n hk).1 (h.ne_NIL hm)
  · rintro ⟨rfl, hs⟩
    obtain ⟨-, ⟨-, hc⟩ | ⟨hs', -⟩⟩ := h.links.parent m hm hr
    · exact hc
    · rw [hs] at hs'
      cases hs'

theorem Tree.Shape.right_eq_iff {m : Idx} (hm : m < t.next) (hr : m ≠ ROOT) (n : Idx) :
    (t.node n).right = m ↔ (t.node m).parent = n ∧ (t.node m).side ≠ .left := by
  constructor
  · rintro rfl
    by_cases hk : (t.node n).kind = .int
    · obtain ⟨-, hp, hs⟩ := h.links.right n hk
      exact ⟨hp, by simp [hs]⟩
    · exact absurd (h.links.leaf n hk).2 (h.ne_NIL hm)
  · rintro ⟨rfl, hs⟩
    obtain ⟨-, ⟨hs', -⟩ | ⟨-, hc⟩⟩ := h.links.parent m hm hr
    · exact absurd hs' hs
    · exact hc

theorem Tree.Shape.ordAt_eq_iff {n : Idx} (hn : n < t.next) (s : Idx) : t.ordAt s = n ↔ s = (t.node n).pos := by
  constructor
  · intro e
    by_cases hlo : s.toNat < 513 - t.next.toNat
    · exact absurd (e.symm.trans (h.allocation.unoccupied s hlo)) (h.ne_NIL hn)
    · by_cases hhi : s.toNat ≤ 512
      · rw [← e]
        exact (h.allocation.posOrd s (by omega) hhi).2.symm
      · have : t.ordAt s = NIL := by simp [Tree.ordAt, show ¬ s.toNat < 513 from by omega]
        exact absurd (e.symm.trans this) (h.ne_NIL hn)
  · rintro rfl
    exact h.allocation.ordPos n hn

variable {a b : Idx} (hx : t.Exchangeable a b)
include hx

/-- The two writes of a left link, as a renaming. -/
theorem Tree.Shape.swap_left (n : Idx) : Equiv.swap a b (t.node n).left =
    if n = (t.node b).parent ∧ (t.node b).side = .left then a
    else if n = (t.node a).parent ∧ (t.node a).side = .left then b else (t.node n).left := by
  have la := h.left_eq_iff hx.allocA hx.rootA n
  have lb := h.left_eq_iff hx.allocB hx.rootB n
  have hne := hx.ne
  rw [Equiv.swap_apply_def]
  grind

/-- The two writes of a right link, as a renaming. -/
theorem Tree.Shape.swap_right (n : Idx) : Equiv.swap a b (t.node n).right =
    if n = (t.node b).parent ∧ (t.node b).side ≠ .left then a
    else if n = (t.node a).parent ∧ (t.node a).side ≠ .left then b else (t.node n).right := by
  have ra := h.right_eq_iff hx.allocA hx.rootA n
  have rb := h.right_eq_iff hx.allocB hx.rootB n
  have hne := hx.ne
  rw [Equiv.swap_apply_def]
  grind

theorem Tree.Shape.swap_node (n : Idx) : (t.swap a b).node n = t.renamed a b n := by
  have ha := h.toNat_lt hx.allocA
  have hb := h.toNat_lt hx.allocB
  have hpa := h.toNat_lt (h.parent_alloc hx.allocA hx.rootA)
  have hpb := h.toNat_lt (h.parent_alloc hx.allocB hx.rootB)
  rw [Tree.renamed, h.swap_left hx, h.swap_right hx]
  simp only [Tree.swap, Tree.setOrd_node, Tree.node_modNode _ _ _ _ ha, Tree.node_modNode _ _ _ _ hb,
    Tree.setChild_node _ _ _ _ _ hpa, Tree.setChild_node _ _ _ _ _ hpb]
  by_cases hnb : n = b
  · subst hnb
    simp [hx.ne.symm]
  · by_cases hna : n = a
    · subst hna
      simp [hnb]
    · simp [hna, hnb, Equiv.swap_apply_of_ne_of_ne hna hnb]

theorem Tree.Shape.swap_ordAt (s : Idx) : (t.swap a b).ordAt s = Equiv.swap a b (t.ordAt s) := by
  have hqa := Nat.lt_succ_of_le (h.pos_le hx.allocA)
  have hqb := Nat.lt_succ_of_le (h.pos_le hx.allocB)
  have oa := h.allocation.ordPos a hx.allocA
  have ob := h.allocation.ordPos b hx.allocB
  have ia := h.ordAt_eq_iff hx.allocA s
  have ib := h.ordAt_eq_iff hx.allocB s
  simp only [Tree.swap, Tree.ordAt_setOrd _ _ _ _ hqa, Tree.ordAt_setOrd _ _ _ _ hqb, Tree.modNode_ordAt,
    Tree.setChild_ordAt]
  rw [Equiv.swap_apply_def]
  grind

end

/-! Every field after an exchange, by the renaming. -/

section
variable {t : Tree} (h : t.Shape) {a b : Idx} (hx : t.Exchangeable a b)
include h hx

theorem Tree.Shape.swap_weight (n : Idx) : ((t.swap a b).node n).weight = (t.node n).weight := by
  rw [h.swap_node hx]; rfl
theorem Tree.Shape.swap_kind (n : Idx) : ((t.swap a b).node n).kind = (t.node n).kind := by
  rw [h.swap_node hx]; rfl
theorem Tree.Shape.swap_symv (n : Idx) : ((t.swap a b).node n).symv = (t.node n).symv := by
  rw [h.swap_node hx]; rfl
theorem Tree.Shape.swap_place (n : Idx) :
    ((t.swap a b).node n).parent = (t.node (Equiv.swap a b n)).parent ∧
    ((t.swap a b).node n).side = (t.node (Equiv.swap a b n)).side ∧
    ((t.swap a b).node n).pos = (t.node (Equiv.swap a b n)).pos := by
  rw [h.swap_node hx]; exact ⟨rfl, rfl, rfl⟩
theorem Tree.Shape.swap_children (n : Idx) :
    ((t.swap a b).node n).left = Equiv.swap a b (t.node n).left ∧
    ((t.swap a b).node n).right = Equiv.swap a b (t.node n).right := by
  rw [h.swap_node hx]; exact ⟨rfl, rfl⟩

omit h in
theorem Tree.Exchangeable.swap_lt {n : Idx} (hn : n < t.next) : Equiv.swap a b n < t.next := by
  rw [Equiv.swap_apply_def]
  split
  · exact hx.allocB
  · split
    · exact hx.allocA
    · exact hn

omit h in
theorem Tree.Exchangeable.swap_root : Equiv.swap a b ROOT = ROOT :=
  Equiv.swap_apply_of_ne_of_ne hx.rootA.symm hx.rootB.symm

omit h in
theorem Tree.Exchangeable.swap_free {n : Idx} (hn : ¬ n < t.next) : Equiv.swap a b n = n := by
  refine Equiv.swap_apply_of_ne_of_ne ?_ ?_ <;> rintro rfl
  · exact hn hx.allocA
  · exact hn hx.allocB

theorem Tree.Shape.swap_NIL : Equiv.swap a b NIL = NIL :=
  hx.swap_free fun hn => h.ne_NIL hn rfl

theorem Tree.Shape.swap_allocation (hea : t.esc ≠ a) (heb : t.esc ≠ b) : (t.swap a b).AllocationInv := by
  have ha := h.allocation
  refine ⟨?_, ?_, ?_, ?_, ?_, ?_, ?_, ?_, ?_⟩
  · simpa [h.swap_kind hx] using ha.allocated
  · intro n hn
    rw [Tree.swap_next] at hn
    have hf := ha.free n hn
    rw [h.swap_node hx, Tree.renamed, hx.swap_free hn, hf]
    simp [Node.free, h.swap_NIL hx]
  · rw [Tree.seenCount_congr (t.swap_symtab a b)]
    simpa using ha.nextOdd
  · simpa using ha.nextLe
  · intro s hs
    rw [Tree.swap_next] at hs
    rw [h.swap_ordAt hx, ha.unoccupied s hs, h.swap_NIL hx]
  · intro n hn
    rw [Tree.swap_next] at hn ⊢
    rw [(h.swap_place hx n).2.2]
    exact ha.posRange _ (hx.swap_lt hn)
  · intro n hn
    rw [Tree.swap_next] at hn
    rw [(h.swap_place hx n).2.2, h.swap_ordAt hx, ha.ordPos _ (hx.swap_lt hn), Equiv.swap_apply_self]
  · intro s h1 h2
    rw [Tree.swap_next] at h1 ⊢
    obtain ⟨hn, hp⟩ := ha.posOrd s h1 h2
    rw [h.swap_ordAt hx, (h.swap_place hx _).2.2, Equiv.swap_apply_self]
    exact ⟨hx.swap_lt hn, hp⟩
  · rw [Tree.swap_esc, Tree.swap_next, (h.swap_place hx _).2.2, Equiv.swap_apply_of_ne_of_ne hea heb]
    exact ha.posEsc

theorem Tree.Shape.swap_links : (t.swap a b).LinkInv := by
  refine ⟨?_, ?_, ?_, ?_, ?_⟩
  · intro n hk
    rw [h.swap_kind hx] at hk
    obtain ⟨hl, hp, hs⟩ := h.links.left n hk
    obtain ⟨ep, es, -⟩ := h.swap_place hx (Equiv.swap a b (t.node n).left)
    rw [Equiv.swap_apply_self] at ep es
    rw [(h.swap_children hx n).1, Tree.swap_next, ep, es]
    exact ⟨hx.swap_lt hl, hp, hs⟩
  · intro n hk
    rw [h.swap_kind hx] at hk
    obtain ⟨hl, hp, hs⟩ := h.links.right n hk
    obtain ⟨ep, es, -⟩ := h.swap_place hx (Equiv.swap a b (t.node n).right)
    rw [Equiv.swap_apply_self] at ep es
    rw [(h.swap_children hx n).2, Tree.swap_next, ep, es]
    exact ⟨hx.swap_lt hl, hp, hs⟩
  · obtain ⟨ep, es, -⟩ := h.swap_place hx ROOT
    rw [hx.swap_root] at ep es
    rw [ep, es]
    exact h.links.root
  · intro n hk
    rw [h.swap_kind hx] at hk
    obtain ⟨hl, hr⟩ := h.links.leaf n hk
    obtain ⟨el, er⟩ := h.swap_children hx n
    rw [el, er, hl, hr, h.swap_NIL hx]
    exact ⟨rfl, rfl⟩
  · intro n hn hr
    rw [Tree.swap_next] at hn
    have hr' : Equiv.swap a b n ≠ ROOT := fun e => hr ((Equiv.swap a b).injective (e.trans hx.swap_root.symm))
    obtain ⟨hk, hc⟩ := h.links.parent _ (hx.swap_lt hn) hr'
    obtain ⟨ep, es, -⟩ := h.swap_place hx n
    obtain ⟨el, er⟩ := h.swap_children hx (t.node (Equiv.swap a b n)).parent
    rw [ep, es, h.swap_kind hx, el, er, Equiv.swap_apply_eq_iff, Equiv.swap_apply_eq_iff]
    exact ⟨hk, hc⟩

/-- The exchange keeps R54 where the children of the node that goes down are lighter than the place it goes to. -/
theorem Tree.Shape.swap_siblings (hab : (t.node a).pos.toNat < (t.node b).pos.toNat)
    (hc : ∀ m, m < t.next → (t.node m).parent = b → (t.node m).pos.toNat < (t.node a).pos.toNat) :
    (t.swap a b).SiblingInv := by
  intro n hk
  rw [h.swap_kind hx] at hk
  obtain ⟨el, er⟩ := h.swap_children hx n
  obtain ⟨-, -, pl⟩ := h.swap_place hx (Equiv.swap a b (t.node n).left)
  obtain ⟨-, -, pr⟩ := h.swap_place hx (Equiv.swap a b (t.node n).right)
  obtain ⟨-, -, pn⟩ := h.swap_place hx n
  rw [Equiv.swap_apply_self] at pl pr
  simp only [el, er, pl, pr, pn]
  obtain ⟨la, lp, -⟩ := h.links.left n hk
  obtain ⟨ra, rp, -⟩ := h.links.right n hk
  obtain ⟨hadj, hl, hr⟩ := h.siblings n hk
  refine ⟨hadj, ?_⟩
  rw [Equiv.swap_apply_def]
  split
  · next e =>
    subst e
    exact ⟨hl.trans hab, hr.trans hab⟩
  · split
    · next e =>
      subst e
      exact ⟨hc _ la lp, hc _ ra rp⟩
    · exact ⟨hl, hr⟩

theorem Tree.Shape.swap (hab : (t.node a).pos.toNat < (t.node b).pos.toNat)
    (hc : ∀ m, m < t.next → (t.node m).parent = b → (t.node m).pos.toNat < (t.node a).pos.toNat)
    (hea : t.esc ≠ a) (heb : t.esc ≠ b) (hpa : (t.node t.esc).parent ≠ a) (hpb : (t.node t.esc).parent ≠ b) :
    (t.swap a b).Shape := by
  refine ⟨h.swap_allocation hx hea heb, h.swap_links hx, h.swap_siblings hx hab hc, ⟨?_, ?_, ?_, ?_⟩, ?_, ?_, ?_, ?_⟩
  · simpa [Tree.symEntry, h.swap_kind hx, h.swap_symv hx] using h.symbols.seen
  · simpa [Tree.symEntry] using h.symbols.unseen
  · simpa [Tree.symEntry, h.swap_kind hx, h.swap_symv hx] using h.symbols.leaf
  · simpa [h.swap_kind hx, h.swap_symv hx] using h.symbols.other
  · simpa using h.escAllocated
  · simpa [h.swap_kind hx] using h.escKind
  · rw [h.swap_ordAt hx, h.rootSlot, hx.swap_root]
  · intro he
    rw [Tree.swap_esc] at he ⊢
    obtain ⟨ep, -, eq⟩ := h.swap_place hx t.esc
    rw [Equiv.swap_apply_of_ne_of_ne hea heb] at ep eq
    rw [ep, eq, (h.swap_place hx _).2.2, Equiv.swap_apply_of_ne_of_ne hpa hpb]
    exact h.escParent he

end

end Sys2Proof.Machine
end

section
/-! `PROPAGATE` keeps the invariant (41_tree_model.md R127, R131, R135): what holds while it climbs from a leaf to the
root, and why each round keeps it. -/

namespace Sys2Proof.Machine

/-- `PROPAGATE` stands at node `q`: below `q` every weight has its increment, `q` lacks it (R127, R130). -/
structure Tree.Climbing (t : Tree) (q : Idx) : Prop where
  shape : t.Shape
  alloc : q < t.next
  notEsc : q ≠ t.esc
  escWeight : (t.node t.esc).weight = 0
  sums : ∀ n : Idx, n ≠ q → (t.node n).kind = .int →
    (t.node n).weight = (t.node (t.node n).left).weight + (t.node (t.node n).right).weight
  carry : (t.node q).kind = .int →
    (t.node q).weight + 1 = (t.node (t.node q).left).weight + (t.node (t.node q).right).weight

/-- R51, and the clause of R55 on weights. -/
structure Tree.Balanced (t : Tree) : Prop where
  order : t.OrderInv
  positive : t.Positive

/-- The weights are in order before the increment of `q`. -/
structure Tree.Arrived (t : Tree) (q : Idx) : Prop where
  climbing : t.Climbing q
  balanced : t.Balanced

/-- The weights are in order once `q` has its increment: `q` stands at the top of its run. -/
structure Tree.Raisable (t : Tree) (q : Idx) : Prop where
  climbing : t.Climbing q
  balanced : (t.bump q).Balanced

/-! ## The increment -/

/-- The increment of `q` leaves its parent one short (R52). -/
theorem Tree.Climbing.bump {t : Tree} {q : Idx} (h : t.Climbing q) (hr : q ≠ ROOT) :
    (t.bump q).Climbing (t.node q).parent := by
  have hq := h.shape.toNat_lt h.alloc
  have hs := h.shape.sibling_spec h.alloc hr
  have hk := h.shape.parent_int h.alloc hr
  have hpne := h.shape.parent_ne h.alloc hr
  refine ⟨h.shape.bump h.alloc, by simpa using h.shape.parent_alloc h.alloc hr, ?_, ?_, ?_, ?_⟩
  · intro e
    rw [Tree.bump_esc] at e
    simp [(h.shape.escKind _).2 e] at hk
  · simp [t.bump_weight hq, h.notEsc.symm, h.escWeight]
  · intro n hn hk'
    rw [Tree.bump_kind] at hk'
    have hl : (t.node n).left ≠ q := fun e => hn (by rw [← e, (h.shape.links.left n hk').2.1])
    have hr' : (t.node n).right ≠ q := fun e => hn (by rw [← e, (h.shape.links.right n hk').2.1])
    simp only [Tree.bump_left, Tree.bump_right, t.bump_weight hq, hl, hr', if_false, Nat.add_zero]
    split
    · next e => rw [e, h.carry (e ▸ hk')]
    · next e => rw [h.sums n e hk', Nat.add_zero]
  · intro _
    have hsum := hs.children fun m => ((t.bump q).node m).weight
    have hsum' := hs.children fun m => (t.node m).weight
    have hw := h.sums _ hpne hk
    simp only [Tree.bump_left, Tree.bump_right]
    simp only [t.bump_weight hq, hpne, hs.ne, if_false, if_true] at hsum hsum' ⊢
    omega

theorem Tree.Raisable.bump {t : Tree} {q : Idx} (h : t.Raisable q) (hr : q ≠ ROOT) :
    (t.bump q).Arrived (t.node q).parent := ⟨h.climbing.bump hr, h.balanced⟩

/-- The increment of the root ends the propagation (R127). -/
theorem Tree.Raisable.inv_of_root {t : Tree} (h : t.Raisable ROOT) : (t.bump ROOT).Inv := by
  have hc := h.climbing
  have hq := hc.shape.toNat_lt hc.alloc
  refine (hc.shape.bump hc.alloc).inv h.balanced.order ?_ ?_ h.balanced.positive
  · intro n hk
    rw [Tree.bump_kind] at hk
    have hl := hc.shape.ne_root_of_parent (hc.shape.alloc_of_kind (by simp [hk])) (hc.shape.links.left n hk).2.1
    have hr := hc.shape.ne_root_of_parent (hc.shape.alloc_of_kind (by simp [hk])) (hc.shape.links.right n hk).2.1
    simp only [Tree.bump_left, Tree.bump_right, t.bump_weight hq, hl, hr, if_false, Nat.add_zero]
    split
    · next e => rw [e, hc.carry (e ▸ hk)]
    · next e => rw [hc.sums n e hk, Nat.add_zero]
  · simp [t.bump_weight hq, hc.notEsc.symm, hc.escWeight]

/-- R51 after an increment: only the slot right above matters. -/
theorem Tree.OrderInv.bump {t : Tree} (ho : t.OrderInv) (h : t.Shape) {q : Idx} (hq : q < t.next)
    (htop : ∀ n, n < t.next → (t.node n).pos.toNat = (t.node q).pos.toNat + 1 → (t.node q).weight < (t.node n).weight) :
    (t.bump q).OrderInv := by
  refine (h.bump hq).orderInv fun m n hm hn hp => ?_
  simp only [Tree.bump_next, Tree.bump_pos] at hm hn hp
  have hmn := ho.mono h hm hn (by omega)
  simp only [t.bump_weight (h.toNat_lt hq)]
  by_cases e : m = q
  · subst e
    have := htop n hn hp.symm
    simp only [if_true]
    omega
  · simp only [e, if_false]
    omega

theorem Tree.Positive.bump {t : Tree} (hp : t.Positive) (q : Idx) (hq : q.toNat < 513) : (t.bump q).Positive := by
  intro n hn he
  rw [Tree.bump_next] at hn
  rw [Tree.bump_esc] at he
  rw [t.bump_weight hq]
  exact (hp n hn he).trans (Nat.le_add_right _ _)

/-! ## Nodes of the weight of `q` -/

section
variable {t : Tree} {q : Idx} (h : t.Arrived q)
include h

theorem Tree.Arrived.weight_pos : 1 ≤ (t.node q).weight := h.balanced.positive q h.climbing.alloc h.climbing.notEsc

/-- The parent of the escape leaf has the weight of its other child, so `PROPAGATE` never stands at it in order. -/
theorem Tree.Arrived.ne_escParent : (t.node t.esc).parent ≠ q := by
  intro e
  have hS := h.climbing.shape
  have he : t.esc ≠ ROOT := hS.ne_root_of_parent h.climbing.alloc e
  have hs := hS.sibling_spec hS.escAllocated he
  have hc := h.climbing.carry (e ▸ hS.parent_int hS.escAllocated he)
  have hsum := hs.children fun m => (t.node m).weight
  have hw := h.climbing.escWeight
  have hb := hs.below
  rw [e] at hsum hb
  have := h.balanced.order.mono hS hs.alloc h.climbing.alloc hb.le
  omega

/-- A node of `q`'s weight above `q`, other than its parent, is not the parent of the escape leaf: what lies below that
is the escape leaf and its sibling (log entry 9). -/
theorem Tree.Arrived.escParent_ne {l : Idx} (hp : (t.node q).pos.toNat < (t.node l).pos.toNat)
    (hl : l < t.next) (hlp : l ≠ (t.node q).parent) : (t.node t.esc).parent ≠ l := by
  intro e
  have hS := h.climbing.shape
  have he : t.esc ≠ ROOT := hS.ne_root_of_parent hl e
  have hq := hS.parent_eq_of_below he h.climbing.alloc h.climbing.notEsc (e ▸ hp)
  have hs := hS.sibling_spec hS.escAllocated he
  rw [← hq] at hs
  exact hlp (e.symm.trans hs.parent.symm)

/-- The children of such a node are lighter than `q`, since both have a weight. -/
theorem Tree.Arrived.child_weight_lt {l m : Idx} (hw : (t.node l).weight = (t.node q).weight)
    (hp : (t.node q).pos.toNat < (t.node l).pos.toNat) (hl : l < t.next) (hlp : l ≠ (t.node q).parent)
    (hm : m < t.next) (hml : (t.node m).parent = l) : (t.node m).weight < (t.node q).weight := by
  have hS := h.climbing.shape
  have hr : m ≠ ROOT := hS.ne_root_of_parent hl hml
  have hs := hS.sibling_spec hm hr
  have hesc := h.escParent_ne hp hl hlp
  have hne : t.sibling m ≠ t.esc := by
    intro e
    rw [← e, hs.parent] at hesc
    exact hesc hml
  have hpos := h.balanced.positive _ hs.alloc hne
  have hlq : l ≠ q := by rintro rfl; omega
  have hsum := hs.children fun m => (t.node m).weight
  have hk := hS.parent_int hm hr
  rw [hml] at hsum hk
  have := h.climbing.sums l hlq hk
  omega

/-- The root has not `q`'s weight, unless it is `q`'s parent: its higher child would be lighter than `q` (R132 (d)). -/
theorem Tree.Arrived.ne_root {l : Idx} (hw : (t.node l).weight = (t.node q).weight)
    (hp : (t.node q).pos.toNat < (t.node l).pos.toNat) (hl : l < t.next) (hlp : l ≠ (t.node q).parent) : l ≠ ROOT := by
  rintro rfl
  have hS := h.climbing.shape
  have hqr : q ≠ ROOT := by rintro rfl; omega
  have hlt := hS.pos_lt h.climbing.alloc hqr
  obtain ⟨m, hm, hmp, -⟩ := hS.node_at (s := 511) ((hS.esc_pos_le h.climbing.alloc).trans (by omega)) (by omega)
  have hmr : m ≠ ROOT := by
    rintro rfl
    rw [hS.pos_root] at hmp
    cases hmp
  have hup := hS.pos_lt_parent hm hmr
  have hpa := hS.parent_alloc hm hmr
  have hpr : (t.node m).parent = ROOT := by
    by_contra hne
    have := hS.pos_lt hpa hne
    omega
  have := h.child_weight_lt hw hp hl hlp hm hpr
  have := h.balanced.order.mono hS h.climbing.alloc hm (by omega)
  omega

end

/-! ## The exchange (R131, R132) -/

/-- The exchanged nodes weigh the same, so every slot and every child link has the weight it had (R132 (a)). -/
theorem Tree.TopOfRun.swap_weight {t : Tree} {q l : Idx} (hl : t.TopOfRun q l) (n : Idx) : (t.node (Equiv.swap q l n)).weight = (t.node n).weight := by
  rw [Equiv.swap_apply_def]
  split
  · next e => rw [e, hl.weight]
  · split
    · next e => rw [e, hl.weight]
    · rfl

section
variable {t : Tree} {q l : Idx} (h : t.Arrived q) (hr : q ≠ ROOT) (hl : t.TopOfRun q l) (hlq : l ≠ q)
  (hlp : l ≠ (t.node q).parent)
include h hl hlq

theorem Tree.Arrived.leader_above : (t.node q).pos.toNat < (t.node l).pos.toNat := by
  refine Nat.lt_of_le_of_ne hl.above fun e => hlq ?_
  exact (h.climbing.shape.eq_of_pos h.climbing.alloc hl.alloc e).symm

include hr hlp

theorem Tree.Arrived.exchangeable : t.Exchangeable q l := by
  have hp := h.leader_above hl hlq
  have hlr := h.ne_root hl.weight hp hl.alloc hlp
  refine ⟨h.climbing.alloc, hl.alloc, hlq.symm, hr, hlr, fun e => hlp e.symm, fun e => ?_⟩
  have := h.climbing.shape.pos_lt_parent hl.alloc hlr
  rw [e] at this
  omega

theorem Tree.Arrived.swap_shape : (t.swap q l).Shape := by
  have hS := h.climbing.shape
  have hp := h.leader_above hl hlq
  refine hS.swap (h.exchangeable hr hl hlq hlp) hp ?_ h.climbing.notEsc.symm ?_ h.ne_escParent
    (h.escParent_ne hp hl.alloc hlp)
  · intro m hm hml
    exact h.balanced.order.pos_lt hS hm h.climbing.alloc (h.child_weight_lt hl.weight hp hl.alloc hlp hm hml)
  · rintro rfl
    have := h.weight_pos
    have := h.climbing.escWeight
    have := hl.weight
    omega

theorem Tree.Arrived.swap : (t.swap q l).Raisable q := by
  have hS := h.climbing.shape
  have hx := h.exchangeable hr hl hlq hlp
  have hS' := h.swap_shape hr hl hlq hlp
  have hsame := hl.swap_weight
  have hord : (t.swap q l).OrderInv := by
    intro s h1 h2
    rw [Tree.swap_next] at h1
    simp only [hS.swap_ordAt hx, hS.swap_weight hx, hsame]
    exact h.balanced.order s h1 h2
  have hpos : (t.swap q l).Positive := by
    intro n hn he
    rw [hS.swap_weight hx]
    exact h.balanced.positive n (by simpa using hn) (by simpa using he)
  have hpq : ((t.swap q l).node q).pos = (t.node l).pos := by
    rw [(hS.swap_place hx q).2.2, Equiv.swap_apply_left]
  refine ⟨⟨hS', by simpa using h.climbing.alloc, by simpa using h.climbing.notEsc, ?_, ?_, ?_⟩, ?_,
    hpos.bump q (hS.toNat_lt h.climbing.alloc)⟩
  · rw [Tree.swap_esc, hS.swap_weight hx, h.climbing.escWeight]
  · intro n hn hk
    rw [hS.swap_kind hx] at hk
    obtain ⟨el, er⟩ := hS.swap_children hx n
    simp only [el, er, hS.swap_weight hx, hsame]
    exact h.climbing.sums n hn hk
  · intro hk
    rw [hS.swap_kind hx] at hk
    obtain ⟨el, er⟩ := hS.swap_children hx q
    simp only [el, er, hS.swap_weight hx, hsame]
    exact h.climbing.carry hk
  · refine hord.bump hS' (by simpa using h.climbing.alloc) fun n hn hnp => ?_
    rw [Tree.swap_next] at hn
    rw [(hS.swap_place hx n).2.2, hpq] at hnp
    rw [hS.swap_weight hx, hS.swap_weight hx, ← hsame n]
    exact hl.lt_above hS h.balanced.order (hx.swap_lt hn) hnp

end

/-! ## No exchange (R131) -/

/-- `q` is already the last node of its weight. -/
theorem Tree.Arrived.raisable {t : Tree} {q : Idx} (h : t.Arrived q) (hl : t.TopOfRun q q) : t.Raisable q :=
  ⟨h.climbing, h.balanced.order.bump h.climbing.shape h.climbing.alloc fun _ hn hp =>
      hl.lt_above h.climbing.shape h.balanced.order hn hp,
    h.balanced.positive.bump q (h.climbing.shape.toNat_lt h.climbing.alloc)⟩

section
variable {t : Tree} {q : Idx} (h : t.Arrived q) (hr : q ≠ ROOT) (hl : t.TopOfRun q (t.node q).parent)
include h hr hl

/-- `q`'s leader is its parent: then its sibling weighs 0, so it is the escape leaf. -/
theorem Tree.Arrived.sibling_eq_esc : t.sibling q = t.esc := by
  have hS := h.climbing.shape
  have hs := hS.sibling_spec h.climbing.alloc hr
  have hsum := hs.children fun m => (t.node m).weight
  by_contra hne
  have := h.balanced.positive _ hs.alloc hne
  have := h.climbing.sums _ (hS.parent_ne h.climbing.alloc hr) (hS.parent_int h.climbing.alloc hr)
  have := hl.weight
  omega

/-- Then the parent stands right above `q` (log entry 9). -/
theorem Tree.Arrived.parent_pos : (t.node (t.node q).parent).pos.toNat = (t.node q).pos.toNat + 1 := by
  have hS := h.climbing.shape
  have hs := hS.sibling_spec h.climbing.alloc hr
  rw [h.sibling_eq_esc hr hl] at hs
  have hesc : t.esc ≠ ROOT := hS.ne_root_of_parent hl.alloc hs.parent
  have h1 := hS.escParent hesc
  have h2 := hS.esc_pos_le h.climbing.alloc
  have h3 := hs.adjacent
  rw [hs.parent] at h1
  omega

/-- Then both weigh one more, and everything above the parent is heavier than it was. -/
theorem Tree.Arrived.raisable_parent : (t.bump q).Raisable (t.node q).parent := by
  have hS := h.climbing.shape
  have hpne := hS.parent_ne h.climbing.alloc hr
  have hq := hS.toNat_lt h.climbing.alloc
  have hP := hS.toNat_lt hl.alloc
  have hP' : (t.node q).parent < (t.bump q).next := by simpa using hl.alloc
  have hw := hl.weight
  refine ⟨h.climbing.bump hr, ((hS.bump h.climbing.alloc).bump hP').orderInv fun m n hm hn hp => ?_,
    (h.balanced.positive.bump q hq).bump _ hP⟩
  simp only [Tree.bump_next, Tree.bump_pos] at hm hn hp
  have hmn := h.balanced.order.mono hS hm hn (by omega)
  simp only [Tree.bump_weight _ hq, Tree.bump_weight _ hP]
  by_cases e : m = q
  · have e' : n = (t.node q).parent := hS.eq_of_pos hn hl.alloc (by rw [← hp, e, h.parent_pos hr hl])
    simp only [e, e', if_true, hpne, hpne.symm, if_false]
    omega
  · by_cases e' : m = (t.node q).parent
    · have := hl.lt_above hS h.balanced.order hn (by rw [← hp, e'])
      simp only [e', if_true, hpne, if_false]
      omega
    · simp only [e, e', if_false]
      omega

end

end Sys2Proof.Machine
end

section
/-! An observation keeps the invariant (41_tree_model.md R124 to R135): the split, the first round after it, and the
climb to the root. -/

namespace Sys2Proof.Machine

/-! ## `SPLIT` (R124, R125) -/

theorem Tree.split_symtab (t : Tree) (c : Byte) :
    (t.split c).1.symtab = t.symtab.set c.toNat { seen := true, leaf := t.next } := by
  simp [Tree.split, Tree.setSym]

theorem Tree.split_seenCount (t : Tree) {c : Byte} (hc : (t.symEntry c).seen = false) :
    (t.split c).1.seenCount = t.seenCount + 1 := by
  rw [Tree.seenCount_eq, Tree.seenCount_eq, t.split_symtab, Vector.countP_toList, Vector.countP_toList,
    Vector.countP_set c.isLt]
  have : t.symtab[c.toNat].seen = false := hc
  simp [this]

theorem Tree.split_symEntry (t : Tree) (c d : Byte) :
    (t.split c).1.symEntry d = if d = c then { seen := true, leaf := t.next } else t.symEntry d := by
  rw [← t.symEntry_setSym]
  simp [Tree.symEntry, t.split_symtab, Tree.setSym]

@[simp] theorem Tree.split_esc (t : Tree) (c : Byte) : (t.split c).1.esc = t.next + 1 := by simp [Tree.split]
@[simp] theorem Tree.split_next (t : Tree) (c : Byte) : (t.split c).1.next = t.next + 2 := by simp [Tree.split]
@[simp] theorem Tree.split_start (t : Tree) (c : Byte) : (t.split c).2 = t.next := rfl

theorem Tree.withEsc_node (t : Tree) (e n : Idx) : ({ t with esc := e } : Tree).node n = t.node n := rfl
theorem Tree.withEsc_ordAt (t : Tree) (e s : Idx) : ({ t with esc := e } : Tree).ordAt s = t.ordAt s := rfl
theorem Tree.withNext_node (t : Tree) (k n : Idx) : ({ t with next := k } : Tree).node n = t.node n := rfl
theorem Tree.withNext_ordAt (t : Tree) (k s : Idx) : ({ t with next := k } : Tree).ordAt s = t.ordAt s := rfl

/-- Two nodes are free while a byte is unseen (R125). -/
theorem Tree.Shape.split_room {t : Tree} (h : t.Shape) {c : Byte} (hc : (t.symEntry c).seen = false) :
    t.next.toNat + 2 ≤ 513 := by
  have h1 := t.split_seenCount hc
  have h2 : (t.split c).1.seenCount ≤ 256 := by
    simpa [Tree.seenCount] using List.length_filter_le (l := List.range 256)
      fun d => ((t.split c).1.symEntry (BitVec.ofNat 8 d)).seen
  have := h.allocation.nextOdd
  omega

/-- The new symbol leaf (R124). -/
def Tree.newSymLeaf (t : Tree) (c : Byte) : Node :=
  { weight := 0, kind := .sym, symv := c, parent := t.esc, side := .right, left := NIL, right := NIL
    pos := (t.node t.esc).pos - 1 }

/-- The new escape leaf (R124). -/
def Tree.newEscLeaf (t : Tree) : Node :=
  { weight := 0, kind := .esc, symv := 0, parent := t.esc, side := .left, left := NIL, right := NIL
    pos := (t.node t.esc).pos - 2 }

/-- The old escape leaf, which becomes the parent of the two in place (R124). -/
def Tree.splitNode (t : Tree) : Node := { t.node t.esc with kind := .int, left := t.next + 1, right := t.next }

section
variable {t : Tree} (h : t.Shape) {c : Byte} (hc : (t.symEntry c).seen = false)
include h hc

theorem Tree.Shape.split_toNat : (t.next + 1).toNat = t.next.toNat + 1 ∧ (t.next + 2).toNat = t.next.toNat + 2 := by
  have := h.split_room hc
  bv_omega

theorem Tree.Shape.split_node (n : Idx) : (t.split c).1.node n =
    if n = t.next + 1 then t.newEscLeaf else if n = t.next then t.newSymLeaf c
    else if n = t.esc then t.splitNode else t.node n := by
  have hroom := h.split_room hc
  have he := h.toNat_lt h.escAllocated
  have h1 : (t.next + 1).toNat < 513 := by rw [(h.split_toNat hc).1]; omega
  have h0 : t.next.toNat < 513 := by omega
  simp only [Tree.split, Tree.setSym_node, Tree.withEsc_node, Tree.node_setNode _ _ _ _ h1, Tree.setOrd_node,
    Tree.node_setNode _ _ _ _ h0, Tree.node_modNode _ _ _ _ he, Tree.withNext_node]
  rfl

/-- Every entry after the split: the three that R124 writes, and the others as they were. -/
theorem Tree.Shape.split_node_cases (n : Idx) :
    n = t.next + 1 ∧ (t.split c).1.node n = t.newEscLeaf ∨ n = t.next ∧ (t.split c).1.node n = t.newSymLeaf c ∨
    n = t.esc ∧ (t.split c).1.node n = t.splitNode ∨
    (n ≠ t.next + 1 ∧ n ≠ t.next ∧ n ≠ t.esc) ∧ (t.split c).1.node n = t.node n := by
  rw [h.split_node hc]
  split
  · next e => exact .inl ⟨e, rfl⟩
  · next e1 =>
    split
    · next e => exact .inr (.inl ⟨e, rfl⟩)
    · next e2 =>
      split
      · next e => exact .inr (.inr (.inl ⟨e, rfl⟩))
      · next e3 => exact .inr (.inr (.inr ⟨⟨e1, e2, e3⟩, rfl⟩))

theorem Tree.Shape.split_ordAt (s : Idx) : (t.split c).1.ordAt s =
    if s = (t.node t.esc).pos - 2 then t.next + 1 else if s = (t.node t.esc).pos - 1 then t.next else t.ordAt s := by
  have hroom := h.split_room hc
  have hpe := h.allocation.posEsc
  have h1 : ((t.node t.esc).pos - 1).toNat < 513 := by bv_omega
  have h2 : ((t.node t.esc).pos - 2).toNat < 513 := by bv_omega
  simp only [Tree.split, Tree.setSym_ordAt, Tree.withEsc_ordAt, Tree.ordAt_setOrd _ _ _ _ h2, Tree.setNode_ordAt,
    Tree.ordAt_setOrd _ _ _ _ h1, Tree.modNode_ordAt, Tree.withNext_ordAt]

/-- The places of the two new leaves: the slots right below the old escape leaf (R123). -/
theorem Tree.Shape.split_slots :
    ((t.node t.esc).pos - 1).toNat + 1 = (t.node t.esc).pos.toNat ∧
      ((t.node t.esc).pos - 2).toNat + 2 = (t.node t.esc).pos.toNat := by
  have hroom := h.split_room hc
  have hpe := h.allocation.posEsc
  bv_omega

theorem Tree.Shape.split_newEsc : (t.split c).1.node (t.next + 1) = t.newEscLeaf := by
  rw [h.split_node hc, if_pos rfl]

theorem Tree.Shape.split_newSym : (t.split c).1.node t.next = t.newSymLeaf c := by
  have := (h.split_toNat hc).1
  rw [h.split_node hc, if_neg (by bv_omega), if_pos rfl]

theorem Tree.Shape.split_old {n : Idx} (hn : n < t.next) : (t.split c).1.node n =
    if n = t.esc then t.splitNode else t.node n := by
  have := (h.split_toNat hc).1
  rw [h.split_node hc, if_neg (by bv_omega), if_neg (by bv_omega)]

theorem Tree.Shape.split_oldEsc :
    (t.split c).1.node t.esc = t.splitNode := by
  rw [h.split_old hc h.escAllocated, if_pos rfl]

/-- The place and the weight of an old node are as they were. -/
theorem Tree.Shape.split_kept {n : Idx} (hn : n < t.next) :
    ((t.split c).1.node n).pos = (t.node n).pos ∧ ((t.split c).1.node n).parent = (t.node n).parent ∧
      ((t.split c).1.node n).side = (t.node n).side ∧ ((t.split c).1.node n).weight = (t.node n).weight ∧
      ((t.split c).1.node n).symv = (t.node n).symv := by
  rw [h.split_old hc hn]
  split
  · next e => subst e; exact ⟨rfl, rfl, rfl, rfl, rfl⟩
  · exact ⟨rfl, rfl, rfl, rfl, rfl⟩

/-- An allocated node after the split is an old node or one of the two new leaves. -/
theorem Tree.Shape.split_alloc (n : Idx) : n < (t.split c).1.next ↔ n < t.next ∨ n = t.next ∨ n = t.next + 1 := by
  obtain ⟨h1, h2⟩ := h.split_toNat hc
  rw [Tree.split_next]
  bv_omega

theorem Tree.Shape.split_posRange {n : Idx} (hn : n < (t.split c).1.next) :
    511 ≤ ((t.split c).1.node n).pos.toNat + t.next.toNat ∧ ((t.split c).1.node n).pos.toNat ≤ 512 := by
  have hroom := h.split_room hc
  obtain ⟨s1, s2⟩ := h.split_slots hc
  have hpe := h.allocation.posEsc
  obtain hn | rfl | rfl := (h.split_alloc hc n).1 hn
  · rw [(h.split_kept hc hn).1]
    have := h.allocation.posRange n hn
    omega
  · simp only [h.split_newSym hc, Tree.newSymLeaf]
    omega
  · simp only [h.split_newEsc hc, Tree.newEscLeaf]
    omega

theorem Tree.Shape.split_ordPos {n : Idx} (hn : n < (t.split c).1.next) :
    (t.split c).1.ordAt ((t.split c).1.node n).pos = n := by
  obtain ⟨s1, s2⟩ := h.split_slots hc
  obtain hn | rfl | rfl := (h.split_alloc hc n).1 hn
  · have := h.esc_pos_le hn
    rw [(h.split_kept hc hn).1, h.split_ordAt hc, if_neg (fun e => by rw [e] at this; omega),
      if_neg (fun e => by rw [e] at this; omega)]
    exact h.allocation.ordPos n hn
  · rw [h.split_newSym hc, h.split_ordAt hc]
    exact (if_neg fun e => by rw [show (t.node t.esc).pos - 1 = (t.node t.esc).pos - 2 from e] at s1; omega).trans
      (if_pos rfl)
  · rw [h.split_newEsc hc, h.split_ordAt hc]
    exact if_pos rfl

theorem Tree.Shape.split_posOrd {s : Idx} (h1 : 511 ≤ s.toNat + t.next.toNat) (h2 : s.toNat ≤ 512) :
    (t.split c).1.ordAt s < (t.split c).1.next ∧ ((t.split c).1.node ((t.split c).1.ordAt s)).pos = s := by
  obtain ⟨s1, s2⟩ := h.split_slots hc
  have hpe := h.allocation.posEsc
  rw [h.split_ordAt hc, h.split_alloc hc]
  split
  · next e => exact ⟨.inr (.inr rfl), by rw [h.split_newEsc hc, e]; rfl⟩
  · next e1 =>
    split
    · next e => exact ⟨.inr (.inl rfl), by rw [h.split_newSym hc, e]; rfl⟩
    · next e2 =>
      have d1 : s.toNat ≠ ((t.node t.esc).pos - 2).toNat := fun e => e1 (BitVec.eq_of_toNat_eq e)
      have d2 : s.toNat ≠ ((t.node t.esc).pos - 1).toNat := fun e => e2 (BitVec.eq_of_toNat_eq e)
      obtain ⟨hn, hp⟩ := h.allocation.posOrd s (by omega) h2
      exact ⟨.inl hn, by rw [(h.split_kept hc hn).1, hp]⟩

theorem Tree.Shape.split_allocation : (t.split c).1.AllocationInv := by
  have ha := h.allocation
  have hroom := h.split_room hc
  obtain ⟨-, t2⟩ := h.split_toNat hc
  obtain ⟨s1, s2⟩ := h.split_slots hc
  have hpe := ha.posEsc
  refine ⟨?_, ?_, ?_, ?_, ?_, ?_, fun n hn => h.split_ordPos hc hn, ?_, ?_⟩
  · intro n hn
    obtain ⟨-, e⟩ | ⟨-, e⟩ | ⟨-, e⟩ | ⟨⟨n1, n2, -⟩, e⟩ := h.split_node_cases hc n <;> rw [e]
    · exact fun e => nomatch e
    · exact fun e => nomatch e
    · exact fun e => nomatch e
    · exact ha.allocated n (((h.split_alloc hc n).1 hn).resolve_right fun ho => ho.elim n2 n1)
  · intro n hn
    rw [h.split_alloc hc, not_or, not_or] at hn
    obtain ⟨hn, hne, hne'⟩ := hn
    rw [h.split_node hc, if_neg hne', if_neg hne, if_neg (by rintro rfl; exact hn h.escAllocated), ha.free n hn]
  · rw [Tree.split_next, t.split_seenCount hc, t2, ha.nextOdd]
    omega
  · rw [Tree.split_next, t2]
    omega
  · intro s hs
    rw [Tree.split_next, t2] at hs
    rw [h.split_ordAt hc, if_neg (by rintro rfl; omega), if_neg (by rintro rfl; omega)]
    exact ha.unoccupied s (by omega)
  · intro n hn
    rw [Tree.split_next, t2]
    have := h.split_posRange hc hn
    omega
  · intro s h1 h2
    rw [Tree.split_next, t2] at h1
    exact h.split_posOrd hc (by omega) h2
  · rw [Tree.split_esc, Tree.split_next, t2, h.split_newEsc hc]
    simp only [Tree.newEscLeaf]
    omega

/-- An internal node of the split tree is the old escape leaf or an old internal node. -/
theorem Tree.Shape.split_int {n : Idx} (hk : ((t.split c).1.node n).kind = .int) :
    n = t.esc ∨ (t.node n).kind = .int ∧ n ≠ t.esc ∧ (t.split c).1.node n = t.node n := by
  obtain ⟨-, e⟩ | ⟨-, e⟩ | ⟨hn, -⟩ | ⟨⟨-, -, hn⟩, e⟩ := h.split_node_cases hc n
  · rw [e] at hk
    cases hk
  · rw [e] at hk
    cases hk
  · exact .inl hn
  · exact .inr ⟨e ▸ hk, hn, e⟩

/-- An allocated node that the split has not written is an old node, above the old escape leaf. -/
theorem Tree.Shape.split_above {n : Idx} (hn : n < (t.split c).1.next) (he : n ≠ t.next + 1)
    (ho : ¬ (n = t.next ∨ n = t.esc)) :
    n < t.next ∧ n ≠ t.esc ∧ (t.node t.esc).pos.toNat < ((t.split c).1.node n).pos.toNat := by
  rw [not_or] at ho
  have hlt : n < t.next := ((h.split_alloc hc n).1 hn).resolve_right fun hor => hor.elim ho.1 he
  rw [(h.split_kept hc hlt).1]
  exact ⟨hlt, ho.2, Nat.lt_of_le_of_ne (h.esc_pos_le hlt) fun e => ho.2 (h.eq_of_pos hlt h.escAllocated e.symm)⟩

/-- The new symbol leaf and its parent stand no higher than the old escape leaf. -/
theorem Tree.Shape.split_below {n : Idx} (ho : n = t.next ∨ n = t.esc) :
    ((t.split c).1.node n).pos.toNat ≤ (t.node t.esc).pos.toNat := by
  obtain rfl | rfl := ho
  · rw [h.split_newSym hc]
    have := (h.split_slots hc).1
    simp only [Tree.newSymLeaf]
    omega
  · rw [(h.split_kept hc h.escAllocated).1]

theorem Tree.Shape.split_links : (t.split c).1.LinkInv := by
  have hl := h.links
  have hee : t.esc < (t.split c).1.next := (h.split_alloc hc _).2 (.inl h.escAllocated)
  refine ⟨?_, ?_, ?_, ?_, ?_⟩
  · intro n hk
    obtain rfl | ⟨hk, -, e⟩ := h.split_int hc hk
    · rw [h.split_oldEsc hc]
      simp only [h.split_newEsc hc, Tree.splitNode]
      exact ⟨(h.split_alloc hc _).2 (.inr (.inr rfl)), rfl, rfl⟩
    · obtain ⟨ha, hp, hs⟩ := hl.left n hk
      rw [e, (h.split_kept hc ha).2.1, (h.split_kept hc ha).2.2.1]
      exact ⟨(h.split_alloc hc _).2 (.inl ha), hp, hs⟩
  · intro n hk
    obtain rfl | ⟨hk, -, e⟩ := h.split_int hc hk
    · rw [h.split_oldEsc hc]
      simp only [h.split_newSym hc, Tree.splitNode]
      exact ⟨(h.split_alloc hc _).2 (.inr (.inl rfl)), rfl, rfl⟩
    · obtain ⟨ha, hp, hs⟩ := hl.right n hk
      rw [e, (h.split_kept hc ha).2.1, (h.split_kept hc ha).2.2.1]
      exact ⟨(h.split_alloc hc _).2 (.inl ha), hp, hs⟩
  · rw [(h.split_kept hc h.root_alloc).2.1, (h.split_kept hc h.root_alloc).2.2.1]
    exact hl.root
  · intro n hk
    obtain ⟨-, e⟩ | ⟨-, e⟩ | ⟨-, e⟩ | ⟨-, e⟩ := h.split_node_cases hc n <;> rw [e] at hk ⊢
    · exact ⟨rfl, rfl⟩
    · exact ⟨rfl, rfl⟩
    · exact absurd rfl hk
    · exact hl.leaf n hk
  · intro n hn hr
    obtain hn | rfl | rfl := (h.split_alloc hc n).1 hn
    · obtain ⟨hk, hcs⟩ := hl.parent n hn hr
      have hpe : (t.node n).parent ≠ t.esc := by
        intro e
        rw [e, (h.escKind _).2 rfl] at hk
        cases hk
      rw [(h.split_kept hc hn).2.1, (h.split_kept hc hn).2.2.1, h.split_old hc (h.parent_alloc hn hr), if_neg hpe]
      exact ⟨hk, hcs⟩
    · rw [h.split_newSym hc]
      simp only [Tree.newSymLeaf, h.split_oldEsc hc, Tree.splitNode]
      exact ⟨trivial, .inr ⟨trivial, trivial⟩⟩
    · rw [h.split_newEsc hc]
      simp only [Tree.newEscLeaf, h.split_oldEsc hc, Tree.splitNode]
      exact ⟨trivial, .inl ⟨trivial, trivial⟩⟩

theorem Tree.Shape.split_siblings : (t.split c).1.SiblingInv := by
  obtain ⟨s1, s2⟩ := h.split_slots hc
  intro n hk
  obtain rfl | ⟨hk, -, e⟩ := h.split_int hc hk
  · simp only [h.split_oldEsc hc, h.split_newSym hc, h.split_newEsc hc, Tree.newSymLeaf, Tree.newEscLeaf, Tree.splitNode]
    omega
  · rw [e, (h.split_kept hc (h.links.left n hk).1).1, (h.split_kept hc (h.links.right n hk).1).1]
    exact h.siblings n hk

theorem Tree.Shape.split_symbols : (t.split c).1.SymbolInv := by
  have hy := h.symbols
  refine ⟨?_, ?_, ?_, ?_⟩
  · intro d hd
    rw [t.split_symEntry] at hd ⊢
    split
    · next e => subst e; simp [h.split_newSym hc, Tree.newSymLeaf]
    · next e =>
      rw [if_neg e] at hd
      obtain ⟨hk, hv⟩ := hy.seen d hd
      have hn := h.alloc_of_kind (n := (t.symEntry d).leaf) (by simp [hk])
      have hne : (t.symEntry d).leaf ≠ t.esc := fun e => by simp [(h.escKind _).2 e] at hk
      rw [h.split_old hc hn, if_neg hne]
      exact ⟨hk, hv⟩
  · intro d hd
    rw [t.split_symEntry] at hd ⊢
    split
    · next e => rw [if_pos e] at hd; cases hd
    · next e => rw [if_neg e] at hd; exact hy.unseen d hd
  · intro n hk
    obtain ⟨-, e⟩ | ⟨hn, e⟩ | ⟨-, e⟩ | ⟨-, e⟩ := h.split_node_cases hc n <;> rw [e] at hk ⊢
    · cases hk
    · simp [Tree.newSymLeaf, t.split_symEntry, hn]
    · cases hk
    · obtain ⟨hs, hf⟩ := hy.leaf n hk
      have hne : (t.node n).symv ≠ c := by
        intro e
        rw [e, hc] at hs
        cases hs
      rw [t.split_symEntry, if_neg hne]
      exact ⟨hs, hf⟩
  · intro n hk
    obtain ⟨-, e⟩ | ⟨-, e⟩ | ⟨-, e⟩ | ⟨-, e⟩ := h.split_node_cases hc n <;> rw [e] at hk ⊢
    · rfl
    · exact absurd rfl hk
    · exact hy.other _ (by simp [(h.escKind _).2 rfl])
    · exact hy.other n hk

theorem Tree.Shape.split : (t.split c).1.Shape := by
  obtain ⟨s1, s2⟩ := h.split_slots hc
  obtain ⟨t1, t2⟩ := h.split_toNat hc
  have hroom := h.split_room hc
  have hnr := h.next_pos
  refine ⟨h.split_allocation hc, h.split_links hc, h.split_siblings hc, h.split_symbols hc, ?_, ?_, ?_, ?_⟩
  · rw [Tree.split_esc, h.split_alloc hc]
    exact .inr (.inr rfl)
  · intro n
    rw [Tree.split_esc]
    obtain ⟨hn, e⟩ | ⟨hn, e⟩ | ⟨hn, e⟩ | ⟨⟨hn, -, he⟩, e⟩ := h.split_node_cases hc n <;> rw [e]
    · exact ⟨fun _ => hn, fun _ => rfl⟩
    · exact ⟨fun hk => (nomatch hk), fun e => by bv_omega⟩
    · exact ⟨fun hk => (nomatch hk), fun e => by have := h.escAllocated; bv_omega⟩
    · exact ⟨fun hk => absurd ((h.escKind n).1 hk) he, fun e => absurd e hn⟩
  · have : (t.node t.esc).pos.toNat ≤ 512 := h.pos_le h.escAllocated
    have hr : ROOT_SLOT.toNat = 512 := rfl
    rw [h.split_ordAt hc, if_neg (fun e => by rw [← e] at s2; omega), if_neg (fun e => by rw [← e] at s1; omega)]
    exact h.rootSlot
  · intro _
    rw [Tree.split_esc, h.split_newEsc hc]
    simp only [Tree.newEscLeaf, h.split_oldEsc hc, Tree.splitNode]
    omega

end

/-! ## The first round after a split (R127, R131) -/

section
variable {t : Tree} (h : t.Inv) {c : Byte} (hc : (t.symEntry c).seen = false)
include h hc

theorem Tree.Inv.split_climbing : (t.split c).1.Climbing t.next := by
  have hS := h.shape
  have hS' := hS.split hc
  have hk := hS.split_newSym hc
  have h1 := (hS.split_toNat hc).1
  refine ⟨hS', (hS.split_alloc hc _).2 (.inr (.inl rfl)), ?_, ?_, ?_, ?_⟩
  · rw [Tree.split_esc]
    bv_omega
  · rw [Tree.split_esc, hS.split_newEsc hc]
    rfl
  · intro n _ hn
    obtain rfl | ⟨hn, -, e⟩ := hS.split_int hc hn
    · simp only [hS.split_oldEsc hc, Tree.splitNode, hS.split_newEsc hc, hk, Tree.newEscLeaf, Tree.newSymLeaf]
      exact h.spec.escRoot.escWeight
    · have hl := hS.split_kept hc (hS.links.left n hn).1
      have hr := hS.split_kept hc (hS.links.right n hn).1
      rw [e, hl.2.2.2.1, hr.2.2.2.1]
      exact h.spec.sums n hn
  · intro hn
    rw [hk] at hn
    cases hn

/-- The leader of the new symbol leaf is its parent: both weigh 0, and everything above them has a weight. -/
theorem Tree.Inv.split_leader : (t.split c).1.leader t.next = t.esc := by
  have hS := h.shape
  have hC := h.split_climbing hc
  have hl := hC.shape.leader_spec hC.alloc
  obtain ⟨s1, s2⟩ := hS.split_slots hc
  have he : t.esc < (t.split c).1.next := (hS.split_alloc hc _).2 (.inl hS.escAllocated)
  have hw : ((t.split c).1.node t.next).weight = 0 := by rw [hS.split_newSym hc]; rfl
  have hwe : ((t.split c).1.node t.esc).weight = 0 := by
    rw [hS.split_oldEsc hc]
    exact h.spec.escRoot.escWeight
  have hp : ((t.split c).1.node t.next).pos = (t.node t.esc).pos - 1 := by rw [hS.split_newSym hc]; rfl
  have hp' : ((t.split c).1.node (t.next + 1)).pos = (t.node t.esc).pos - 2 := by rw [hS.split_newEsc hc]; rfl
  have hpe : ((t.split c).1.node t.esc).pos = (t.node t.esc).pos := (hS.split_kept hc hS.escAllocated).1
  have habove := hl.above
  have hlw := hl.weight
  by_contra hne
  by_cases ho : (t.split c).1.leader t.next = t.next ∨ (t.split c).1.leader t.next = t.esc
  · refine hl.top _ he ?_ (hwe.trans hw.symm)
    rw [ho.resolve_right hne, hpe, hp, s1]
  · have hlow : (t.split c).1.leader t.next ≠ t.next + 1 := by
      intro e
      rw [e, hp, hp'] at habove
      omega
    obtain ⟨hlt, hle, -⟩ := hS.split_above hc hl.alloc hlow ho
    have := h.spec.escRoot.positive _ hlt hle
    rw [(hS.split_kept hc hlt).2.2.2.1] at hlw
    omega

/-- The weights after the increments of the new symbol leaf and of its parent. -/
theorem Tree.Inv.split_bumped_weight (n : Idx) : ((((t.split c).1.bump t.next).bump t.esc).node n).weight =
    if n = t.next + 1 then 0 else if n = t.next ∨ n = t.esc then 1 else (t.node n).weight := by
  have hS := h.shape
  have hC := h.split_climbing hc
  have hq := hC.shape.toNat_lt hC.alloc
  have he := hC.shape.toNat_lt ((hS.split_alloc hc _).2 (.inl hS.escAllocated))
  have h1 := (hS.split_toNat hc).1
  have h2 := hS.escAllocated
  have d1 : t.next + 1 ≠ t.next := by bv_omega
  have d2 : t.next + 1 ≠ t.esc := by bv_omega
  have d3 : t.next ≠ t.esc := by bv_omega
  rw [Tree.bump_weight _ he, Tree.bump_weight _ hq]
  obtain ⟨rfl, e⟩ | ⟨rfl, e⟩ | ⟨rfl, e⟩ | ⟨⟨n1, n2, n3⟩, e⟩ := hS.split_node_cases hc n <;> rw [e]
  · simp only [d1, d2, if_true, if_false, Tree.newEscLeaf]
  · simp only [d1.symm, d3, if_true, if_false, true_or, Tree.newSymLeaf]
  · simp only [d2.symm, d3.symm, if_true, if_false, or_true, Tree.splitNode, h.spec.escRoot.escWeight]
  · simp only [n1, n2, n3, if_false, or_self, Nat.add_zero]

/-- Along the sequence stand the new escape leaf with 0, its sibling and its parent with 1, and the old nodes. -/
theorem Tree.Inv.split_order : (((t.split c).1.bump t.next).bump t.esc).OrderInv := by
  have hS := h.shape
  have hC := h.split_climbing hc
  have heS : t.esc < ((t.split c).1.bump t.next).next := by
    rw [Tree.bump_next]
    exact (hS.split_alloc hc _).2 (.inl hS.escAllocated)
  refine ((hC.shape.bump hC.alloc).bump heS).orderInv fun m n hm hn hp => ?_
  simp only [Tree.bump_next, Tree.bump_pos] at hm hn hp
  have hlow : n ≠ t.next + 1 := by
    rintro rfl
    have := hC.shape.esc_pos_le hm
    rw [Tree.split_esc] at this
    omega
  rw [h.split_bumped_weight hc, h.split_bumped_weight hc, if_neg hlow]
  by_cases hm1 : m = t.next + 1
  · rw [if_pos hm1]
    exact Nat.zero_le _
  · rw [if_neg hm1]
    by_cases ho : n = t.next ∨ n = t.esc <;> by_cases hmo : m = t.next ∨ m = t.esc
    · rw [if_pos ho, if_pos hmo]
    · have h1 := (hS.split_above hc hm hm1 hmo).2.2
      have h2 := hS.split_below hc ho
      omega
    · rw [if_neg ho, if_pos hmo]
      obtain ⟨hn', hne, -⟩ := hS.split_above hc hn hlow ho
      exact h.spec.escRoot.positive n hn' hne
    · rw [if_neg ho, if_neg hmo]
      have hn' := (hS.split_above hc hn hlow ho).1
      have hm' := (hS.split_above hc hm hm1 hmo).1
      rw [(hS.split_kept hc hm').1, (hS.split_kept hc hn').1] at hp
      exact h.spec.order.mono hS hm' hn' (by omega)

theorem Tree.Inv.split_positive : (((t.split c).1.bump t.next).bump t.esc).Positive := by
  intro n hn hne
  simp only [Tree.bump_next, Tree.bump_esc, Tree.split_esc] at hn hne
  rw [h.split_bumped_weight hc, if_neg hne]
  split
  · exact le_rfl
  · next ho =>
    obtain ⟨hn, hne', -⟩ := h.shape.split_above hc hn hne ho
    exact h.spec.escRoot.positive n hn hne'

omit hc in
theorem Tree.Inv.next_ne_root : t.next ≠ ROOT := by
  have := h.shape.next_pos
  rintro e
  rw [e] at this
  exact absurd this (by decide)

theorem Tree.Inv.split_parent : ((t.split c).1.node t.next).parent = t.esc := by
  rw [h.shape.split_newSym hc]
  rfl

/-- The first round: the new symbol leaf has its increment, and its parent stands at the top of its run. -/
theorem Tree.Inv.split_raisable : ((t.split c).1.bump t.next).Raisable t.esc := by
  have hC := (h.split_climbing hc).bump (h.next_ne_root)
  rw [h.split_parent hc] at hC
  exact ⟨hC, h.split_order hc, h.split_positive hc⟩

end

/-! ## The climb to the root (R127) -/

/-- Where `PROPAGATE` stands at the head of its loop. -/
def Tree.AtHead (t : Tree) (q : Idx) : Prop := t.Arrived q ∨ t.Raisable q

theorem Tree.Raisable.topOfRun {t : Tree} {q : Idx} (h : t.Raisable q) : t.leader q = q := by
  have hS := h.climbing.shape
  have hl := hS.leader_spec h.climbing.alloc
  refine hS.eq_of_pos hl.alloc h.climbing.alloc (Nat.le_antisymm ?_ hl.above)
  by_contra hlt
  have hlow := hS.esc_pos_le h.climbing.alloc
  have hle := hS.pos_le hl.alloc
  obtain ⟨n, hn, hp, -⟩ := hS.node_at (s := (t.node q).pos.toNat + 1) (by omega) (by omega)
  have hne : n ≠ q := by rintro rfl; omega
  have hw := hl.between n hn (by omega) (by omega)
  have hq := hS.toNat_lt h.climbing.alloc
  have := h.balanced.order.mono (hS.bump h.climbing.alloc) (m := q) (n := n) (by simpa using h.climbing.alloc)
    (by simpa using hn) (by simp only [Tree.bump_pos]; omega)
  rw [t.bump_weight hq, t.bump_weight hq, if_pos rfl, if_neg hne] at this
  omega

@[simp] theorem Tree.bump_rank (t : Tree) (q n : Idx) : (t.bump q).rank n = t.rank n := by
  simp [Tree.rank]

theorem Tree.propagateRound_of_kept {t : Tree} {q : Idx} (h : t.leader q = q ∨ t.leader q = (t.node q).parent) :
    t.propagateRound q = t.bump q := by
  have : t.exchanges q = false := by
    obtain e | e := h <;> simp [Tree.exchanges, e]
  simp [Tree.propagateRound, this]

theorem Tree.propagateRound_of_exchange {t : Tree} {q : Idx} (h1 : t.leader q ≠ q)
    (h2 : t.leader q ≠ (t.node q).parent) : t.propagateRound q = (t.swap q (t.leader q)).bump q := by
  have : t.exchanges q = true := by simp [Tree.exchanges, h1, h2]
  simp [Tree.propagateRound, this]

/-- One round of `PROPAGATE` ends at the head of the next, a level nearer to the root. -/
theorem Tree.AtHead.round {t : Tree} {q : Idx} (h : t.AtHead q) (hr : q ≠ ROOT) :
    (t.propagateRound q).AtHead ((t.propagateRound q).node q).parent ∧
      (t.propagateRound q).rank ((t.propagateRound q).node q).parent < t.rank q := by
  have hC : t.Climbing q := h.elim (·.climbing) (·.climbing)
  have hrank := hC.shape.rank_parent_lt hC.alloc hr
  obtain h | h := h
  · have hl := hC.shape.leader_spec hC.alloc
    by_cases hlq : t.leader q = q
    · rw [hlq] at hl
      rw [Tree.propagateRound_of_kept (.inl hlq), Tree.bump_parent, Tree.bump_rank]
      exact ⟨.inl ((h.raisable hl).bump hr), hrank⟩
    · by_cases hlp : t.leader q = (t.node q).parent
      · rw [hlp] at hl
        rw [Tree.propagateRound_of_kept (.inr hlp), Tree.bump_parent, Tree.bump_rank]
        exact ⟨.inr (h.raisable_parent hr hl), hrank⟩
      · have hs := h.swap hr hl hlq hlp
        have hrank' := hs.climbing.shape.rank_parent_lt hs.climbing.alloc hr
        have hup : (t.swap q (t.leader q)).rank q ≤ t.rank q := by
          have := hl.above
          unfold Tree.rank
          rw [(hC.shape.swap_place (h.exchangeable hr hl hlq hlp) q).2.2, Equiv.swap_apply_left]
          omega
        rw [Tree.propagateRound_of_exchange hlq hlp, Tree.bump_parent, Tree.bump_rank]
        exact ⟨.inl (hs.bump hr), by omega⟩
  · rw [Tree.propagateRound_of_kept (.inl h.topOfRun), Tree.bump_parent, Tree.bump_rank]
    exact ⟨.inl (h.bump hr), hrank⟩

theorem Tree.AtHead.inv_of_root {t : Tree} (h : t.AtHead ROOT) : (t.bump ROOT).Inv := by
  obtain h | h := h
  · have hS := h.climbing.shape
    have hl := hS.leader_spec hS.root_alloc
    have e : t.leader ROOT = ROOT := by
      refine hS.eq_of_pos hl.alloc hS.root_alloc (Nat.le_antisymm ?_ hl.above)
      rw [hS.pos_root]
      exact hS.pos_le hl.alloc
    rw [e] at hl
    exact (h.raisable hl).inv_of_root
  · exact h.inv_of_root

theorem Tree.propagateFrom_succ (fuel : Nat) (t : Tree) (swaps : Nat) {q : Idx} (hr : q ≠ ROOT) :
    t.propagateFrom (fuel + 1) q swaps = (t.propagateRound q).propagateFrom fuel ((t.propagateRound q).node q).parent
      (if t.exchanges q then swaps + 1 else swaps) := by
  rw [Tree.propagateFrom, if_neg hr]

theorem Tree.AtHead.propagateFrom_inv (fuel : Nat) {t : Tree} {q : Idx} (h : t.AtHead q) (hf : t.rank q ≤ fuel)
    (swaps : Nat) : (t.propagateFrom fuel q swaps).1.Inv := by
  induction fuel generalizing t q swaps with
  | zero =>
    have hC : t.Climbing q := h.elim (·.climbing) (·.climbing)
    have := hC.shape.eq_root_of_rank hC.alloc (by omega)
    subst this
    exact h.inv_of_root
  | succ fuel ih =>
    by_cases hr : q = ROOT
    · subst hr
      rw [Tree.propagateFrom, if_pos rfl]
      exact h.inv_of_root
    · obtain ⟨hh, hrank⟩ := h.round hr
      rw [Tree.propagateFrom_succ _ _ _ hr]
      exact ih hh (by omega) _

/-! ## `OBSERVE_CORE` (R120, R135) -/

/-- The repeat case starts in a tree that meets the invariant (R126). -/
theorem Tree.Inv.arrived_of_seen {t : Tree} (h : t.Inv) {c : Byte} (hc : (t.symEntry c).seen = true) :
    t.Arrived (t.symEntry c).leaf := by
  obtain ⟨hk, -⟩ := h.spec.symbols.seen c hc
  refine ⟨⟨h.shape, h.shape.alloc_of_kind (by simp [hk]), fun e => ?_, h.spec.escRoot.escWeight,
    fun n _ => h.spec.sums n, fun e => ?_⟩, h.spec.order, h.spec.escRoot.positive⟩
  · simp [(h.spec.escRoot.escKind _).2 e] at hk
  · simp [hk] at e

/-- R135. -/
theorem Tree.Inv.observe {t : Tree} (h : t.Inv) (c : Byte) : (t.observe c).tree.Inv := by
  cases hc : (t.symEntry c).seen with
  | true =>
    have ha : t.AtHead (t.symEntry c).leaf := .inl (h.arrived_of_seen hc)
    simpa [Tree.observe, hc, Tree.propagate] using ha.propagateFrom_inv MAX_DEPTH (t.rank_le _) 0
  | false =>
    have hC := h.split_climbing hc
    have hrank := hC.shape.rank_parent_lt hC.alloc h.next_ne_root
    have hround := Tree.propagateRound_of_kept (.inr ((h.split_leader hc).trans (h.split_parent hc).symm))
    have hle := (t.split c).1.rank_le t.next
    rw [h.split_parent hc] at hrank
    have e : (t.observe c).tree = ((t.split c).1.propagateFrom (255 + 1) t.next 0).1 := by
      simp [Tree.observe, hc, Tree.propagate]
    rw [e, Tree.propagateFrom_succ _ _ _ h.next_ne_root, hround, Tree.bump_parent, h.split_parent hc]
    exact Tree.AtHead.propagateFrom_inv 255 (.inr (h.split_raisable hc)) (by rw [Tree.bump_rank]; omega) _

/-! ## The root weight counts the observations (R57, R130) -/

theorem Tree.modNode_weight (t : Tree) (m n : Idx) (f : Node → Node) (hf : ∀ x, (f x).weight = x.weight) :
    ((t.modNode n f).node m).weight = (t.node m).weight := t.modNode_field (·.weight) m n f hf

/-- An exchange writes no weight (R130). -/
theorem Tree.swap_weight (t : Tree) (a b n : Idx) : ((t.swap a b).node n).weight = (t.node n).weight := by
  have child (t : Tree) (p m : Idx) (d : Side) : ((t.setChild p d m).node n).weight = (t.node n).weight :=
    t.modNode_weight n p _ fun x => by split <;> rfl
  simp only [Tree.swap, Tree.setOrd_node]
  rw [Tree.modNode_weight, Tree.modNode_weight, child, child]
  · exact fun _ => rfl
  · exact fun _ => rfl

theorem Tree.propagateRound_rootWeight (t : Tree) {q : Idx} (hr : q ≠ ROOT) :
    (t.propagateRound q).rootWeight = t.rootWeight := by
  unfold Tree.rootWeight Tree.propagateRound
  rw [Tree.bump_node_ne _ hr.symm]
  split
  · exact t.swap_weight _ _ _
  · rfl

theorem Tree.bump_rootWeight (t : Tree) : (t.bump ROOT).rootWeight = t.rootWeight + 1 := by
  rw [Tree.rootWeight, t.bump_weight (by decide), if_pos rfl, Tree.rootWeight]

theorem Tree.propagateFrom_rootWeight (fuel : Nat) (t : Tree) (q : Idx) (swaps : Nat) :
    (t.propagateFrom fuel q swaps).1.rootWeight = t.rootWeight + 1 := by
  induction fuel generalizing t q swaps with
  | zero => exact t.bump_rootWeight
  | succ fuel ih =>
    by_cases hr : q = ROOT
    · rw [Tree.propagateFrom, if_pos hr]
      exact t.bump_rootWeight
    · rw [Tree.propagateFrom_succ _ _ _ hr, ih, t.propagateRound_rootWeight hr]

theorem Tree.Inv.observe_rootWeight {t : Tree} (h : t.Inv) (c : Byte) :
    (t.observe c).tree.rootWeight = t.rootWeight + 1 := by
  cases hc : (t.symEntry c).seen with
  | true => simpa [Tree.observe, hc, Tree.propagate] using t.propagateFrom_rootWeight _ _ _
  | false =>
    have hs : (t.split c).1.rootWeight = t.rootWeight := (h.shape.split_kept hc h.shape.root_alloc).2.2.2.1
    rw [← hs]
    simpa [Tree.observe, hc, Tree.propagate] using (t.split c).1.propagateFrom_rootWeight _ _ _

end Sys2Proof.Machine
end

section
/-! What a command can do to the engine, said once: its pseudocode writes the registers through a few primitives, so a
property that each primitive keeps is kept by every command. -/

namespace Sys2Proof.Machine

/-! ## Properties of the engine that the primitives keep -/

/-- `PUT_BIT` and `FLUSH_CORE` keep `P` (R170, R172). -/
structure Engine.PackKept (P : Engine → Prop) : Prop where
  shift : ∀ (g : Engine) (b : Bool), P g → g.packer.cnt ≠ 7 →
    P { g with packer := { buf := g.packer.shiftIn b, cnt := g.packer.cnt + 1 } }
  empty : ∀ g : Engine, P g → P { g with packer := Packer.empty }

/-- `GET_BIT` keeps `P` (R175). -/
structure Engine.UnpackKept (P : Engine → Prop) : Prop where
  take : ∀ g : Engine, P g → g.unpacker.cnt ≠ 0 →
    P { g with unpacker := { g.unpacker with cnt := g.unpacker.cnt - 1 } }
  fetch : ∀ (g : Engine) (v : Byte), P g → P { g with unpacker := { buf := v, cnt := 7 } }

/-- `WALK_CLEAR` and `ADV` keep `P` (R160, R161). -/
structure Engine.WalkKept (P : Engine → Prop) : Prop where
  clear : ∀ g : Engine, P g → P { g with walker := Walker.cleared }
  arrive : ∀ (g : Engine) (n : Idx), P g → P { g with walker := Walker.arrive n (g.tree.node n) }

/-- Everything a command other than INIT and SETCTRL does to the engine, but for `DEC_STATE`, keeps `P`. An observation
happens below `WMAX` only (R133). -/
structure Engine.Kept (P : Engine → Prop) : Prop where
  pack : PackKept P
  unpack : UnpackKept P
  walk : WalkKept P
  code : ∀ (g : Engine) (n : Idx), P g → P { g with code := Code.ofPath (g.tree.path n) }
  observe : ∀ (g : Engine) (b : Byte), P g → g.overflows = false →
    P { g with tree := (g.tree.observe b).tree, walker := Walker.cleared }

/-- Below `WMAX` and in `P`. -/
def Engine.Below (P : Engine → Prop) (g : Engine) : Prop := P g ∧ g.overflows = false

theorem Engine.PackKept.below {P : Engine → Prop} (h : PackKept P) : PackKept (Below P) :=
  ⟨fun g b hg hc => ⟨h.shift g b hg.1 hc, hg.2⟩, fun g hg => ⟨h.empty g hg.1, hg.2⟩⟩

theorem Engine.UnpackKept.below {P : Engine → Prop} (h : UnpackKept P) : UnpackKept (Below P) :=
  ⟨fun g hg hc => ⟨h.take g hg.1 hc, hg.2⟩, fun g v hg => ⟨h.fetch g v hg.1, hg.2⟩⟩

theorem Engine.WalkKept.below {P : Engine → Prop} (h : WalkKept P) : WalkKept (Below P) :=
  ⟨fun g hg => ⟨h.clear g hg.1, hg.2⟩, fun g n hg => ⟨h.arrive g n hg.1, hg.2⟩⟩

/-- A sequence ends in `P` where its first part keeps `Q`, which is enough for `P`, and the rest goes on from `Q`. -/
theorem Run.keeps_bind_of {α β : Type} {P Q : Engine → Prop} {r : Run α} {f : α → Ctx → Run β} (h : Q r.ctx.eng)
    (hQ : ∀ g, Q g → P g) (hf : ∀ (a : α) (d : Ctx), Q d.eng → P (f a d).ctx.eng) : P (r.bind f).ctx.eng :=
  Run.ctx_bind (P := fun c => P c.eng) r f (hQ _ h) fun a d hd => hf a d (by simpa [hd] using h)

/-- A sequence keeps `P` where its parts do. -/
theorem Run.keeps_bind {α β : Type} {P : Engine → Prop} {r : Run α} {f : α → Ctx → Run β} (h : P r.ctx.eng)
    (hf : ∀ (a : α) (d : Ctx), P d.eng → P (f a d).ctx.eng) : P (r.bind f).ctx.eng :=
  Run.keeps_bind_of h (fun _ => id) hf

/-- A sequence ends in `P` where its first part stays below `WMAX`. -/
theorem Run.keeps_bind_below {α β : Type} {P : Engine → Prop} {r : Run α} {f : α → Ctx → Run β}
    (h : Engine.Below P r.ctx.eng) (hf : ∀ (a : α) (d : Ctx), Engine.Below P d.eng → P (f a d).ctx.eng) :
    P (r.bind f).ctx.eng :=
  Run.keeps_bind_of h (fun _ hg => hg.1) hf

theorem outWrite_keeps {P : Engine → Prop} (v : Byte) {c : Ctx} (h : P c.eng) : P (outWrite v c).ctx.eng := by
  rwa [outWrite_eng]

theorem inRead_keeps {P : Engine → Prop} {c : Ctx} (h : P c.eng) : P (inRead c).ctx.eng := by
  rwa [inRead_eng]

section
variable {P : Engine → Prop} (hP : Engine.PackKept P)
include hP

theorem Engine.PackKept.putBit (b : Bool) {c : Ctx} (h : P c.eng) : P (putBit b c).ctx.eng := by
  obtain ⟨hc, e⟩ | ⟨-, -, e⟩ | ⟨-, -, e⟩ := putBit_cases b c <;> rw [e]
  · exact hP.shift c.eng b h hc
  · exact hP.empty c.eng h
  · exact h

theorem Engine.PackKept.putAll (bs : List Bool) {c : Ctx} (h : P c.eng) : P (putAll bs c).ctx.eng := by
  induction bs generalizing c with
  | nil => exact h
  | cons b bs ih => exact Run.keeps_bind (hP.putBit b h) fun _ d hd => ih hd

theorem Engine.PackKept.putCode {c : Ctx} (h : P c.eng) : P (putCode c).ctx.eng := hP.putAll _ h

theorem Engine.PackKept.flushCore {c : Ctx} (h : P c.eng) : P (flushCore c).ctx.eng := by
  obtain ⟨-, e⟩ | ⟨-, -, e⟩ | ⟨-, -, e⟩ := flushCore_cases c <;> rw [e]
  · exact h
  · exact hP.empty c.eng h
  · exact h

end

section
variable {P : Engine → Prop} (hP : Engine.UnpackKept P)
include hP

theorem Engine.UnpackKept.getBit {c : Ctx} (h : P c.eng) : P (getBit c).ctx.eng := by
  obtain ⟨hc, e⟩ | ⟨-, v, rest, -, e⟩ | ⟨-, -, -, e⟩ | ⟨-, -, -, e⟩ := getBit_cases c <;> rw [e]
  · exact hP.take c.eng h hc
  · exact hP.fetch c.eng v h
  · exact h
  · exact h

theorem Engine.UnpackKept.getBitsFrom (n : Nat) (v : Byte) (k : Nat) {c : Ctx} (h : P c.eng) :
    P (getBitsFrom n v k c).ctx.eng := by
  induction n generalizing v k c with
  | zero => exact h
  | succ n ih =>
    refine Run.keeps_bind (hP.getBit h) fun b d hd => ?_
    cases b with
    | none => exact hd
    | some b => exact ih _ _ hd

theorem Engine.UnpackKept.getBits (n : Nat) {c : Ctx} (h : P c.eng) : P (getBits n c).ctx.eng :=
  hP.getBitsFrom n 0 0 h

theorem Engine.UnpackKept.descend (hw : Engine.WalkKept P) (fuel : Nat) {c : Ctx} (h : P c.eng) :
    P (descend fuel c).ctx.eng := by
  induction fuel generalizing c with
  | zero => exact h
  | succ fuel ih =>
    unfold Sys2Proof.Machine.descend
    split
    · refine Run.keeps_bind (hP.getBit h) fun b d hd => ?_
      cases b with
      | none => exact hd
      | some b => exact ih (hw.arrive d.eng _ hd)
    · exact h

end

section
variable {P : Engine → Prop} (hP : Engine.Kept P)
include hP

theorem Engine.Kept.encbCore (b : Byte) {c : Ctx} (h : Below P c.eng) : P (encbCore b c).ctx.eng := by
  have code (n : Idx) : Below P (c.derivePath n).eng := ⟨hP.code c.eng n h.1, h.2⟩
  unfold Sys2Proof.Machine.encbCore
  split
  · exact Run.keeps_bind_below (hP.pack.below.putCode (code _)) fun _ d hd => hP.observe d.eng b hd.1 hd.2
  · exact Run.keeps_bind_below (hP.pack.below.putCode (code _)) fun _ d hd =>
      Run.keeps_bind_below (hP.pack.below.putAll _ hd) fun _ e he => hP.observe e.eng b he.1 he.2

theorem Engine.Kept.encendCore {c : Ctx} (h : P c.eng) : P (encendCore c).ctx.eng := by
  unfold Sys2Proof.Machine.encendCore
  split
  · exact Run.keeps_bind (hP.pack.putCode (hP.code c.eng _ h)) fun _ d hd =>
      Run.keeps_bind (hP.pack.putAll _ hd) fun _ e he => Run.keeps_bind (hP.pack.flushCore he) fun _ _ hf => hf
  · exact Run.keeps_bind (hP.pack.flushCore h) fun _ _ hd => hd

theorem Engine.Kept.encrunLoop (fuel n : Nat) {c : Ctx} (h : P c.eng) : P (encrunLoop fuel n c).ctx.eng := by
  induction fuel generalizing n c with
  | zero => exact h
  | succ fuel ih =>
    unfold Sys2Proof.Machine.encrunLoop
    split
    · exact h
    · next ho =>
      refine Run.keeps_bind_below (inRead_keeps ⟨h, by simpa using ho⟩) fun v d hd => ?_
      cases v with
      | none => exact Run.keeps_bind (hP.encendCore hd.1) fun _ _ he => he
      | some v => exact Run.keeps_bind (hP.encbCore v hd) fun _ _ he => ih _ he

theorem Engine.Kept.decodeByte (v : Byte) {c : Ctx} (h : Below P c.eng) : P (decodeByte v c).ctx.eng :=
  Run.keeps_bind_below (outWrite_keeps v h) fun _ d hd => hP.observe d.eng v hd.1 hd.2

variable (hd : ∀ (g : Engine) (d : DecState), P g → P { g with decState := d })
include hd

theorem Engine.Kept.decodeFirst {c : Ctx} (h : Below P c.eng) : P (decodeFirst c).ctx.eng := by
  refine Run.keeps_bind_below (hP.unpack.below.getBits 8 h) fun g d hg => ?_
  split
  · exact hg.1
  · exact Run.keeps_bind (hP.decodeByte g.v hg) fun _ e he => hd e.eng _ he

theorem Engine.Kept.decodeLiteral {c : Ctx} (h : Below P c.eng) : P (decodeLiteral c).ctx.eng := by
  refine Run.keeps_bind_below (hP.unpack.below.getBits 8 h) fun g d hg => ?_
  split
  · exact hd d.eng _ hg.1
  · split
    · exact hd d.eng _ hg.1
    · exact hP.decodeByte g.v hg

theorem Engine.Kept.decodeNext {c : Ctx} (h : Below P c.eng) : P (decodeNext c).ctx.eng := by
  have hw := hP.walk.below
  refine Run.keeps_bind_below (hP.unpack.below.descend hw _ (hw.clear c.eng h)) fun r d hr => ?_
  split
  · split
    · exact hP.decodeByte _ (hw.clear d.eng hr)
    · exact hP.decodeLiteral hd (hw.clear d.eng hr)
  · exact hP.walk.clear _ (hd d.eng .done hr.1)

theorem Engine.Kept.decstepCore {c : Ctx} (h : P c.eng) : P (decstepCore c).ctx.eng := by
  unfold Sys2Proof.Machine.decstepCore
  split
  · exact h
  · split
    · exact h
    · next ho =>
      have hb : Below P c.eng := ⟨h, by simpa using ho⟩
      split
      · exact hP.decodeFirst hd hb
      · exact hP.decodeNext hd hb

theorem Engine.Kept.decrunLoop (fuel n : Nat) {c : Ctx} (h : P c.eng) : P (decrunLoop fuel n c).ctx.eng := by
  induction fuel generalizing n c with
  | zero =>
    refine Run.keeps_bind (hP.decstepCore hd h) fun r d hr => ?_
    split <;> exact hr
  | succ fuel ih =>
    refine Run.keeps_bind (hP.decstepCore hd h) fun r d hr => ?_
    split
    · exact ih _ hr
    · exact hr

end

/-- Every command but INIT and SETCTRL keeps what its primitives keep; DECSTEP and DECRUN write `DEC_STATE` too. -/
theorem Engine.Kept.bodyOf {P : Engine → Prop} (hP : Kept P) (i : Instr) {c : Ctx} (h : P c.eng)
    (hd : i = .decstep ∨ i = .decrun → ∀ (g : Engine) (d : DecState), P g → P { g with decState := d })
    (hi : ∀ mask, i ≠ .init mask) (hs : ∀ v, i ≠ .setctrl v) : P (bodyOf i c).ctx.eng := by
  cases i with
  | nop => exact h
  | init mask => exact absurd rfl (hi mask)
  | observe sym =>
    simp only [Sys2Proof.Machine.bodyOf, observeBody]
    split
    · exact h
    · next ho => exact hP.observe c.eng sym h (by simpa using ho)
  | isobs sym => exact h
  | code sym =>
    simp only [Sys2Proof.Machine.bodyOf, codeBody]
    split
    · exact hP.code c.eng _ h
    · exact h
  | esccode => exact hP.code c.eng _ h
  | wreset => exact hP.walk.clear c.eng h
  | wadv bit =>
    simp only [Sys2Proof.Machine.bodyOf, wadvBody]
    split
    · exact hP.walk.arrive c.eng _ h
    · exact h
  | encrun => exact hP.encrunLoop _ _ h
  | decrun => exact hP.decrunLoop (hd (.inr rfl)) _ _ h
  | putbits count value => exact Run.keeps_bind (hP.pack.putAll _ h) fun _ _ he => he
  | putcode => exact Run.keeps_bind (hP.pack.putCode h) fun _ _ he => he
  | flush => exact Run.keeps_bind (hP.pack.flushCore h) fun _ _ he => he
  | getbits count => exact Run.keeps_bind (hP.unpack.getBits count h) fun _ _ he => he
  | encb sym =>
    simp only [Sys2Proof.Machine.bodyOf, encbBody]
    split
    · exact h
    · next ho => exact Run.keeps_bind (hP.encbCore sym ⟨h, by simpa using ho⟩) fun _ _ he => he
  | encend => exact Run.keeps_bind (hP.encendCore h) fun _ _ he => he
  | decstep => exact Run.keeps_bind (hP.decstepCore (hd (.inl rfl)) h) fun _ _ he => he
  | setctrl v => exact absurd rfl (hs v)

/-! ## Which failures and which responses a command can end with (R231, R45) -/

/-- The error codes of commands; ILLEGAL is an illegal word's (R231). -/
def ErrCode.OfCommand (e : ErrCode) : Prop := e = .unobserved ∨ e = .walkAtLeaf ∨ e = .weightOvf

/-- Wherever the run fails, it fails with a code of a command. -/
def Run.FailsRightly {α : Type} (r : Run α) : Prop := ∀ e c, r = .fail e c → e.OfCommand

theorem Run.FailsRightly.done {α : Type} (a : α) (c : Ctx) : (Run.done a c).FailsRightly := by
  intro e d h; cases h

theorem Run.FailsRightly.wait {α : Type} (p : Port) (c : Ctx) : (Run.wait p c : Run α).FailsRightly := by
  intro e d h; cases h

theorem Run.FailsRightly.fail {α : Type} {e : ErrCode} (he : e.OfCommand) (c : Ctx) :
    (Run.fail e c : Run α).FailsRightly := by
  intro e d h; cases h; exact he

theorem Run.FailsRightly.overflow {α : Type} (c : Ctx) : (Run.fail .weightOvf c : Run α).FailsRightly :=
  .fail (.inr (.inr rfl)) c

theorem Run.FailsRightly.bind {α β : Type} {r : Run α} {f : α → Ctx → Run β} (h : r.FailsRightly)
    (hf : ∀ (a : α) (c : Ctx), (f a c).FailsRightly) : (r.bind f).FailsRightly := by
  intro e c he
  obtain he | ⟨a, d, -, he⟩ := Run.bind_eq_fail.1 he
  · exact h e c he
  · exact hf a d e c he

theorem outWrite_failsRightly (v : Byte) (c : Ctx) : (outWrite v c).FailsRightly := by
  unfold outWrite
  split
  · exact .done _ _
  · exact .wait _ _
  · exact .done _ _

theorem inRead_failsRightly (c : Ctx) : (inRead c).FailsRightly := by
  unfold inRead
  split
  · exact .done _ _
  · split
    · exact .done _ _
    · exact .wait _ _

theorem putAll_failsRightly (bs : List Bool) (c : Ctx) : (putAll bs c).FailsRightly := by
  induction bs generalizing c with
  | nil => exact .done _ _
  | cons b bs ih =>
    refine .bind ?_ fun _ d => ih d
    obtain ⟨-, e⟩ | ⟨-, -, e⟩ | ⟨-, -, e⟩ := putBit_cases b c <;> rw [e]
    · exact .done _ _
    · exact .done _ _
    · exact .wait _ _

theorem flushCore_failsRightly (c : Ctx) : (flushCore c).FailsRightly := by
  obtain ⟨-, e⟩ | ⟨-, -, e⟩ | ⟨-, -, e⟩ := flushCore_cases c <;> rw [e]
  · exact .done _ _
  · exact .done _ _
  · exact .wait _ _

theorem getBit_failsRightly (c : Ctx) : (getBit c).FailsRightly := by
  obtain ⟨-, e⟩ | ⟨-, v, rest, -, e⟩ | ⟨-, -, -, e⟩ | ⟨-, -, -, e⟩ := getBit_cases c <;> rw [e]
  · exact .done _ _
  · exact .done _ _
  · exact .done _ _
  · exact .wait _ _

theorem getBitsFrom_failsRightly (n : Nat) (v : Byte) (k : Nat) (c : Ctx) : (getBitsFrom n v k c).FailsRightly := by
  induction n generalizing v k c with
  | zero => exact .done _ _
  | succ n ih =>
    refine .bind (getBit_failsRightly c) fun b d => ?_
    cases b with
    | none => exact .done _ _
    | some b => exact ih _ _ d

theorem descend_failsRightly (fuel : Nat) (c : Ctx) : (descend fuel c).FailsRightly := by
  induction fuel generalizing c with
  | zero => exact .done _ _
  | succ fuel ih =>
    unfold descend
    split
    · refine .bind (getBit_failsRightly c) fun b d => ?_
      cases b with
      | none => exact .done _ _
      | some b => exact ih _
    · exact .done _ _

theorem encbCore_failsRightly (b : Byte) (c : Ctx) : (encbCore b c).FailsRightly := by
  unfold encbCore
  split
  · exact .bind (putAll_failsRightly _ _) fun _ _ => .done _ _
  · exact .bind (putAll_failsRightly _ _) fun _ d => .bind (putAll_failsRightly _ d) fun _ _ => .done _ _

theorem encendCore_failsRightly (c : Ctx) : (encendCore c).FailsRightly := by
  unfold encendCore
  split
  · exact .bind (putAll_failsRightly _ _) fun _ d => .bind (putAll_failsRightly _ d) fun _ e =>
      .bind (flushCore_failsRightly e) fun _ _ => .done _ _
  · exact .bind (flushCore_failsRightly c) fun _ _ => .done _ _

theorem decodeByte_failsRightly (v : Byte) (c : Ctx) : (decodeByte v c).FailsRightly :=
  .bind (outWrite_failsRightly v c) fun _ _ => .done _ _

theorem decodeLiteral_failsRightly (c : Ctx) : (decodeLiteral c).FailsRightly := by
  refine .bind (getBitsFrom_failsRightly 8 0 0 c) fun g d => ?_
  split
  · exact .done _ _
  · split
    · exact .done _ _
    · exact decodeByte_failsRightly _ d

theorem decstepCore_failsRightly (c : Ctx) : (decstepCore c).FailsRightly := by
  unfold decstepCore
  split
  · exact .done _ _
  · split
    · exact .overflow c
    · split
      · refine .bind (getBitsFrom_failsRightly 8 0 0 c) fun g d => ?_
        split
        · exact .done _ _
        · exact .bind (decodeByte_failsRightly _ d) fun _ _ => .done _ _
      · refine .bind (descend_failsRightly _ _) fun r d => ?_
        split
        · split
          · exact decodeByte_failsRightly _ _
          · exact decodeLiteral_failsRightly _
        · exact .done _ _

theorem encrunLoop_failsRightly (fuel n : Nat) (c : Ctx) : (encrunLoop fuel n c).FailsRightly := by
  induction fuel generalizing n c with
  | zero => exact .done _ _
  | succ fuel ih =>
    unfold encrunLoop
    split
    · exact .overflow c
    · refine .bind (inRead_failsRightly c) fun v d => ?_
      cases v with
      | none => exact .bind (encendCore_failsRightly d) fun _ _ => .done _ _
      | some v => exact .bind (encbCore_failsRightly v d) fun _ e => ih _ e

theorem decrunLoop_failsRightly (fuel n : Nat) (c : Ctx) : (decrunLoop fuel n c).FailsRightly := by
  induction fuel generalizing n c with
  | zero =>
    refine .bind (decstepCore_failsRightly c) fun r d => ?_
    split
    · exact .overflow d
    · exact .done _ _
  | succ fuel ih =>
    refine .bind (decstepCore_failsRightly c) fun r d => ?_
    split
    · exact ih _ d
    · exact .done _ _

theorem bodyOf_failsRightly (i : Instr) (c : Ctx) : (bodyOf i c).FailsRightly := by
  cases i with
  | nop => exact .done _ _
  | init mask => exact .done _ _
  | observe sym =>
    simp only [bodyOf, observeBody]
    split
    · exact .overflow c
    · exact .done _ _
  | isobs sym => exact .done _ _
  | code sym =>
    simp only [bodyOf, codeBody]
    split
    · exact .done _ _
    · exact .fail (.inl rfl) c
  | esccode => exact .done _ _
  | wreset => exact .done _ _
  | wadv bit =>
    simp only [bodyOf, wadvBody]
    split
    · exact .done _ _
    · exact .fail (.inr (.inl rfl)) c
  | encrun => exact encrunLoop_failsRightly _ _ c
  | decrun => exact decrunLoop_failsRightly _ _ c
  | putbits count value => exact .bind (putAll_failsRightly _ c) fun _ _ => .done _ _
  | putcode => exact .bind (putAll_failsRightly _ c) fun _ _ => .done _ _
  | flush => exact .bind (flushCore_failsRightly c) fun _ _ => .done _ _
  | getbits count => exact .bind (getBitsFrom_failsRightly _ _ _ c) fun _ _ => .done _ _
  | encb sym =>
    simp only [bodyOf, encbBody]
    split
    · exact .overflow c
    · exact .bind (encbCore_failsRightly sym c) fun _ _ => .done _ _
  | encend => exact .bind (encendCore_failsRightly c) fun _ _ => .done _ _
  | decstep => exact .bind (decstepCore_failsRightly c) fun _ _ => .done _ _
  | setctrl v => exact .done _ _

/-- The response of a run that completes has bit 31 clear (R45). -/
def Run.AnswersRightly (r : Run Word) : Prop := ∀ w c, r = .done w c → w.getLsbD 31 = false

theorem Run.AnswersRightly.done {w : Word} (h : w.getLsbD 31 = false) (c : Ctx) : (Run.done w c).AnswersRightly := by
  intro w d e; cases e; exact h

theorem Run.AnswersRightly.fail (e : ErrCode) (c : Ctx) : (Run.fail e c).AnswersRightly := by
  intro w d h; cases h

theorem Run.AnswersRightly.bind {α : Type} (r : Run α) {f : α → Ctx → Run Word}
    (hf : ∀ (a : α) (c : Ctx), (f a c).AnswersRightly) : (r.bind f).AnswersRightly := by
  intro w c h
  obtain ⟨a, d, -, h⟩ := Run.bind_eq_done.1 h
  exact hf a d w c h

/-! The top field of every response layout is 0 (R45). -/

theorem observeResponse_bit31 (first : Bool) (swaps : Nat) (leaf : Idx) : (observeResponse first swaps leaf).getLsbD 31 = false := by
  simp only [observeResponse, BitVec.getLsbD_append]
  simp

theorem isobsResponse_bit31 (e : SymEntry) : (isobsResponse e).getLsbD 31 = false := by
  simp only [isobsResponse, BitVec.getLsbD_append]
  simp

theorem codeResponse_bit31 (k : Code) : (codeResponse k).getLsbD 31 = false := by
  simp [codeResponse]

theorem wadvResponse_bit31 (w : Walker) : (wadvResponse w).getLsbD 31 = false := by
  simp only [wadvResponse, BitVec.getLsbD_append]
  simp

theorem packResponse_bit31 (bytes n : Nat) : (packResponse bytes n).getLsbD 31 = false := by
  simp only [packResponse, BitVec.getLsbD_append]
  simp

theorem getbitsResponse_bit31 (v : Byte) (k : Nat) (exh : Bool) : (getbitsResponse v k exh).getLsbD 31 = false := by
  simp only [getbitsResponse, BitVec.getLsbD_append]
  simp

theorem encodeResponse_bit31 (bytes : Nat) (b : Bool) (bits : Nat) : (encodeResponse bytes b bits).getLsbD 31 = false := by
  simp only [encodeResponse, BitVec.getLsbD_append]
  simp

theorem decstepResponse_bit31 (outcome : BitVec 2) (byte : Byte) : (decstepResponse outcome byte).getLsbD 31 = false := by
  simp only [decstepResponse, BitVec.getLsbD_append]
  simp

theorem runResponse_bit31 (n : Nat) : (runResponse n).getLsbD 31 = false := by
  have h : min n 0x7FFFFFFF < 2 ^ 31 := by omega
  simp only [runResponse, BitVec.getLsbD_ofNat, Nat.testBit_lt_two_pow h, Bool.and_false]

theorem encrunLoop_answersRightly (fuel n : Nat) (c : Ctx) : (encrunLoop fuel n c).AnswersRightly := by
  induction fuel generalizing n c with
  | zero => exact .done (runResponse_bit31 n) c
  | succ fuel ih =>
    unfold encrunLoop
    split
    · exact .fail _ c
    · refine .bind _ fun v d => ?_
      cases v with
      | none => exact .bind _ fun _ e => .done (runResponse_bit31 n) e
      | some v => exact .bind _ fun _ e => ih _ e

theorem decrunLoop_answersRightly (fuel n : Nat) (c : Ctx) : (decrunLoop fuel n c).AnswersRightly := by
  induction fuel generalizing n c with
  | zero =>
    refine .bind _ fun r d => ?_
    split
    · exact .fail _ d
    · exact .done (runResponse_bit31 n) d
  | succ fuel ih =>
    refine .bind _ fun r d => ?_
    split
    · exact ih _ d
    · exact .done (runResponse_bit31 n) d

theorem bodyOf_answersRightly (i : Instr) (c : Ctx) : (bodyOf i c).AnswersRightly := by
  cases i with
  | nop => exact .done rfl c
  | init mask => exact .done rfl _
  | observe sym =>
    simp only [bodyOf, observeBody]
    split
    · exact .fail _ c
    · exact .done (observeResponse_bit31 _ _ _) _
  | isobs sym => exact .done (isobsResponse_bit31 _) _
  | code sym =>
    simp only [bodyOf, codeBody]
    split
    · exact .done (codeResponse_bit31 _) _
    · exact .fail _ c
  | esccode => exact .done (codeResponse_bit31 _) _
  | wreset => exact .done rfl _
  | wadv bit =>
    simp only [bodyOf, wadvBody]
    split
    · exact .done (wadvResponse_bit31 _) _
    · exact .fail _ c
  | encrun => exact encrunLoop_answersRightly _ _ c
  | decrun => exact decrunLoop_answersRightly _ _ c
  | putbits count value => exact .bind _ fun _ _ => .done (packResponse_bit31 _ _) _
  | putcode => exact .bind _ fun _ _ => .done (packResponse_bit31 _ _) _
  | flush => exact .bind _ fun _ _ => .done (packResponse_bit31 _ _) _
  | getbits count => exact .bind _ fun _ _ => .done (getbitsResponse_bit31 _ _ _) _
  | encb sym =>
    simp only [bodyOf, encbBody]
    split
    · exact .fail _ c
    · exact .bind _ fun _ _ => .done (encodeResponse_bit31 _ _ _) _
  | encend => exact .bind _ fun _ _ => .done (encodeResponse_bit31 _ _ _) _
  | decstep => exact .bind _ fun _ _ => .done (decstepResponse_bit31 _ _) _
  | setctrl v => exact .done rfl _

end Sys2Proof.Machine
end

section
/-! Invariants of the machine: what every command keeps, every step keeps. Then the statements about single registers. -/

namespace Sys2Proof.Machine

/-! ## INIT, field by field (R221) -/

section
variable (g : Engine) (mask : BitVec 5)

/-- The five parts are disjoint, so the lines of INIT are one update. -/
theorem Engine.initParts_eq : g.initParts mask = { g with
    tree := if mask.getLsbD 0 then Tree.initial else g.tree
    walker := if mask.getLsbD 0 then Walker.cleared else g.walker
    code := if mask.getLsbD 0 then { buf := 0, len := 0 } else g.code
    packer := if mask.getLsbD 1 then Packer.empty else g.packer
    unpacker := if mask.getLsbD 2 then { buf := 0, cnt := 0 } else g.unpacker
    decState := if mask.getLsbD 3 then .await else g.decState
    error := if mask.getLsbD 4 then { err := false, code := .none, cmd := 0 } else g.error } := by
  unfold Engine.initParts Engine.treeInit selectsTree selectsPacker selectsUnpacker selectsDecoder selectsError
  cases mask.getLsbD 0 <;> cases mask.getLsbD 1 <;> cases mask.getLsbD 2 <;> cases mask.getLsbD 3 <;>
    cases mask.getLsbD 4 <;> rfl

@[simp] theorem Engine.initParts_weightBits : (g.initParts mask).weightBits = g.weightBits := by
  rw [Engine.initParts_eq]
@[simp] theorem Engine.initParts_tree :
    (g.initParts mask).tree = if mask.getLsbD 0 then Tree.initial else g.tree := by
  rw [Engine.initParts_eq]
@[simp] theorem Engine.initParts_walker :
    (g.initParts mask).walker = if mask.getLsbD 0 then Walker.cleared else g.walker := by
  rw [Engine.initParts_eq]
@[simp] theorem Engine.initParts_code :
    (g.initParts mask).code = if mask.getLsbD 0 then { buf := 0, len := 0 } else g.code := by
  rw [Engine.initParts_eq]
@[simp] theorem Engine.initParts_packer :
    (g.initParts mask).packer = if mask.getLsbD 1 then Packer.empty else g.packer := by
  rw [Engine.initParts_eq]
@[simp] theorem Engine.initParts_unpacker :
    (g.initParts mask).unpacker = if mask.getLsbD 2 then { buf := 0, cnt := 0 } else g.unpacker := by
  rw [Engine.initParts_eq]
@[simp] theorem Engine.initParts_termEn : (g.initParts mask).termEn = g.termEn := by
  rw [Engine.initParts_eq]
@[simp] theorem Engine.initParts_decState :
    (g.initParts mask).decState = if mask.getLsbD 3 then .await else g.decState := by
  rw [Engine.initParts_eq]
@[simp] theorem Engine.initParts_error :
    (g.initParts mask).error = if mask.getLsbD 4 then { err := false, code := .none, cmd := 0 } else g.error := by
  rw [Engine.initParts_eq]

end

/-! ## What every command keeps, every step keeps -/

/-- A property of the engine that whatever a command does keeps: its primitives, `DEC_STATE`, INIT and SETCTRL, a
response, and a failure with one of the codes that are raised (R231, R233). -/
structure Engine.Invariant (P : Engine → Prop) : Prop where
  kept : Kept P
  decState : ∀ (g : Engine) (d : DecState), P g → P { g with decState := d }
  initParts : ∀ (g : Engine) (mask : BitVec 5), P g → P (g.initParts mask)
  termEn : ∀ (g : Engine) (v : Bool), P g → P { g with termEn := v }
  result : ∀ (g : Engine) (r : Word), P g → P { g with result := r }
  failure : ∀ (g : Engine) (e : ErrCode) (w : Cmd), e ≠ .none → P g → P (g.takeFailure e w)

theorem ErrCode.OfCommand.ne_none {e : ErrCode} (h : e.OfCommand) : e ≠ .none := by
  rintro rfl
  obtain h | h | h := h <;> cases h

section
variable {P : Engine → Prop} (hP : Engine.Invariant P)
include hP

theorem Engine.Invariant.bodyOf (i : Instr) {c : Ctx} (h : P c.eng) : P (bodyOf i c).ctx.eng := by
  by_cases hi : ∃ mask, i = .init mask
  · obtain ⟨mask, rfl⟩ := hi
    exact hP.initParts c.eng mask h
  · by_cases hs : ∃ v, i = .setctrl v
    · obtain ⟨v, rfl⟩ := hs
      exact hP.termEn c.eng v h
    · exact hP.kept.bodyOf i h (fun _ => hP.decState) (fun m e => hi ⟨m, e⟩) fun v e => hs ⟨v, e⟩

theorem Engine.Invariant.exec {i : Instr} {s t : State} (he : exec i s = .next t) (h : P s.eng) : P t.eng := by
  have hb := hP.bodyOf i (c := s.ctx) h
  obtain ⟨r, c, e, rfl⟩ | ⟨x, c, e, rfl⟩ | ⟨p, c, e, rfl⟩ := exec_ends he <;> rw [e] at hb
  · exact hP.result c.eng r hb
  · exact hP.failure c.eng x _ (bodyOf_failsRightly i s.ctx x c e).ne_none hb
  · exact hb

theorem Engine.Invariant.hardwareReset {g : Engine} (h : P g) : P g.hardwareReset :=
  hP.result _ 0 (hP.termEn _ false (hP.initParts g 0x1F h))

/-- A command that holds started from the engine it was accepted in. -/
theorem Engine.Invariant.exec_everywhere {i : Instr} {s t : State} (he : Machine.exec i s = .next t) (h : P s.eng) :
    t.Everywhere P := by
  refine ⟨hP.exec he h, fun k hk => ?_⟩
  obtain ⟨c, -, e, -⟩ := exec_hold he hk
  rw [e]
  exact h

theorem Engine.Invariant.step {s t : State} (h : s.Everywhere P) (hst : Machine.step s = .next t) :
    t.Everywhere P := by
  obtain ⟨hs, hh⟩ := h
  obtain ⟨k, hk, -, -, he⟩ | hm := step_cases hst
  · exact hP.exec_everywhere he (hh k hk)
  · obtain rfl | ⟨w, rest, -, -, ha⟩ | ⟨rest, inp, out, room, rfl⟩ | ⟨e1, e2, -, -⟩ := hostMove_cases hm
    · exact ⟨hs, hh⟩
    · obtain ⟨i, -, he⟩ | ⟨e, -, rfl⟩ := acceptWord_cases ha
      · exact hP.exec_everywhere he hs
      · exact ⟨hP.failure s.eng .illegal w (by decide) hs, fun k hk => nomatch hk⟩
    · exact ⟨hP.hardwareReset hs, fun k hk => nomatch hk⟩
    · exact ⟨e1 ▸ hs, fun k hk => hh k (e2 ▸ hk)⟩

end

/-! ## The register invariants (R38 to R42, R46) -/

theorem Packer.empty_ok : Packer.empty.Ok := by
  show (0#8).toNat < 2 ^ (0#3).toNat
  decide

theorem Packer.Ok.shift {p : Packer} (h : p.Ok) (b : Bool) (hc : p.cnt ≠ 7) :
    ({ buf := p.shiftIn b, cnt := p.cnt + 1 } : Packer).Ok := by
  have hn : p.cnt.toNat ≠ 7 := fun e => hc (BitVec.eq_of_toNat_eq e)
  have e : (p.cnt + 1).toNat = p.cnt.toNat + 1 := by bv_omega
  have hb : (p.shiftIn b).toNat = p.buf.toNat % 128 * 2 + b.toNat := by
    rw [Packer.shiftIn, BitVec.toNat_append, BitVec.toNat_ofBool,
      ← Nat.shiftLeft_add_eq_or_of_lt (Nat.lt_succ_of_le b.toNat_le), Nat.shiftLeft_eq]
    simp
  have hbit := b.toNat_le
  have hmod := Nat.mod_le p.buf.toNat 128
  unfold Packer.Ok at h ⊢
  simp only [e, hb, Nat.pow_succ]
  omega

theorem Code.ofPath_ok {p : List Bool} (h : p.length ≤ 256) : (Code.ofPath p).Ok := by
  refine ⟨by rwa [Code.ofPath_len p h], fun i hi => ?_⟩
  rw [Code.ofPath_len p h] at hi
  rw [Code.ofPath_getLsbD p i h, List.getD_eq_default _ _ hi]

theorem Code.empty_ok : ({ buf := 0, len := 0 } : Code).Ok :=
  ⟨by decide, fun _ _ => BitVec.getLsbD_zero⟩

theorem Walker.cleared_ok : Walker.cleared.Ok := ⟨fun _ => rfl, fun _ => rfl⟩

theorem Walker.arrive_ok (n : Idx) (x : Node) : (Walker.arrive n x).Ok := by
  constructor
  · intro h
    simp only [Walker.arrive, Bool.or_eq_false_iff] at h ⊢
    exact h.2
  · intro h
    simp only [Walker.arrive, beq_eq_false_iff_ne] at h ⊢
    exact if_neg h

theorem Unpacker.Ok.take {u : Unpacker} (h : u.Ok) (hc : u.cnt ≠ 0) : ({ u with cnt := u.cnt - 1 } : Unpacker).Ok := by
  unfold Unpacker.Ok at h ⊢
  bv_omega

theorem ErrRecord.empty_ok : ({ err := false, code := .none, cmd := 0 } : ErrRecord).Ok :=
  ⟨⟨fun h => (nomatch h), fun h => absurd rfl h⟩, fun _ => rfl⟩

theorem ErrRecord.Ok.record {r : ErrRecord} (h : r.Ok) {e : ErrCode} (he : e ≠ .none) (w : Cmd) : (r.record e w).Ok := by
  unfold ErrRecord.record
  split
  · exact h
  · exact ⟨⟨fun _ => he, fun _ => rfl⟩, fun h => nomatch h⟩

theorem Engine.regsOk_invariant : Invariant RegsOk where
  kept :=
    { pack := ⟨fun g b h hc => { h with packer := h.packer.shift b hc }, fun g h => { h with packer := Packer.empty_ok }⟩
      unpack := ⟨fun g h hc => { h with unpacker := h.unpacker.take hc },
        fun g v h => { h with unpacker := le_rfl }⟩
      walk := ⟨fun g h => { h with walker := Walker.cleared_ok }, fun g n h => { h with walker := Walker.arrive_ok _ _ }⟩
      code := fun g n h => { h with code := Code.ofPath_ok (g.tree.path_length_le n) }
      observe := fun g b h _ => { h with walker := Walker.cleared_ok } }
  decState _ _ h := { h with }
  initParts g mask h := by
    refine ⟨?_, ?_, ?_, ?_, ?_⟩
    · rw [Engine.initParts_packer]
      split
      · exact Packer.empty_ok
      · exact h.packer
    · rw [Engine.initParts_unpacker]
      split
      · exact Nat.zero_le 7
      · exact h.unpacker
    · rw [Engine.initParts_code]
      split
      · exact Code.empty_ok
      · exact h.code
    · rw [Engine.initParts_walker]
      split
      · exact Walker.cleared_ok
      · exact h.walker
    · rw [Engine.initParts_error]
      split
      · exact ErrRecord.empty_ok
      · exact h.error
  termEn _ _ h := { h with }
  result _ _ h := { h with }
  failure g e w he h := { h with error := h.error.record he w }

/-- Settles O59: every primitive of the commands keeps the register invariants (R38 to R42, R46), so every command and
every step does. -/
theorem stepKeepsTheRegisterInvariants : Obligations.StepKeepsTheRegisterInvariants :=
  fun _ _ h hst => Engine.regsOk_invariant.step h hst

/-! ## The tree invariants and the bound of the root weight (R50 to R57, R6) -/

theorem Tree.initial_inv : Tree.initial.Inv :=
  Tree.inv_of_check (by decide +kernel) fun h => absurd rfl h

theorem Tree.initial_rootWeight : Tree.initial.rootWeight = 0 := by decide

/-- The tree invariants and the bound of the weights. -/
def Engine.TreeOk (g : Engine) : Prop := g.tree.Inv ∧ g.WeightOk

theorem Engine.TreeOk.observe {g : Engine} (h : g.TreeOk) (b : Byte) (ho : g.overflows = false) :
    TreeOk { g with tree := (g.tree.observe b).tree, walker := Walker.cleared } := by
  obtain ⟨hi, hlo, hhi, hw⟩ := h
  refine ⟨hi.observe b, hlo, hhi, ?_⟩
  have hne : g.tree.rootWeight ≠ g.wmax := by simpa [Engine.overflows] using ho
  show (g.tree.observe b).tree.rootWeight ≤ g.wmax
  rw [hi.observe_rootWeight]
  omega

theorem Engine.TreeOk.treeInit {g : Engine} (h : g.TreeOk) : TreeOk { g with tree := Tree.initial } := by
  obtain ⟨-, hlo, hhi, -⟩ := h
  refine ⟨Tree.initial_inv, hlo, hhi, ?_⟩
  show Tree.initial.rootWeight ≤ _
  rw [Tree.initial_rootWeight]
  exact Nat.zero_le _

theorem Engine.treeOk_invariant : Invariant TreeOk where
  kept :=
    { pack := ⟨fun _ _ h _ => h, fun _ h => h⟩
      unpack := ⟨fun _ h _ => h, fun _ _ h => h⟩
      walk := ⟨fun _ h => h, fun _ _ h => h⟩
      code := fun _ _ h => h
      observe := fun g b h ho => h.observe b ho }
  decState _ _ h := h
  initParts g mask h := by
    have e : (g.initParts mask).TreeOk ↔ TreeOk { g with tree := (g.initParts mask).tree } := by
      unfold TreeOk WeightOk wmax
      rw [Engine.initParts_weightBits]
    rw [e, Engine.initParts_tree]
    split
    · exact h.treeInit
    · exact h
  termEn _ _ h := h
  result _ _ h := h
  failure _ _ _ _ h := h

/-- Settles O60: an observation keeps the tree invariant (R135) and adds 1 to the root weight, and it happens below
`WMAX` only (R133); nothing else but INIT writes the tree. -/
theorem stepKeepsTheTreeInvariants : Obligations.StepKeepsTheTreeInvariants :=
  fun _ _ h hst => Engine.treeOk_invariant.step h hst

end Sys2Proof.Machine
end

section
/-! Which commands write which register (10_state.md R34, R41, R43, R45, R46), and the reset state (R59). -/

namespace Sys2Proof.Machine

/-! ## `CTRL` (R41) -/

/-- Settles O23: INIT has no part that writes `TERM_EN`, and every other command but SETCTRL keeps it. -/
theorem onlySetctrlWritesTermEn : Obligations.OnlySetctrlWritesTermEn := by
  intro i s t he hs
  obtain ⟨r, x, e⟩ := exec_eng he
  rw [e]
  by_cases hi : ∃ mask, i = .init mask
  · obtain ⟨mask, rfl⟩ := hi
    exact Engine.initParts_termEn s.eng mask
  · exact (bodyOf_follows i s.ctx (fun m e => hi ⟨m, e⟩) hs).keeps.termEn

/-! ## The symbol table (R34) -/

/-- An observation writes the entry of an unseen byte only (R120, R124). -/
theorem Tree.observe_symEntry (t : Tree) (b : Byte) {c : Byte} (hc : (t.symEntry c).seen = true) :
    (t.observe b).tree.symEntry c = t.symEntry c := by
  have keep (u : Tree) (q : Idx) : (u.propagate q).1.symEntry c = u.symEntry c := by simp [Tree.symEntry]
  cases hb : (t.symEntry b).seen with
  | true => simp [Tree.observe, hb, keep]
  | false =>
    have hne : c ≠ b := by
      rintro rfl
      rw [hc] at hb
      cases hb
    simp [Tree.observe, hb, keep, t.split_symEntry, hne]

theorem Engine.symEntry_kept (c : Byte) {e : SymEntry} (he : e.seen = true) :
    Kept fun g => g.tree.symEntry c = e where
  pack := ⟨fun _ _ h _ => h, fun _ h => h⟩
  unpack := ⟨fun _ h _ => h, fun _ _ h => h⟩
  walk := ⟨fun _ h => h, fun _ _ h => h⟩
  code _ _ h := h
  observe g b h _ := by
    rw [← h] at he
    exact (g.tree.observe_symEntry b he).trans h

/-- Settles O36: a split writes the entry of an unseen byte, and nothing else but INIT bit 0 writes the table. -/
theorem observedSymbolsStayObserved : Obligations.ObservedSymbolsStayObserved := by
  intro i s t c he hc hinit
  obtain ⟨r, x, e⟩ := exec_eng he
  rw [e]
  by_cases hi : ∃ mask, i = .init mask
  · obtain ⟨mask, rfl⟩ := hi
    show (s.eng.initParts mask).tree.symEntry c = _
    rw [Engine.initParts_tree, hinit mask rfl]
    rfl
  · by_cases hs : ∃ v, i = .setctrl v
    · obtain ⟨v, rfl⟩ := hs
      rfl
    · exact (Engine.symEntry_kept c hc).bodyOf i (c := s.ctx) rfl (fun _ _ _ h => h) (fun m e => hi ⟨m, e⟩)
        fun v e => hs ⟨v, e⟩

/-! ## DONE (R43) -/

theorem Engine.done_kept : Kept fun g => g.decState = .done where
  pack := ⟨fun _ _ h _ => h, fun _ h => h⟩
  unpack := ⟨fun _ h _ => h, fun _ _ h => h⟩
  walk := ⟨fun _ h => h, fun _ _ h => h⟩
  code _ _ h := h
  observe _ _ h _ := h

/-- In DONE a decode step does nothing (R195). -/
theorem decstepCore_of_done {c : Ctx} (h : c.eng.decState = .done) :
    decstepCore c = .done { outcome := .endDone, byte := 0 } c := by
  rw [decstepCore, if_pos h]

theorem decrunLoop_of_done (fuel n : Nat) {c : Ctx} (h : c.eng.decState = .done) :
    decrunLoop fuel n c = .done (runResponse n) c := by
  cases fuel <;> simp [decrunLoop, decstepCore_of_done h]

/-- Settles O51: the decode step tests DONE first, INIT leaves it by bit 3 only, and no other command writes
`DEC_STATE`. -/
theorem doneIsLeftOnlyByInit : Obligations.DoneIsLeftOnlyByInit := by
  intro i s t he hdone hinit
  obtain ⟨r, x, e⟩ := exec_eng he
  rw [e]
  have hc : s.ctx.eng.decState = .done := hdone
  cases i with
  | init mask =>
    show (s.eng.initParts mask).decState = _
    rw [Engine.initParts_decState, hinit mask rfl]
    exact hdone
  | setctrl v => exact hdone
  | decstep => simp [bodyOf, decstepBody, decstepCore_of_done hc, hdone]
  | decrun => simp [bodyOf, decrunBody, decrunLoop_of_done _ _ hc, hdone]
  | _ => exact Engine.done_kept.bodyOf _ hc (by simp) (by simp) (by simp)

/-! ## The error record (R46, R47) -/

/-- No pseudocode writes the error record but INIT's, by bit 4. -/
theorem bodyOf_error (i : Instr) (c : Ctx) (hinit : ∀ mask, i = .init mask → mask.getLsbD 4 = false) :
    (bodyOf i c).ctx.eng.error = c.eng.error := by
  by_cases hi : ∃ mask, i = .init mask
  · obtain ⟨mask, rfl⟩ := hi
    show (c.eng.initParts mask).error = _
    rw [Engine.initParts_error, hinit mask rfl]
    rfl
  · by_cases hs : ∃ v, i = .setctrl v
    · obtain ⟨v, rfl⟩ := hs
      rfl
    · exact (bodyOf_follows i c (fun m e => hi ⟨m, e⟩) fun v e => hs ⟨v, e⟩).keeps.error

theorem ErrRecord.record_of_err {r : ErrRecord} (h : r.err = true) (e : ErrCode) (w : Cmd) : r.record e w = r :=
  if_pos h

theorem ErrRecord.record_of_clear {r : ErrRecord} (h : r.err = false) (e : ErrCode) (w : Cmd) :
    r.record e w = { err := true, code := e, cmd := w } := if_neg (by simp [h])

/-- Settles O56: the record is written where a failure is taken, and there only while it is clear (R233 (b)); a
response with bit 31 set is a failure's. -/
theorem errorRecordKeepsTheFirstFailure : Obligations.ErrorRecordKeepsTheFirstFailure := by
  refine ⟨fun i s t he hinit => ?_, fun w e s t hd ha => ?_⟩
  · have herr := bodyOf_error i s.ctx hinit
    obtain ⟨r, c, hb, rfl⟩ | ⟨x, c, hb, rfl⟩ | ⟨p, c, hb, rfl⟩ := exec_ends he <;>
      simp only [hb, Run.ctx_done, Run.ctx_fail, Run.ctx_wait, State.ctx_eng] at herr
    · refine ⟨fun _ => herr, fun _ _ hbit => ?_⟩
      rw [State.complete_eng, bodyOf_answersRightly i s.ctx r c hb] at hbit
      cases hbit
    · simp only [State.failWith_eng, herr]
      refine ⟨fun h => ErrRecord.record_of_err h x _, fun h _ _ => ?_⟩
      rw [ErrRecord.record_of_clear h]
      exact ⟨rfl, rfl, errorWord_eq x⟩
    · exact ⟨fun _ => herr, fun _ hh => nomatch hh⟩
  · obtain ⟨i, hd', -⟩ | ⟨-, -, rfl⟩ := acceptWord_cases ha
    · rw [hd] at hd'
      cases hd'
    · exact ⟨fun h => ErrRecord.record_of_err h _ _, fun h => ErrRecord.record_of_clear h _ _⟩

/-! ## Responses (R45, R79) -/

/-- The error words of commands (R231, R232). -/
theorem ErrCode.OfCommand.errorWord {e : ErrCode} (h : e.OfCommand) :
    errorWord e = 0x80000002 ∨ errorWord e = 0x80000003 ∨ errorWord e = 0x80000004 := by
  obtain rfl | rfl | rfl := h
  · exact .inl rfl
  · exact .inr (.inl rfl)
  · exact .inr (.inr rfl)

/-- Settles O57: each of the three ends of a command (R230), with the bit 31 of what it answers. -/
theorem everyEndedCommandAnswersOnce : Obligations.EveryEndedCommandAnswersOnce := by
  intro i s
  obtain ⟨t, he⟩ := exec_next i s
  refine ⟨t, he, ?_⟩
  obtain ⟨r, c, hb, rfl⟩ | ⟨x, c, hb, rfl⟩ | ⟨p, c, hb, rfl⟩ := exec_ends he
  · exact ⟨fun _ => ⟨rfl, .inl (bodyOf_answersRightly i s.ctx r c hb)⟩, fun h => absurd rfl h⟩
  · exact ⟨fun _ => ⟨rfl, .inr (bodyOf_failsRightly i s.ctx x c hb).errorWord⟩, fun h => absurd rfl h⟩
  · refine ⟨fun h => (nomatch h), fun _ => ⟨rfl, ?_⟩⟩
    have hres : (bodyOf i s.ctx).ctx.eng.result = s.eng.result := by
      refine (bodyOf_follows i s.ctx ?_ ?_).keeps.result <;> rintro _ rfl <;> cases hb
    simpa [hb] using hres

/-! ## Reset (R59) -/

theorem Tree.initial_node_root : Tree.initial.node 0 = Node.initialRoot := by decide

theorem Tree.initial_node_free {n : Idx} (hn : n ≠ 0) : Tree.initial.node n = Node.free :=
  Tree.initial_inv.spec.allocation.free n fun hlt => hn <| by
    have : n.toNat < 1 := hlt
    bv_omega

theorem Tree.initial_ordAt_root : Tree.initial.ordAt 512 = 0 := Tree.initial_inv.spec.escRoot.rootSlot

theorem Tree.initial_ordAt_nil {k : Idx} (hk : k ≠ 512) : Tree.initial.ordAt k = NIL := by
  by_cases hlt : k.toNat < 513
  · refine Tree.initial_inv.spec.allocation.unoccupied k ?_
    show k.toNat < 512
    bv_omega
  · rw [Tree.ordAt, dif_neg hlt]

theorem Tree.initial_symEntry (c : Byte) : Tree.initial.symEntry c = { seen := false, leaf := NIL } := by
  simp [Tree.symEntry, Tree.initial]

/-- Settles O1: the table of R59, entry by entry. -/
theorem resetGivesEveryRegisterItsValue : Obligations.ResetGivesEveryRegisterItsValue := fun _ =>
  ⟨Tree.initial_node_root, fun _ hn => Tree.initial_node_free hn, Tree.initial_ordAt_root,
    fun _ hk => Tree.initial_ordAt_nil hk, Tree.initial_symEntry, rfl, rfl, rfl, rfl, rfl, rfl, rfl, rfl, rfl, rfl, rfl,
    rfl, rfl⟩

theorem Engine.initial_regsOk (w : Nat) : (Engine.initial w).RegsOk :=
  ⟨Packer.empty_ok, Nat.zero_le 7, Code.empty_ok, Walker.cleared_ok, ErrRecord.empty_ok⟩

theorem Engine.initial_treeOk {w : Nat} (h1 : 1 ≤ w) (h2 : w ≤ 32) : (Engine.initial w).TreeOk := by
  refine ⟨Tree.initial_inv, h1, h2, ?_⟩
  rw [Engine.initial_tree, Tree.initial_rootWeight]
  exact Nat.zero_le _

/-- Settles O4: the base case of what every step keeps. -/
theorem resetStateMeetsTheInvariants : Obligations.ResetStateMeetsTheInvariants := fun w h1 h2 =>
  have ht := Engine.initial_treeOk h1 h2
  ⟨⟨ht.1, ht.2, Engine.initial_regsOk w⟩, fun _ hk => nomatch hk⟩

/-! ## STATUS (R44) -/

theorem State.waitIn_eq_true_iff (s : State) : s.waitIn = true ↔ ∃ h, s.hold = some h ∧ h.port = .input := by
  simp [State.waitIn, Option.any_eq_true]

theorem State.waitOut_eq_true_iff (s : State) : s.waitOut = true ↔ ∃ h, s.hold = some h ∧ h.port = .output := by
  simp [State.waitOut, Option.any_eq_true]

/-- The fields of STATUS that are single bits. -/
theorem State.status_bits (s : State) :
    s.status.getLsbD 0 = s.busy ∧ s.status.getLsbD 1 = s.eng.error.err ∧ s.status.getLsbD 2 = s.waitIn ∧
      s.status.getLsbD 3 = s.waitOut ∧ s.status.getLsbD 6 = s.inEod ∧ s.status.getLsbD 7 = s.eng.tree.allSeen := by
  simp only [State.status, BitVec.getLsbD_append]
  simp

/-- The fields of STATUS that are wider. -/
theorem State.status_fields (s : State) :
    s.status.extractLsb' 4 2 = s.eng.decState.number ∧ s.status.extractLsb' 8 4 = s.eng.error.code.number ∧
      s.status.extractLsb' 12 20 = 0 := by
  refine ⟨?_, ?_, ?_⟩ <;> refine BitVec.eq_of_getLsbD_eq fun i hi => ?_ <;>
    simp only [State.status, BitVec.getLsbD_extractLsb', BitVec.getLsbD_append] <;> interval_cases i <;> simp

/-- Settles O17: STATUS field by field (R44), and the numbers of R231 and R43. -/
theorem statusShowsItsFields : Obligations.StatusShowsItsFields := by
  refine ⟨fun s => ?_, by decide⟩
  obtain ⟨b0, b1, b2, b3, b6, b7⟩ := s.status_bits
  obtain ⟨f4, f8, f12⟩ := s.status_fields
  refine ⟨b0, b1, ?_, ?_, b0.symm, b2.symm, b3.symm, f4, b6, b7, f8, f12⟩
  · rw [b2, s.waitIn_eq_true_iff]
  · rw [b3, s.waitOut_eq_true_iff]

end Sys2Proof.Machine
end

section
/-! Reading the input bit by bit (20_memory.md R86, 43_bit_io.md R175, R176): what a primitive that has read some bits
has done to the streams and to the engine. -/

namespace Sys2Proof.Machine

/-- The bits a command in progress can still read (R86). -/
def Ctx.bits (c : Ctx) : List Bool := c.eng.unpacker.unread ++ bytesBits c.inp

@[simp] theorem Unpacker.unread_length (u : Unpacker) : u.unread.length = u.cnt.toNat := bitsDown_length _ _

theorem Ctx.bitsLeft_eq (c : Ctx) : c.bitsLeft = c.bits.length := by
  rw [Ctx.bitsLeft, Ctx.bits, List.length_append, Unpacker.unread_length, bytesBits_length, Nat.add_comm]

/-- With no bit left, the unpacker is empty and no byte is offered. -/
theorem Ctx.bits_eq_nil {c : Ctx} (h : c.bits = []) : c.eng.unpacker.cnt = 0 ∧ c.inp = [] := by
  have hl : c.bitsLeft = 0 := by rw [c.bitsLeft_eq, h]; rfl
  unfold Ctx.bitsLeft at hl
  exact ⟨BitVec.eq_of_toNat_eq (show c.eng.unpacker.cnt.toNat = 0 by omega), List.length_eq_zero_iff.1 (by omega)⟩

/-- `c` once the bytes `bs` have come off the input, which leaves `inp`, with other unpacker registers and, where a walk
reads the bits, another cursor. -/
def Ctx.reading (c : Ctx) (u : Unpacker) (w : Walker) (inp bs : List Byte) : Ctx :=
  { c with eng := { c.eng with unpacker := u, walker := w }, inp := inp, taken := c.taken ++ bs }

/-- Reading the bits `xs` leads from `c` to `d`: the bits come off the front, and bytes are fetched as they are needed;
`UP_BUF` holds the last one (R42). -/
structure Ctx.ReadsTo (c : Ctx) (xs : List Bool) (d : Ctx) : Prop where
  frame : ∃ u w inp bs, d = c.reading u w inp bs ∧ c.inp = bs ++ inp ∧ u.buf = bs.getLastD c.eng.unpacker.buf
  ok : d.eng.unpacker.Ok
  bits : c.bits = xs ++ d.bits

theorem Ctx.ReadsTo.refl {c : Ctx} (h : c.eng.unpacker.Ok) : c.ReadsTo [] c :=
  ⟨⟨c.eng.unpacker, c.eng.walker, c.inp, [], by simp [Ctx.reading], rfl, rfl⟩, h, rfl⟩

theorem Ctx.ReadsTo.trans {a b c : Ctx} {xs ys : List Bool} (h : a.ReadsTo xs b) (k : b.ReadsTo ys c) :
    a.ReadsTo (xs ++ ys) c := by
  obtain ⟨⟨u, w, inp, bs, rfl, hi, hb⟩, -, hbits⟩ := h
  obtain ⟨⟨u', w', inp', bs', rfl, ki, kb⟩, kok, kbits⟩ := k
  refine ⟨⟨u', w', inp', bs ++ bs', ?_, ?_, ?_⟩, kok, by rw [hbits, kbits, List.append_assoc]⟩
  · simp [Ctx.reading]
  · rw [hi, show inp = bs' ++ inp' from ki, List.append_assoc]
  · simp [kb, hb, Ctx.reading, List.getLastD_eq_getLast?]

/-- Moving the cursor reads nothing. -/
theorem Ctx.ReadsTo.setWalker {c d : Ctx} {xs : List Bool} (h : c.ReadsTo xs d) (w : Walker) :
    c.ReadsTo xs (d.setWalker w) := by
  obtain ⟨⟨u, w', inp, bs, rfl, hi, hb⟩, hok, hbits⟩ := h
  exact ⟨⟨u, w, inp, bs, rfl, hi, hb⟩, hok, hbits⟩

theorem Ctx.ReadsTo.of_setWalker {c d : Ctx} {xs : List Bool} {w : Walker} (h : (c.setWalker w).ReadsTo xs d) :
    c.ReadsTo xs d := by
  obtain ⟨⟨u, w', inp, bs, rfl, hi, hb⟩, hok, hbits⟩ := h
  exact ⟨⟨u, w', inp, bs, rfl, hi, hb⟩, hok, hbits⟩

/-- What is left once a known start of the input has been read. -/
theorem Ctx.ReadsTo.bits_left {c d : Ctx} {xs rest : List Bool} (h : c.ReadsTo xs d) (hc : c.bits = xs ++ rest) :
    d.bits = rest := List.append_cancel_left (h.bits.symm.trans hc)

theorem Ctx.ReadsTo.tree {c d : Ctx} {xs : List Bool} (h : c.ReadsTo xs d) : d.eng.tree = c.eng.tree := by
  obtain ⟨⟨u, w, inp, bs, rfl, -, -⟩, -, -⟩ := h
  rfl

theorem Ctx.ReadsTo.eod {c d : Ctx} {xs : List Bool} (h : c.ReadsTo xs d) : d.eod = c.eod := by
  obtain ⟨⟨u, w, inp, bs, rfl, -, -⟩, -, -⟩ := h
  rfl

theorem Ctx.ReadsTo.room {c d : Ctx} {xs : List Bool} (h : c.ReadsTo xs d) : d.room = c.room := by
  obtain ⟨⟨u, w, inp, bs, rfl, -, -⟩, -, -⟩ := h
  rfl

/-- R42, from the host's side. -/
theorem Ctx.ReadsTo.lastFetched {s : State} {d : Ctx} {xs : List Bool} (h : s.ctx.ReadsTo xs d) :
    d.eng.unpacker.buf = s.lastFetched d.inp := by
  obtain ⟨⟨u, w, inp, bs, rfl, hi, hb⟩, -, -⟩ := h
  have hi : s.inBytes = bs ++ inp := hi
  show u.buf = s.lastFetched inp
  rw [State.lastFetched, hi, hb]
  simp

/-! ## One bit (R175) -/

/-- With a bit left, `GET_BIT` gives it. -/
theorem getBit_read {c : Ctx} {b : Bool} {rest : List Bool} (hok : c.eng.unpacker.Ok) (h : c.bits = b :: rest) :
    ∃ d, getBit c = .done (some b) d ∧ c.ReadsTo [b] d ∧ d.eng.walker = c.eng.walker := by
  obtain ⟨hc, e⟩ | ⟨hc, v, inp, hi, e⟩ | ⟨hc, hi, -⟩ | ⟨hc, hi, -⟩ := getBit_cases c
  · have hu := c.eng.unpacker.unread_of_ne_zero hc
    rw [Ctx.bits, hu, List.cons_append] at h
    obtain ⟨rfl, rfl⟩ := List.cons.inj h
    refine ⟨_, e, ⟨⟨{ c.eng.unpacker with cnt := c.eng.unpacker.cnt - 1 }, c.eng.walker, c.inp, [], ?_, rfl, rfl⟩,
      hok.take hc, ?_⟩, rfl⟩
    · simp [Ctx.reading, Ctx.setUnpacker]
    · rw [Ctx.bits, hu]
      rfl
  · have hu : c.bits = v.getLsbD 7 :: (bitsDown v 7 ++ bytesBits inp) := by
      rw [Ctx.bits, Unpacker.unread, hc, hi]
      rfl
    rw [hu] at h
    obtain ⟨rfl, rfl⟩ := List.cons.inj h
    exact ⟨_, e, ⟨⟨{ buf := v, cnt := 7 }, c.eng.walker, inp, [v], rfl, hi, rfl⟩, le_rfl, hu⟩, rfl⟩
  all_goals
    rw [Ctx.bits, Unpacker.unread, hc, hi] at h
    cases h

/-- With no bit left and `in_eod` raised, `GET_BIT` is `EXH`. -/
theorem getBit_exhausted {c : Ctx} (h : c.bits = []) (he : c.eod = true) : getBit c = .done none c := by
  obtain ⟨hcnt, hinp⟩ := Ctx.bits_eq_nil h
  obtain ⟨hc, -⟩ | ⟨-, v, inp, hi, -⟩ | ⟨-, -, -, e⟩ | ⟨-, -, he', -⟩ := getBit_cases c
  · exact absurd hcnt hc
  · rw [hinp] at hi
    cases hi
  · exact e
  · rw [he] at he'
    cases he'

/-! ## Several bits (R176) -/

/-- `v` with the bits of a list shifted in, first bit first. -/
def shiftBits (v : Byte) (xs : List Bool) : Byte := xs.foldl (fun v b => (v <<< 1) ||| (BitVec.ofBool b).setWidth 8) v

/-- Eight bits shifted in make the byte whose literal they are (R86). -/
theorem shiftBits_literalBits (v : Byte) : shiftBits 0 (literalBits v) = v := by
  revert v
  decide

/-- With `n` bits left, `GET_BITS(n)` gives them. -/
theorem getBitsFrom_read (n : Nat) {c : Ctx} {xs rest : List Bool} (hok : c.eng.unpacker.Ok) (hn : xs.length = n)
    (h : c.bits = xs ++ rest) (v : Byte) (k : Nat) :
    ∃ d, getBitsFrom n v k c = .done { v := shiftBits v xs, k := k + n, exh := false } d ∧ c.ReadsTo xs d ∧
      d.eng.walker = c.eng.walker := by
  induction n generalizing c xs v k with
  | zero =>
    rw [List.length_eq_zero_iff.1 hn]
    exact ⟨c, rfl, .refl hok, rfl⟩
  | succ n ih =>
    obtain ⟨b, xs, rfl⟩ := List.exists_cons_of_length_eq_add_one hn
    obtain ⟨d, e, hd, hw⟩ := getBit_read hok h
    have hn' : xs.length = n := Nat.succ.inj hn
    obtain ⟨d', e', hd', hw'⟩ := ih hd.ok hn' (hd.bits_left h) ((v <<< 1) ||| (BitVec.ofBool b).setWidth 8) (k + 1)
    refine ⟨d', ?_, hd.trans hd', hw'.trans hw⟩
    rw [getBitsFrom, e, Run.done_bind]
    simp only [e', shiftBits, List.foldl_cons, Nat.add_right_comm, Nat.add_assoc]

/-- With fewer bits left and `in_eod` raised, `GET_BITS(n)` takes them all. -/
theorem getBitsFrom_exhausted (n : Nat) {c : Ctx} (hok : c.eng.unpacker.Ok) (hn : c.bits.length < n)
    (he : c.eod = true) (v : Byte) (k : Nat) :
    ∃ g d, getBitsFrom n v k c = .done g d ∧ g.exh = true ∧ c.ReadsTo c.bits d ∧ d.eng.walker = c.eng.walker := by
  induction n generalizing c v k with
  | zero => omega
  | succ n ih =>
    cases hb : c.bits with
    | nil =>
      refine ⟨{ v := v, k := k, exh := true }, c, ?_, rfl, .refl hok, rfl⟩
      rw [getBitsFrom, getBit_exhausted hb he, Run.done_bind]
    | cons b rest =>
      obtain ⟨d, e, hd, hw⟩ := getBit_read hok hb
      have hrest := hd.bits_left hb
      obtain ⟨g, d', e', hg, hd', hw'⟩ := ih hd.ok (by rw [hrest]; rw [hb, List.length_cons] at hn; omega)
        (hd.eod.trans he) ((v <<< 1) ||| (BitVec.ofBool b).setWidth 8) (k + 1)
      refine ⟨g, d', ?_, hg, by rw [← hrest]; exact hd.trans hd', hw'.trans hw⟩
      rw [getBitsFrom, e, Run.done_bind]
      exact e'

end Sys2Proof.Machine
end

section
/-! Paths (41_tree_model.md R137, R138) and the descent that follows them (44_sequencers.md R195). -/

namespace Sys2Proof.Machine

/-! ## The path of a node -/

theorem Tree.pathFrom_acc (fuel : Nat) (t : Tree) (x : Idx) (acc : List Bool) :
    t.pathFrom fuel x acc = t.pathFrom fuel x [] ++ acc := by
  induction fuel generalizing x acc with
  | zero => rfl
  | succ fuel ih =>
    rw [Tree.pathFrom, Tree.pathFrom]
    split
    · rfl
    · rw [ih, ih _ [_], List.append_assoc]
      rfl

/-- Once the walk of `PATH` has steps enough, more steps change nothing. -/
theorem Tree.Shape.pathFrom_fuel {t : Tree} (h : t.Shape) (f g : Nat) {x : Idx} (hx : x < t.next) (hf : t.rank x ≤ f)
    (hg : t.rank x ≤ g) (acc : List Bool) : t.pathFrom f x acc = t.pathFrom g x acc := by
  induction f generalizing g x acc with
  | zero =>
    rw [h.eq_root_of_rank hx (Nat.le_zero.1 hf)]
    cases g <;> simp [Tree.pathFrom]
  | succ f ih =>
    by_cases hr : x = ROOT
    · cases g <;> simp [Tree.pathFrom, hr]
    · have hlt := h.rank_parent_lt hx hr
      obtain _ | g := g
      · omega
      · simp only [Tree.pathFrom, if_neg hr]
        exact ih g (h.parent_alloc hx hr) (by omega) (by omega) _

@[simp] theorem Tree.path_root (t : Tree) : t.path ROOT = [] := rfl

/-- The path of a node is its parent's and then its own branch bit (R137). -/
theorem Tree.Shape.path_of_ne_root {t : Tree} (h : t.Shape) {n : Idx} (hn : n < t.next) (hr : n ≠ ROOT) :
    t.path n = t.path (t.node n).parent ++ [(t.node n).side.branch] := by
  have hlt := h.rank_parent_lt hn hr
  have hle := t.rank_le n
  rw [Tree.path, Tree.path, show MAX_DEPTH = 255 + 1 from rfl, Tree.pathFrom, if_neg hr, Tree.pathFrom_acc,
    h.pathFrom_fuel 255 (255 + 1) (h.parent_alloc hn hr) (by omega) (by omega)]

/-- What holds of the root, and of every node whose parent it holds of, holds of every node. -/
theorem Tree.Shape.induction_down {t : Tree} (h : t.Shape) {P : Idx → Prop} (root : P ROOT)
    (down : ∀ n, n < t.next → n ≠ ROOT → P (t.node n).parent → P n) {n : Idx} (hn : n < t.next) : P n := by
  induction hk : t.rank n using Nat.strong_induction_on generalizing n with
  | _ k ih =>
    by_cases hr : n = ROOT
    · rw [hr]
      exact root
    · exact down n hn hr (ih _ (hk ▸ h.rank_parent_lt hn hr) (h.parent_alloc hn hr) rfl)

/-- A proper initial part of a path is the path of an internal node. -/
theorem Tree.Shape.path_of_isPrefix {t : Tree} (h : t.Shape) {xs : List Bool} {n : Idx} (hn : n < t.next)
    (hp : xs <+: t.path n) (hne : xs ≠ t.path n) : ∃ m, m < t.next ∧ (t.node m).kind = .int ∧ t.path m = xs := by
  refine h.induction_down (P := fun n => xs <+: t.path n → xs ≠ t.path n →
    ∃ m, m < t.next ∧ (t.node m).kind = .int ∧ t.path m = xs) ?_ ?_ hn hp hne
  · intro hp hne
    exact absurd (List.prefix_nil.1 hp) hne
  · intro n hn hr ih hp hne
    rw [h.path_of_ne_root hn hr] at hp hne
    have hp := (List.prefix_concat_iff.1 hp).resolve_left hne
    by_cases e : xs = t.path (t.node n).parent
    · exact ⟨_, h.parent_alloc hn hr, h.parent_int hn hr, e.symm⟩
    · exact ih hp e

/-! ## The descent -/

/-- The child a bit leads to (R161). -/
def Node.child (x : Node) (b : Bool) : Idx := if b then x.right else x.left

theorem Tree.Shape.child_branch {t : Tree} (h : t.Shape) {n : Idx} (hn : n < t.next) (hr : n ≠ ROOT) :
    (t.node (t.node n).parent).child (t.node n).side.branch = n := by
  obtain ⟨-, ⟨hs, hc⟩ | ⟨hs, hc⟩⟩ := h.links.parent n hn hr
  · rw [hs]
    exact hc
  · rw [hs]
    exact hc

theorem Ctx.adv_cur (c : Ctx) (b : Bool) : (c.adv b).eng.walker.cur = (c.eng.tree.node c.eng.walker.cur).child b := rfl

/-- From an internal node the descent reads a bit and goes to the child. -/
theorem descend_step (fuel : Nat) {c d : Ctx} {b : Bool} (hk : c.eng.curKind = .int) (hg : getBit c = .done (some b) d) :
    descend (fuel + 1) c = descend fuel (d.adv b) := by
  rw [descend, if_pos hk, hg]
  rfl

/-- The descent that starts at the root follows the path of a node to it. -/
theorem descend_path {t : Tree} (h : t.Shape) {n : Idx} (hn : n < t.next) {c : Ctx} {rest : List Bool}
    (ht : c.eng.tree = t) (hcur : c.eng.walker.cur = ROOT) (hok : c.eng.unpacker.Ok) (hbits : c.bits = t.path n ++ rest) :
    ∃ d, c.ReadsTo (t.path n) d ∧ d.eng.walker.cur = n ∧
      ∀ fuel, descend (fuel + (t.path n).length) c = descend fuel d := by
  refine h.induction_down (P := fun n => ∀ rest, c.bits = t.path n ++ rest → ∃ d, c.ReadsTo (t.path n) d ∧
    d.eng.walker.cur = n ∧ ∀ fuel, descend (fuel + (t.path n).length) c = descend fuel d) ?_ ?_ hn rest hbits
  · exact fun _ _ => ⟨c, .refl hok, hcur, fun _ => rfl⟩
  · intro n hn hr ih rest hbits
    rw [h.path_of_ne_root hn hr, List.append_assoc] at hbits
    obtain ⟨d, hd, hdcur, hdesc⟩ := ih _ hbits
    obtain ⟨e, hget, he, hw⟩ := getBit_read hd.ok (hd.bits_left hbits)
    have hdt : d.eng.tree = t := hd.tree.trans ht
    have hk : d.eng.curKind = .int := by rw [Engine.curKind, hdt, hdcur, h.parent_int hn hr]
    rw [h.path_of_ne_root hn hr]
    refine ⟨e.adv (t.node n).side.branch, (hd.trans he).setWalker _, ?_, fun fuel => ?_⟩
    · rw [Ctx.adv_cur, he.tree, hdt, hw, hdcur, h.child_branch hn hr]
    · rw [List.length_append, List.length_singleton, Nat.add_comm _ 1, ← Nat.add_assoc, hdesc, descend_step _ hk hget]

/-- On a leaf the descent is done. -/
theorem descend_of_leaf (fuel : Nat) {c : Ctx} (hk : c.eng.curKind ≠ .int) : descend fuel c = .done true c := by
  cases fuel with
  | zero => rw [descend, bne_iff_ne.2 hk]
  | succ fuel => rw [descend, if_neg hk]

/-- On an internal node with no bit left and `in_eod` raised, the descent ends without a leaf. -/
theorem descend_exhausted (fuel : Nat) {c : Ctx} (hk : c.eng.curKind = .int) (hb : c.bits = []) (he : c.eod = true) :
    descend (fuel + 1) c = .done false c := by
  rw [descend, if_pos hk, getBit_exhausted hb he]
  rfl

end Sys2Proof.Machine
end

section
/-! DECSTEP (44_sequencers.md R194, R195): what it does in each state of the decoder, and the statements about it. -/

namespace Sys2Proof.Machine

/-! ## The core of a decode step -/

theorem Engine.overflows_eq_false {g : Engine} (h : g.tree.rootWeight ≠ 2 ^ g.weightBits - 1) : g.overflows = false := by
  simpa [Engine.overflows, Engine.wmax] using h

theorem decstepCore_of_overflow {c : Ctx} (hd : c.eng.decState ≠ .done)
    (ho : c.eng.tree.rootWeight = 2 ^ c.eng.weightBits - 1) : decstepCore c = .fail .weightOvf c := by
  simp [decstepCore, hd, Engine.overflows, Engine.wmax, ho]

theorem decstepCore_of_await {c : Ctx} (hd : c.eng.decState = .await)
    (ho : c.eng.tree.rootWeight ≠ 2 ^ c.eng.weightBits - 1) : decstepCore c = decodeFirst c := by
  simp [decstepCore, hd, Engine.overflows_eq_false ho]

theorem decstepCore_of_decoding {c : Ctx} (hd : c.eng.decState = .decoding)
    (ho : c.eng.tree.rootWeight ≠ 2 ^ c.eng.weightBits - 1) : decstepCore c = decodeNext c := by
  simp [decstepCore, hd, Engine.overflows_eq_false ho]

/-- One byte written (R82). -/
def Ctx.writeByte (c : Ctx) (v : Byte) : Ctx := { c with room := c.room.map (· - 1), sent := c.sent ++ [v] }

theorem decodeByte_done {c : Ctx} (v : Byte) (h : roomFor c.room 1) :
    decodeByte v c = .done { outcome := .byte, byte := v } ((c.writeByte v).observe v) := by
  rw [decodeByte, outWrite_done v c fun e => absurd (h 0 e) (by decide)]
  rfl

/-- With a literal left, the literal after the escape code is read: the sentinel or a byte (R195). -/
theorem decodeLiteral_read {c : Ctx} {v : Byte} {rest : List Bool} (hok : c.eng.unpacker.Ok)
    (hb : c.bits = literalBits v ++ rest) :
    ∃ d, c.ReadsTo (literalBits v) d ∧ d.eng.walker = c.eng.walker ∧ decodeLiteral c =
      if v = 0 then .done { outcome := .endSentinel, byte := 0 } (d.setDecState .done) else decodeByte v d := by
  obtain ⟨d, e, hd, hw⟩ := getBitsFrom_read 8 hok (literalBits_length v) hb 0 0
  rw [shiftBits_literalBits] at e
  refine ⟨d, hd, hw, ?_⟩
  rw [decodeLiteral, getBits, e]
  rfl

/-- With fewer bits left and `in_eod` raised, the decoding ends (R195). -/
theorem decodeLiteral_exhausted {c : Ctx} (hok : c.eng.unpacker.Ok) (hb : c.bits.length < 8) (he : c.eod = true) :
    ∃ d, c.ReadsTo c.bits d ∧ d.eng.walker = c.eng.walker ∧
      decodeLiteral c = .done { outcome := .endExh, byte := 0 } (d.setDecState .done) := by
  obtain ⟨g, d, e, hg, hd, hw⟩ := getBitsFrom_exhausted 8 hok hb he 0 0
  refine ⟨d, hd, hw, ?_⟩
  rw [decodeLiteral, getBits, e, Run.done_bind, if_pos hg]

/-- Where the input starts with the path of a leaf, the descent resolves it, and the walker is cleared (R195). -/
theorem decodeNext_leaf {c : Ctx} {n : Idx} {rest : List Bool} (h : c.eng.tree.Shape) (hn : n < c.eng.tree.next)
    (hk : (c.eng.tree.node n).kind ≠ .int) (hok : c.eng.unpacker.Ok) (hb : c.bits = c.eng.tree.path n ++ rest) :
    ∃ d, c.ReadsTo (c.eng.tree.path n) d ∧ d.eng.walker = Walker.cleared ∧ decodeNext c =
      if (c.eng.tree.node n).kind = .sym then decodeByte (c.eng.tree.node n).symv d else decodeLiteral d := by
  obtain ⟨d, hd, hcur, hdesc⟩ := descend_path (c := c.walkClear) h hn rfl rfl hok hb
  have hdt : d.eng.tree = c.eng.tree := hd.tree
  have hlen : (c.eng.tree.path n).length ≤ c.bitsLeft := by
    rw [c.bitsLeft_eq, hb, List.length_append]
    omega
  obtain ⟨fuel, hf⟩ : ∃ fuel, c.bitsLeft + 1 = fuel + (c.eng.tree.path n).length :=
    Nat.exists_eq_add_of_le' (hlen.trans (Nat.le_succ c.bitsLeft))
  have hkd : d.eng.curKind ≠ .int := by rwa [Engine.curKind, hdt, hcur]
  refine ⟨d.walkClear, hd.of_setWalker.setWalker _, rfl, ?_⟩
  rw [decodeNext, hf, hdesc, descend_of_leaf fuel hkd, Run.done_bind, if_pos rfl, Engine.curKind, hdt, hcur]

/-- Where the input ends inside the path of a node, and `in_eod` is raised, the decoding ends (R195). -/
theorem decodeNext_exhausted {c : Ctx} {n : Idx} (h : c.eng.tree.Shape) (hn : n < c.eng.tree.next)
    (hok : c.eng.unpacker.Ok) (hp : c.bits <+: c.eng.tree.path n) (hne : c.bits ≠ c.eng.tree.path n)
    (he : c.eod = true) :
    ∃ d, c.ReadsTo c.bits d ∧ d.eng.walker = Walker.cleared ∧
      decodeNext c = .done { outcome := .endExh, byte := 0 } (d.setDecState .done) := by
  obtain ⟨m, hm, hk, hpath⟩ := h.path_of_isPrefix hn hp hne
  obtain ⟨d, hd, hcur, hdesc⟩ := descend_path (c := c.walkClear) (rest := []) h hm rfl rfl hok
    (by rw [hpath, List.append_nil]; rfl)
  have hdt : d.eng.tree = c.eng.tree := hd.tree
  have hkd : d.eng.curKind = .int := by rw [Engine.curKind, hdt, hcur, hk]
  have hleft : d.bits = [] := hd.bits_left (by rw [hpath, List.append_nil]; rfl)
  have hlen : c.bitsLeft + 1 = 0 + 1 + (c.eng.tree.path m).length := by
    rw [c.bitsLeft_eq, hpath]
    omega
  rw [← hpath]
  refine ⟨d.walkClear, hd.of_setWalker.setWalker _, rfl, ?_⟩
  rw [decodeNext, hlen, hdesc, descend_exhausted 0 hkd hleft (hd.eod.trans he)]
  rfl

/-! ## Whole steps -/

/-- A command that has moved nothing leaves the streams as they are. -/
theorem State.withStreams_ctx (s : State) : s.withStreams s.ctx = s := by
  simp [State.withStreams, State.ctx]

/-- A command that completes at once only answers. -/
theorem State.complete_ctx (s : State) (r : Word) : s.complete r s.ctx = s.respond s.eng r := by
  rw [State.complete, State.withStreams_ctx]
  rfl

/-- A command that fails at once only fails (R233). -/
theorem State.failWith_ctx (s : State) (e : ErrCode) (w : Cmd) : s.failWith e w s.ctx = s.afterFailure e w := by
  rw [State.failWith, State.withStreams_ctx, errorWord_eq, Engine.takeFailure, errorWord_eq]
  rfl

theorem exec_decstep_of_done {s : State} {r : Stepped} {c : Ctx} (h : decstepCore s.ctx = .done r c) :
    exec .decstep s = .next (s.complete (decstepResponse r.outcome.number r.byte) c) := by
  rw [exec_decstep, issue_eq, decstepBody, h]
  rfl

/-- The response to a decoded byte is the byte: the outcome is 0 (R194). -/
theorem decstepResponse_byte (v : Byte) : decstepResponse DecOutcome.byte.number v = BitVec.ofNat 32 v.toNat := by
  revert v
  decide

section
variable {s : State} {d : Ctx} {xs : List Bool} (h : s.ctx.ReadsTo xs d)
include h

/-- The state after a step that has read some bits and written nothing. -/
theorem Ctx.ReadsTo.complete (r : Word) : s.complete r d = ({ s with inBytes := d.inp } : State).respond
    { s.eng with walker := d.eng.walker, unpacker := d.eng.unpacker } r := by
  obtain ⟨⟨u, w, inp, bs, rfl, -, -⟩, -, -⟩ := h
  simp [State.complete, State.withStreams, State.respond, Ctx.reading]

/-- The state after a step that has read some bits and ended the decoding. -/
theorem Ctx.ReadsTo.complete_done (r : Word) : s.complete r (d.setDecState .done) =
    ({ s with inBytes := d.inp } : State).respond
      { s.eng with walker := d.eng.walker, unpacker := d.eng.unpacker, decState := .done } r := by
  obtain ⟨⟨u, w, inp, bs, rfl, -, -⟩, -, -⟩ := h
  simp [State.complete, State.withStreams, State.respond, Ctx.reading, Ctx.setDecState]

/-- The state after a step that has read some bits and decoded a byte from them. -/
theorem Ctx.ReadsTo.complete_byte (v : Byte) (r : Word) : s.complete r ((d.writeByte v).observe v) =
    ({ s with inBytes := d.inp, outBytes := s.outBytes ++ [v], outRoom := roomAfter s.outRoom 1 } : State).respond
      { s.eng with
        tree := (s.eng.tree.observe v).tree
        walker := { cur := 0, res := false, isSym := false, sym := 0 }
        unpacker := d.eng.unpacker } r := by
  obtain ⟨⟨u, w, inp, bs, rfl, -, -⟩, -, -⟩ := h
  rfl

/-- The state after a step that has decoded the first byte. -/
theorem Ctx.ReadsTo.complete_firstByte (v : Byte) (r : Word) :
    s.complete r (((d.writeByte v).observe v).setDecState .decoding) =
      ({ s with inBytes := d.inp, outBytes := s.outBytes ++ [v], outRoom := roomAfter s.outRoom 1 } : State).respond
        { s.eng with
          tree := (s.eng.tree.observe v).tree
          walker := { cur := 0, res := false, isSym := false, sym := 0 }
          unpacker := d.eng.unpacker
          decState := .decoding } r := by
  obtain ⟨⟨u, w, inp, bs, rfl, -, -⟩, -, -⟩ := h
  rfl

/-- What is said of the unpacker and of the input after a step. -/
theorem Ctx.ReadsTo.input_left {rest : List Bool} (hin : s.inputBits = xs ++ rest) :
    d.eng.unpacker.Ok ∧ d.eng.unpacker.buf = s.lastFetched d.inp ∧ d.eng.unpacker.unread ++ bytesBits d.inp = rest :=
  ⟨h.ok, h.lastFetched, h.bits_left hin⟩

/-- What is said of them after a step that has read everything. -/
theorem Ctx.ReadsTo.input_gone (hin : s.inputBits = xs) :
    d.inp = [] ∧ d.eng.unpacker.cnt = 0 ∧ d.eng.unpacker.buf = s.lastFetched [] := by
  obtain ⟨hc, hi⟩ := Ctx.bits_eq_nil (h.bits_left (rest := []) (by rw [List.append_nil]; exact hin))
  exact ⟨hi, hc, hi ▸ h.lastFetched⟩

end

/-- Settles O47: `GET_BITS(8)` gives the byte of a literal (R195). -/
theorem decstepTakesTheFirstByteRaw : Obligations.DecstepTakesTheFirstByteRaw := by
  intro s v rest hst ho hok hroom hin
  obtain ⟨d, e, hd, -⟩ := getBitsFrom_read (c := s.ctx) 8 hok (literalBits_length v) hin 0 0
  rw [shiftBits_literalBits] at e
  have hcore : decstepCore s.ctx =
      .done { outcome := .byte, byte := v } (((d.writeByte v).observe v).setDecState .decoding) := by
    rw [decstepCore_of_await hst ho, decodeFirst, getBits, e, Run.done_bind, if_neg Bool.false_ne_true,
      decodeByte_done v (hd.room ▸ hroom)]
    rfl
  refine ⟨d.eng.unpacker, d.inp, ?_, hd.input_left hin⟩
  rw [exec_decstep_of_done hcore, hd.complete_firstByte, decstepResponse_byte]

/-- Where the input starts with the escape code, a step in DECODING clears the walker and reads a literal (R195). -/
theorem decstepCore_escape {c : Ctx} {rest : List Bool} (hst : c.eng.decState = .decoding) (hinv : c.eng.tree.Inv)
    (ho : c.eng.tree.rootWeight ≠ 2 ^ c.eng.weightBits - 1) (hok : c.eng.unpacker.Ok)
    (hb : c.bits = c.eng.tree.path c.eng.tree.esc ++ rest) :
    ∃ d, c.ReadsTo (c.eng.tree.path c.eng.tree.esc) d ∧ d.eng.walker = Walker.cleared ∧
      decstepCore c = decodeLiteral d := by
  have hS := hinv.shape
  have hk := (hS.escKind _).2 rfl
  obtain ⟨d, hd, hw, e⟩ := decodeNext_leaf hS hS.escAllocated (by simp [hk]) hok hb
  refine ⟨d, hd, hw, ?_⟩
  rw [decstepCore_of_decoding hst ho, e, if_neg (by simp [hk])]

/-- Settles O48: the descent resolves the leaf whose code the input starts with; a symbol leaf gives its symbol, and
the escape leaf the literal behind it. -/
theorem decstepDecodesACodeword : Obligations.DecstepDecodesACodeword := by
  intro s v rest hst hinv ho hok hroom hin
  obtain ⟨xs, d, hd, hcore, hxs⟩ : ∃ xs d, s.ctx.ReadsTo xs d ∧ decstepCore s.ctx = decodeByte v d ∧
      s.inputBits = xs ++ rest := by
    obtain ⟨hseen, hin⟩ | ⟨hv, hin⟩ := hin
    · obtain ⟨hk, hsym⟩ := hinv.spec.symbols.seen v hseen
      obtain ⟨d, hd, -, e⟩ := decodeNext_leaf (c := s.ctx) hinv.shape (hinv.shape.alloc_of_kind (by simp [hk]))
        (by simp [hk]) hok hin
      refine ⟨_, d, hd, ?_, hin⟩
      rw [decstepCore_of_decoding hst ho, e]
      exact (if_pos hk).trans (by rw [show (s.ctx.eng.tree.node _).symv = v from hsym])
    · have hin' := hin
      rw [List.append_assoc] at hin'
      obtain ⟨c, hc, -, e⟩ := decstepCore_escape (c := s.ctx) hst hinv ho hok hin'
      obtain ⟨d, hd, -, e'⟩ := decodeLiteral_read hc.ok (hc.bits_left hin')
      exact ⟨_, d, hc.trans hd, by rw [e, e', if_neg hv], hin⟩
  rw [decodeByte_done v (hd.room ▸ hroom)] at hcore
  refine ⟨d.eng.unpacker, d.inp, ?_, hd.input_left hxs⟩
  rw [exec_decstep_of_done hcore, hd.complete_byte, decstepResponse_byte]

/-- Settles O49: after the escape code, the literal of 0 is the sentinel (R201). -/
theorem decstepStopsAtTheSentinel : Obligations.DecstepStopsAtTheSentinel := by
  intro s rest hst hinv ho hok hin
  have hin' := hin
  rw [List.append_assoc] at hin'
  obtain ⟨c, hc, hw, e⟩ := decstepCore_escape (c := s.ctx) hst hinv ho hok hin'
  obtain ⟨d, hd, hw', e'⟩ := decodeLiteral_read (v := 0) hc.ok (hc.bits_left hin')
  rw [if_pos rfl, ← e] at e'
  have hr := hc.trans hd
  refine ⟨d.eng.unpacker, d.inp, ?_, hr.input_left hin⟩
  rw [exec_decstep_of_done e', hr.complete_done, hw', hw]
  rfl

/-- A step in DECODING that runs out of input, from the core of the step. -/
theorem exec_decstep_exhausted {s : State} {d : Ctx} {xs : List Bool} (hd : s.ctx.ReadsTo xs d)
    (hw : d.eng.walker = Walker.cleared) (hin : s.inputBits = xs)
    (hcore : decstepCore s.ctx = .done { outcome := .endExh, byte := 0 } (d.setDecState .done)) :
    ∃ u : Unpacker, u.cnt = 0 ∧ u.buf = s.lastFetched [] ∧
      exec .decstep s = .next (({ s with inBytes := [] } : State).respond
        { s.eng with
          walker := { cur := 0, res := false, isSym := false, sym := 0 }
          unpacker := u
          decState := .done }
        0x100) := by
  obtain ⟨hi, hc, hb⟩ := hd.input_gone hin
  refine ⟨d.eng.unpacker, hc, hb, ?_⟩
  rw [exec_decstep_of_done hcore, hd.complete_done, hw, hi]
  rfl

/-- Settles O50: DONE is tested first and the overflow next (R237); else the input ends inside the first byte, inside a
code, or inside the literal after the escape code. -/
theorem decstepEndsWithoutAByte : Obligations.DecstepEndsWithoutAByte := by
  refine fun s => ⟨fun hst => ?_, fun hst ho => ?_, fun hst ho hok hlen he => ?_, fun hst hinv ho hok he hin => ?_⟩
  · rw [exec_decstep_of_done (decstepCore_of_done (c := s.ctx) hst), State.complete_ctx]
    rfl
  · have hcore : decstepCore s.ctx = .fail .weightOvf s.ctx := decstepCore_of_overflow hst ho
    rw [exec_decstep, issue_eq, decstepBody, hcore, Run.fail_bind, State.settle_fail, State.failWith_ctx]
    rfl
  · obtain ⟨g, d, e, hg, hd, hw⟩ := getBitsFrom_exhausted (c := s.ctx) 8 hok hlen he 0 0
    have hcore : decstepCore s.ctx = .done { outcome := .endExh, byte := 0 } d := by
      rw [decstepCore_of_await hst ho, decodeFirst, getBits, e, Run.done_bind, if_pos hg]
    obtain ⟨hi, hc, hb⟩ := hd.input_gone rfl
    refine ⟨d.eng.unpacker, hc, hb, ?_⟩
    rw [exec_decstep_of_done hcore, hd.complete, hw, hi]
    rfl
  · obtain ⟨n, hn, hp, hne⟩ | ⟨bits, hlen, hin⟩ := hin
    · obtain ⟨d, hd, hw, e⟩ := decodeNext_exhausted (c := s.ctx) hinv.shape hn hok hp hne he
      exact exec_decstep_exhausted hd hw rfl ((decstepCore_of_decoding (c := s.ctx) hst ho).trans e)
    · obtain ⟨c, hc, hw, e⟩ := decstepCore_escape (c := s.ctx) hst hinv ho hok hin
      have hbits := hc.bits_left hin
      obtain ⟨d, hd, hw', e'⟩ := decodeLiteral_exhausted hc.ok (by rwa [hbits]) (hc.eod.trans he)
      exact exec_decstep_exhausted (hc.trans hd) (hw'.trans hw) (by rw [hbits, hin]; rfl) (e.trans e')

end Sys2Proof.Machine
end

section
/-! The host's moves, one equation each, and the statements about the step and the ports (20_memory.md R79 to R84, R96
to R99). -/

namespace Sys2Proof.Machine

/-! ## The host's next move -/

section
variable {s : State} {rest : List HostMove}

theorem hostMove_nil (h : s.host = []) : hostMove s = .next s := by
  rw [hostMove, h]

theorem hostMove_command {w : Cmd} (h : s.host = .command w :: rest) :
    hostMove s = if s.cmdReady then acceptWord w { s with host := rest } else .next s := by
  rw [hostMove, h]

theorem hostMove_offer {b : Byte} (h : s.host = .offer b :: rest) :
    hostMove s = offerByte b { s with host := rest } := by
  rw [hostMove, h]

theorem hostMove_raiseEod (h : s.host = .raiseEod :: rest) :
    hostMove s = .next { s with host := rest, inEod := true, eodMayFall := false } := by
  rw [hostMove, h]

theorem hostMove_lowerEod (h : s.host = .lowerEod :: rest) : hostMove s = lowerInEod { s with host := rest } := by
  rw [hostMove, h]

theorem hostMove_accept {room : Option Nat} (h : s.host = .accept room :: rest) :
    hostMove s = .next { s with host := rest, outRoom := room } := by
  rw [hostMove, h]

theorem hostMove_read {a : BitVec 16} (h : s.host = .read a :: rest) :
    hostMove s = .next (readRegister a { s with host := rest }) := by
  rw [hostMove, h]

theorem hostMove_wait (h : s.host = .wait :: rest) : hostMove s = .next { s with host := rest } := by
  rw [hostMove, h]

theorem hostMove_rstWithin {w : Cmd} {ins outs : Nat} (h : s.host = .rstWithin (some w) ins outs :: rest) :
    hostMove s = if s.cmdReady then .next (({ s with host := rest } : State).abandonWord w ins outs) else .next s := by
  rw [hostMove, h]

end

/-! ## Commands (R79, R99) -/

theorem State.cmdReady_of_idle {s : State} (h : s.hold = none) : s.cmdReady = true := by
  simp [State.cmdReady, State.busy, h]

theorem State.cmdReady_of_hold {s : State} (h : s.hold.isSome) : s.cmdReady = false := by
  simp [State.cmdReady, State.busy, h]

/-- A step of an idle engine is the host's move. -/
theorem step_of_idle {s : State} (h : s.hold = none) : step s = hostMove s :=
  step_hostMove fun _ hk => nomatch h.symm.trans hk

/-- Settles O10: a ready engine makes the host's move, which accepts the word. -/
theorem stepRunsTheDecodedCommand : Obligations.StepRunsTheDecodedCommand := by
  intro s w rest i hidle hw hd
  rw [step_of_idle hidle, hostMove_command hw, if_pos (State.cmdReady_of_idle hidle), acceptWord, hd]

/-- Settles O12: the step is the host's move, and a word is transferred by a ready engine only. -/
theorem waitingEngineKeepsAllState : Obligations.WaitingEngineKeepsAllState := by
  intro s hwait
  rw [step_hostMove hwait]
  refine ⟨hostMove_nil, fun w rest hw hb => ?_, fun w ins outs rest hw hb => ?_, fun rest => hostMove_wait⟩
  · rw [hostMove_command hw, State.cmdReady_of_hold hb, if_neg Bool.false_ne_true]
  · rw [hostMove_rstWithin hw, State.cmdReady_of_hold hb, if_neg Bool.false_ne_true]

/-! ## Resuming (R98) -/

/-- A command that holds starts no run: INIT does not wait. -/
theorem startsRun_of_wait {i : Instr} {c d : Ctx} {p : Port} (h : bodyOf i c = .wait p d) : startsRun i = false := by
  cases i with
  | init mask => cases h
  | _ => rfl

/-- The state a command that holds leaves: it starts no run, so it is the wait alone. -/
theorem exec_of_wait {i : Instr} {s : State} {p : Port} {c : Ctx} (h : bodyOf i s.ctx = .wait p c) :
    exec i s = .next (s.waitOn i p c) := by
  rw [exec_eq, h, startsRun_of_wait h, State.settle_wait]
  simp [State.noteNewRun]

/-- Taking a holding command back to its start gives the state it was accepted in, with what the host has done since
(log entry 5): the bytes taken are put back in front, and the bytes written are withdrawn. -/
theorem State.rewind_waitOn {s : State} {i : Instr} {p : Port} {c : Ctx} (hidle : s.hold = none) (hs : s.ctx.Streams c)
    (bytes : List Byte) (eod : Bool) (room : Option Nat) :
    ({ s.waitOn i p c with inBytes := c.inp ++ bytes, inEod := eod, outRoom := room } : State).rewind
        { instr := i, port := p, start := s.eng, taken := c.taken, sent := c.sent.length } =
      { s with inBytes := s.inBytes ++ bytes, inEod := eod, outRoom := room.map (· + c.sent.length) } := by
  have hin : c.taken ++ c.inp = s.inBytes := hs.input
  simp [State.rewind, State.waitOn, State.withStreams, ← List.append_assoc, hin, hidle]

/-- A lifted hold goes on unless the host asserts `rst` next. -/
theorem step_of_lifted {s : State} {h : Hold} (hh : s.hold = some h) (hl : s.lifted h = true)
    (hr : s.resetNext = false) : step s = exec h.instr (s.rewind h) := by
  rw [step, hh]
  exact if_pos (by simp [hl, hr])

theorem State.resetNext_eq_false {s : State} (h1 : ∀ rest, s.host ≠ .rst :: rest)
    (h2 : ∀ ins outs rest, s.host ≠ .rstWithin none ins outs :: rest) : s.resetNext = false := by
  unfold State.resetNext
  split
  · next rest hh => exact absurd hh (h1 rest)
  · next ins outs rest hh => exact absurd hh (h2 ins outs rest)
  · rfl

/-- Settles O13: the hold records what the run from the start is determined by. -/
theorem resumedCommandMatchesUninterruptedRun : Obligations.ResumedCommandMatchesUninterruptedRun := by
  intro i s t h bytes eod room hidle he hh _ hrst hwithin t' hl
  obtain ⟨c, hb, hk, -⟩ := exec_hold he hh
  rw [exec_of_wait hb] at he
  obtain rfl := Host.Outcome.next.inj he
  have hs : s.ctx.Streams c := by simpa [hb] using bodyOf_streams i s.ctx
  rw [step_of_lifted (s := t') hh hl (State.resetNext_eq_false (s := t') hrst hwithin), hk]
  exact congrArg (exec i) (State.rewind_waitOn hidle hs bytes eod room)

/-! ## The stream ports (R80 to R82, R96, R97) -/

/-- The commands that read input are those four (45_control.md R228). -/
theorem readsInput_iff (i : Instr) :
    readsInput i = true ↔ i = .encrun ∨ i = .decrun ∨ i = .decstep ∨ ∃ n, i = .getbits n := by
  cases i <;> simp [readsInput]

/-- `in_eod` may not fall while a command that reads input holds (R265). -/
theorem State.eodFree_of_reads {s : State} {h : Hold} (hh : s.hold = some h) (hr : readsInput h.instr = true) :
    s.eodFree = false := by
  simp [State.eodFree, hh, hr]

/-- It may fall once a new run has started, if no command that reads input holds (R97 (b)). -/
theorem State.eodFree_of_mayFall {s : State} (hm : s.eodMayFall = true)
    (hh : ∀ h, s.hold = some h → readsInput h.instr = false) : s.eodFree = true := by
  simpa [State.eodFree, hm, Option.any_eq_false] using hh

theorem lowerInEod_of_low {s : State} (he : s.inEod = false) : lowerInEod s = .next s := by
  simp [lowerInEod, he]

theorem lowerInEod_of_free {s : State} (he : s.inEod = true) (hf : s.eodFree = true) :
    lowerInEod s = .next { s with inEod := false } := by
  simp [lowerInEod, he, hf]

theorem lowerInEod_of_breach {s : State} (he : s.inEod = true) (hf : s.eodFree = false) :
    lowerInEod s = .fault .eodLoweredInRun := by
  simp [lowerInEod, he, hf]

/-- Settles O14: each move by its equation; lowering `in_eod` by whether the host is free to. -/
theorem contractBreachStopsByName : Obligations.ContractBreachStopsByName := by
  intro s rest hwait
  rw [step_hostMove hwait]
  refine ⟨fun b hm he => ?_, fun b hm he => ?_, hostMove_raiseEod, fun room => hostMove_accept, fun hm he => ?_,
    fun hm he hf => ?_, fun hm he hf hh => ?_, fun h hm he hh hi => ?_, fun h hm he hf hh h1 h2 h3 h4 => ?_⟩
  · rw [hostMove_offer hm, offerByte, if_neg (by simp [he])]
  · rw [hostMove_offer hm, offerByte, if_pos he]
  · rw [hostMove_lowerEod hm]
    exact lowerInEod_of_low he
  · rw [hostMove_lowerEod hm]
    exact lowerInEod_of_breach he (by simp [State.eodFree, hf])
  · rw [hostMove_lowerEod hm]
    exact lowerInEod_of_free he (State.eodFree_of_mayFall hf fun _ hk => nomatch hh.symm.trans hk)
  · rw [hostMove_lowerEod hm]
    exact lowerInEod_of_breach he (State.eodFree_of_reads hh ((readsInput_iff _).2 hi))
  · rw [hostMove_lowerEod hm]
    refine lowerInEod_of_free he (State.eodFree_of_mayFall hf fun k hk => ?_)
    obtain rfl := Option.some.inj (hh.symm.trans hk)
    rw [← Bool.not_eq_true, readsInput_iff]
    simp [h1, h2, h3, h4]

/-! ## The register read port (R83, R84) -/

/-- The addresses defined while BUSY are 0 to 3 (R84). -/
theorem definedWhileBusy_iff (a : BitVec 16) : definedWhileBusy a = true ↔ a.toNat ≤ 3 := by
  simp only [definedWhileBusy, Bool.or_eq_true, beq_iff_eq]
  bv_omega

theorem State.readPort_of_idle {s : State} (h : s.busy = false) (a : BitVec 16) : s.readPort a = s.regWord a := by
  simp [State.readPort, State.readsOpen, h]

theorem State.readPort_of_defined (s : State) {a : BitVec 16} (h : a.toNat ≤ 3) : s.readPort a = s.regWord a := by
  simp [State.readPort, State.readsOpen, (definedWhileBusy_iff a).2 h]

theorem State.readPort_of_open {s : State} {a : BitVec 16} (h : s.busy = true) (ha : 4 ≤ a.toNat) :
    s.readPort a = Config.busyRead s.draws a := by
  have hd : definedWhileBusy a = false := by
    rw [← Bool.not_eq_true, definedWhileBusy_iff]
    omega
  simp [State.readPort, State.readsOpen, h, hd]

/-- Settles O16: the three cases of the port. -/
theorem busyReadsDefineFourRegisters : Obligations.BusyReadsDefineFourRegisters :=
  fun s a => ⟨fun h => State.readPort_of_idle h a, s.readPort_of_defined, State.readPort_of_open⟩

/-- A read that is defined does not depend on the reads made before. -/
theorem State.readPort_readRegister (s : State) (a : BitVec 16) {b : BitVec 16} (h : s.busy = false ∨ b.toNat ≤ 3) :
    (readRegister a s).readPort b = s.readPort b := by
  obtain h | h := h
  · rw [State.readPort_of_idle h, State.readPort_of_idle (s := readRegister a s) h]
    rfl
  · rw [State.readPort_of_defined _ h, State.readPort_of_defined _ h]
    rfl

/-- Settles O15: the step records the word read, and nothing that a defined read shows. -/
theorem registerReadHasNoSideEffect : Obligations.RegisterReadHasNoSideEffect := by
  intro s a rest hm hwait
  refine ⟨_, (step_hostMove hwait).trans (hostMove_read hm), rfl, rfl, rfl, rfl, rfl, rfl, rfl, rfl, fun b hb => ?_⟩
  exact State.readPort_readRegister { s with host := rest } a hb

end Sys2Proof.Machine
end

section
/-! The register read map (20_memory.md R73 to R78): each word as a number, and which address shows which word. -/

namespace Sys2Proof.Machine

/-! ## Words as numbers -/

/-- A field put above another adds its value times the weight of its lowest bit. -/
theorem toNat_append_eq {m n : Nat} (x : BitVec m) (y : BitVec n) : (x ++ y).toNat = x.toNat * 2 ^ n + y.toNat := by
  rw [BitVec.toNat_append, ← Nat.shiftLeft_add_eq_or_of_lt y.isLt, Nat.shiftLeft_eq]

/-- A word is the number its fields make. -/
theorem Word.eq_ofNat {w : Word} {n : Nat} (h : w.toNat = n) : w = BitVec.ofNat 32 n := by
  rw [← h, BitVec.ofNat_toNat, BitVec.setWidth_eq]

theorem paramWord_eq (g : Engine) : paramWord g = BitVec.ofNat 32 (512 * 2 ^ 16 + g.weightBits % 64) := by
  refine Word.eq_ofNat ?_
  simp only [paramWord, toNat_append_eq, BitVec.toNat_ofNat]
  omega

theorem ctrlWord_eq (g : Engine) : ctrlWord g = BitVec.ofNat 32 g.termEn.toNat := by
  refine Word.eq_ofNat ?_
  simp only [ctrlWord, toNat_append_eq, BitVec.toNat_ofNat, BitVec.toNat_ofBool]
  omega

theorem errCmdWord_eq (g : Engine) : errCmdWord g = BitVec.ofNat 32 g.error.cmd.toNat := by
  refine Word.eq_ofNat ?_
  simp only [errCmdWord, toNat_append_eq, BitVec.toNat_ofNat]
  omega

theorem treeWord_eq (g : Engine) :
    treeWord g = BitVec.ofNat 32 (g.tree.next.toNat * 2 ^ 16 + g.tree.esc.toNat) := by
  refine Word.eq_ofNat ?_
  simp only [treeWord, toNat_append_eq, BitVec.toNat_ofNat]
  omega

theorem walkWord_eq (g : Engine) : walkWord g = BitVec.ofNat 32 (g.walker.sym.toNat * 2 ^ 24 +
    g.walker.isSym.toNat * 2 ^ 17 + g.walker.res.toNat * 2 ^ 16 + g.walker.cur.toNat) := by
  refine Word.eq_ofNat ?_
  simp only [walkWord, toNat_append_eq, BitVec.toNat_ofNat, BitVec.toNat_ofBool]
  omega

theorem packWord_eq (g : Engine) :
    packWord g = BitVec.ofNat 32 (g.packer.cnt.toNat * 2 ^ 8 + g.packer.buf.toNat) := by
  refine Word.eq_ofNat ?_
  simp only [packWord, toNat_append_eq, BitVec.toNat_ofNat]
  omega

theorem unpackWord_eq (g : Engine) :
    unpackWord g = BitVec.ofNat 32 (g.unpacker.cnt.toNat * 2 ^ 8 + g.unpacker.buf.toNat) := by
  refine Word.eq_ofNat ?_
  simp only [unpackWord, toNat_append_eq, BitVec.toNat_ofNat]
  omega

theorem codeLenWord_eq (g : Engine) : codeLenWord g = BitVec.ofNat 32 g.code.len.toNat := by
  refine Word.eq_ofNat ?_
  simp only [codeLenWord, toNat_append_eq, BitVec.toNat_ofNat]
  omega

/-- Bit `31 - j` of `CODEW[k]` is entry `32k + j` of the code buffer (R39). -/
theorem codeWord_getLsbD (g : Engine) {k j : Nat} (hj : j < 32) :
    (codeWord g k).getLsbD (31 - j) = g.code.buf.getLsbD (32 * k + j) := by
  rw [codeWord, BitVec.getLsbD_reverse, BitVec.getMsbD_eq_getLsbD, BitVec.getLsbD_extractLsb',
    show 32 - 1 - (31 - j) = j by omega]
  simp [hj, show 31 - j < 32 by omega]

theorem nodeWord_link (x : Node) : nodeWord x 1 = BitVec.ofNat 32 (x.symv.toNat * 2 ^ 24 +
    x.kind.number.toNat * 2 ^ 16 + x.side.number.toNat * 2 ^ 12 + x.parent.toNat) := by
  refine Word.eq_ofNat ?_
  simp only [nodeWord, toNat_append_eq, BitVec.toNat_ofNat]
  omega

theorem nodeWord_children (x : Node) : nodeWord x 2 = BitVec.ofNat 32 (x.right.toNat * 2 ^ 16 + x.left.toNat) := by
  refine Word.eq_ofNat ?_
  simp only [nodeWord, toNat_append_eq, BitVec.toNat_ofNat]
  omega

theorem nodeWord_pos (x : Node) : nodeWord x 3 = BitVec.ofNat 32 x.pos.toNat := by
  refine Word.eq_ofNat ?_
  simp only [nodeWord, toNat_append_eq, BitVec.toNat_ofNat]
  omega

theorem ordWord_eq (n : Idx) : (0#22 ++ n : Word) = BitVec.ofNat 32 n.toNat := by
  refine Word.eq_ofNat ?_
  simp only [toNat_append_eq, BitVec.toNat_ofNat]
  omega

theorem symWord_eq (e : SymEntry) : symWord e = BitVec.ofNat 32 (e.leaf.toNat * 2 ^ 16 + e.seen.toNat) := by
  refine Word.eq_ofNat ?_
  simp only [symWord, toNat_append_eq, BitVec.toNat_ofNat, BitVec.toNat_ofBool]
  omega

/-! ## Which address shows which word (R73) -/

theorem addr_toNat {a : Nat} (h : a < 0x10000) : (BitVec.ofNat 16 a).toNat = a := by
  rw [BitVec.toNat_ofNat]
  exact Nat.mod_eq_of_lt h

section
variable (s : State)

theorem State.regWord_code {k : Nat} (hk : k < 8) : s.regWord (BitVec.ofNat 16 (0x0010 + k)) = codeWord s.eng k := by
  simp only [State.regWord, addr_toNat (show 0x0010 + k < 0x10000 by omega)]
  repeat rw [if_neg (by omega)]
  rw [if_pos (by omega), Nat.add_sub_cancel_left]

theorem State.regWord_node {n j : Nat} (hn : n ≤ 512) (hj : j < 4) :
    s.regWord (BitVec.ofNat 16 (0x1000 + 4 * n + j)) = nodeWord (s.eng.tree.node (BitVec.ofNat 10 n)) j := by
  simp only [State.regWord, addr_toNat (show 0x1000 + 4 * n + j < 0x10000 by omega)]
  repeat rw [if_neg (by omega)]
  rw [if_pos (by omega), show (0x1000 + 4 * n + j - 0x1000) / 4 = n by omega,
    show (0x1000 + 4 * n + j - 0x1000) % 4 = j by omega]

theorem State.regWord_ord {k : Nat} (hk : k ≤ 512) :
    s.regWord (BitVec.ofNat 16 (0x2000 + k)) = 0#22 ++ s.eng.tree.ordAt (BitVec.ofNat 10 k) := by
  simp only [State.regWord, addr_toNat (show 0x2000 + k < 0x10000 by omega)]
  repeat rw [if_neg (by omega)]
  rw [if_pos (by omega), Nat.add_sub_cancel_left]

theorem State.regWord_sym (c : Byte) :
    s.regWord (BitVec.ofNat 16 (0x2400 + c.toNat)) = symWord (s.eng.tree.symEntry c) := by
  have hc := c.isLt
  simp only [State.regWord, addr_toNat (show 0x2400 + c.toNat < 0x10000 by omega)]
  repeat rw [if_neg (by omega)]
  rw [if_pos (by omega), Nat.add_sub_cancel_left, BitVec.ofNat_toNat, BitVec.setWidth_eq]

theorem State.regWord_unmapped {a : Nat} (h0 : 0x000A < a) (ha : a < 0x10000) (h1 : ¬ (0x0010 ≤ a ∧ a ≤ 0x0017))
    (h2 : ¬ (0x1000 ≤ a ∧ a ≤ 0x1803)) (h3 : ¬ (0x2000 ≤ a ∧ a ≤ 0x2200)) (h4 : ¬ (0x2400 ≤ a ∧ a ≤ 0x24FF)) :
    s.regWord (BitVec.ofNat 16 a) = 0 := by
  simp only [State.regWord, addr_toNat ha, if_neg h1, if_neg h2, if_neg h3, if_neg h4]
  repeat rw [if_neg (by omega)]

end

/-- Settles O18: the word each address shows, and the number its fields make. -/
theorem registerMapShowsEachWord : Obligations.RegisterMapShowsEachWord := by
  refine ⟨by decide, fun s => ⟨rfl, paramWord_eq s.eng, rfl, ctrlWord_eq s.eng, rfl, errCmdWord_eq s.eng,
    treeWord_eq s.eng, walkWord_eq s.eng, packWord_eq s.eng, unpackWord_eq s.eng, codeLenWord_eq s.eng,
    fun k j hk hj => ?_, fun n hn => ⟨s.regWord_node hn (j := 0) (by decide), ?_, ?_, ?_⟩, fun k hk => ?_, fun c => ?_,
    fun a => s.regWord_unmapped⟩⟩
  · rw [s.regWord_code hk, codeWord_getLsbD s.eng hj]
  · rw [s.regWord_node hn (by decide), nodeWord_link]
  · rw [s.regWord_node hn (by decide), nodeWord_children]
  · rw [s.regWord_node hn (by decide), nodeWord_pos]
  · rw [s.regWord_ord hk, ordWord_eq]
  · rw [s.regWord_sym, symWord_eq]

end Sys2Proof.Machine
end

section
/-! Holding on the input (20_memory.md R81, 95_test_vectors.md B14): GETBITS and DECSTEP with too few bits left and
`in_eod` low. -/

namespace Sys2Proof.Machine

/-! ## Reading with too few bits left -/

/-- With no bit left and `in_eod` low, `GET_BIT` waits. -/
theorem getBit_waits {c : Ctx} (h : c.bits = []) (he : c.eod = false) : getBit c = .wait .input c := by
  obtain ⟨hcnt, hinp⟩ := Ctx.bits_eq_nil h
  obtain ⟨hc, -⟩ | ⟨-, v, inp, hi, -⟩ | ⟨-, -, he', -⟩ | ⟨-, -, -, e⟩ := getBit_cases c
  · exact absurd hcnt hc
  · exact nomatch hinp.symm.trans hi
  · exact nomatch he.symm.trans he'
  · exact e

/-- With fewer bits left and `in_eod` low, `GET_BITS(n)` takes them all and waits. -/
theorem getBitsFrom_waits (n : Nat) {c : Ctx} (hok : c.eng.unpacker.Ok) (hn : c.bits.length < n) (he : c.eod = false)
    (v : Byte) (k : Nat) :
    ∃ d, getBitsFrom n v k c = .wait .input d ∧ c.ReadsTo c.bits d ∧ d.eng.walker = c.eng.walker := by
  induction n generalizing c v k with
  | zero => omega
  | succ n ih =>
    cases hb : c.bits with
    | nil =>
      refine ⟨c, ?_, .refl hok, rfl⟩
      rw [getBitsFrom, getBit_waits hb he, Run.wait_bind]
    | cons b rest =>
      obtain ⟨d, e, hd, hw⟩ := getBit_read hok hb
      have hrest := hd.bits_left hb
      have hlen : d.bits.length < n := by
        rw [hrest]
        rw [hb, List.length_cons] at hn
        omega
      obtain ⟨d', e', hd', hw'⟩ := ih hd.ok hlen (hd.eod.trans he) ((v <<< 1) ||| (BitVec.ofBool b).setWidth 8) (k + 1)
      refine ⟨d', ?_, by rw [← hrest]; exact hd.trans hd', hw'.trans hw⟩
      rw [getBitsFrom, e, Run.done_bind]
      exact e'

/-- On an internal node with no bit left and `in_eod` low, the descent waits. -/
theorem descend_waits (fuel : Nat) {c : Ctx} (hk : c.eng.curKind = .int) (hb : c.bits = []) (he : c.eod = false) :
    descend (fuel + 1) c = .wait .input c := by
  rw [descend, if_pos hk, getBit_waits hb he, Run.wait_bind]

/-! ## Where the cursor stands -/

/-- The walker registers with the cursor on node `n`, which is not a leaf (R38, R161). -/
def Walker.onNode (n : Idx) : Walker := { cur := n, res := false, isSym := false, sym := 0 }

/-- On an internal node the walker reads as unresolved. -/
def Engine.WalkerFits (g : Engine) : Prop := g.curKind = .int → g.walker = Walker.onNode g.walker.cur

theorem Walker.arrive_int (n : Idx) {x : Node} (h : x.kind = .int) : Walker.arrive n x = Walker.onNode n := by
  simp [Walker.arrive, Walker.onNode, h]

theorem Engine.walkerFits_walkKept : WalkKept WalkerFits where
  clear _ _ _ := rfl
  arrive _ n _ hk := Walker.arrive_int n hk

theorem Engine.walkerFits_unpackKept : UnpackKept WalkerFits :=
  ⟨fun _ h _ => h, fun _ _ h => h⟩

/-- A node is determined by its path. -/
theorem Tree.Shape.path_injective {t : Tree} (h : t.Shape) {m n : Idx} (hm : m < t.next) (hn : n < t.next)
    (e : t.path m = t.path n) : m = n := by
  refine h.induction_down (P := fun n => ∀ m, m < t.next → t.path m = t.path n → m = n) ?_ ?_ hn m hm e
  · intro m hm e
    by_contra hr
    rw [h.path_of_ne_root hm hr, Tree.path_root] at e
    exact absurd e (by simp)
  · intro n hn hr ih m hm e
    rw [h.path_of_ne_root hn hr] at e
    have hmr : m ≠ ROOT := by
      rintro rfl
      exact absurd e (by simp)
    rw [h.path_of_ne_root hm hmr] at e
    obtain ⟨ep, eb⟩ := List.append_inj' e rfl
    rw [← h.child_branch hm hmr, ← h.child_branch hn hr, ih _ (h.parent_alloc hm hmr) ep, List.head_eq_of_cons_eq eb]

/-- The path of a leaf is no initial part of an internal node's path. -/
theorem Tree.Shape.not_leaf_isPrefix_int {t : Tree} (h : t.Shape) {m n : Idx} (hm : m < t.next) (hn : n < t.next)
    (hkm : (t.node m).kind ≠ .int) (hkn : (t.node n).kind = .int) : ¬ t.path m <+: t.path n := by
  intro hp
  by_cases e : t.path m = t.path n
  · exact hkm (h.path_injective hm hn e ▸ hkn)
  · obtain ⟨x, hx, hkx, ex⟩ := h.path_of_isPrefix hn hp e
    exact hkm (h.path_injective hx hm ex ▸ hkx)

/-- Where the input ends inside the path of a node, and `in_eod` is low, the step in DECODING waits with the cursor on
the node the bits lead to (R195). -/
theorem decodeNext_waits {c : Ctx} {n : Idx} (h : c.eng.tree.Shape) (hn : n < c.eng.tree.next)
    (hok : c.eng.unpacker.Ok) (hp : c.bits <+: c.eng.tree.path n) (hne : c.bits ≠ c.eng.tree.path n)
    (he : c.eod = false) :
    ∃ d m, decodeNext c = .wait .input d ∧ c.ReadsTo c.bits d ∧ d.eng.walker = Walker.onNode m ∧ m < c.eng.tree.next ∧
      (c.eng.tree.node m).kind = .int ∧ c.eng.tree.path m = c.bits := by
  obtain ⟨m, hm, hk, hpath⟩ := h.path_of_isPrefix hn hp hne
  have hbits : c.walkClear.bits = c.eng.tree.path m ++ [] := by
    rw [hpath, List.append_nil]
    rfl
  obtain ⟨d, hd, hcur, hdesc⟩ := descend_path (c := c.walkClear) h hm rfl rfl hok hbits
  have hkd : d.eng.curKind = .int := by rw [Engine.curKind, hd.tree, hcur]; exact hk
  have hlen : c.bitsLeft + 1 = 0 + 1 + (c.eng.tree.path m).length := by
    rw [c.bitsLeft_eq, hpath]
    omega
  have hwait : descend (c.bitsLeft + 1) c.walkClear = .wait .input d := by
    rw [hlen, hdesc, descend_waits 0 hkd (hd.bits_left hbits) (hd.eod.trans he)]
  have hfits : d.eng.WalkerFits := by
    have := Engine.walkerFits_unpackKept.descend Engine.walkerFits_walkKept (c.bitsLeft + 1) (c := c.walkClear)
      fun _ => rfl
    rwa [hwait] at this
  refine ⟨d, m, ?_, hpath ▸ hd.of_setWalker, hcur ▸ hfits hkd, hm, hk, hpath⟩
  rw [decodeNext, hwait, Run.wait_bind]

/-! ## Whole commands -/

/-- The state a command leaves that has read some bits and waits. -/
theorem Ctx.ReadsTo.waitOn {s : State} {d : Ctx} {xs : List Bool} (h : s.ctx.ReadsTo xs d) (i : Instr) (p : Port) :
    s.inBytes = d.taken ++ d.inp ∧ s.waitOn i p d = { s with
      eng := { s.eng with walker := d.eng.walker, unpacker := d.eng.unpacker }
      inBytes := d.inp
      hold := some { instr := i, port := p, start := s.eng, taken := d.taken, sent := 0 } } := by
  obtain ⟨⟨u, w, inp, bs, rfl, hi, -⟩, -, -⟩ := h
  exact ⟨hi, by simp [State.waitOn, State.withStreams, Ctx.reading]⟩

/-- A command that has read everything there is and waits for more. -/
theorem exec_of_short {i : Instr} {s : State} {d : Ctx} {xs : List Bool} (hb : bodyOf i s.ctx = .wait .input d)
    (hd : s.ctx.ReadsTo xs d) (hin : s.inputBits = xs) :
    ∃ u : Unpacker, u.cnt = 0 ∧ u.buf = s.lastFetched [] ∧ exec i s = .next { s with
      eng := { s.eng with walker := d.eng.walker, unpacker := u }
      inBytes := []
      hold := some { instr := i, port := .input, start := s.eng, taken := s.inBytes, sent := 0 } } := by
  obtain ⟨hi, hc, hbuf⟩ := hd.input_gone hin
  obtain ⟨ht, e⟩ := hd.waitOn i .input
  rw [hi, List.append_nil] at ht
  exact ⟨d.eng.unpacker, hc, hbuf, by rw [exec_of_wait hb, e, hi, ht]⟩

theorem bodyOf_decstep_of_wait {c d : Ctx} {p : Port} (h : decstepCore c = .wait p d) :
    bodyOf .decstep c = .wait p d := by
  rw [bodyOf, decstepBody, h, Run.wait_bind]

/-- Settles O43: the bits run out inside a `GET_BITS`, or inside the descent. -/
theorem shortInputHolds : Obligations.ShortInputHolds := by
  refine ⟨fun i s want hok he hlen _ hi => ?_, fun s hst hinv ho hok he hin => ?_⟩
  · obtain ⟨d, e, hd, hw⟩ := getBitsFrom_waits (c := s.ctx) want hok hlen he 0 0
    have hb : bodyOf i s.ctx = .wait .input d := by
      obtain rfl | ⟨rfl, rfl, hst, ho⟩ := hi
      · show getbitsBody want s.ctx = _
        rw [getbitsBody, getBits, e, Run.wait_bind]
      · refine bodyOf_decstep_of_wait ?_
        rw [decstepCore_of_await hst ho, decodeFirst, getBits, e, Run.wait_bind]
    have := exec_of_short hb hd rfl
    rwa [hw] at this
  · have hS := hinv.shape
    obtain ⟨n, hn, hp, hne⟩ | ⟨bits, hlen, hin⟩ := hin
    · obtain ⟨d, m, e, hd, hw, hm, hk, hpath⟩ := decodeNext_waits (c := s.ctx) hS hn hok hp hne he
      have hcore := (decstepCore_of_decoding (c := s.ctx) hst ho).trans e
      obtain ⟨u, hc, hbuf, hex⟩ := exec_of_short (bodyOf_decstep_of_wait hcore) hd rfl
      rw [hw] at hex
      refine ⟨u, m, hc, hbuf, hm, fun hesc => ?_, fun _ => hpath, hex⟩
      rw [show s.inputBits = s.eng.tree.path m from hpath.symm] at hesc
      exact absurd hesc (hS.not_leaf_isPrefix_int hS.escAllocated hm (by simp [(hS.escKind _).2 rfl]) hk)
    · obtain ⟨c, hc, hw, e⟩ := decstepCore_escape (c := s.ctx) hst hinv ho hok hin
      have hbits := hc.bits_left hin
      obtain ⟨d, e', hd, hw'⟩ := getBitsFrom_waits 8 hc.ok (by rwa [hbits]) (hc.eod.trans he) 0 0
      have hcore : decstepCore s.ctx = .wait .input d := by rw [e, decodeLiteral, getBits, e', Run.wait_bind]
      obtain ⟨u, hcnt, hbuf, hex⟩ := exec_of_short (bodyOf_decstep_of_wait hcore) (hc.trans hd)
        (by rw [hbits, hin]; rfl)
      rw [hw', hw] at hex
      have hesc : s.eng.tree.path s.eng.tree.esc <+: s.inputBits := hin ▸ List.prefix_append _ _
      exact ⟨u, ROOT, hcnt, hbuf, hS.root_alloc, fun _ => rfl, fun hno => absurd hesc hno, hex⟩

end Sys2Proof.Machine
end

section
/-! Which commands write the tree and move the streams (20_memory.md R71, R72, 45_control.md R228). -/

namespace Sys2Proof.Machine

/-! ## Parts of a command in progress that a primitive leaves alone -/

/-- What has gone out and what may still go out (R82). -/
def Ctx.output (c : Ctx) : List Byte × Option Nat := (c.sent, c.room)

/-- A sequence leaves `f` alone where its parts do. -/
theorem Run.bind_fixes {α β γ : Type} (f : Ctx → γ) {c : Ctx} {r : Run α} {g : α → Ctx → Run β} (h : f r.ctx = f c)
    (hg : ∀ (a : α) (d : Ctx), f (g a d).ctx = f d) : f (r.bind g).ctx = f c :=
  Run.ctx_bind (P := fun d => f d = f c) r g h fun a d hd => (hg a d).trans (by rwa [hd] at h)

/-- The packer and the code buffer have no part in `f`, nor has the output (R170, R138). -/
structure Ctx.PackFixed {γ : Type} (f : Ctx → γ) : Prop where
  write : ∀ (v : Byte) (c : Ctx), f (outWrite v c).ctx = f c
  packer : ∀ (c : Ctx) (p : Packer), f (c.setPacker p) = f c
  code : ∀ (c : Ctx) (k : Code), f (c.setCode k) = f c

theorem outWrite_inp (v : Byte) (c : Ctx) : (outWrite v c).ctx.inp = c.inp := by
  unfold outWrite
  split <;> rfl

theorem Ctx.inp_packFixed : PackFixed Ctx.inp := ⟨outWrite_inp, fun _ _ => rfl, fun _ _ => rfl⟩

theorem Ctx.tree_packFixed : PackFixed fun c => c.eng.tree :=
  ⟨fun v c => congrArg Engine.tree (outWrite_eng v c), fun _ _ => rfl, fun _ _ => rfl⟩

section
variable {γ : Type} {f : Ctx → γ} (hf : Ctx.PackFixed f)
include hf

theorem Ctx.PackFixed.putBit (b : Bool) (c : Ctx) : f (putBit b c).ctx = f c := by
  unfold Sys2Proof.Machine.putBit
  split
  · exact Run.bind_fixes f (hf.write _ c) fun _ d => hf.packer d _
  · exact hf.packer c _

theorem Ctx.PackFixed.putAll (bs : List Bool) (c : Ctx) : f (putAll bs c).ctx = f c := by
  induction bs generalizing c with
  | nil => rfl
  | cons b bs ih => exact Run.bind_fixes f (hf.putBit b c) fun _ d => ih d

theorem Ctx.PackFixed.flushCore (c : Ctx) : f (flushCore c).ctx = f c := by
  unfold Sys2Proof.Machine.flushCore
  split
  · rfl
  · exact Run.bind_fixes f (hf.write _ c) fun _ d => hf.packer d _

theorem Ctx.PackFixed.encendCore (c : Ctx) : f (encendCore c).ctx = f c := by
  unfold Sys2Proof.Machine.encendCore
  split
  · refine Eq.trans ?_ (hf.code c (Code.ofPath (c.eng.tree.path c.eng.tree.esc)))
    exact Run.bind_fixes f (hf.putAll _ _) fun _ d => Run.bind_fixes f (hf.putAll _ d) fun _ e =>
      Run.bind_fixes f (hf.flushCore e) fun _ _ => rfl
  · exact Run.bind_fixes f (hf.flushCore c) fun _ _ => rfl

end

theorem encbCore_inp (b : Byte) (c : Ctx) : (encbCore b c).ctx.inp = c.inp := by
  unfold encbCore
  split
  · exact Run.bind_fixes Ctx.inp (Ctx.inp_packFixed.putAll _ (c.derivePath _)) fun _ _ => rfl
  · exact Run.bind_fixes Ctx.inp (Ctx.inp_packFixed.putAll _ (c.derivePath _)) fun _ d =>
      Run.bind_fixes Ctx.inp (Ctx.inp_packFixed.putAll _ d) fun _ _ => rfl

/-- Reading bits writes nothing (R175, R176). -/
theorem getBit_output (c : Ctx) : (getBit c).ctx.output = c.output := by
  obtain ⟨-, e⟩ | ⟨-, v, rest, -, e⟩ | ⟨-, -, -, e⟩ | ⟨-, -, -, e⟩ := getBit_cases c <;> rw [e] <;> rfl

theorem getBitsFrom_output (n : Nat) (v : Byte) (k : Nat) (c : Ctx) : (getBitsFrom n v k c).ctx.output = c.output := by
  induction n generalizing v k c with
  | zero => rfl
  | succ n ih =>
    refine Run.bind_fixes Ctx.output (getBit_output c) fun b d => ?_
    cases b with
    | none => rfl
    | some b => exact ih _ _ d

theorem Engine.tree_unpackKept (t : Tree) : UnpackKept fun g => g.tree = t := ⟨fun _ h _ => h, fun _ _ h => h⟩

/-! ## Whole commands -/

theorem bodyOf_observe_streams (sym : Byte) (c : Ctx) : (bodyOf (.observe sym) c).ctx.inp = c.inp ∧
    (bodyOf (.observe sym) c).ctx.output = c.output := by
  simp only [bodyOf, observeBody]
  split <;> exact ⟨rfl, rfl⟩

theorem bodyOf_encb_inp (sym : Byte) (c : Ctx) : (bodyOf (.encb sym) c).ctx.inp = c.inp := by
  simp only [bodyOf, encbBody]
  split
  · rfl
  · exact Run.bind_fixes Ctx.inp (encbCore_inp sym c) fun _ _ => rfl

/-- CODE changes the code buffer only, and WADV the cursor, whether they succeed or fail. -/
theorem bodyOf_code_frame (sym : Byte) (c : Ctx) : (bodyOf (.code sym) c).ctx.eng.tree = c.eng.tree ∧
    (bodyOf (.code sym) c).ctx.inp = c.inp ∧ (bodyOf (.code sym) c).ctx.output = c.output := by
  simp only [bodyOf, codeBody]
  split <;> exact ⟨rfl, rfl, rfl⟩

theorem bodyOf_wadv_frame (bit : Bool) (c : Ctx) : (bodyOf (.wadv bit) c).ctx.eng.tree = c.eng.tree ∧
    (bodyOf (.wadv bit) c).ctx.inp = c.inp ∧ (bodyOf (.wadv bit) c).ctx.output = c.output := by
  simp only [bodyOf, wadvBody]
  split <;> exact ⟨rfl, rfl, rfl⟩

/-- The commands that pack bits and observe nothing leave the tree and the input alone. -/
theorem bodyOf_packing {γ : Type} {f : Ctx → γ} (hf : Ctx.PackFixed f) (c : Ctx) :
    (∀ count value, f (bodyOf (.putbits count value) c).ctx = f c) ∧ f (bodyOf .putcode c).ctx = f c ∧
      f (bodyOf .flush c).ctx = f c ∧ f (bodyOf .encend c).ctx = f c :=
  ⟨fun _ _ => Run.bind_fixes f (hf.putAll _ c) fun _ _ => rfl, Run.bind_fixes f (hf.putAll _ c) fun _ _ => rfl,
    Run.bind_fixes f (hf.flushCore c) fun _ _ => rfl, Run.bind_fixes f (hf.encendCore c) fun _ _ => rfl⟩

/-- The streams of the host after a command that has written nothing. -/
theorem exec_output {i : Instr} {s t : State} (he : exec i s = .next t)
    (h : (bodyOf i s.ctx).ctx.output = s.ctx.output) : t.outBytes = s.outBytes ∧ t.outRoom = s.outRoom := by
  obtain ⟨-, ho, hr, -⟩ := exec_streams he
  obtain ⟨hs, hroom⟩ := Prod.mk.inj h
  exact ⟨by rw [ho, hs]; exact List.append_nil _, hr.trans hroom⟩

/-- Settles O58: command by command, which of the tree, the input and the output its primitives leave alone. -/
theorem treeAndStreamsMoveOnlyByTheirCommands : Obligations.TreeAndStreamsMoveOnlyByTheirCommands := by
  intro i s t he
  have htree : t.eng.tree = (bodyOf i s.ctx).ctx.eng.tree := by
    obtain ⟨r, x, e⟩ := exec_eng he
    rw [e]
  have hin : t.inBytes = (bodyOf i s.ctx).ctx.inp := (exec_streams he).1
  have hout := exec_output he
  obtain ⟨tput, tcode, tflush, tend⟩ := bodyOf_packing Ctx.tree_packFixed s.ctx
  obtain ⟨iput, icode, iflush, iend⟩ := bodyOf_packing Ctx.inp_packFixed s.ctx
  cases i with
  | nop | isobs | esccode | wreset | setctrl => exact ⟨htree, hin, hout rfl⟩
  | init mask =>
    refine ⟨fun hm => htree.trans ?_, hin, hout rfl⟩
    show (s.eng.initParts mask).tree = s.eng.tree
    rw [Engine.initParts_tree, hm]
    rfl
  | observe sym =>
    obtain ⟨h1, h2⟩ := bodyOf_observe_streams sym s.ctx
    exact ⟨trivial, hin.trans h1, hout h2⟩
  | code sym =>
    obtain ⟨h0, h1, h2⟩ := bodyOf_code_frame sym s.ctx
    exact ⟨htree.trans h0, hin.trans h1, hout h2⟩
  | wadv bit =>
    obtain ⟨h0, h1, h2⟩ := bodyOf_wadv_frame bit s.ctx
    exact ⟨htree.trans h0, hin.trans h1, hout h2⟩
  | putbits count value => exact ⟨htree.trans (tput count value), hin.trans (iput count value), trivial⟩
  | putcode => exact ⟨htree.trans tcode, hin.trans icode, trivial⟩
  | flush => exact ⟨htree.trans tflush, hin.trans iflush, trivial⟩
  | encend => exact ⟨htree.trans tend, hin.trans iend, trivial⟩
  | getbits count =>
    refine ⟨htree.trans ?_, trivial, hout ?_⟩
    · have hP := Engine.tree_unpackKept s.eng.tree
      exact Run.keeps_bind (P := fun g => g.tree = s.eng.tree) (hP.getBits count rfl) fun _ _ h => h
    · exact Run.bind_fixes Ctx.output (getBitsFrom_output count 0 0 s.ctx) fun _ _ => rfl
  | encb sym => exact ⟨trivial, hin.trans (bodyOf_encb_inp sym s.ctx), trivial⟩
  | encrun | decrun | decstep => exact ⟨trivial, trivial, trivial⟩

end Sys2Proof.Machine
end

section
/-! Sending bits, and holding on the output (20_memory.md R82, 43_bit_io.md R170 to R174): what a command with more bytes
to write than the host takes has done when it holds. -/

namespace Sys2Proof.Machine

/-! ## Sending bits (R170, R173, R174) -/

/-- `c` once the bytes `bs` have gone out, with other packer registers. -/
def Ctx.sending (c : Ctx) (p : Packer) (bs : List Byte) : Ctx :=
  { c with eng := { c.eng with packer := p }, room := roomAfter c.room bs.length, sent := c.sent ++ bs }

/-- Sending the bits `xs` leads from `c` to `d`: the bits pending before and the new ones are in the bytes that have
gone out and in the packer. -/
def Ctx.SendsTo (c : Ctx) (xs : List Bool) (d : Ctx) : Prop :=
  ∃ p bs, d = c.sending p bs ∧ bytesBits bs ++ p.pending = c.eng.packer.pending ++ xs

@[simp] theorem Packer.pending_length (p : Packer) : p.pending.length = p.cnt.toNat := bitsDown_length _ _

@[simp] theorem roomAfter_zero (room : Option Nat) : roomAfter room 0 = room := by
  cases room <;> rfl

theorem roomAfter_add (room : Option Nat) (m n : Nat) : roomAfter (roomAfter room m) n = roomAfter room (m + n) := by
  cases room <;> simp [roomAfter, Nat.sub_sub]

theorem Ctx.sending_nil (c : Ctx) : c.sending c.eng.packer [] = c := by
  simp [Ctx.sending]

theorem Ctx.SendsTo.refl (c : Ctx) : c.SendsTo [] c :=
  ⟨c.eng.packer, [], c.sending_nil.symm, by simp [bytesBits]⟩

theorem Ctx.SendsTo.trans {a b c : Ctx} {xs ys : List Bool} (h : a.SendsTo xs b) (k : b.SendsTo ys c) :
    a.SendsTo (xs ++ ys) c := by
  obtain ⟨p, bs, rfl, hb⟩ := h
  obtain ⟨p', bs', rfl, kb⟩ := k
  refine ⟨p', bs ++ bs', ?_, ?_⟩
  · simp [Ctx.sending, roomAfter_add]
  · have kb : bytesBits bs' ++ p'.pending = p.pending ++ ys := kb
    rw [bytesBits_append, List.append_assoc, kb, ← List.append_assoc, hb, List.append_assoc]

/-- How many bytes go out, and how many bits stay, is the number of bits by 8. -/
theorem Packer.counts_of_bits {p q : Packer} {bs : List Byte} {xs : List Bool}
    (h : bytesBits bs ++ q.pending = p.pending ++ xs) :
    bs.length = (p.cnt.toNat + xs.length) / 8 ∧ q.cnt.toNat = (p.cnt.toNat + xs.length) % 8 := by
  have hlen := congrArg List.length h
  have hq := q.cnt.isLt
  simp only [List.length_append, bytesBits_length, Packer.pending_length] at hlen
  omega

/-- `PUT_BIT` sends the bit, unless it fills a byte that the host does not take. -/
theorem putBit_sends (b : Bool) (c : Ctx) (h : c.eng.packer.cnt = 7 → c.room ≠ some 0) :
    ∃ d, putBit b c = .done () d ∧ c.SendsTo [b] d := by
  obtain ⟨hc, e⟩ | ⟨hc, -, e⟩ | ⟨hc, hr, -⟩ := putBit_cases b c
  · have hn : c.eng.packer.cnt.toNat ≠ 7 := fun he => hc (BitVec.eq_of_toNat_eq he)
    have hs : (c.eng.packer.cnt + 1).toNat = c.eng.packer.cnt.toNat + 1 := by bv_omega
    refine ⟨_, e, { buf := c.eng.packer.shiftIn b, cnt := c.eng.packer.cnt + 1 }, [],
      by simp [Ctx.sending, Ctx.setPacker], ?_⟩
    simp only [Packer.pending, hs, Packer.bitsDown_shiftIn _ _ _ (show c.eng.packer.cnt.toNat ≤ 7 by bv_omega)]
    rfl
  · refine ⟨_, e, Packer.empty, [c.eng.packer.shiftIn b], rfl, ?_⟩
    rw [Packer.pending, Packer.pending, hc]
    exact (List.append_nil _).trans (c.eng.packer.bitsDown_shiftIn b 7 le_rfl)
  · exact absurd hr (h hc)

/-- With room for the bytes they fill, all bits are sent. -/
theorem putAll_sends (xs : List Bool) (c : Ctx) (h : roomFor c.room ((c.eng.packer.cnt.toNat + xs.length) / 8)) :
    ∃ d, putAll xs c = .done () d ∧ c.SendsTo xs d := by
  induction xs generalizing c with
  | nil => exact ⟨c, rfl, .refl c⟩
  | cons b xs ih =>
    rw [List.length_cons] at h
    obtain ⟨d, e, hd⟩ := putBit_sends b c fun h7 h0 => by
      have h0 := h 0 h0
      rw [h7, show (7 : BitVec 3).toNat = 7 from rfl] at h0
      omega
    have hroom : roomFor d.room ((d.eng.packer.cnt.toNat + xs.length) / 8) := by
      obtain ⟨p, bs, rfl, hb⟩ := hd
      obtain ⟨hl, hp⟩ := Packer.counts_of_bits hb
      intro k hk
      obtain ⟨r, hr, rfl⟩ := Option.map_eq_some_iff.1 hk
      have := h r hr
      have hp : (c.sending p bs).eng.packer.cnt.toNat = _ := hp
      rw [List.length_singleton] at hl hp
      omega
    obtain ⟨d', e', hd'⟩ := ih d hroom
    exact ⟨d', by rw [putAll, e, Run.done_bind, e'], hd.trans hd'⟩

/-! ## More bytes than the host takes (R82, R171) -/

/-- Where a command that sends the bits `xs` from `c` on stops for want of room: all `r` bytes the host takes have gone
out, and they and the packer hold as many bits as fit in them. -/
def Ctx.FillsTo (c : Ctx) (r : Nat) (xs : List Bool) (p : Packer) (bs : List Byte) : Prop :=
  bs.length = r ∧ bytesBits bs ++ p.pending = (c.eng.packer.pending ++ xs).take (8 * r + 7)

/-- With room for fewer bytes than the bits fill, `PUT_BITS` waits in front of the bit that would fill one more. -/
theorem putAll_full {c : Ctx} {xs : List Bool} {r : Nat} (hr : c.room = some r)
    (h : r < (c.eng.packer.cnt.toNat + xs.length) / 8) :
    ∃ p bs, putAll xs c = .wait .output (c.sending p bs) ∧ c.FillsTo r xs p bs := by
  have hcnt := c.eng.packer.cnt.isLt
  obtain ⟨m, hm⟩ : ∃ m, 8 * r + 7 = c.eng.packer.cnt.toNat + m := Nat.exists_eq_add_of_le (by omega)
  have hlen : (xs.take m).length = m := List.length_take_of_le (by omega)
  obtain ⟨d, e, p, bs, rfl, hb⟩ := putAll_sends (xs.take m) c fun k hk => by
    obtain rfl := Option.some.inj (hr.symm.trans hk)
    omega
  obtain ⟨hl, hp⟩ := Packer.counts_of_bits hb
  have hl : bs.length = r := by omega
  have h7 : p.cnt = 7 := BitVec.eq_of_toNat_eq (show p.cnt.toNat = 7 by omega)
  have h0 : (c.sending p bs).room = some 0 := by simp [Ctx.sending, hr, roomAfter, hl]
  obtain ⟨b, ys, hys⟩ : ∃ b ys, xs.drop m = b :: ys := List.exists_cons_of_length_pos (by rw [List.length_drop]; omega)
  refine ⟨p, bs, ?_, hl, ?_⟩
  · obtain ⟨hc, -⟩ | ⟨-, hc, -⟩ | ⟨-, -, ew⟩ := putBit_cases b (c.sending p bs)
    · exact absurd h7 hc
    · exact absurd h0 hc
    · rw [← List.take_append_drop m xs, putAll_append, e, Run.done_bind, hys, putAll, ew, Run.wait_bind]
  · rw [hb, hm, ← Packer.pending_length, List.take_length_add_append]

/-- With no room, `FLUSH_CORE` waits if a bit is pending. -/
theorem flushCore_full {c : Ctx} (hr : c.room = some 0) (hc : c.eng.packer.cnt ≠ 0) :
    flushCore c = .wait .output c := by
  obtain ⟨h, -⟩ | ⟨-, h, -⟩ | ⟨-, -, e⟩ := flushCore_cases c
  · exact absurd h hc
  · exact absurd hr h
  · exact e

/-- With room for fewer bytes than the bits fill and the flush adds, one of the two waits. -/
theorem putAll_flushCore_full {c : Ctx} {xs : List Bool} {r : Nat} (hr : c.room = some r)
    (h : r < (c.eng.packer.cnt.toNat + xs.length + 7) / 8) :
    ∃ p bs, ((putAll xs c).bind fun _ d => flushCore d) = .wait .output (c.sending p bs) ∧ c.FillsTo r xs p bs := by
  by_cases hlt : r < (c.eng.packer.cnt.toNat + xs.length) / 8
  · obtain ⟨p, bs, e, hf⟩ := putAll_full hr hlt
    exact ⟨p, bs, by rw [e, Run.wait_bind], hf⟩
  · obtain ⟨d, e, p, bs, rfl, hb⟩ := putAll_sends xs c fun k hk => by
      obtain rfl := Option.some.inj (hr.symm.trans hk)
      omega
    obtain ⟨hl, hp⟩ := Packer.counts_of_bits hb
    have hl : bs.length = r := by omega
    have hc : p.cnt ≠ 0 := by
      intro h0
      rw [h0] at hp
      have hp : 0 = _ := hp
      omega
    have h0 : (c.sending p bs).room = some 0 := by simp [Ctx.sending, hr, roomAfter, hl]
    refine ⟨p, bs, by rw [e, Run.done_bind, flushCore_full h0 hc], hl, ?_⟩
    rw [hb, List.take_of_length_le]
    rw [List.length_append, Packer.pending_length]
    omega

/-! ## Where the packing commands stop (R191, R192) -/

/-- `PUT_CODE` of a path just derived sends the path (R138, R174). -/
theorem putCode_derivePath (c : Ctx) (n : Idx) :
    putCode (c.derivePath n) = putAll (c.eng.tree.path n) (c.derivePath n) := by
  rw [putCode, Ctx.derivePath_code, Code.ofPath_bits _ (c.eng.tree.path_length_le n)]

/-- Nothing comes after a wait. -/
theorem Run.bind_of_wait {α β : Type} {r : Run α} {p : Port} {d : Ctx} (f : α → Ctx → Run β) (h : r = .wait p d) :
    r.bind f = .wait p d := by
  rw [h, Run.wait_bind]

/-- The leaf whose path ENCB sends for a byte (R191). -/
def Tree.sentLeaf (t : Tree) (c : Byte) : Idx := if (t.symEntry c).seen then (t.symEntry c).leaf else t.esc

/-- The bits ENCB sends for a byte: its code, or the escape code and the literal (R191). -/
def Tree.sentBits (t : Tree) (c : Byte) : List Bool :=
  t.path (t.sentLeaf c) ++ if (t.symEntry c).seen then [] else literalBits c

/-- Where those bits do not fit, ENCB stops. -/
theorem encbCore_of_wait {sym : Byte} {c d : Ctx} {port : Port}
    (h : putAll (c.eng.tree.sentBits sym) (c.derivePath (c.eng.tree.sentLeaf sym)) = .wait port d) :
    encbCore sym c = .wait port d := by
  unfold Tree.sentBits Tree.sentLeaf at h
  cases hs : (c.eng.tree.symEntry sym).seen <;> simp only [hs, if_true, Bool.false_eq_true, if_false] at h
  · rw [putAll_append] at h
    rw [encbCore, if_neg (by simp [hs])]
    simp only [putCode_derivePath]
    rw [← Run.bind_assoc, h, Run.wait_bind]
  · rw [List.append_nil] at h
    rw [encbCore, if_pos hs]
    simp only [putCode_derivePath, h, Run.wait_bind]

/-- ENCEND with the terminator sends the escape code and the literal of 0, and flushes (R192). -/
theorem encendCore_of_wait {c d : Ctx} {port : Port} (ht : c.eng.terminates = true)
    (h : ((putAll (c.eng.tree.path c.eng.tree.esc ++ literalBits 0) (c.derivePath c.eng.tree.esc)).bind fun _ e =>
      flushCore e) = .wait port d) : encendCore c = .wait port d := by
  rw [putAll_append] at h
  have h' := Run.bind_of_wait (fun _ e => Run.done (Emitted.mk (e.eng.code.len.toNat + 8) true) e) h
  rw [encendCore, if_pos ht]
  simpa only [putCode_derivePath, Run.bind_assoc] using h'

/-- ENCEND without the terminator flushes (R192). -/
theorem encendCore_of_flush_wait {c d : Ctx} {port : Port} (ht : c.eng.terminates = false)
    (h : flushCore c = .wait port d) : encendCore c = .wait port d := by
  rw [encendCore, if_neg (by simp [ht]), h, Run.wait_bind]

theorem Engine.terminates_iff (g : Engine) :
    g.terminates = true ↔ g.termEn = true ∧ g.tree.rootWeight ≠ 0 := by
  simp [Engine.terminates]

/-! ## The packing commands -/

/-- What a packing command that sends `bits` leaves when the host takes `r` bytes and no more: it holds on the output,
with the path it derived, if any, in the code buffer. -/
def State.HoldsFull (s : State) (i : Instr) (r : Nat) (bits : List Bool) (path : Option (List Bool)) : Prop :=
  ∃ (bytes : List Byte) (p : Packer) (k : Code),
    exec i s = .next { s with
      eng := { s.eng with packer := p, code := k }
      outBytes := s.outBytes ++ bytes
      outRoom := some 0
      hold := some { instr := i, port := .output, start := s.eng, taken := [], sent := r } } ∧
    bytes.length = r ∧ bytesBits bytes ++ p.pending = (s.eng.packer.pending ++ bits).take (8 * r + 7) ∧
    (i = .flush → p = s.eng.packer) ∧ (path = none → k = s.eng.code) ∧
    ∀ q, path = some q → k.len.toNat = q.length ∧ ∀ j, k.buf.getLsbD j = q.getD j false

section
variable {s : State} {r : Nat} (hr : s.outRoom = some r)
include hr

/-- The state after a wait with every byte written that the host takes. -/
theorem exec_of_full {i : Instr} {k : Code} {p : Packer} {bs : List Byte} (hl : bs.length = r)
    (hb : bodyOf i s.ctx = .wait .output ((s.ctx.setCode k).sending p bs)) :
    exec i s = .next { s with
      eng := { s.eng with packer := p, code := k }
      outBytes := s.outBytes ++ bs
      outRoom := some 0
      hold := some { instr := i, port := .output, start := s.eng, taken := [], sent := r } } := by
  rw [exec_of_wait hb]
  simp [State.waitOn, State.withStreams, Ctx.sending, Ctx.setCode, roomAfter, hr, hl]

theorem holdsFull_of_wait {i : Instr} {bits : List Bool} {p : Packer} {bs : List Byte}
    (hb : bodyOf i s.ctx = .wait .output (s.ctx.sending p bs)) (hf : s.ctx.FillsTo r bits p bs)
    (hp : i = .flush → p = s.eng.packer) : s.HoldsFull i r bits none := by
  obtain ⟨hl, hbits⟩ := hf
  exact ⟨bs, p, s.eng.code, exec_of_full hr hl hb, hl, hbits, hp, fun _ => rfl, fun _ hq => nomatch hq⟩

theorem holdsFull_of_path_wait {i : Instr} {bits : List Bool} {p : Packer} {bs : List Byte} {n : Idx}
    (hb : bodyOf i s.ctx = .wait .output ((s.ctx.derivePath n).sending p bs))
    (hf : (s.ctx.derivePath n).FillsTo r bits p bs) (hi : i ≠ .flush) :
    s.HoldsFull i r bits (some (s.eng.tree.path n)) := by
  obtain ⟨hl, hbits⟩ := hf
  refine ⟨bs, p, Code.ofPath (s.eng.tree.path n), exec_of_full hr hl hb, hl, hbits, fun h => absurd h hi,
    fun hq => (nomatch hq), fun q hq => ?_⟩
  obtain rfl := Option.some.inj hq
  have hle := s.eng.tree.path_length_le n
  exact ⟨Code.ofPath_len _ hle, fun j => Code.ofPath_getLsbD _ j hle⟩

theorem holdsFull_putbits {count : Nat} {value : Byte}
    (hn : r < (s.eng.packer.cnt.toNat + (bitsDown value count).length) / 8) :
    s.HoldsFull (.putbits count value) r (bitsDown value count) none := by
  obtain ⟨p, bs, e, hf⟩ := putAll_full (c := s.ctx) hr hn
  exact holdsFull_of_wait hr (Run.bind_of_wait _ e) hf fun h => nomatch h

theorem holdsFull_putcode (hn : r < (s.eng.packer.cnt.toNat + s.eng.code.bits.length) / 8) :
    s.HoldsFull .putcode r s.eng.code.bits none := by
  obtain ⟨p, bs, e, hf⟩ := putAll_full (c := s.ctx) hr hn
  exact holdsFull_of_wait hr (Run.bind_of_wait _ e) hf fun h => nomatch h

/-- A flush that waits has nothing to send but what is pending, and no room for it. -/
theorem flushCore_waits (hn : r < (s.eng.packer.cnt.toNat + 7) / 8) :
    flushCore s.ctx = .wait .output (s.ctx.sending s.eng.packer []) ∧ s.ctx.FillsTo r [] s.eng.packer [] := by
  have hlt := s.eng.packer.cnt.isLt
  have h0 : r = 0 := by omega
  have hc : s.eng.packer.cnt ≠ 0 := by
    intro h
    rw [h] at hn
    have hn : r < 7 / 8 := hn
    omega
  subst h0
  refine ⟨(flushCore_full (c := s.ctx) hr hc).trans (congrArg _ s.ctx.sending_nil.symm), rfl, ?_⟩
  rw [List.append_nil, List.take_of_length_le (by rw [Packer.pending_length]; exact Nat.le_of_lt_succ hlt)]
  rfl

theorem holdsFull_flush (hn : r < (s.eng.packer.cnt.toNat + 7) / 8) : s.HoldsFull .flush r [] none := by
  obtain ⟨e, hf⟩ := flushCore_waits hr hn
  exact holdsFull_of_wait hr (Run.bind_of_wait _ e) hf fun _ => rfl

theorem holdsFull_encb {sym : Byte} (ho : s.eng.tree.rootWeight ≠ 2 ^ s.eng.weightBits - 1)
    (hn : r < (s.eng.packer.cnt.toNat + (s.eng.tree.sentBits sym).length) / 8) :
    s.HoldsFull (.encb sym) r (s.eng.tree.sentBits sym) (some (s.eng.tree.path (s.eng.tree.sentLeaf sym))) := by
  obtain ⟨p, bs, e, hf⟩ := putAll_full (c := s.ctx.derivePath (s.eng.tree.sentLeaf sym)) hr hn
  refine holdsFull_of_path_wait hr ?_ hf fun h => nomatch h
  show encbBody sym s.ctx = _
  rw [encbBody, if_neg (by simp [Engine.overflows_eq_false ho])]
  exact Run.bind_of_wait _ (encbCore_of_wait e)

theorem holdsFull_encend_terminated (ht : s.eng.terminates = true)
    (hn : r < (s.eng.packer.cnt.toNat + (s.eng.tree.path s.eng.tree.esc ++ literalBits 0).length + 7) / 8) :
    s.HoldsFull .encend r (s.eng.tree.path s.eng.tree.esc ++ literalBits 0) (some (s.eng.tree.path s.eng.tree.esc)) := by
  obtain ⟨p, bs, e, hf⟩ := putAll_flushCore_full (c := s.ctx.derivePath s.eng.tree.esc) hr hn
  exact holdsFull_of_path_wait hr (Run.bind_of_wait _ (encendCore_of_wait ht e)) hf fun h => nomatch h

theorem holdsFull_encend (ht : s.eng.terminates = false) (hn : r < (s.eng.packer.cnt.toNat + 7) / 8) :
    s.HoldsFull .encend r [] none := by
  obtain ⟨e, hf⟩ := flushCore_waits hr hn
  exact holdsFull_of_wait hr (Run.bind_of_wait _ (encendCore_of_flush_wait ht e)) hf fun h => nomatch h

end

/-! ## DECSTEP (R195) -/

/-- With no room, the byte decoded waits to go out. -/
theorem decodeByte_full (v : Byte) {c : Ctx} (h : c.room = some 0) : decodeByte v c = .wait .output c := by
  simp [decodeByte, outWrite, h]

/-- Where the input starts with a codeword, the step in DECODING reads it, clears the walker and goes on to write the
byte. -/
theorem decstepCore_codeword {c : Ctx} {v : Byte} {rest : List Bool} (hst : c.eng.decState = .decoding)
    (hinv : c.eng.tree.Inv) (ho : c.eng.tree.rootWeight ≠ 2 ^ c.eng.weightBits - 1) (hok : c.eng.unpacker.Ok)
    (hin : (c.eng.tree.symEntry v).seen = true ∧ c.bits = c.eng.tree.path (c.eng.tree.symEntry v).leaf ++ rest ∨
      v ≠ 0 ∧ c.bits = c.eng.tree.path c.eng.tree.esc ++ literalBits v ++ rest) :
    ∃ xs d, c.ReadsTo xs d ∧ d.eng.walker = Walker.cleared ∧ c.bits = xs ++ rest ∧
      decstepCore c = decodeByte v d := by
  obtain ⟨hseen, hin⟩ | ⟨hv, hin⟩ := hin
  · obtain ⟨hk, hsym⟩ := hinv.spec.symbols.seen v hseen
    obtain ⟨d, hd, hw, e⟩ := decodeNext_leaf hinv.shape (hinv.shape.alloc_of_kind (by simp [hk])) (by simp [hk]) hok hin
    exact ⟨_, d, hd, hw, hin, by rw [decstepCore_of_decoding hst ho, e, if_pos hk, hsym]⟩
  · have hin' := hin
    rw [List.append_assoc] at hin'
    obtain ⟨a, ha, hw, e⟩ := decstepCore_escape hst hinv ho hok hin'
    obtain ⟨d, hd, hw', e'⟩ := decodeLiteral_read ha.ok (ha.bits_left hin')
    exact ⟨_, d, ha.trans hd, hw'.trans hw, hin, by rw [e, e', if_neg hv]⟩

/-- Where the input starts with a literal, the step in AWAITING_FIRST_BYTE reads it and goes on to write the byte. -/
theorem decstepCore_firstByte {c : Ctx} {v : Byte} {rest : List Bool} (hst : c.eng.decState = .await)
    (ho : c.eng.tree.rootWeight ≠ 2 ^ c.eng.weightBits - 1) (hok : c.eng.unpacker.Ok)
    (hin : c.bits = literalBits v ++ rest) :
    ∃ d, c.ReadsTo (literalBits v) d ∧ d.eng.walker = c.eng.walker ∧
      decstepCore c = (decodeByte v d).bind fun r e => .done r (e.setDecState .decoding) := by
  obtain ⟨d, e, hd, hw⟩ := getBitsFrom_read 8 hok (literalBits_length v) hin 0 0
  rw [shiftBits_literalBits] at e
  refine ⟨d, hd, hw, ?_⟩
  rw [decstepCore_of_await hst ho, decodeFirst, getBits, e, Run.done_bind, if_neg Bool.false_ne_true]

/-- Settles O44: the packing commands stop in their `PUT_BIT`s or in their flush, and DECSTEP in its `OutWrite`. -/
theorem fullOutputHolds : Obligations.FullOutputHolds := by
  refine ⟨?_, fun s v rest hr hok ho hin => ?_⟩
  · intro i s r n bits path hr hn cnt hi
    show s.HoldsFull i r bits path
    obtain ⟨count, value, -, rfl, rfl, rfl, rfl⟩ | ⟨rfl, rfl, rfl, rfl⟩ | ⟨rfl, rfl, rfl, rfl⟩ |
      ⟨sym, rfl, ho, ⟨rfl, rfl⟩, rfl⟩ | ⟨rfl, hif, rfl⟩ := hi
    · exact holdsFull_putbits hr hn
    · exact holdsFull_putcode hr hn
    · exact holdsFull_flush hr hn
    · exact holdsFull_encb hr ho hn
    · split at hif
      · next ht =>
        obtain ⟨rfl, rfl⟩ := hif
        exact holdsFull_encend_terminated hr (s.eng.terminates_iff.2 ht) hn
      · next ht =>
        obtain ⟨rfl, rfl⟩ := hif
        exact holdsFull_encend hr (Bool.eq_false_iff.2 fun h => ht (s.eng.terminates_iff.1 h)) hn
  · have hcore : ∃ xs d, s.ctx.ReadsTo xs d ∧ s.inputBits = xs ++ rest ∧ decstepCore s.ctx = .wait .output d ∧
        d.eng.walker = if s.eng.decState = .await then s.eng.walker else Walker.cleared := by
      obtain ⟨hst, hin⟩ | ⟨hst, hinv, hin⟩ := hin
      · obtain ⟨d, hd, hw, e⟩ := decstepCore_firstByte (c := s.ctx) hst ho hok hin
        rw [decodeByte_full v (hd.room.trans hr), Run.wait_bind] at e
        exact ⟨_, d, hd, hin, e, by rw [if_pos hst]; exact hw⟩
      · obtain ⟨xs, d, hd, hw, hxs, e⟩ := decstepCore_codeword (c := s.ctx) hst hinv ho hok hin
        rw [decodeByte_full v (hd.room.trans hr)] at e
        exact ⟨xs, d, hd, hxs, e, by rw [if_neg (by simp [hst]), hw]⟩
    obtain ⟨xs, d, hd, hxs, e, hw⟩ := hcore
    obtain ⟨ht, hwait⟩ := hd.waitOn .decstep .output
    refine ⟨d.eng.unpacker, d.taken, d.inp, ?_, ht, hd.input_left hxs⟩
    rw [exec_of_wait (bodyOf_decstep_of_wait e), hwait, hw]
    rfl

end Sys2Proof.Machine
end

section
/-! Command words (30_encoding.md R100 to R105): the fields of a word, the operands in them, what each format accepts, and
the statements about the decoder and the encoder. -/

namespace Sys2Proof

/-! ## The fields of a word (R100) -/

@[simp] theorem opOf_layout (op n : BitVec 4) (imm : Byte) : opOf (layout op n imm) = op := by
  rw [opOf, layout, BitVec.append_assoc]
  exact BitVec.extractLsb'_append_eq_left

@[simp] theorem nOf_layout (op n : BitVec 4) (imm : Byte) : nOf (layout op n imm) = n := by
  rw [nOf, layout, BitVec.extractLsb'_append_eq_of_le (by decide)]
  exact BitVec.extractLsb'_append_eq_right

@[simp] theorem immOf_layout (op n : BitVec 4) (imm : Byte) : immOf (layout op n imm) = imm :=
  BitVec.extractLsb'_append_eq_right

theorem opOf_toNat (w : Cmd) : (opOf w).toNat = w.toNat / 4096 := by
  rw [opOf, BitVec.extractLsb'_toNat, Nat.shiftRight_eq_div_pow]
  omega

theorem nOf_toNat (w : Cmd) : (nOf w).toNat = w.toNat / 256 % 16 := by
  rw [nOf, BitVec.extractLsb'_toNat, Nat.shiftRight_eq_div_pow]

theorem immOf_toNat (w : Cmd) : (immOf w).toNat = w.toNat % 256 := by
  rw [immOf, BitVec.extractLsb'_toNat, Nat.shiftRight_zero]

/-- No bit of a word lies outside its three fields. -/
theorem layout_fields (w : Cmd) : layout (opOf w) (nOf w) (immOf w) = w := by
  refine BitVec.eq_of_toNat_eq ?_
  rw [layout, Machine.toNat_append_eq, Machine.toNat_append_eq, opOf_toNat, nOf_toNat, immOf_toNat]
  omega

theorem opcode_cases : ∀ op : BitVec 4, op = 0x0 ∨ op = 0x1 ∨ op = 0x2 ∨ op = 0x3 ∨ op = 0x4 ∨ op = 0x5 ∨
    op = 0x6 ∨ op = 0x7 ∨ op = 0x8 ∨ op = 0x9 ∨ op = 0xA ∨ op = 0xB ∨ op = 0xC ∨ op = 0xD ∨ op = 0xE ∨ op = 0xF := by
  decide

/-! ## The operands in their fields (R101, R102)

Each operand is read back from the field it is written to, and written back to a field whose reserved bits are 0. -/

@[simp] theorem bitField_toNat (b : Bool) : (bitField b).toNat = b.toNat := by
  cases b <;> rfl

@[simp] theorem bitField_getElem_zero (b : Bool) : (bitField b)[0] = b := by
  cases b <;> rfl

@[simp] theorem bitField_of_lt {imm : Byte} (h : imm.toNat < 2) : bitField imm[0] = imm := by
  obtain rfl | rfl : imm = 0 ∨ imm = 1 := by bv_omega
  · rfl
  · rfl

@[simp] theorem maskField_toNat (mask : BitVec 5) : (0#3 ++ mask).toNat = mask.toNat := by
  rw [Machine.toNat_append_eq, BitVec.toNat_ofNat, Nat.zero_mod, Nat.zero_mul, Nat.zero_add]

@[simp] theorem maskField_extractLsb' (mask : BitVec 5) : (0#3 ++ mask).extractLsb' 0 5 = mask :=
  BitVec.extractLsb'_append_eq_right

@[simp] theorem maskField_of_lt {imm : Byte} (h : imm.toNat < 32) : 0#3 ++ imm.extractLsb' 0 5 = imm := by
  refine BitVec.eq_of_toNat_eq ?_
  rw [maskField_toNat, BitVec.extractLsb'_toNat, Nat.shiftRight_zero, Nat.mod_eq_of_lt h]

theorem countOk_iff {count : Nat} : countOk count ↔ 1 ≤ count ∧ count ≤ 8 := by
  rw [countOk, Bool.and_eq_true, decide_eq_true_iff, decide_eq_true_iff]

theorem countOf_eq (n : BitVec 4) : countOf n = n.toNat % 8 + 1 := by
  rw [countOf, BitVec.extractLsb'_toNat, Nat.shiftRight_zero]

@[simp] theorem countField_toNat (count : Nat) : (countField count).toNat = (count - 1) % 8 := by
  rw [countField, Machine.toNat_append_eq, BitVec.toNat_ofNat, BitVec.toNat_ofNat, Nat.zero_mod, Nat.zero_mul,
    Nat.zero_add]

@[simp] theorem countOk_countOf (n : BitVec 4) : countOk (countOf n) := by
  rw [countOk_iff, countOf_eq]
  omega

@[simp] theorem countOf_countField {count : Nat} (h : countOk count) : countOf (countField count) = count := by
  rw [countOk_iff] at h
  rw [countOf_eq, countField_toNat]
  omega

@[simp] theorem countField_countOf {n : BitVec 4} (h : n.toNat < 8) : countField (countOf n) = n := by
  refine BitVec.eq_of_toNat_eq ?_
  rw [countField_toNat, countOf_eq]
  omega

/-! ## What each format accepts (R101) -/

theorem legalIf_eq_ok {nOk immOk : Bool} {i j : Instr} : legalIf nOk immOk i = .ok j ↔ nOk ∧ immOk ∧ j = i := by
  cases nOk <;> cases immOk <;> simp [legalIf, eq_comm]

section
variable {n sub : BitVec 4} {imm : Byte} {i j : Instr}

@[simp] theorem formatZ_eq_ok : formatZ n imm sub i = .ok j ↔ n = sub ∧ imm = 0 ∧ j = i := by
  rw [formatZ, legalIf_eq_ok, beq_iff_eq, beq_iff_eq]

@[simp] theorem formatS_eq_ok {f : Byte → Instr} : formatS n imm f = .ok j ↔ n = 0 ∧ j = f imm := by
  rw [formatS, legalIf_eq_ok, beq_iff_eq, and_iff_right rfl]

@[simp] theorem formatB_eq_ok {f : Bool → Instr} :
    formatB n imm sub f = .ok j ↔ n = sub ∧ imm.toNat < 2 ∧ j = f imm[0] := by
  have himm : imm.extractLsb' 1 7 = 0 ↔ imm.toNat < 2 := by
    rw [← BitVec.toNat_inj, BitVec.extractLsb'_toNat, Nat.shiftRight_eq_div_pow]
    show _ % _ = 0 ↔ _
    omega
  rw [formatB, legalIf_eq_ok, beq_iff_eq, beq_iff_eq, himm]
  rfl

@[simp] theorem formatM_eq_ok {f : BitVec 5 → Instr} :
    formatM n imm f = .ok j ↔ n = 0 ∧ imm.toNat < 32 ∧ j = f (imm.extractLsb' 0 5) := by
  have himm : imm.extractLsb' 5 3 = 0 ↔ imm.toNat < 32 := by
    rw [← BitVec.toNat_inj, BitVec.extractLsb'_toNat, Nat.shiftRight_eq_div_pow]
    show _ % _ = 0 ↔ _
    omega
  rw [formatM, legalIf_eq_ok, beq_iff_eq, beq_iff_eq, himm]

theorem topBit_clear_iff : (!n.getLsbD 3) = true ↔ n.toNat < 8 := by
  revert n; decide

@[simp] theorem formatP_eq_ok {f : Nat → Byte → Instr} :
    formatP n imm f = .ok j ↔ n.toNat < 8 ∧ j = f (countOf n) imm := by
  rw [formatP, legalIf_eq_ok, topBit_clear_iff, and_iff_right rfl]

@[simp] theorem formatG_eq_ok {f : Nat → Instr} :
    formatG n imm f = .ok j ↔ n.toNat < 8 ∧ imm = 0 ∧ j = f (countOf n) := by
  rw [formatG, legalIf_eq_ok, topBit_clear_iff, beq_iff_eq]

/-- A choice between two decoders that accept on its own side only accepts what either does. -/
theorem ite_eq_ok {p : Prop} [Decidable p] {x y : Except Illegal Instr} (hx : x = .ok j → p) (hy : y = .ok j → ¬ p) :
    (if p then x else y) = .ok j ↔ x = .ok j ∨ y = .ok j := by
  split
  · next h => exact ⟨.inl, fun h' => h'.resolve_right fun e => hy e h⟩
  · next h => exact ⟨.inr, fun h' => h'.resolve_left fun e => h (hx e)⟩

/-- `OP = 0x7`, whose two commands `N` tells apart (R103). -/
theorem formatZ_or_formatZ_eq_ok {k : Instr} :
    (if n == 0 then formatZ n imm 0 i else formatZ n imm 1 k) = .ok j ↔
      (n = 0 ∧ imm = 0 ∧ j = i) ∨ (n = 1 ∧ imm = 0 ∧ j = k) := by
  rw [ite_eq_ok, formatZ_eq_ok, formatZ_eq_ok] <;> simp +contextual

/-- `OP = 0x6`, whose two commands `N` tells apart (R103). -/
theorem formatZ_or_formatB_eq_ok {f : Bool → Instr} :
    (if n == 0 then formatZ n imm 0 i else formatB n imm 1 f) = .ok j ↔
      (n = 0 ∧ imm = 0 ∧ j = i) ∨ (n = 1 ∧ imm.toNat < 2 ∧ j = f imm[0]) := by
  rw [ite_eq_ok, formatZ_eq_ok, formatB_eq_ok] <;> simp +contextual

end

/-! ## The round trip (R103) -/

/-- Settles O6: the fields of the word are those it was laid out from, and each operand is read back from its field. -/
theorem decodeOfEncodeIsTheCommand : Obligations.DecodeOfEncodeIsTheCommand := by
  intro i hi
  cases i with
  | init mask => simpa [encode, decode] using mask.isLt
  | wadv bit => simpa [encode, decode] using bit.toNat_le
  | setctrl v => simpa [encode, decode] using v.toNat_le
  | putbits count value => simpa [encode, decode, countOf_countField hi] using Nat.mod_lt _ (by decide)
  | getbits count => simpa [encode, decode, countOf_countField hi] using Nat.mod_lt _ (by decide)
  | _ => simp [encode, decode]

/-- Settles O7: for each `OP`, the format's conditions on `N` and `IMM` say that they are the fields of the command. -/
theorem encodeOfDecodeIsTheWord : Obligations.EncodeOfDecodeIsTheWord := by
  intro w i
  rw [← layout_fields w]
  generalize opOf w = op, nOf w = n, immOf w = imm
  obtain rfl | rfl | rfl | rfl | rfl | rfl | rfl | rfl | rfl | rfl | rfl | rfl | rfl | rfl | rfl | rfl := opcode_cases op
  all_goals
    simp only [decode, opOf_layout, nOf_layout, immOf_layout, BitVec.reduceToNat, formatZ_or_formatZ_eq_ok,
      formatZ_or_formatB_eq_ok]
    simp +contextual [encode, Instr.wellFormed, or_imp]

/-- Settles O5. -/
theorem sampleWordsDecode : Obligations.SampleWordsDecode := by
  unfold Obligations.SampleWordsDecode
  decide

/-! ## The decoding procedure (R105) -/

/-- Settles O8: for each `OP`, what its format accepts, with `N` and `IMM` as numbers. -/
theorem legalWordsAreThoseOfTheProcedure : Obligations.LegalWordsAreThoseOfTheProcedure := by
  intro w m
  simp only [← opOf_toNat, ← nOf_toNat, ← immOf_toNat]
  generalize hop : (opOf w).toNat = op
  have hlt : op < 16 := hop ▸ (opOf w).isLt
  interval_cases op
  all_goals
    simp only [decode, hop, formatZ_or_formatZ_eq_ok, formatZ_or_formatB_eq_ok]
    simp [BitVec.toNat_eq, Instr.mnemonic, eq_comm (a := m), and_assoc, and_left_comm, and_or_left, or_and_right, exists_or]

/-! ## Match and mask (R104) -/

/-- A mask of the bits from `k` up clears the bits below. -/
theorem and_highMask_toNat (w : Cmd) (k : Nat) : (w &&& BitVec.allOnes 16 <<< k).toNat = w.toNat / 2 ^ k * 2 ^ k := by
  rw [← BitVec.shiftLeft_ushiftRight, BitVec.toNat_shiftLeft, BitVec.toNat_ushiftRight, Nat.shiftRight_eq_div_pow,
    Nat.shiftLeft_eq, Nat.mod_eq_of_lt ((Nat.div_mul_le_self _ _).trans_lt w.isLt)]

theorem and_ffff_toNat (w : Cmd) : (w &&& 0xFFFF#16).toNat = w.toNat := congrArg _ BitVec.and_allOnes

theorem and_fffe_toNat (w : Cmd) : (w &&& 0xFFFE#16).toNat = w.toNat / 2 * 2 := and_highMask_toNat w 1

theorem and_ffe0_toNat (w : Cmd) : (w &&& 0xFFE0#16).toNat = w.toNat / 32 * 32 := and_highMask_toNat w 5

theorem and_ff00_toNat (w : Cmd) : (w &&& 0xFF00#16).toNat = w.toNat / 256 * 256 := and_highMask_toNat w 8

theorem and_f800_toNat (w : Cmd) : (w &&& 0xF800#16).toNat = w.toNat / 2048 * 2048 := and_highMask_toNat w 11

theorem and_f8ff_toNat (w : Cmd) : (w &&& 0xF8FF#16).toNat = w.toNat / 2048 * 2048 + w.toNat % 256 := by
  have hlow : (w &&& 0x00FF#16).toNat = w.toNat % 256 := Nat.and_two_pow_sub_one_eq_mod w.toNat 8
  rw [show 0xF8FF#16 = 0xF800#16 ||| 0x00FF#16 from rfl, BitVec.and_or_distrib_left, BitVec.toNat_or, and_f800_toNat,
    hlow, Nat.mul_comm, ← Nat.two_pow_add_eq_or_of_lt (i := 11) (by omega)]

/-- A word matches a row where it meets the procedure's conditions for the row's mnemonic. -/
theorem row_matches_iff (w : Cmd) {r : Row} (hr : r ∈ opcodeRows) :
    w &&& r.mask = r.fixed ↔ ∃ i, decode w = .ok i ∧ i.mnemonic = r.mnemonic := by
  refine Iff.trans ?_ (legalWordsAreThoseOfTheProcedure w r.mnemonic).symm
  fin_cases hr
  all_goals
    simp only [BitVec.ofNat_eq_ofNat, BitVec.toNat_eq, and_ffff_toNat, and_fffe_toNat, and_ffe0_toNat, and_ff00_toNat,
      and_f800_toNat, and_f8ff_toNat, BitVec.toNat_ofNat, String.reduceEq, and_true, and_false, or_false, false_or]
    omega

theorem row_eq_of_mnemonic_eq {r r' : Row} (hr : r ∈ opcodeRows) (hr' : r' ∈ opcodeRows) (h : r.mnemonic = r'.mnemonic) :
    r = r' :=
  List.inj_on_of_nodup_map (f := Row.mnemonic) (by decide) hr hr' h

/-- Settles O9: a word that matches two rows decodes to one command, whose mnemonic names one row. -/
theorem rowsMatchByMaskAndAreDisjoint : Obligations.RowsMatchByMaskAndAreDisjoint := by
  refine ⟨fun w _ => row_matches_iff w, fun w r r' hr hr' h h' => ?_⟩
  obtain ⟨i, hi, hm⟩ := (row_matches_iff w hr).1 h
  obtain ⟨i', hi', hm'⟩ := (row_matches_iff w hr').1 h'
  obtain rfl : i = i' := Except.ok.inj (hi.symm.trans hi')
  exact row_eq_of_mnemonic_eq hr hr' (hm.symm.trans hm')

end Sys2Proof

namespace Sys2Proof.Machine

/-! ## Illegal words (R108) -/

theorem acceptWord_illegal {w : Cmd} {e : Illegal} (s : State) (h : decode w = .error e) :
    acceptWord w s = .next (s.afterFailure .illegal w) := by
  rw [acceptWord, h, ← State.failWith_ctx]
  rfl

/-- Settles O11: a ready engine accepts the word, and the word fails at once. -/
theorem illegalWordFailsWithoutEffect : Obligations.IllegalWordFailsWithoutEffect := by
  intro s w rest e hidle hw hd
  rw [step_of_idle hidle, hostMove_command hw, if_pos (State.cmdReady_of_idle hidle), acceptWord_illegal _ hd]

end Sys2Proof.Machine
end

section
/-! What `SPLIT`, `SWAP` and `LEADER` do to single entries (41_tree_model.md R124, R128, R129), and the statements about
them. -/

namespace Sys2Proof.Machine

/-! ## `SPLIT` (R124, R125) -/

theorem Tree.seenCount_le (t : Tree) : t.seenCount ≤ 256 := by
  simpa [Tree.seenCount] using
    List.length_filter_le (l := List.range 256) fun c => (t.symEntry (BitVec.ofNat 8 c)).seen

section
variable {t : Tree} (h : t.SpecInv) {c : Byte} (hc : (t.symEntry c).seen = false)
include h hc

/-- R125, from R50 alone. -/
theorem Tree.SpecInv.split_room : t.next.toNat + 2 ≤ 513 := by
  have h1 := t.split_seenCount hc
  have h2 := (t.split c).1.seenCount_le
  have h3 := h.allocation.nextOdd
  omega

/-- Every entry after a split of a tree that meets R50 to R56, which say less than `Tree.Shape` (log entry 9). -/
theorem Tree.SpecInv.split_node (n : Idx) : (t.split c).1.node n =
    if n = t.next + 1 then t.newEscLeaf else if n = t.next then t.newSymLeaf c
    else if n = t.esc then t.splitNode else t.node n := by
  have hroom := h.split_room hc
  have hesc := BitVec.lt_def.1 h.escRoot.escAllocated
  have he : t.esc.toNat < 513 := by omega
  have h0 : t.next.toNat < 513 := by omega
  have h1 : (t.next + 1).toNat < 513 := by bv_omega
  simp only [Tree.split, Tree.setSym_node, Tree.withEsc_node, Tree.node_setNode _ _ _ _ h1, Tree.setOrd_node,
    Tree.node_setNode _ _ _ _ h0, Tree.node_modNode _ _ _ _ he, Tree.withNext_node]
  rfl

theorem Tree.SpecInv.split_ordAt (s : Idx) : (t.split c).1.ordAt s =
    if s = (t.node t.esc).pos - 2 then t.next + 1 else if s = (t.node t.esc).pos - 1 then t.next else t.ordAt s := by
  have hroom := h.split_room hc
  have hpe := h.allocation.posEsc
  have h1 : ((t.node t.esc).pos - 1).toNat < 513 := by bv_omega
  have h2 : ((t.node t.esc).pos - 2).toNat < 513 := by bv_omega
  simp only [Tree.split, Tree.setSym_ordAt, Tree.withEsc_ordAt, Tree.ordAt_setOrd _ _ _ _ h2, Tree.setNode_ordAt,
    Tree.ordAt_setOrd _ _ _ _ h1, Tree.modNode_ordAt, Tree.withNext_ordAt]

end

/-- Settles O31: the split writes three entries, two slots and one table entry, at different indices each. -/
theorem splitReplacesTheEscapeLeaf : Obligations.SplitReplacesTheEscapeLeaf := by
  intro t c h hc
  have hroom := h.split_room hc
  have hesc := h.escRoot.escAllocated
  have hnode := h.split_node hc
  have hord := h.split_ordAt hc
  have hsym := t.split_symEntry c
  have d1 : t.next ≠ t.next + 1 := by bv_omega
  have d2 : t.esc ≠ t.next := by bv_omega
  have d3 : t.esc ≠ t.next + 1 := by bv_omega
  have d4 : (t.node t.esc).pos - 1 ≠ (t.node t.esc).pos - 2 := by bv_omega
  refine ⟨rfl, t.split_next c, t.split_esc c, ?_, ?_, ?_, fun n he hs hn => ?_, ?_, ?_, fun k h1 h2 => ?_, ?_,
    fun d hd => ?_⟩
  · rw [hnode, if_neg d3, if_neg d2, if_pos rfl, Tree.splitNode]
  · rw [hnode, if_neg d1, if_pos rfl, Tree.newSymLeaf]
  · rw [hnode, if_pos rfl, Tree.newEscLeaf]
  · rw [hnode, if_neg hn, if_neg hs, if_neg he]
  · rw [hord, if_neg d4, if_pos rfl]
  · rw [hord, if_pos rfl]
  · rw [hord, if_neg h2, if_neg h1]
  · rw [hsym, if_pos rfl]
  · rw [hsym, if_neg hd]

/-! ## `SWAP` (R128) -/

/-- The two child-pointer writes of `SWAP`: where both write one pointer, the second stands. -/
theorem Tree.setChild_setChild_node (t : Tree) {p r : Idx} (m l n : Idx) (d e : Side) (hp : p.toNat < 513)
    (hr : r.toNat < 513) : ((t.setChild p d m).setChild r e l).node n =
      { t.node n with
        left := if n = r ∧ e = .left then l else if n = p ∧ d = .left then m else (t.node n).left
        right := if n = r ∧ e ≠ .left then l else if n = p ∧ d ≠ .left then m else (t.node n).right } := by
  rw [Tree.setChild_node _ _ _ _ _ hr, Tree.setChild_node _ _ _ _ _ hp]

/-- A node that is neither parent keeps its children. -/
theorem Tree.setChild_setChild_node_ne (t : Tree) {p r n : Idx} (m l : Idx) (d e : Side) (hp : n ≠ p) (hr : n ≠ r) :
    ((t.setChild p d m).setChild r e l).node n = t.node n :=
  (Tree.node_modNode_ne _ _ hr).trans (Tree.node_modNode_ne _ _ hp)

theorem Tree.swap_ordAt (t : Tree) {a b : Idx} (ha : (t.node a).pos.toNat < 513) (hb : (t.node b).pos.toNat < 513)
    (k : Idx) : (t.swap a b).ordAt k =
      if k = (t.node b).pos then a else if k = (t.node a).pos then b else t.ordAt k := by
  simp only [Tree.swap, Tree.ordAt_setOrd _ _ _ _ ha, Tree.ordAt_setOrd _ _ _ _ hb, Tree.modNode_ordAt,
    Tree.setChild_ordAt]

/-- Settles O32: the writes of `SWAP`, read back one index at a time. -/
theorem swapExchangesTwoNodes : Obligations.SwapExchangesTwoNodes := by
  intro t a b pa pb sa sb qa qb t' ha hb hpa hpb hqa hqb hab hpaa hpab hpba hpbb hq
  have hord := t.swap_ordAt hqa hqb
  refine ⟨?_, ?_, fun n hna hnb => ?_, ?_, ?_, fun k h1 h2 => ?_, t.swap_symtab a b, t.swap_esc a b, t.swap_next a b⟩
  · simp only [t', Tree.swap, Tree.setOrd_node]
    rw [Tree.node_modNode_ne _ _ hab, Tree.node_modNode _ _ _ _ ha, if_pos rfl,
      t.setChild_setChild_node_ne _ _ _ _ hpaa.symm hpba.symm]
  · simp only [t', Tree.swap, Tree.setOrd_node]
    rw [Tree.node_modNode _ _ _ _ hb, if_pos rfl, Tree.node_modNode_ne _ _ hab.symm,
      t.setChild_setChild_node_ne _ _ _ _ hpab.symm hpbb.symm]
  · simp only [t', Tree.swap, Tree.setOrd_node]
    rw [Tree.node_modNode_ne _ _ hnb, Tree.node_modNode_ne _ _ hna, t.setChild_setChild_node _ _ _ _ _ hpa hpb]
  · rw [hord, if_neg hq, if_pos rfl]
  · rw [hord, if_pos rfl]
  · rw [hord, if_neg h2, if_neg h1]

/-! ## `LEADER` (R129) -/

/-- In order, everything above a slot of weight `w` is heavier if the next slot does not weigh `w` (R51). -/
theorem Tree.OrderInv.lt_above {t : Tree} (ho : t.OrderInv) {s u : Idx} {w : Nat} (hlow : 513 - t.next.toNat ≤ s.toNat)
    (hw : (t.node (t.ordAt s)).weight = w) (htop : s.toNat < 512 → (t.node (t.ordAt (s + 1))).weight ≠ w)
    (hsu : s.toNat < u.toNat) (hu : u.toNat ≤ 512) : w < (t.node (t.ordAt u)).weight := by
  have e := Idx.toNat_succ (s := s) (by omega)
  have hnext : w ≤ (t.node (t.ordAt (s + 1))).weight := hw ▸ ho s hlow (by omega)
  have habove := ho.slots (s := s + 1) (by omega) (u.toNat - (s + 1).toNat) u (by omega) hu
  have := htop (by omega)
  omega

/-- Settles O33: the scan stops at the top of the run; in order, what lies above it is heavier. -/
theorem leaderIsTheTopOfTheRun : Obligations.LeaderIsTheTopOfTheRun := by
  intro t q hq
  obtain ⟨hlo, hhi, hrun, htop⟩ := t.leaderSlot_spec (t.node q).weight 512 (t.node q).pos hq (by omega)
  refine ⟨_, rfl, hlo, hhi, hrun, htop, fun h hqa => ?_⟩
  rw [Tree.leader]
  generalize t.leaderSlot (t.node q).weight 512 (t.node q).pos = s at hlo hhi hrun htop ⊢
  have hlow := (h.allocation.posRange q hqa).1
  have hpos := h.allocation.ordPos q hqa
  have hw : (t.node (t.ordAt s)).weight = (t.node q).weight := by
    rcases Nat.lt_or_eq_of_le hlo with hlt | heq
    · exact hrun s hlt le_rfl
    · rw [← Idx.toNat_inj.1 heq, hpos]
  have habove (u : Idx) := h.order.lt_above (u := u) (by omega) hw htop
  refine ⟨⟨fun he => ?_, fun he => ?_⟩, fun u h1 h2 => (habove u h1 h2).ne'⟩
  · have hs : (t.node q).pos = s := by rw [← he, (h.allocation.posOrd s (by omega) hhi).2]
    refine or_iff_not_imp_left.2 fun hne => ?_
    have hlt : (t.node q).pos.toNat < 512 := by bv_omega
    have e := Idx.toNat_succ hlt
    exact habove _ (by rw [← hs]; omega) (by omega)
  · have hs : s.toNat ≤ (t.node q).pos.toNat := by
      by_contra hlt
      have e := Idx.toNat_succ (s := (t.node q).pos) (by omega)
      have := hrun ((t.node q).pos + 1) (by omega) (by omega)
      obtain he | he := he
      · rw [he] at hlt
        exact hlt hhi
      · omega
    rw [Idx.toNat_inj.1 (Nat.le_antisymm hs hlo), hpos]

end Sys2Proof.Machine
end

section
/-! Paths and ancestors (41_tree_model.md R137, R138), and what holds of every tree that observations make of the initial
one (R135, 10_state.md R50 to R57). -/

namespace Sys2Proof.Machine

/-! ## Ancestors -/

theorem Tree.ancestor_succ (t : Tree) (n : Idx) (k : Nat) : t.ancestor n (k + 1) = t.ancestor (t.node n).parent k := by
  induction k with
  | zero => rfl
  | succ k ih => rw [Tree.ancestor, ih, Tree.ancestor]

/-- `SIDE` is the branch bit of every node that is a child (R25). -/
theorem Side.branch_eq {d : Side} (h : d ≠ .none) : d.branch = decide (d = .right) := by
  cases d with
  | none => exact absurd rfl h
  | _ => rfl

/-- Settles O30: a path is the parent's path and then the node's own branch bit. -/
theorem pathIsTheSidesOfTheAncestors : Obligations.PathIsTheSidesOfTheAncestors := by
  intro t n hi hn
  have h := hi.shape
  refine ⟨t.path_length_le n, ?_⟩
  refine h.induction_down (P := fun n => t.ancestor n (t.path n).length = ROOT ∧ ∀ k, k < (t.path n).length →
    t.ancestor n k ≠ ROOT ∧
      (t.path n)[(t.path n).length - 1 - k]? = some (decide ((t.node (t.ancestor n k)).side = .right))) ?_ ?_ hn
  · exact ⟨rfl, fun k hk => absurd hk (Nat.not_lt_zero k)⟩
  · rintro n hn hr ⟨hroot, ih⟩
    have hside : (t.node n).side ≠ .none := by
      obtain ⟨-, ⟨e, -⟩ | ⟨e, -⟩⟩ := h.links.parent n hn hr <;> simp [e]
    rw [h.path_of_ne_root hn hr, List.length_append, List.length_singleton, Nat.add_sub_cancel, Tree.ancestor_succ]
    refine ⟨hroot, fun k hk => ?_⟩
    cases k with
    | zero =>
      rw [Nat.sub_zero, List.getElem?_concat_length, Side.branch_eq hside]
      exact ⟨hr, rfl⟩
    | succ k =>
      rw [Tree.ancestor_succ, List.getElem?_append_left (by omega), ← Nat.sub_sub, Nat.sub_right_comm]
      exact ih k (by omega)

/-! ## Every observed tree (R135) -/

/-- Settles O37: `PROPAGATE` keeps the invariant round by round. -/
theorem observeKeepsTheTreeInvariant : Obligations.ObserveKeepsTheTreeInvariant := fun _ c h => h.observe c

/-- R57: the paths of two leaves are no initial parts of each other. -/
theorem Tree.Shape.eq_of_isPrefix {t : Tree} (h : t.Shape) {a b : Idx} (ha : a < t.next) (hb : b < t.next)
    (hka : (t.node a).kind ≠ .int) (hp : t.path a <+: t.path b) : a = b := by
  by_cases e : t.path a = t.path b
  · exact h.path_injective ha hb e
  · obtain ⟨m, hm, hk, hpath⟩ := h.path_of_isPrefix hb hp e
    exact absurd (h.path_injective hm ha hpath ▸ hk) hka

theorem Tree.Inv.observeAll {t : Tree} (h : t.Inv) (bytes : List Byte) :
    (t.observeAll bytes).Inv ∧ (t.observeAll bytes).rootWeight = t.rootWeight + bytes.length := by
  induction bytes generalizing t with
  | nil => exact ⟨h, rfl⟩
  | cons b bytes ih =>
    obtain ⟨hi, hw⟩ := ih (h.observe b)
    rw [h.observe_rootWeight, Nat.add_assoc, Nat.add_comm 1] at hw
    exact ⟨hi, hw⟩

/-- Settles O38: the initial tree meets the invariant and every observation keeps it, so R50 to R56 hold; the paths
have the lengths of R57, and no leaf's path is an initial part of another's. -/
theorem everyObservedTreeMeetsTheInvariants : Obligations.EveryObservedTreeMeetsTheInvariants := by
  intro bytes
  obtain ⟨hi, hw⟩ := Tree.initial_inv.observeAll bytes
  rw [Tree.initial_rootWeight, Nat.zero_add] at hw
  refine ⟨hi.spec, hw, fun n hn => ?_, fun a b ha hb hka _ hp => hi.shape.eq_of_isPrefix ha hb hka hp⟩
  obtain ⟨hlen, hroot, -⟩ := pathIsTheSidesOfTheAncestors _ n hi hn
  exact ⟨hlen, hroot⟩

end Sys2Proof.Machine
end

section
/-! What a whole propagation does (41_tree_model.md R126, R127, R130): the exchanges it makes, and the weights it
adds. -/

namespace Sys2Proof.Machine

/-! ## Where `PROPAGATE` stands -/

/-- Where `PROPAGATE` stands at the head of its loop, at its start after a split included. -/
inductive Tree.Standing : Tree → Idx → Prop where
  | climbing {t : Tree} {q : Idx} : t.AtHead q → t.Standing q
  | afterSplit {t : Tree} {c : Byte} : t.Inv → (t.symEntry c).seen = false → (t.split c).1.Standing t.next

section
variable {t : Tree} {q : Idx} (h : t.Standing q)
include h

theorem Tree.Standing.toClimbing : t.Climbing q := by
  cases h with
  | climbing h => exact h.elim (·.climbing) (·.climbing)
  | afterSplit hi hc => exact hi.split_climbing hc

theorem Tree.Standing.shape : t.Shape := h.toClimbing.shape

theorem Tree.Standing.alloc : q < t.next := h.toClimbing.alloc

theorem Tree.Standing.inv_of_root (hr : q = ROOT) : (t.bump ROOT).Inv := by
  cases h with
  | climbing h => exact (hr ▸ h : t.AtHead ROOT).inv_of_root
  | afterSplit hi hc => exact absurd hr hi.next_ne_root

/-- An exchange happens in a tree in order only (R131): not in the first round after a split, and not where `q` already
stands at the top of its run. -/
theorem Tree.Standing.kept_or_arrived : (t.leader q = q ∨ t.leader q = (t.node q).parent) ∨
    t.leader q ≠ q ∧ t.leader q ≠ (t.node q).parent ∧ t.Arrived q := by
  by_cases hl : t.leader q = q ∨ t.leader q = (t.node q).parent
  · exact .inl hl
  · have hl' := not_or.1 hl
    refine .inr ⟨hl'.1, hl'.2, ?_⟩
    cases h with
    | climbing h => exact h.resolve_right fun hr => hl'.1 hr.topOfRun
    | afterSplit hi hc => exact absurd ((hi.split_leader hc).trans (hi.split_parent hc).symm) hl'.2

/-- A round adds 1 to `q` and to nothing else (R130). -/
theorem Tree.Standing.round_weight (n : Idx) :
    ((t.propagateRound q).node n).weight = (t.node n).weight + if n = q then 1 else 0 := by
  have hq := h.shape.toNat_lt h.alloc
  rw [Tree.propagateRound, Tree.bump_weight _ hq]
  split
  · rw [Tree.swap_weight]
  · rfl

variable (hr : q ≠ ROOT)
include hr

/-- A round ends at the head of the next, a level nearer to the root. -/
theorem Tree.Standing.round : (t.propagateRound q).Standing ((t.propagateRound q).node q).parent ∧
    (t.propagateRound q).rank ((t.propagateRound q).node q).parent < t.rank q := by
  cases h with
  | climbing h => exact ⟨.climbing (h.round hr).1, (h.round hr).2⟩
  | @afterSplit t c hi hc =>
    have hC := hi.split_climbing hc
    have hrank := hC.shape.rank_parent_lt hC.alloc hr
    have hround := Tree.propagateRound_of_kept (.inr ((hi.split_leader hc).trans (hi.split_parent hc).symm))
    rw [hround, Tree.bump_parent, Tree.bump_rank]
    refine ⟨?_, hrank⟩
    rw [hi.split_parent hc]
    exact .climbing (.inr (hi.split_raisable hc))

/-- A round moves nothing that stands below `q`, and `q` itself not down. -/
theorem Tree.Standing.round_below : (t.node q).pos.toNat ≤ ((t.propagateRound q).node q).pos.toNat ∧
    ∀ n, (t.node n).pos.toNat < (t.node q).pos.toNat →
      ((t.propagateRound q).node n).parent = (t.node n).parent ∧
        ((t.propagateRound q).node n).pos = (t.node n).pos := by
  obtain hl | ⟨hlq, hlp, ha⟩ := h.kept_or_arrived
  · simp [Tree.propagateRound_of_kept hl]
  · have hl := h.shape.leader_spec h.alloc
    have hx := ha.exchangeable hr hl hlq hlp
    have hup := hl.above
    simp only [Tree.propagateRound_of_exchange hlq hlp, Tree.bump_parent, Tree.bump_pos]
    refine ⟨?_, fun n hn => ?_⟩
    · rwa [(h.shape.swap_place hx q).2.2, Equiv.swap_apply_left]
    · obtain ⟨ep, -, eq⟩ := h.shape.swap_place hx n
      rw [Equiv.swap_apply_of_ne_of_ne (by rintro rfl; omega) (by rintro rfl; omega)] at ep eq
      exact ⟨ep, eq⟩

end

/-! ## The induction over the rounds -/

section
variable {P : Tree → Idx → Nat → Tree → Prop}
  (root : ∀ t : Tree, t.Standing ROOT → P t ROOT 0 (t.bump ROOT))
  (round : ∀ (t : Tree) (q : Idx) (n : Nat) (u : Tree), t.Standing q → q ≠ ROOT →
    P (t.propagateRound q) ((t.propagateRound q).node q).parent n u → P t q (if t.exchanges q then n + 1 else n) u)
include root round

/-- What holds at the root, and before every round after which it holds, holds of the loop and of the number of its
exchanges: it ends at the root before its bound does (R127). -/
theorem Tree.Standing.propagateFrom_induction (fuel : Nat) {t : Tree} {q : Idx} (h : t.Standing q)
    (hf : t.rank q ≤ fuel) (swaps : Nat) :
    ∃ n, (t.propagateFrom fuel q swaps).2 = swaps + n ∧ P t q n (t.propagateFrom fuel q swaps).1 := by
  induction fuel generalizing t q swaps with
  | zero =>
    obtain rfl := h.shape.eq_root_of_rank h.alloc (Nat.le_zero.1 hf)
    exact ⟨0, rfl, root t h⟩
  | succ fuel ih =>
    by_cases hr : q = ROOT
    · subst hr
      rw [Tree.propagateFrom, if_pos rfl]
      exact ⟨0, rfl, root t h⟩
    · obtain ⟨hh, hrank⟩ := h.round hr
      obtain ⟨n, hn, hP⟩ := ih hh (by omega) (if t.exchanges q then swaps + 1 else swaps)
      rw [Tree.propagateFrom_succ _ _ _ hr]
      refine ⟨_, ?_, round t q n _ h hr hP⟩
      rw [hn]
      split <;> omega

theorem Tree.Standing.propagate_induction {t : Tree} {q : Idx} (h : t.Standing q) :
    P t q (t.propagate q).2 (t.propagate q).1 := by
  obtain ⟨n, hn, hP⟩ := Tree.Standing.propagateFrom_induction root round MAX_DEPTH h (t.rank_le q) 0
  rw [Nat.zero_add] at hn
  rw [Tree.propagate, hn]
  exact hP

end

/-! ## The exchanges (R127, R131) -/

/-- The rounds of the model are those of R127. -/
theorem Tree.Standing.propagated {t : Tree} {q : Idx} (h : t.Standing q) :
    t.Propagated q (t.propagate q).2 (t.propagate q).1 := by
  refine Tree.Standing.propagate_induction (fun t _ => .root t) (fun t q n u h hr hP => ?_) h
  obtain hl | ⟨hlq, hlp, -⟩ := h.kept_or_arrived
  · have hx : t.exchanges q = false := by obtain e | e := hl <;> simp [Tree.exchanges, e]
    rw [Tree.propagateRound_of_kept hl] at hP
    rw [hx]
    exact .keep hr hl hP
  · have hx : t.exchanges q = true := by simp [Tree.exchanges, hlq, hlp]
    rw [Tree.propagateRound_of_exchange hlq hlp] at hP
    rw [hx]
    exact .exchange hr hlq hlp hP

/-! ## The weights (R130) -/

/-- `n` is an allocated node, and `q` or one of its ancestors. -/
def Tree.OnPath (t : Tree) (q n : Idx) : Prop := ∃ k, t.ancestor q k = n ∧ n < t.next

theorem Tree.onPath_iff {t : Tree} {q n : Idx} (hq : q < t.next) :
    t.OnPath q n ↔ n = q ∨ t.OnPath (t.node q).parent n := by
  constructor
  · rintro ⟨k, hk, hn⟩
    cases k with
    | zero => exact .inl hk.symm
    | succ k => exact .inr ⟨k, (t.ancestor_succ q k).symm.trans hk, hn⟩
  · rintro (rfl | ⟨k, hk, hn⟩)
    · exact ⟨0, rfl, hq⟩
    · exact ⟨k + 1, (t.ancestor_succ q k).trans hk, hn⟩

theorem Tree.ancestor_NIL (t : Tree) (k : Nat) : t.ancestor NIL k = NIL := by
  induction k with
  | zero => rfl
  | succ k ih =>
    rw [Tree.ancestor, ih, Tree.node_NIL]
    rfl

section
variable {t : Tree} (h : t.Shape)
include h

theorem Tree.Shape.not_onPath_NIL (n : Idx) : ¬ t.OnPath NIL n := by
  rintro ⟨k, hk, hn⟩
  exact h.ne_NIL hn (hk.symm.trans (t.ancestor_NIL k))

theorem Tree.Shape.onPath_root (n : Idx) : t.OnPath ROOT n ↔ n = ROOT := by
  rw [Tree.onPath_iff h.root_alloc, h.links.root.2, or_iff_left (h.not_onPath_NIL n)]

/-- An ancestor stands at no lower slot. -/
theorem Tree.Shape.pos_le_of_onPath {m n : Idx} (hm : m < t.next) (hp : t.OnPath m n) :
    (t.node m).pos.toNat ≤ (t.node n).pos.toNat := by
  refine h.induction_down (P := fun m => t.OnPath m n → (t.node m).pos.toNat ≤ (t.node n).pos.toNat) ?_ ?_ hm hp
  · intro hp
    rw [(h.onPath_root n).1 hp]
  · intro m hm hr ih hp
    obtain rfl | hp := (Tree.onPath_iff hm).1 hp
    · exact le_rfl
    · exact (h.pos_lt_parent hm hr).le.trans (ih hp)

theorem Tree.Shape.not_onPath_parent {n : Idx} (hn : n < t.next) (hr : n ≠ ROOT) : ¬ t.OnPath (t.node n).parent n :=
  fun hp => Nat.not_le_of_lt (h.pos_lt_parent hn hr) (h.pos_le_of_onPath (h.parent_alloc hn hr) hp)

end

/-- What `PROPAGATE`, started at `q`, makes of the tree `t` (R130): `u` has 1 more on the path from `q`, and what stood
below `q` hangs where it hung. -/
structure Tree.Raised (t : Tree) (q : Idx) (u : Tree) : Prop where
  inv : u.Inv
  next : u.next = t.next
  below : ∀ n, (t.node n).pos.toNat < (t.node q).pos.toNat → (u.node n).parent = (t.node n).parent
  added : ∀ n, u.OnPath q n → (u.node n).weight = (t.node n).weight + 1
  kept : ∀ n, ¬ u.OnPath q n → (u.node n).weight = (t.node n).weight

theorem Tree.Standing.raised_root {t : Tree} (h : t.Standing ROOT) : t.Raised ROOT (t.bump ROOT) := by
  have hi := h.inv_of_root rfl
  refine ⟨hi, t.bump_next ROOT, fun n _ => t.bump_parent ROOT n, fun n hn => ?_, fun n hn => ?_⟩
  · rw [hi.shape.onPath_root] at hn
    rw [t.bump_weight (by decide), if_pos hn]
  · rw [hi.shape.onPath_root] at hn
    rw [t.bump_weight (by decide), if_neg hn, Nat.add_zero]

/-- A round before a propagation from the parent: later rounds leave `q` where this one puts it. -/
theorem Tree.Standing.raised_round {t u : Tree} {q : Idx} (h : t.Standing q) (hr : q ≠ ROOT)
    (hu : (t.propagateRound q).Raised ((t.propagateRound q).node q).parent u) : t.Raised q u := by
  obtain ⟨hh, -⟩ := h.round hr
  obtain ⟨hup, hbelow⟩ := h.round_below hr
  have hnext := hu.next.trans (t.propagateRound_next q)
  have hq : q < (t.propagateRound q).next := by simpa using h.alloc
  have hpar := hh.shape.pos_lt_parent hq hr
  have hqp := hu.below q hpar
  have hqu : q < u.next := by rw [hnext]; exact h.alloc
  have hself : ¬ u.OnPath (u.node q).parent q := hu.inv.shape.not_onPath_parent hqu hr
  rw [hqp] at hself
  refine ⟨hu.inv, hnext, fun n hn => ?_, fun n hn => ?_, fun n hn => ?_⟩
  · obtain ⟨ep, eq⟩ := hbelow n hn
    rw [hu.below n (by rw [eq]; omega), ep]
  · rw [Tree.onPath_iff hqu, hqp] at hn
    obtain rfl | hn := hn
    · rw [hu.kept n hself, h.round_weight, if_pos rfl]
    · rw [hu.added n hn, h.round_weight, if_neg (by rintro rfl; exact hself hn)]
  · rw [Tree.onPath_iff hqu, hqp, not_or] at hn
    rw [hu.kept n hn.2, h.round_weight, if_neg hn.1, Nat.add_zero]

theorem Tree.Standing.raised {t : Tree} {q : Idx} (h : t.Standing q) : t.Raised q (t.propagate q).1 :=
  Tree.Standing.propagate_induction (P := fun t q _ u => t.Raised q u) (fun _ h => h.raised_root)
    (fun _ _ _ _ h hr hu => h.raised_round hr hu) h

/-! ## An observation (R120, R126) -/

/-- The repeat case: `PROPAGATE` from the symbol's leaf (R126). -/
theorem Tree.observe_of_seen {t : Tree} {c : Byte} (hc : (t.symEntry c).seen = true) : t.observe c =
    { tree := (t.propagate (t.symEntry c).leaf).1, first := false, swaps := (t.propagate (t.symEntry c).leaf).2
      leaf := (t.symEntry c).leaf } := by
  have hleaf : ((t.propagate (t.symEntry c).leaf).1.symEntry c).leaf = (t.symEntry c).leaf := by simp [Tree.symEntry]
  simp [Tree.observe, hc, hleaf]

/-- The first occurrence: `SPLIT`, and `PROPAGATE` from the new symbol leaf (R120). -/
theorem Tree.observe_of_unseen {t : Tree} {c : Byte} (hc : (t.symEntry c).seen = false) : t.observe c =
    { tree := ((t.split c).1.propagate t.next).1, first := true, swaps := ((t.split c).1.propagate t.next).2
      leaf := t.next } := by
  have hleaf : (((t.split c).1.propagate t.next).1.symEntry c).leaf = t.next := by
    have := t.split_symEntry c c
    rw [if_pos rfl] at this
    rw [Tree.symEntry, Tree.propagate_symtab, ← Tree.symEntry, this]
  simp [Tree.observe, hc, hleaf]

theorem Tree.Inv.standing_of_seen {t : Tree} (h : t.Inv) {c : Byte} (hc : (t.symEntry c).seen = true) :
    t.Standing (t.symEntry c).leaf := .climbing (.inl (h.arrived_of_seen hc))

/-- The split changes no weight: the new leaves weigh 0, as free entries do. -/
theorem Tree.Shape.split_weight {t : Tree} (h : t.Shape) {c : Byte} (hc : (t.symEntry c).seen = false) (n : Idx) :
    ((t.split c).1.node n).weight = (t.node n).weight := by
  have h1 := (h.split_toNat hc).1
  obtain ⟨rfl, e⟩ | ⟨rfl, e⟩ | ⟨rfl, e⟩ | ⟨-, e⟩ := h.split_node_cases hc n <;> rw [e]
  · rw [h.allocation.free _ (by bv_omega)]
    rfl
  · rw [h.allocation.free _ (by bv_omega)]
    rfl
  · rfl

/-- What an observation adds to the weights of the tree (R130). -/
theorem Tree.Inv.observe_raised {t : Tree} (h : t.Inv) (c : Byte) :
    ∃ u : Tree, (∀ n, (u.node n).weight = (t.node n).weight) ∧ u.Raised (t.observe c).leaf (t.observe c).tree := by
  cases hc : (t.symEntry c).seen with
  | true =>
    rw [Tree.observe_of_seen hc]
    exact ⟨t, fun _ => rfl, (h.standing_of_seen hc).raised⟩
  | false =>
    rw [Tree.observe_of_unseen hc]
    exact ⟨(t.split c).1, h.shape.split_weight hc, (Tree.Standing.afterSplit h hc).raised⟩

/-- Settles O34: every round of `PROPAGATE` adds 1 to one node of the path, and no later round takes the node off it. -/
theorem observeAddsOneAlongThePath : Obligations.ObserveAddsOneAlongThePath := by
  intro t c h
  obtain ⟨u, hw, hu⟩ := h.observe_raised c
  exact ⟨fun n hn => hw n ▸ hu.added n hn, fun n hn => hw n ▸ hu.kept n hn, h.observe_rootWeight c⟩

end Sys2Proof.Machine
end

namespace Sys2Proof

/-- A word of format S is its `OP` above its operand (R101). -/
theorem layout_sym (op : BitVec 4) (sym : Byte) :
    layout op 0 sym = BitVec.ofNat 16 (op.toNat * 0x1000) + sym.setWidth 16 := by
  refine BitVec.eq_of_toNat_eq ?_
  rw [layout, Machine.toNat_append_eq, Machine.toNat_append_eq, BitVec.toNat_add, BitVec.toNat_setWidth]
  simp only [BitVec.ofNat_eq_ofNat, BitVec.toNat_ofNat]
  omega

end Sys2Proof

section
/-! The commands of the tree model family: OBSERVE, ISOBS, CODE and ESCCODE (41_tree_model.md R140 to R143). -/

namespace Sys2Proof.Machine

/-- A command that completes with nothing changed but the engine answers with that engine. -/
theorem State.complete_withEng (s : State) (g : Engine) (r : Word) :
    s.complete r { s.ctx with eng := g } = s.respond g r := by
  have hs : s.withStreams { s.ctx with eng := g } = s := s.withStreams_ctx
  rw [State.complete, hs]

/-! ## OBSERVE (R140) -/

theorem observeResponse_eq (first : Bool) {swaps : Nat} (leaf : Idx) (h : swaps ≤ 256) :
    observeResponse first swaps leaf = BitVec.ofNat 32 (leaf.toNat * 2 ^ 16 + swaps * 2 ^ 4 + first.toNat) := by
  refine Word.eq_ofNat ?_
  simp only [observeResponse, toNat_append_eq, BitVec.toNat_ofNat, BitVec.toNat_ofBool]
  omega

theorem Tree.propagate_swaps_le (t : Tree) (q : Idx) : (t.propagate q).2 ≤ 256 :=
  (t.propagateFrom_swaps_le MAX_DEPTH q 0).trans (Nat.zero_add _).le

theorem observeBody_of_overflow {sym : Byte} {c : Ctx} (h : c.eng.tree.rootWeight = 2 ^ c.eng.weightBits - 1) :
    observeBody sym c = .fail .weightOvf c :=
  if_pos (beq_iff_eq.2 h)

theorem observeBody_of_room {sym : Byte} {c : Ctx} (h : c.eng.tree.rootWeight ≠ 2 ^ c.eng.weightBits - 1) :
    observeBody sym c = .done (observeResponse (c.eng.tree.observe sym).first (c.eng.tree.observe sym).swaps
      (c.eng.tree.observe sym).leaf) (c.observe sym) :=
  if_neg (by rwa [Engine.overflows, beq_iff_eq])

/-- Settles O35: the overflow check comes first (R133); then the command ends with the observation made, whose exchanges
are those of `PROPAGATE` from where it starts. -/
theorem observeUpdatesTheTreeOrFails : Obligations.ObserveUpdatesTheTreeOrFails := by
  refine fun sym s => ⟨layout_sym 2 sym, fun h => ?_, fun h => ?_, fun hi => ⟨fun hc => ?_, fun hc => ?_⟩⟩
  · have hle : (s.eng.tree.observe sym).swaps ≤ 256 := Tree.propagate_swaps_le _ _
    refine ⟨rfl, rfl, hle, ?_⟩
    rw [exec_observe, issue_eq, observeBody_of_room (c := s.ctx) h, State.settle_done, State.ctx_eng,
      observeResponse_eq _ _ hle]
    exact congrArg _ (s.complete_withEng _ _)
  · rw [exec_observe, issue_eq, observeBody_of_overflow (c := s.ctx) h, State.settle_fail, State.failWith_ctx,
      show encode (.observe sym) = _ from layout_sym 2 sym]
    rfl
  · rw [Tree.observe_of_unseen hc]
    exact (Tree.Standing.afterSplit hi hc).propagated
  · rw [Tree.observe_of_seen hc]
    exact (hi.standing_of_seen hc).propagated

/-! ## ISOBS (R141) -/

theorem isobsResponse_eq (e : SymEntry) : isobsResponse e = BitVec.ofNat 32 (e.leaf.toNat * 2 ^ 16 + e.seen.toNat) :=
  symWord_eq e

/-- Settles O28. -/
theorem isobsReportsTheSymbolEntry : Obligations.IsobsReportsTheSymbolEntry := by
  intro sym s
  refine ⟨layout_sym 3 sym, ?_⟩
  rw [exec_isobs, issue_eq, isobsBody, State.settle_done, State.complete_ctx, isobsResponse_eq]
  rfl

/-! ## CODE and ESCCODE (R142, R143) -/

theorem codeResponse_ofPath (p : List Bool) (h : p.length ≤ 256) :
    codeResponse (Code.ofPath p) = BitVec.ofNat 32 p.length := by
  refine Word.eq_ofNat ?_
  rw [codeResponse, BitVec.toNat_setWidth, Code.ofPath_len p h, Nat.mod_eq_of_lt (by omega)]

/-- The command ends with the path of node `n` derived (R138). -/
theorem State.complete_derivePath (s : State) (n : Idx) :
    s.complete (codeResponse (s.ctx.derivePath n).eng.code) (s.ctx.derivePath n) =
      s.respond { s.eng with code := Code.ofPath (s.eng.tree.path n) } (BitVec.ofNat 32 (s.eng.tree.path n).length) := by
  rw [← codeResponse_ofPath _ (s.eng.tree.path_length_le n)]
  exact s.complete_withEng _ _

theorem exec_code_of_seen {s : State} {sym : Byte} (h : (s.eng.tree.symEntry sym).seen = true) :
    exec (.code sym) s = .next (s.complete (codeResponse (s.ctx.derivePath (s.eng.tree.symEntry sym).leaf).eng.code)
      (s.ctx.derivePath (s.eng.tree.symEntry sym).leaf)) := by
  rw [exec_code, issue_eq, codeBody, State.ctx_eng, if_pos h]
  rfl

/-- Settles O29: both commands derive a path, and CODE fails before it where the symbol is unseen. -/
theorem codeAndEsccodeDeriveThePath : Obligations.CodeAndEsccodeDeriveThePath := by
  refine fun i sym s => ⟨fun n hi => ?_, fun h => ?_, fun h => by rw [h, Tree.path_root]⟩
  · have hle := s.eng.tree.path_length_le n
    refine ⟨Code.ofPath (s.eng.tree.path n), ?_, Code.ofPath_len _ hle, hle, fun j => Code.ofPath_getLsbD _ j hle⟩
    rw [← State.complete_derivePath]
    obtain ⟨rfl, hseen, rfl⟩ | ⟨rfl, rfl⟩ := hi
    · exact exec_code_of_seen hseen
    · rfl
  · rw [exec_code, issue_eq, codeBody, State.ctx_eng, if_neg (by simp [h]), State.settle_fail, State.failWith_ctx,
      show encode (.code sym) = _ from layout_sym 4 sym]
    rfl

end Sys2Proof.Machine
end

section
/-! The walker family (42_walker.md): WRESET, WADV, and the walk along a path (R162, R163, R166). -/

namespace Sys2Proof.Machine

/-! ## WRESET (R162) -/

/-- Settles O24. -/
theorem wresetReturnsTheCursor : Obligations.WresetReturnsTheCursor := by
  refine ⟨by decide, fun s => ?_⟩
  rw [exec_wreset, issue_eq, wresetBody, State.settle_done]
  exact congrArg _ (s.complete_withEng _ _)

/-! ## WADV (R163) -/

theorem encode_wadv (bit : Bool) : encode (.wadv bit) = 0x6100#16 + BitVec.ofNat 16 bit.toNat := by
  cases bit <;> decide

/-- The walker flags as propositions about the kind of the node reached (R161, R165). -/
theorem Walker.arrive_eq (n : Idx) (x : Node) : Walker.arrive n x =
    { cur := n
      res := decide (x.kind = .esc ∨ x.kind = .sym)
      isSym := decide (x.kind = .sym)
      sym := if x.kind = .sym then x.symv else 0 } := by
  cases h : x.kind <;> simp [Walker.arrive, h]

theorem wadvResponse_arrive (n : Idx) (x : Node) : wadvResponse (Walker.arrive n x) =
    BitVec.ofNat 32 (n.toNat * 2 ^ 16 + (if x.kind = .sym then x.symv.toNat else 0) * 2 ^ 8 +
      (if x.kind = .sym then 3 else if x.kind = .esc then 1 else 0)) := by
  refine Word.eq_ofNat ?_
  rw [Walker.arrive_eq]
  simp only [wadvResponse, toNat_append_eq, BitVec.toNat_ofNat, BitVec.toNat_ofBool]
  cases x.kind <;> simp <;> omega

/-- From an internal node WADV moves the cursor to the child its bit names, and reports what it has reached. -/
theorem exec_wadv_of_int {s : State} {n : Idx} (bit : Bool) (hk : s.eng.curKind = .int)
    (hn : (s.eng.tree.node s.eng.walker.cur).child bit = n) :
    exec (.wadv bit) s = .next (s.respond { s.eng with walker := Walker.arrive n (s.eng.tree.node n) }
      (wadvResponse (Walker.arrive n (s.eng.tree.node n)))) := by
  subst hn
  rw [exec_wadv, issue_eq, wadvBody, State.ctx_eng, if_pos hk, State.settle_done]
  exact congrArg _ (s.complete_withEng _ _)

/-- On any other node it fails, and changes nothing. -/
theorem exec_wadv_of_not_int {s : State} (bit : Bool) (hk : s.eng.curKind ≠ .int) :
    exec (.wadv bit) s = .next (s.afterFailure .walkAtLeaf (encode (.wadv bit))) := by
  rw [exec_wadv, issue_eq, wadvBody, State.ctx_eng, if_neg hk, State.settle_fail, State.failWith_ctx]

/-- Settles O25: the two branches of WADV, with the flags and the response as numbers. -/
theorem wadvMovesTheCursorOrFails : Obligations.WadvMovesTheCursorOrFails := by
  refine fun bit s => ⟨encode_wadv bit, fun hk => ?_, fun hk => ?_⟩
  · rw [← Walker.arrive_eq, ← wadvResponse_arrive]
    exact exec_wadv_of_int bit hk rfl
  · rw [← encode_wadv]
    exact exec_wadv_of_not_int bit hk

/-! ## The walk along a path (R166) -/

theorem execAll_append_of_next {is : List Instr} {s t : State} (js : List Instr) (h : execAll is s = .next t) :
    execAll (is ++ js) s = execAll js t := by
  induction is generalizing s with
  | nil =>
    cases h
    rfl
  | cons i is ih =>
    obtain ⟨u, hu⟩ := exec_next i s
    simp only [List.cons_append, execAll, hu] at h ⊢
    exact ih h

/-- `t` is `s` after a walk from the root to node `n`: the tree and the error record are as they were, and the registers
show the node the last WADV has reached, if there was one. -/
structure State.WalkedTo (s : State) (n : Idx) (t : State) : Prop where
  tree : t.eng.tree = s.eng.tree
  error : t.eng.error = s.eng.error
  cur : t.eng.walker.cur = n
  arrived : n ≠ ROOT → t.eng.walker = Walker.arrive n (s.eng.tree.node n)

/-- From the parent of a node, the WADV of its branch bit goes on to the node. -/
theorem State.WalkedTo.advance {s t : State} {n : Idx} (h : s.eng.tree.Shape) (hn : n < s.eng.tree.next)
    (hr : n ≠ ROOT) (ht : s.WalkedTo (s.eng.tree.node n).parent t) :
    ∃ u, exec (.wadv (s.eng.tree.node n).side.branch) t = .next u ∧ s.WalkedTo n u := by
  have hk : t.eng.curKind = .int := by rw [Engine.curKind, ht.tree, ht.cur, h.parent_int hn hr]
  have hc : (t.eng.tree.node t.eng.walker.cur).child (s.eng.tree.node n).side.branch = n := by
    rw [ht.tree, ht.cur, h.child_branch hn hr]
  exact ⟨_, exec_wadv_of_int _ hk hc, ht.tree, ht.error, rfl, fun _ => by rw [← ht.tree]; rfl⟩

/-- From the root, the WADV commands of the bits of a node's path walk to the node. -/
theorem execAll_path {s : State} (h : s.eng.tree.Shape) (hcur : s.eng.walker.cur = ROOT) {n : Idx}
    (hn : n < s.eng.tree.next) : ∃ t, execAll ((s.eng.tree.path n).map .wadv) s = .next t ∧ s.WalkedTo n t := by
  refine h.induction_down (P := fun n => ∃ t, execAll ((s.eng.tree.path n).map .wadv) s = .next t ∧ s.WalkedTo n t)
    ?_ ?_ hn
  · exact ⟨s, rfl, rfl, rfl, hcur, fun hr => absurd rfl hr⟩
  · rintro n hn hr ⟨t, hrun, ht⟩
    obtain ⟨u, hstep, hu⟩ := ht.advance h hn hr
    refine ⟨u, ?_, hu⟩
    rw [h.path_of_ne_root hn hr, List.map_append, execAll_append_of_next _ hrun]
    simp only [List.map_cons, List.map_nil, execAll, hstep]

/-- On an allocated leaf the walker has resolved, and shows the symbol of the leaf, which is 0 on the escape leaf. -/
theorem Tree.Shape.arrive_leaf {t : Tree} (h : t.Shape) {n : Idx} (hn : n < t.next) (hk : (t.node n).kind ≠ .int) :
    Walker.arrive n (t.node n) =
      { cur := n, res := true, isSym := decide ((t.node n).kind = .sym), sym := (t.node n).symv } := by
  rw [Walker.arrive_eq]
  have hfree := h.allocation.allocated n hn
  cases e : (t.node n).kind with
  | free => exact absurd e hfree
  | int => exact absurd e hk
  | sym => rfl
  | esc => simp [h.symbols.other n (by rw [e]; decide)]

/-- Settles O27: the walk goes along the path, and what the last WADV has reached is the leaf. -/
theorem walkingAPathEndsAtItsLeaf : Obligations.WalkingAPathEndsAtItsLeaf := by
  intro s n hi hn hk hr hw
  obtain ⟨t, hrun, ht⟩ := execAll_path hi.shape (congrArg Walker.cur hw) hn
  have hleaf := (ht.arrived hr).trans (hi.shape.arrive_leaf hn hk)
  exact ⟨t, hrun, ht.tree, ht.cur, congrArg Walker.res hleaf, congrArg Walker.isSym hleaf, congrArg Walker.sym hleaf,
    ht.error⟩

end Sys2Proof.Machine
end

section
/-! Which commands move the cursor, and where it stands when a command has ended (42_walker.md R167). -/

namespace Sys2Proof.Machine

/-! ## How a run ends -/

/-- The run is done in `P` or has failed in `F`; nothing is said of a run that waits. -/
def Run.Ends {α : Type} (P F : Engine → Prop) : Run α → Prop
  | .done _ c => P c.eng
  | .fail _ c => F c.eng
  | .wait _ _ => True

theorem Run.Ends.bind {α β : Type} {P Q F : Engine → Prop} {r : Run α} {f : α → Ctx → Run β} (h : r.Ends Q F)
    (hf : ∀ (a : α) (d : Ctx), Q d.eng → (f a d).Ends P F) : (r.bind f).Ends P F := by
  cases r with
  | done a d => exact hf a d h
  | fail e d => exact h
  | wait p d => trivial

theorem Run.Ends.mono {α : Type} {P Q F : Engine → Prop} {r : Run α} (h : r.Ends Q F) (hQ : ∀ g, Q g → P g) :
    r.Ends P F := by
  cases r with
  | done a d => exact hQ d.eng h
  | fail e d => exact h
  | wait p d => trivial

section
variable {P F : Engine → Prop}

theorem outWrite_ends (v : Byte) {c : Ctx} (h : P c.eng) : (outWrite v c).Ends P F := by
  unfold outWrite
  split
  · exact h
  · trivial
  · exact h

theorem inRead_ends {c : Ctx} (h : P c.eng) : (inRead c).Ends P F := by
  unfold inRead
  split
  · exact h
  · split
    · exact h
    · trivial

/-- The packer primitives do not fail, so their runs are done in what they keep. -/
theorem Engine.PackKept.putAll_ends (hP : PackKept P) (bs : List Bool) {c : Ctx} (h : P c.eng) :
    (Machine.putAll bs c).Ends P F := by
  induction bs generalizing c with
  | nil => exact h
  | cons b bs ih =>
    refine .bind (Q := P) ?_ fun _ d hd => ih hd
    obtain ⟨hc, e⟩ | ⟨-, -, e⟩ | ⟨-, -, e⟩ := putBit_cases b c <;> rw [e]
    · exact hP.shift c.eng b h hc
    · exact hP.empty c.eng h
    · trivial

theorem Engine.PackKept.flushCore_ends (hP : PackKept P) {c : Ctx} (h : P c.eng) : (Machine.flushCore c).Ends P F := by
  obtain ⟨-, e⟩ | ⟨-, -, e⟩ | ⟨-, -, e⟩ := flushCore_cases c <;> rw [e]
  · exact h
  · exact hP.empty c.eng h
  · trivial

/-- The unpacker primitives and the descent do not fail either. -/
theorem Engine.UnpackKept.getBit_ends (hP : UnpackKept P) {c : Ctx} (h : P c.eng) : (Machine.getBit c).Ends P F := by
  obtain ⟨hc, e⟩ | ⟨-, v, rest, -, e⟩ | ⟨-, -, -, e⟩ | ⟨-, -, -, e⟩ := getBit_cases c <;> rw [e]
  · exact hP.take c.eng h hc
  · exact hP.fetch c.eng v h
  · exact h
  · trivial

theorem Engine.UnpackKept.getBitsFrom_ends (hP : UnpackKept P) (n : Nat) (v : Byte) (k : Nat) {c : Ctx} (h : P c.eng) :
    (Machine.getBitsFrom n v k c).Ends P F := by
  induction n generalizing v k c with
  | zero => exact h
  | succ n ih =>
    refine .bind (hP.getBit_ends h) fun b d hd => ?_
    cases b with
    | none => exact hd
    | some b => exact ih _ _ hd

theorem Engine.UnpackKept.descend_ends (hP : UnpackKept P) (hw : WalkKept P) (fuel : Nat) {c : Ctx} (h : P c.eng) :
    (Machine.descend fuel c).Ends P F := by
  induction fuel generalizing c with
  | zero => exact h
  | succ fuel ih =>
    unfold Sys2Proof.Machine.descend
    split
    · refine .bind (hP.getBit_ends h) fun b d hd => ?_
      cases b with
      | none => exact hd
      | some b => exact ih (hw.arrive d.eng _ hd)
    · exact h

end

/-! ## The cursor after the sequencers (44_sequencers.md R191 to R198) -/

/-- The cursor is at the root. -/
def Engine.AtRoot (g : Engine) : Prop := g.walker.cur = ROOT

/-- The cursor is at the root, unless the tree is still `t`. -/
def Engine.AtRootUnless (t : Tree) (g : Engine) : Prop := g.tree ≠ t → g.AtRoot

theorem Engine.AtRoot.unless {g : Engine} (h : g.AtRoot) (t : Tree) : g.AtRootUnless t := fun _ => h

theorem Engine.atRoot_unpackKept : UnpackKept AtRoot := ⟨fun _ h _ => h, fun _ _ h => h⟩

theorem Engine.atRootUnless_packKept (t : Tree) : PackKept (AtRootUnless t) := ⟨fun _ _ h _ => h, fun _ h => h⟩

theorem Engine.atRootUnless_unpackKept (t : Tree) : UnpackKept (AtRootUnless t) := ⟨fun _ h _ => h, fun _ _ h => h⟩

section
variable {F : Engine → Prop}

/-- Whatever the packer holds, the observation that ends `ENCB_CORE` returns the cursor (R136, R191). -/
theorem encbCore_ends (b : Byte) (c : Ctx) : (encbCore b c).Ends Engine.AtRoot F := by
  have hput (bs : List Bool) (d : Ctx) : (putAll bs d).Ends (fun _ => True) F :=
    Engine.PackKept.putAll_ends ⟨fun _ _ _ _ => trivial, fun _ _ => trivial⟩ bs trivial
  unfold encbCore
  split
  · exact .bind (hput _ _) fun _ _ _ => rfl
  · exact .bind (hput _ _) fun _ d _ => .bind (hput _ d) fun _ _ _ => rfl

theorem encendCore_ends (t : Tree) {c : Ctx} (h : c.eng.AtRootUnless t) :
    (encendCore c).Ends (Engine.AtRootUnless t) F := by
  have hP := Engine.atRootUnless_packKept t
  unfold encendCore
  split
  · exact .bind (hP.putAll_ends _ h) fun _ _ hd => .bind (hP.putAll_ends _ hd) fun _ _ he =>
      .bind (hP.flushCore_ends he) fun _ _ hf => hf
  · exact .bind (hP.flushCore_ends h) fun _ _ hd => hd

/-- A decoded byte is observed, which returns the cursor (R136, R195). -/
theorem decodeByte_ends (v : Byte) (c : Ctx) : (decodeByte v c).Ends Engine.AtRoot F :=
  .bind (outWrite_ends (P := fun _ => True) v trivial) fun _ _ _ => rfl

theorem decodeFirst_ends (t : Tree) {c : Ctx} (h : c.eng.AtRootUnless t) :
    (decodeFirst c).Ends (Engine.AtRootUnless t) F := by
  refine .bind ((Engine.atRootUnless_unpackKept t).getBitsFrom_ends 8 0 0 h) fun g d hd => ?_
  split
  · exact hd
  · exact .bind (decodeByte_ends g.v d) fun _ _ he => he.unless t

theorem decodeLiteral_ends {c : Ctx} (h : c.eng.AtRoot) : (decodeLiteral c).Ends Engine.AtRoot F := by
  refine .bind (Engine.atRoot_unpackKept.getBitsFrom_ends 8 0 0 h) fun g d hd => ?_
  split
  · exact hd
  · split
    · exact hd
    · exact decodeByte_ends g.v d

/-- The descent leaves the cursor anywhere; every end after it clears the walker first (R195). -/
theorem decodeNext_ends (c : Ctx) : (decodeNext c).Ends Engine.AtRoot F := by
  have hdesc (fuel : Nat) : (descend fuel c.walkClear).Ends (fun _ => True) F :=
    Engine.UnpackKept.descend_ends ⟨fun _ _ _ => trivial, fun _ _ _ => trivial⟩
      ⟨fun _ _ => trivial, fun _ _ _ => trivial⟩ fuel trivial
  refine .bind (hdesc _) fun r d _ => ?_
  split
  · split
    · exact decodeByte_ends _ _
    · exact decodeLiteral_ends rfl
  · rfl

end

theorem decstepCore_ends (t : Tree) {c : Ctx} (h : c.eng.AtRootUnless t) :
    (decstepCore c).Ends (Engine.AtRootUnless t) (Engine.AtRootUnless t) := by
  unfold decstepCore
  split
  · exact h
  · split
    · exact h
    · split
      · exact decodeFirst_ends t h
      · exact (decodeNext_ends c).mono fun _ hg => hg.unless t

theorem encrunLoop_ends (t : Tree) (fuel n : Nat) {c : Ctx} (h : c.eng.AtRootUnless t) :
    (encrunLoop fuel n c).Ends (Engine.AtRootUnless t) (Engine.AtRootUnless t) := by
  induction fuel generalizing n c with
  | zero => exact h
  | succ fuel ih =>
    unfold encrunLoop
    split
    · exact h
    · refine .bind (inRead_ends h) fun v d hd => ?_
      cases v with
      | none => exact .bind (encendCore_ends t hd) fun _ _ he => he
      | some v => exact .bind (encbCore_ends v d) fun _ _ he => ih _ (he.unless t)

theorem decrunLoop_ends (t : Tree) (fuel n : Nat) {c : Ctx} (h : c.eng.AtRootUnless t) :
    (decrunLoop fuel n c).Ends (Engine.AtRootUnless t) (Engine.AtRootUnless t) := by
  induction fuel generalizing n c with
  | zero =>
    refine .bind (decstepCore_ends t h) fun r d hd => ?_
    split <;> exact hd
  | succ fuel ih =>
    refine .bind (decstepCore_ends t h) fun r d hd => ?_
    split
    · exact ih _ hd
    · exact hd

theorem Engine.initParts_atRootUnless (g : Engine) (mask : BitVec 5) : (g.initParts mask).AtRootUnless g.tree := by
  unfold AtRootUnless AtRoot
  rw [Engine.initParts_tree, Engine.initParts_walker]
  split
  · exact fun _ => rfl
  · exact fun h => absurd rfl h

/-! ## Whole commands -/

section
variable {P : Engine → Prop} (hP : ∀ g : Engine, g.AtRoot → P g)
include hP

/-- OBSERVE and ENCB end with the cursor at the root, or fail at once on the overflow check (R133). -/
theorem bodyOf_observe_ends (sym : Byte) {c : Ctx} (ho : c.eng.overflows = true → P c.eng) :
    (bodyOf (.observe sym) c).Ends P P := by
  simp only [bodyOf, observeBody]
  split
  · next h => exact ho h
  · exact hP _ rfl

theorem bodyOf_encb_ends (sym : Byte) {c : Ctx} (ho : c.eng.overflows = true → P c.eng) :
    (bodyOf (.encb sym) c).Ends P P := by
  simp only [bodyOf, encbBody]
  split
  · next h => exact ho h
  · exact .bind (encbCore_ends sym c) fun _ d hd => hP d.eng hd

end

/-- What the pseudocode of a command ends in, and what does not depend on `RESULT` and on the error record, holds of the
engine once the command has ended. -/
theorem exec_ended {P : Engine → Prop} (hP : ∀ g r x, P g → P { g with result := r, error := x }) {i : Instr}
    {s t : State} (he : exec i s = .next t) (hh : t.hold = none) (h : (bodyOf i s.ctx).Ends P P) : P t.eng := by
  obtain ⟨r, c, hb, rfl⟩ | ⟨e, c, hb, rfl⟩ | ⟨p, c, hb, rfl⟩ := exec_ends he
  · rw [hb] at h
    exact hP c.eng r c.eng.error h
  · rw [hb] at h
    exact hP c.eng (errorWord e) (c.eng.error.record e (encode i)) h
  · cases hh

/-! ## Commands that leave the walker alone -/

theorem Ctx.walker_packFixed : PackFixed fun c => c.eng.walker :=
  ⟨fun v c => congrArg Engine.walker (outWrite_eng v c), fun _ _ => rfl, fun _ _ => rfl⟩

theorem Engine.walker_unpackKept (w : Walker) : UnpackKept fun g => g.walker = w := ⟨fun _ h _ => h, fun _ _ h => h⟩

theorem bodyOf_code_walker (sym : Byte) (c : Ctx) : (bodyOf (.code sym) c).ctx.eng.walker = c.eng.walker := by
  simp only [bodyOf, codeBody]
  split <;> rfl

theorem bodyOf_getbits_walker (count : Nat) (c : Ctx) : (bodyOf (.getbits count) c).ctx.eng.walker = c.eng.walker :=
  Run.keeps_bind (P := fun g => g.walker = c.eng.walker)
    ((Engine.walker_unpackKept c.eng.walker).getBits count rfl) fun _ _ h => h

/-! ## The statement -/

/-- Settles O26: a command that may change the tree is followed to its ends, and every other one leaves the tree alone
and, but for WRESET and WADV, the walker too. -/
theorem cursorIsMovedOnlyByItsCommands : Obligations.CursorIsMovedOnlyByItsCommands := by
  intro i s t he
  have hw : t.eng.walker = (bodyOf i s.ctx).ctx.eng.walker := by
    obtain ⟨r, x, e⟩ := exec_eng he
    rw [e]
  obtain ⟨htree, -, -⟩ := treeAndStreamsMoveOnlyByTheirCommands i s t he
  have hunless (hh : t.hold = none) :=
    exec_ended (P := Engine.AtRootUnless s.eng.tree) (fun _ _ _ h => h) he hh
  have hroot (hh : t.hold = none) := exec_ended (P := Engine.AtRoot) (fun _ _ _ h => h) he hh
  obtain ⟨hput, hcode, hflush, hend⟩ := bodyOf_packing Ctx.walker_packFixed s.ctx
  have hstart : s.ctx.eng.AtRootUnless s.eng.tree := fun h => absurd rfl h
  have hbelow (ho : s.eng.tree.rootWeight ≠ 2 ^ s.eng.weightBits - 1) (h : s.eng.overflows = true) : s.eng.AtRoot :=
    nomatch (Engine.overflows_eq_false ho).symm.trans h
  cases i with
  | nop | isobs | esccode | setctrl => exact ⟨hw, trivial, fun _ h => absurd htree h⟩
  | code sym => exact ⟨hw.trans (bodyOf_code_walker sym s.ctx), trivial, fun _ h => absurd htree h⟩
  | getbits count => exact ⟨hw.trans (bodyOf_getbits_walker count s.ctx), trivial, fun _ h => absurd htree h⟩
  | putbits count value => exact ⟨hw.trans (hput count value), trivial, fun _ h => absurd htree h⟩
  | putcode => exact ⟨hw.trans hcode, trivial, fun _ h => absurd htree h⟩
  | flush => exact ⟨hw.trans hflush, trivial, fun _ h => absurd htree h⟩
  | encend => exact ⟨hw.trans hend, trivial, fun _ h => absurd htree h⟩
  | wreset => exact ⟨trivial, congrArg Walker.cur hw, fun _ h => absurd htree h⟩
  | wadv bit => exact ⟨trivial, trivial, fun _ h => absurd htree h⟩
  | init mask =>
    have hparts : t.eng.walker = _ := hw.trans (s.eng.initParts_walker mask)
    refine ⟨fun hm => ?_, fun hm => ?_, fun hh => hunless hh (s.eng.initParts_atRootUnless mask)⟩
    · rw [hparts, hm]
      rfl
    · rw [hparts, hm]
      rfl
  | observe sym =>
    exact ⟨trivial, fun hh ho => hroot hh (bodyOf_observe_ends (fun _ => id) sym (hbelow ho)),
      fun hh => hunless hh (bodyOf_observe_ends (fun _ hg => hg.unless _) sym fun _ => hstart)⟩
  | encb sym =>
    exact ⟨trivial, fun hh ho => hroot hh (bodyOf_encb_ends (fun _ => id) sym (hbelow ho)),
      fun hh => hunless hh (bodyOf_encb_ends (fun _ hg => hg.unless _) sym fun _ => hstart)⟩
  | encrun => exact ⟨trivial, trivial, fun hh => hunless hh (encrunLoop_ends _ _ _ hstart)⟩
  | decrun => exact ⟨trivial, trivial, fun hh => hunless hh (decrunLoop_ends _ _ _ hstart)⟩
  | decstep => exact ⟨trivial, trivial, fun hh => hunless hh (.bind (decstepCore_ends _ hstart) fun _ _ hd => hd)⟩

end Sys2Proof.Machine
end

section
/-! The bit packer and unpacker family: PUTBITS, PUTCODE, FLUSH and GETBITS (43_bit_io.md R177 to R180). -/

namespace Sys2Proof.Machine

/-! ## Words and responses -/

/-- A word of format P or G is its `OP`, its count less 1, and its `IMM` (R101, R102). -/
theorem layout_countField (op : BitVec 4) {count : Nat} (imm : Byte) (h1 : 1 ≤ count) (h8 : count ≤ 8) :
    layout op (countField count) imm = BitVec.ofNat 16 (op.toNat * 0x1000 + (count - 1) * 0x100 + imm.toNat) := by
  refine BitVec.eq_of_toNat_eq ?_
  rw [layout, toNat_append_eq, toNat_append_eq, countField_toNat, BitVec.toNat_ofNat]
  omega

theorem packResponse_eq {bytes n : Nat} (hb : bytes < 256) (hn : n < 512) :
    packResponse bytes n = BitVec.ofNat 32 (bytes * 2 ^ 16 + n) := by
  refine Word.eq_ofNat ?_
  simp only [packResponse, toNat_append_eq, BitVec.toNat_ofNat]
  omega

theorem getbitsResponse_eq (v : Byte) {k : Nat} (exh : Bool) (hk : k < 16) :
    getbitsResponse v k exh = BitVec.ofNat 32 (exh.toNat * 2 ^ 16 + k * 2 ^ 8 + v.toNat) := by
  refine Word.eq_ofNat ?_
  simp only [getbitsResponse, toNat_append_eq, BitVec.toNat_ofNat, BitVec.toNat_ofBool]
  omega

/-! ## PUTBITS and PUTCODE (R177, R178) -/

/-- A command that has written bytes and changed the packer alone answers with them written. -/
theorem State.complete_sending (s : State) (p : Packer) (bs : List Byte) (r : Word) :
    s.complete r (s.ctx.sending p bs) =
      ({ s with outBytes := s.outBytes ++ bs, outRoom := roomAfter s.outRoom bs.length } : State).respond
        { s.eng with packer := p } r := rfl

/-- Command `i` sends `bits` and answers their number and that of the bytes written: those bytes and the bits then pending
are the bits pending before followed by the new ones (R173). -/
def State.Sends (s : State) (i : Instr) (bits : List Bool) : Prop :=
  let n := (s.eng.packer.cnt.toNat + bits.length) / 8
  ∃ (bytes : List Byte) (p : Packer),
    exec i s = .next
      (({ s with outBytes := s.outBytes ++ bytes, outRoom := roomAfter s.outRoom n } : State).respond
        { s.eng with packer := p } (BitVec.ofNat 32 (n * 2 ^ 16 + bits.length))) ∧
    bytes.length = n ∧ p.cnt.toNat = (s.eng.packer.cnt.toNat + bits.length) % 8 ∧
    bytesBits bytes ++ p.pending = s.eng.packer.pending ++ bits

/-- A command that ends once `PUT_BIT` has sent each of its bits, with room for the bytes they fill. -/
theorem State.sends_of_putAll {s : State} {i : Instr} {bits : List Bool} (hlen : bits.length < 512)
    (hroom : roomFor s.outRoom ((s.eng.packer.cnt.toNat + bits.length) / 8))
    (hend : ∀ p bs, putAll bits s.ctx = .done () (s.ctx.sending p bs) →
      exec i s = .next (s.complete (packResponse bs.length bits.length) (s.ctx.sending p bs))) :
    s.Sends i bits := by
  obtain ⟨d, e, p, bs, rfl, hbits⟩ := putAll_sends bits s.ctx hroom
  obtain ⟨hl, hc⟩ : bs.length = (s.eng.packer.cnt.toNat + bits.length) / 8 ∧
    p.cnt.toNat = (s.eng.packer.cnt.toNat + bits.length) % 8 := Packer.counts_of_bits hbits
  have hcnt := s.eng.packer.cnt.isLt
  refine ⟨bs, p, ?_, hl, hc, hbits⟩
  rw [hend p bs e, s.complete_sending, packResponse_eq (by omega) hlen, hl]

theorem exec_putbits_sends {s : State} {count : Nat} {value : Byte} (h8 : count ≤ 8)
    (hroom : roomFor s.outRoom ((s.eng.packer.cnt.toNat + count) / 8)) :
    s.Sends (.putbits count value) (bitsDown value count) := by
  have hl := bitsDown_length value count
  refine State.sends_of_putAll (by omega) (by rwa [hl]) fun p bs e => ?_
  rw [exec_putbits, issue_eq, putbitsBody, e, hl]
  rfl

theorem Code.bits_length (k : Code) : k.bits.length = k.len.toNat := by
  rw [Code.bits, List.length_map, List.length_range]

theorem exec_putcode_sends {s : State}
    (hroom : roomFor s.outRoom ((s.eng.packer.cnt.toNat + s.eng.code.len.toNat) / 8)) :
    s.Sends .putcode s.eng.code.bits := by
  have hl := s.eng.code.bits_length
  refine State.sends_of_putAll (hl ▸ s.eng.code.len.isLt) (by rwa [hl]) fun p bs e => ?_
  rw [exec_putcode, issue_eq, putcodeBody, putCode, State.ctx_eng, e, hl]
  rfl

/-- Settles O39: `PUT_BITS` sends the bits of the operand (R174). -/
theorem putbitsSendsItsBits : Obligations.PutbitsSendsItsBits := by
  intro count value s h1 h8
  refine ⟨layout_countField 8 value h1 h8, fun hroom => ?_⟩
  have h := exec_putbits_sends (value := value) h8 hroom
  rwa [State.Sends, bitsDown_length] at h

/-- Settles O40: `PUT_CODE` sends the bits of the code buffer (R174). -/
theorem putcodeSendsTheCodeBuffer : Obligations.PutcodeSendsTheCodeBuffer := by
  refine ⟨by decide, fun s hroom => ?_⟩
  have h := exec_putcode_sends hroom
  rwa [State.Sends, Code.bits_length] at h

/-! ## FLUSH (R179) -/

/-- The bits below the shift are 0. -/
theorem bitsDown_shiftLeft_low (v : Byte) {m n : Nat} (h : n ≤ m) :
    bitsDown (v <<< m) n = List.replicate n false := by
  induction n with
  | zero => rfl
  | succ n ih =>
    rw [bitsDown, ih (by omega), List.replicate_succ, BitVec.getLsbD_shiftLeft, decide_eq_true (show n < m by omega)]
    simp

/-- A byte shifted left holds the bits it held, and then 0 bits (R172). -/
theorem bitsDown_shiftLeft (v : Byte) {m n : Nat} (h : m + n ≤ 8) :
    bitsDown (v <<< m) (m + n) = bitsDown v n ++ List.replicate m false := by
  induction n with
  | zero => exact bitsDown_shiftLeft_low v le_rfl
  | succ n ih =>
    have hbit : (v <<< m).getLsbD (m + n) = v.getLsbD n := by
      rw [BitVec.getLsbD_shiftLeft, decide_eq_true (show m + n < 8 by omega)]
      simp
    rw [← Nat.add_assoc, bitsDown, bitsDown, ih (by omega), hbit, List.cons_append]

/-- The byte FLUSH writes is the pending bits and the padding. -/
theorem Packer.literalBits_padded (p : Packer) :
    literalBits (p.buf <<< (8 - p.cnt.toNat)) = p.pending ++ List.replicate (8 - p.cnt.toNat) false := by
  have hcnt := p.cnt.isLt
  have h8 : 8 - p.cnt.toNat + p.cnt.toNat = 8 := by omega
  have h := bitsDown_shiftLeft p.buf h8.le
  rwa [h8] at h

/-- Settles O41: nothing is pending, or the byte goes out; with room, `FLUSH_CORE` does not wait (R172). -/
theorem flushPadsThePendingBits : Obligations.FlushPadsThePendingBits := by
  refine ⟨by decide, fun s => ?_⟩
  obtain ⟨hc, e⟩ | ⟨hc, -, e⟩ | ⟨hc, hr, -⟩ := flushCore_cases s.ctx
  · refine ⟨fun _ => ?_, fun h => absurd hc h⟩
    rw [exec_flush, issue_eq, flushBody, e, Run.done_bind, State.settle_done, s.complete_ctx, State.ctx_sent,
      List.length_nil, packResponse_eq (by decide) (by decide)]
    rfl
  · refine ⟨fun h => absurd h hc, fun _ _ => ⟨s.eng.packer.buf <<< (8 - s.eng.packer.cnt.toNat), ?_,
      (List.append_nil _).trans s.eng.packer.literalBits_padded⟩⟩
    have hresp := packResponse_eq (bytes := 1) (n := 8 - s.eng.packer.cnt.toNat) (by decide) (by omega)
    rw [Nat.one_mul] at hresp
    rw [exec_flush, issue_eq, flushBody, e, ← hresp]
    rfl
  · exact ⟨fun h => absurd h hc, fun _ hroom => absurd (hroom 0 hr) (by decide)⟩

/-! ## GETBITS (R176, R180) -/

theorem shiftBit_toNat : ∀ (v : Byte) (b : Bool), v.toNat < 128 →
    ((v <<< 1) ||| (BitVec.ofBool b).setWidth 8).toNat = 2 * v.toNat + b.toNat := by
  decide

/-- As long as no bit leaves the byte, shifting bits in reads them as a number. -/
theorem shiftBits_toNat {v : Byte} {k : Nat} {xs : List Bool} (hv : v.toNat < 2 ^ k) (hk : k + xs.length ≤ 8) :
    (shiftBits v xs).toNat = xs.foldl (fun n b => 2 * n + b.toNat) v.toNat := by
  induction xs generalizing v k with
  | nil => rfl
  | cons b xs ih =>
    rw [List.length_cons] at hk
    have hbit := shiftBit_toNat v b (hv.trans_le (Nat.pow_le_pow_right (by decide) (show k ≤ 7 by omega)))
    have hlt := b.toNat_lt
    rw [List.foldl_cons, ← hbit]
    exact ih (k := k + 1) (by rw [hbit, Nat.pow_succ]; omega) (by omega)

theorem shiftBits_zero_toNat {xs : List Bool} (h : xs.length ≤ 8) : (shiftBits 0 xs).toNat = bitsValue xs :=
  shiftBits_toNat (k := 0) (by decide) (by omega)

/-- The loop of `GET_BITS` for `m + n` bits is the loop for `m` and then, unless the input ran out, that for `n`. -/
theorem getBitsFrom_add (m n : Nat) (v : Byte) (k : Nat) (c : Ctx) :
    getBitsFrom (m + n) v k c = (getBitsFrom m v k c).bind fun g d =>
      if g.exh then .done g d else getBitsFrom n g.v g.k d := by
  induction m generalizing v k c with
  | zero => rw [Nat.zero_add]; rfl
  | succ m ih =>
    rw [Nat.succ_add, getBitsFrom, getBitsFrom, Run.bind_assoc]
    congr 1
    funext b d
    cases b with
    | none => rfl
    | some b => exact ih _ _ _

/-- With fewer bits left and `in_eod` raised, `GET_BITS(n)` gives all of them. -/
theorem getBitsFrom_read_all {n : Nat} {c : Ctx} (hok : c.eng.unpacker.Ok) (hn : c.bits.length < n) (he : c.eod = true)
    (v : Byte) (k : Nat) :
    ∃ d, getBitsFrom n v k c = .done { v := shiftBits v c.bits, k := k + c.bits.length, exh := true } d ∧
      c.ReadsTo c.bits d ∧ d.eng.walker = c.eng.walker := by
  obtain ⟨m, rfl⟩ := Nat.exists_eq_add_of_lt hn
  obtain ⟨d, e, hd, hw⟩ := getBitsFrom_read c.bits.length (rest := []) hok rfl (List.append_nil _).symm v k
  refine ⟨d, ?_, hd, hw⟩
  rw [Nat.add_assoc, getBitsFrom_add, e, Run.done_bind, if_neg Bool.false_ne_true, getBitsFrom,
    getBit_exhausted (hd.bits_left (List.append_nil _).symm) (hd.eod.trans he), Run.done_bind]

/-- The state after GETBITS, from what its loop gives. -/
theorem exec_getbits_of_done {s : State} {count : Nat} {xs : List Bool} {exh : Bool} {d : Ctx} (hd : s.ctx.ReadsTo xs d)
    (hw : d.eng.walker = s.eng.walker) (hlen : xs.length ≤ 8)
    (e : getBitsFrom count 0 0 s.ctx = .done { v := shiftBits 0 xs, k := 0 + xs.length, exh := exh } d) :
    exec (.getbits count) s = .next (({ s with inBytes := d.inp } : State).respond
      { s.eng with unpacker := d.eng.unpacker }
      (BitVec.ofNat 32 (exh.toNat * 2 ^ 16 + xs.length * 2 ^ 8 + bitsValue xs))) := by
  rw [exec_getbits, issue_eq, getbitsBody, getBits, e, Run.done_bind, State.settle_done, hd.complete, hw, Nat.zero_add,
    getbitsResponse_eq _ _ (show xs.length < 16 by omega), shiftBits_zero_toNat hlen]

/-- With no byte left, the last byte fetched is the last one offered. -/
theorem State.lastFetched_nil (s : State) : s.lastFetched [] = s.inBytes.getLastD s.eng.unpacker.buf := by
  rw [State.lastFetched, List.length_nil, Nat.sub_zero, List.take_length]

/-- Settles O42: `GET_BITS` reads the bits asked for, or all there are. -/
theorem getbitsTakesTheNextBits : Obligations.GetbitsTakesTheNextBits := by
  refine fun count s h1 h8 hok => ⟨layout_countField 0xB 0 h1 h8, fun hle => ?_, fun hlt he => ?_⟩
  · have hlen := List.length_take_of_le hle
    have hin := (List.take_append_drop count s.inputBits).symm
    obtain ⟨d, e, hd, hw⟩ := getBitsFrom_read (c := s.ctx) count hok hlen hin 0 0
    have hexec := exec_getbits_of_done (exh := false) hd hw (hlen.trans_le h8) (by rw [hlen]; exact e)
    refine ⟨d.eng.unpacker, d.inp, ?_, hd.input_left hin⟩
    rw [hexec, hlen, Bool.toNat_false, Nat.zero_mul, Nat.zero_add]
  · obtain ⟨d, e, hd, hw⟩ := getBitsFrom_read_all (c := s.ctx) hok hlt he 0 0
    obtain ⟨hi, hc, hb⟩ := hd.input_gone rfl
    refine ⟨d.eng.unpacker, ?_, hc, hb.trans s.lastFetched_nil⟩
    have hexec := exec_getbits_of_done hd hw (show s.inputBits.length ≤ 8 by omega) e
    rw [hi, Bool.toNat_true, Nat.one_mul] at hexec
    exact hexec

end Sys2Proof.Machine
end

section
/-! ENCB and ENCEND (44_sequencers.md R191, R192): the bits they send, in one sequence of `PUT_BIT`s. -/

namespace Sys2Proof.Machine

theorem encodeResponse_eq {bytes bits : Nat} (b : Bool) (hb : bytes < 256) (hn : bits < 512) :
    encodeResponse bytes b bits = BitVec.ofNat 32 (bytes * 2 ^ 16 + b.toNat * 2 ^ 12 + bits) := by
  refine Word.eq_ofNat ?_
  simp only [encodeResponse, toNat_append_eq, BitVec.toNat_ofNat, BitVec.toNat_ofBool]
  omega

/-! ## ENCB (R191) -/

theorem Tree.sentBits_length (t : Tree) (sym : Byte) : (t.sentBits sym).length =
    (t.path (t.sentLeaf sym)).length + if (t.symEntry sym).seen then 0 else 8 := by
  rw [Tree.sentBits, List.length_append]
  split
  · rfl
  · rw [literalBits_length]

theorem Tree.sentBits_length_le (t : Tree) (sym : Byte) : (t.sentBits sym).length ≤ 264 := by
  have hp := t.path_length_le (t.sentLeaf sym)
  rw [t.sentBits_length]
  split <;> omega

/-- Seen or not, `ENCB_CORE` sends one list of bits, and observes the byte. -/
theorem encbCore_eq (sym : Byte) (c : Ctx) : encbCore sym c =
    (putAll (c.eng.tree.sentBits sym) (c.derivePath (c.eng.tree.sentLeaf sym))).bind fun _ d => .done
      { bits := d.eng.code.len.toNat + if (c.eng.tree.symEntry sym).seen then 0 else 8
        mark := !(c.eng.tree.symEntry sym).seen } (d.observe sym) := by
  cases hs : (c.eng.tree.symEntry sym).seen with
  | true =>
    simp only [Tree.sentBits, Tree.sentLeaf, hs, if_true, List.append_nil]
    rw [encbCore, if_pos hs]
    simp only [putCode_derivePath]
    rfl
  | false =>
    simp only [Tree.sentBits, Tree.sentLeaf, hs, Bool.false_eq_true, if_false]
    rw [encbCore, if_neg (by simp [hs]), putAll_append, Run.bind_assoc]
    simp only [putCode_derivePath]
    rfl

/-- With room for the bytes its bits fill, `ENCB_CORE` is done. -/
theorem encbCore_sends (sym : Byte) {c : Ctx}
    (hroom : roomFor c.room ((c.eng.packer.cnt.toNat + (c.eng.tree.sentBits sym).length) / 8)) :
    ∃ p bs, encbCore sym c =
        .done { bits := (c.eng.tree.sentBits sym).length, mark := !(c.eng.tree.symEntry sym).seen }
          (((c.derivePath (c.eng.tree.sentLeaf sym)).sending p bs).observe sym) ∧
      bytesBits bs ++ p.pending = c.eng.packer.pending ++ c.eng.tree.sentBits sym := by
  obtain ⟨d, e, p, bs, rfl, hb⟩ := putAll_sends _ (c.derivePath (c.eng.tree.sentLeaf sym)) hroom
  refine ⟨p, bs, ?_, hb⟩
  have hlen : ((c.derivePath (c.eng.tree.sentLeaf sym)).sending p bs).eng.code.len.toNat =
      (c.eng.tree.path (c.eng.tree.sentLeaf sym)).length := Code.ofPath_len _ (c.eng.tree.path_length_le _)
  rw [encbCore_eq, e, Run.done_bind, hlen, ← Tree.sentBits_length]

/-- The state after ENCB, from the path it has derived and the bytes it has sent. -/
theorem State.complete_encoded (s : State) (sym : Byte) (n : Idx) (p : Packer) (bs : List Byte) (r : Word) :
    s.complete r (((s.ctx.derivePath n).sending p bs).observe sym) =
      ({ s with outBytes := s.outBytes ++ bs, outRoom := roomAfter s.outRoom bs.length } : State).respond
        { s.eng with
          tree := (s.eng.tree.observe sym).tree
          walker := Walker.cleared
          code := Code.ofPath (s.eng.tree.path n)
          packer := p } r := rfl

/-- With room, ENCB answers once its bits are sent and the byte is observed. -/
theorem exec_encb_sends {sym : Byte} {s : State} (ho : s.eng.tree.rootWeight ≠ 2 ^ s.eng.weightBits - 1)
    (hroom : roomFor s.outRoom ((s.eng.packer.cnt.toNat + (s.eng.tree.sentBits sym).length) / 8)) :
    ∃ p bs, exec (.encb sym) s = .next
        (({ s with outBytes := s.outBytes ++ bs, outRoom := roomAfter s.outRoom bs.length } : State).respond
          { s.eng with
            tree := (s.eng.tree.observe sym).tree
            walker := Walker.cleared
            code := Code.ofPath (s.eng.tree.path (s.eng.tree.sentLeaf sym))
            packer := p }
          (encodeResponse bs.length (!(s.eng.tree.symEntry sym).seen) (s.eng.tree.sentBits sym).length)) ∧
      bytesBits bs ++ p.pending = s.eng.packer.pending ++ s.eng.tree.sentBits sym := by
  obtain ⟨p, bs, e, hb⟩ := encbCore_sends (c := s.ctx) sym hroom
  refine ⟨p, bs, ?_, hb⟩
  rw [exec_encb, issue_eq, encbBody, State.ctx_eng, Engine.overflows_eq_false ho, if_neg Bool.false_ne_true, e,
    ← State.complete_encoded]
  rfl

theorem exec_encb_of_overflow {sym : Byte} {s : State} (ho : s.eng.tree.rootWeight = 2 ^ s.eng.weightBits - 1) :
    exec (.encb sym) s = .next (s.afterFailure .weightOvf (0xC000#16 + sym.setWidth 16)) := by
  have ho : s.eng.overflows = true := beq_iff_eq.2 ho
  rw [exec_encb, issue_eq, encbBody, State.ctx_eng, if_pos ho, State.settle_fail, State.failWith_ctx, encode, layout_sym]
  rfl

/-- Settles O45: the bits of the code, or of the escape code and the literal, go through the packer as one list. -/
theorem encbEmitsTheCodeAndObserves : Obligations.EncbEmitsTheCodeAndObserves := by
  refine fun sym s => ⟨layout_sym 0xC sym, ?_, exec_encb_of_overflow⟩
  intro ho seen path bits n hroom
  obtain ⟨p, bs, e, hb⟩ := exec_encb_sends ho hroom
  obtain ⟨hl, hc⟩ : bs.length = n ∧ p.cnt.toNat = (s.eng.packer.cnt.toNat + bits.length) % 8 :=
    Packer.counts_of_bits hb
  have hbits : bits.length ≤ 264 := s.eng.tree.sentBits_length_le sym
  have hcnt := s.eng.packer.cnt.isLt
  have hpath : path.length ≤ 256 := s.eng.tree.path_length_le _
  refine ⟨bs, p, Code.ofPath path, ?_, hl, hc, hb, Code.ofPath_len path hpath,
    fun i => Code.ofPath_getLsbD path i hpath⟩
  have hmark : (!seen).toNat = if seen then 0 else 1 := by cases seen <;> rfl
  have hresp := encodeResponse_eq (bytes := n) (bits := bits.length) (!seen) (by omega) (by omega)
  rw [e, hl, ← hmark, ← hresp, ← hl]
  rfl

/-! ## ENCEND (R192) -/

/-- The bits ENCEND sends before it flushes: the terminator, or none (R192, R193). -/
def Engine.endBits (g : Engine) : List Bool := if g.terminates then g.tree.path g.tree.esc ++ literalBits 0 else []

/-- The code buffer ENCEND leaves (R192). -/
def Engine.endCode (g : Engine) : Code := if g.terminates then Code.ofPath (g.tree.path g.tree.esc) else g.code

theorem Engine.endBits_length_le (g : Engine) : g.endBits.length ≤ 264 := by
  have hp := g.tree.path_length_le g.tree.esc
  rw [Engine.endBits]
  split
  · rw [List.length_append, literalBits_length]
    omega
  · exact Nat.zero_le _

/-- With room for the byte, `FLUSH_CORE` sends 0 bits up to a byte (R172). -/
theorem flushCore_sends {c : Ctx} (h : c.eng.packer.cnt ≠ 0 → c.room ≠ some 0) :
    ∃ pad d, flushCore c = .done pad d ∧ c.SendsTo (List.replicate pad false) d ∧ d.eng.packer.cnt = 0 ∧ pad < 8 := by
  obtain ⟨hc, e⟩ | ⟨hc, -, e⟩ | ⟨hc, hr, -⟩ := flushCore_cases c
  · exact ⟨0, c, e, .refl c, hc, by decide⟩
  · have hpos : 0 < c.eng.packer.cnt.toNat := Nat.pos_of_ne_zero fun h0 => hc (BitVec.eq_of_toNat_eq h0)
    refine ⟨_, _, e, ⟨Packer.empty, [_], rfl, ?_⟩, rfl, by omega⟩
    exact (List.append_nil _).trans ((List.append_nil _).trans c.eng.packer.literalBits_padded)
  · exact absurd hr (h hc)

/-- With room for the bytes, bits are sent and then 0 bits up to a byte. -/
theorem putAll_flushCore_sends {xs : List Bool} {c : Ctx}
    (hroom : roomFor c.room ((c.eng.packer.cnt.toNat + xs.length + 7) / 8)) :
    ∃ pad d, ((putAll xs c).bind fun _ d => flushCore d) = .done pad d ∧
      c.SendsTo (xs ++ List.replicate pad false) d ∧ d.eng.packer.cnt = 0 ∧ pad < 8 := by
  obtain ⟨d, e, hd⟩ := putAll_sends xs c fun k hk => (Nat.div_le_div_right (Nat.le_add_right _ _)).trans (hroom k hk)
  have hflush : d.eng.packer.cnt ≠ 0 → d.room ≠ some 0 := by
    obtain ⟨p, bs, rfl, hb⟩ := hd
    obtain ⟨hl, hp⟩ := Packer.counts_of_bits hb
    intro hc h0
    have hc : p.cnt.toNat ≠ 0 := fun h => hc (BitVec.eq_of_toNat_eq h)
    obtain ⟨r, hr, h0⟩ := Option.map_eq_some_iff.1 h0
    have := hroom r hr
    omega
  obtain ⟨pad, f, e', hf, h0, hpad⟩ := flushCore_sends hflush
  exact ⟨pad, f, by rw [e, Run.done_bind, e'], hd.trans hf, h0, hpad⟩

/-- With the terminator, `ENCEND_CORE` sends one list of bits and flushes. -/
theorem encendCore_of_terminates {c : Ctx} (ht : c.eng.terminates = true) : encendCore c =
    ((putAll (c.eng.tree.path c.eng.tree.esc ++ literalBits 0) (c.derivePath c.eng.tree.esc)).bind fun _ d =>
      flushCore d).bind fun _ d => .done { bits := d.eng.code.len.toNat + 8, mark := true } d := by
  rw [encendCore, if_pos ht, putAll_append]
  simp only [putCode_derivePath, Run.bind_assoc]

/-- With room for the bytes its bits and the padding fill, `ENCEND_CORE` is done. -/
theorem encendCore_sends {c : Ctx} (hroom : roomFor c.room ((c.eng.packer.cnt.toNat + c.eng.endBits.length + 7) / 8)) :
    ∃ pad p bs, encendCore c = .done { bits := c.eng.endBits.length, mark := c.eng.terminates }
        ((c.setCode c.eng.endCode).sending p bs) ∧
      p.cnt = 0 ∧ pad < 8 ∧
      bytesBits bs ++ p.pending = c.eng.packer.pending ++ (c.eng.endBits ++ List.replicate pad false) := by
  cases ht : c.eng.terminates with
  | true =>
    simp only [Engine.endBits, Engine.endCode, ht, if_true] at hroom ⊢
    obtain ⟨pad, d, e, ⟨p, bs, rfl, hb⟩, h0, hpad⟩ := putAll_flushCore_sends (c := c.derivePath c.eng.tree.esc) hroom
    have hlen : ((c.derivePath c.eng.tree.esc).sending p bs).eng.code.len.toNat =
      (c.eng.tree.path c.eng.tree.esc).length := Code.ofPath_len _ (c.eng.tree.path_length_le _)
    refine ⟨pad, p, bs, ?_, h0, hpad, hb⟩
    rw [encendCore_of_terminates ht, e, Run.done_bind, hlen, List.length_append, literalBits_length]
    rfl
  | false =>
    simp only [Engine.endBits, Engine.endCode, ht, Bool.false_eq_true, if_false] at hroom ⊢
    obtain ⟨pad, d, e, ⟨p, bs, rfl, hb⟩, h0, hpad⟩ := putAll_flushCore_sends (xs := []) hroom
    refine ⟨pad, p, bs, ?_, h0, hpad, hb⟩
    have e : flushCore c = _ := e
    rw [encendCore, ht, if_neg Bool.false_ne_true, e]
    rfl

/-- With room, ENCEND answers once its bits and the padding are sent. -/
theorem exec_encend_sends {s : State}
    (hroom : roomFor s.outRoom ((s.eng.packer.cnt.toNat + s.eng.endBits.length + 7) / 8)) :
    ∃ pad p bs, exec .encend s = .next (s.complete
        (encodeResponse bs.length s.eng.terminates s.eng.endBits.length) ((s.ctx.setCode s.eng.endCode).sending p bs)) ∧
      p.cnt = 0 ∧ pad < 8 ∧
      bytesBits bs = s.eng.packer.pending ++ s.eng.endBits ++ List.replicate pad false := by
  obtain ⟨pad, p, bs, e, h0, hpad, hb⟩ := encendCore_sends (c := s.ctx) hroom
  have hp : p.pending = [] := by rw [Packer.pending, h0]; rfl
  rw [hp, List.append_nil, ← List.append_assoc] at hb
  refine ⟨pad, p, bs, ?_, h0, hpad, hb⟩
  rw [exec_encend, issue_eq, encendBody, e]
  rfl

/-- Settles O46: the terminator, if there is one, and the padding go through the packer as one list. -/
theorem encendTerminatesAndFlushes : Obligations.EncendTerminatesAndFlushes := by
  refine ⟨by decide, ?_⟩
  intro s term path bits total n hroom
  have hbits : s.eng.endBits = bits := rfl
  obtain ⟨pad, p, bs, e, h0, hpad, hb⟩ := exec_encend_sends (s := s) hroom
  have hlen : 8 * bs.length = total + pad := by
    have := congrArg List.length hb
    rwa [bytesBits_length, List.length_append, List.length_append, List.length_replicate, Packer.pending_length] at this
  have hle := s.eng.endBits_length_le
  rw [hbits] at hle
  have hcnt := s.eng.packer.cnt.isLt
  have hl : bs.length = n := by omega
  have hn : n < 256 := by omega
  have hpath := s.eng.tree.path_length_le s.eng.tree.esc
  refine ⟨bs, p, s.eng.endCode, ?_, hl, h0, ?_, fun ht => if_neg (Bool.eq_false_iff.1 ht),
    fun ht => ?_⟩
  · rw [e, ← encodeResponse_eq term hn (show bits.length < 512 by omega), ← hl]
    rfl
  · rw [hb, hbits, show pad = 8 * n - total by omega]
  · rw [show s.eng.endCode = Code.ofPath path from if_pos ht]
    exact ⟨Code.ofPath_len path hpath, fun i => Code.ofPath_getLsbD path i hpath⟩

end Sys2Proof.Machine
end

section
/-! A step inside a longer run (44_sequencers.md R197, R198): a whole pass repeats the cores of the single-step commands,
and each core does there what it does in its own command. -/

namespace Sys2Proof.Machine

/-! ## What a step does not look at -/

/-- What surrounds a step of a longer run: `RESULT`, the bytes taken and sent before it, and input for the steps after
it. -/
structure Surround where
  result : Word
  taken : List Byte
  sent : List Byte
  later : List Byte

/-- The step's own `c`, seen inside the run. -/
def Ctx.within (c : Ctx) (m : Surround) : Ctx :=
  { c with
    eng := { c.eng with result := m.result }
    inp := c.inp ++ m.later
    taken := m.taken ++ c.taken
    sent := m.sent ++ c.sent }

/-- How far the step has come, seen inside the run. -/
def Run.within {α : Type} (r : Run α) (m : Surround) : Run α :=
  match r with
  | .done a c => .done a (c.within m)
  | .fail e c => .fail e (c.within m)
  | .wait p c => .wait p (c.within m)

/-- Inside the run, `f` does what it does alone. -/
def Surround.Transparent (m : Surround) {α : Type} (f : Ctx → Run α) : Prop := ∀ c, f (c.within m) = (f c).within m

section
variable {m : Surround}

theorem Surround.Transparent.bind {α β : Type} {f : Ctx → Run α} {g : α → Ctx → Run β} (hf : m.Transparent f)
    (hg : ∀ a, m.Transparent (g a)) : m.Transparent fun c => (f c).bind g := by
  intro c
  show (f (c.within m)).bind g = ((f c).bind g).within m
  rw [hf c]
  cases f c with
  | done a d => exact hg a d
  | fail e d => rfl
  | wait p d => rfl

/-- A test that looks at nothing around the step takes the same branch. -/
theorem Surround.Transparent.ite {α : Type} {P : Ctx → Prop} [DecidablePred P] {f g : Ctx → Run α}
    (hP : ∀ c : Ctx, P (c.within m) ↔ P c) (hf : m.Transparent f) (hg : m.Transparent g) :
    m.Transparent fun c => if P c then f c else g c := by
  intro c
  by_cases h : P c
  · simp only [if_pos h, if_pos ((hP c).2 h), hf c]
  · simp only [if_neg h, if_neg (mt (hP c).1 h), hg c]

theorem outWrite_transparent (v : Byte) : m.Transparent (outWrite v) := by
  rintro ⟨g, inp, eod, room, taken, sent⟩
  obtain _ | _ | k := room <;> simp [outWrite, Ctx.within, Run.within]

/-! ## Sending -/

theorem putBit_transparent (b : Bool) : m.Transparent (putBit b) :=
  .ite (P := fun c => c.eng.packer.cnt = 7) (fun _ => .rfl)
    (fun c => (outWrite_transparent (c.eng.packer.shiftIn b)).bind (fun _ _ => rfl) c) fun _ => rfl

theorem putAll_transparent (xs : List Bool) : m.Transparent (putAll xs) := by
  induction xs with
  | nil => exact fun _ => rfl
  | cons b xs ih => exact (putBit_transparent b).bind fun _ => ih

theorem flushCore_transparent : m.Transparent flushCore :=
  .ite (P := fun c => c.eng.packer.cnt = 0) (fun _ => .rfl) (fun _ => rfl)
    fun c => (outWrite_transparent (c.eng.packer.buf <<< (8 - c.eng.packer.cnt.toNat))).bind (fun _ _ => rfl) c

theorem encbCore_transparent (sym : Byte) : m.Transparent (encbCore sym) := by
  intro c
  rw [encbCore_eq, encbCore_eq]
  exact (putAll_transparent _).bind (fun _ _ => rfl) (c.derivePath _)

theorem encendCore_transparent : m.Transparent encendCore :=
  .ite (P := fun c => c.eng.terminates = true) (fun _ => .rfl)
    (fun c => (putAll_transparent _).bind (fun _ => (putAll_transparent _).bind fun _ => flushCore_transparent.bind
      fun _ _ => rfl) (c.derivePath c.eng.tree.esc))
    (flushCore_transparent.bind fun _ _ => rfl)

/-- A step that does the same whatever input comes after it does not wait for input. -/
theorem Run.waits_for_output {α : Type} {f : Ctx → Run α} (hf : ∀ m : Surround, m.Transparent f)
    (hw : ∀ c, (f c).WaitsRightly) {c d : Ctx} {p : Port} (h : f c = .wait p d) : p = .output := by
  let m : Surround := { result := 0, taken := [], sent := [], later := [0] }
  have h' : f (c.within m) = .wait p (d.within m) := by rw [hf m c, h]; rfl
  cases p with
  | output => rfl
  | input => exact absurd (hw _ _ _ h').1 (by simp [Ctx.within, m])

/-! ## Reading: the steps after it have no input of their own yet -/

variable (hl : m.later = [])
include hl

theorem inRead_transparent : m.Transparent inRead := by
  rintro ⟨g, inp, eod, room, taken, sent⟩
  cases inp <;> cases eod <;> simp [inRead, Ctx.within, Run.within, hl]

theorem getBit_transparent : m.Transparent getBit := by
  refine .ite (P := fun c => c.eng.unpacker.cnt = 0) (fun _ => .rfl) ((inRead_transparent hl).bind fun v => ?_) fun _ => rfl
  cases v <;> exact fun _ => rfl

theorem getBitsFrom_transparent (n : Nat) (v : Byte) (k : Nat) : m.Transparent (getBitsFrom n v k) := by
  induction n generalizing v k with
  | zero => exact fun _ => rfl
  | succ n ih =>
    refine (getBit_transparent hl).bind fun b => ?_
    cases b with
    | none => exact fun _ => rfl
    | some b => exact ih _ _

theorem descend_transparent (fuel : Nat) : m.Transparent (descend fuel) := by
  induction fuel with
  | zero => exact fun _ => rfl
  | succ fuel ih =>
    refine .ite (P := fun c => c.eng.curKind = .int) (fun _ => .rfl) ((getBit_transparent hl).bind fun b => ?_) fun _ => rfl
    cases b with
    | none => exact fun _ => rfl
    | some b => exact fun d => ih (d.adv b)

omit hl in
theorem decodeByte_transparent (v : Byte) : m.Transparent (decodeByte v) :=
  (outWrite_transparent v).bind fun _ _ => rfl

theorem decodeFirst_transparent : m.Transparent decodeFirst :=
  (getBitsFrom_transparent hl 8 0 0).bind fun g => .ite (P := fun _ => g.exh = true) (fun _ => .rfl) (fun _ => rfl)
    ((decodeByte_transparent g.v).bind fun _ _ => rfl)

theorem decodeLiteral_transparent : m.Transparent decodeLiteral :=
  (getBitsFrom_transparent hl 8 0 0).bind fun g => .ite (P := fun _ => g.exh = true) (fun _ => .rfl) (fun _ => rfl)
    (.ite (P := fun _ => g.v = 0) (fun _ => .rfl) (fun _ => rfl) (decodeByte_transparent g.v))

theorem decodeNext_transparent : m.Transparent decodeNext := by
  intro c
  have hbits : (c.within m).bitsLeft = c.bitsLeft := by simp [Ctx.bitsLeft, Ctx.within, hl]
  rw [decodeNext, decodeNext, hbits]
  exact (descend_transparent hl _).bind (fun resolved => .ite (P := fun _ => resolved = true) (fun _ => .rfl)
    (.ite (P := fun d => d.eng.curKind = .sym) (fun _ => .rfl) (fun d => decodeByte_transparent _ d.walkClear)
      fun d => decodeLiteral_transparent hl d.walkClear) fun _ => rfl) c.walkClear

theorem decstepCore_transparent : m.Transparent decstepCore :=
  .ite (P := fun c => c.eng.decState = .done) (fun _ => .rfl) (fun _ => rfl)
    (.ite (P := fun c => c.eng.overflows = true) (fun _ => .rfl) (fun _ => rfl)
      (.ite (P := fun c => c.eng.decState = .await) (fun _ => .rfl) (decodeFirst_transparent hl)
        (decodeNext_transparent hl)))

end

/-! ## Commands that complete one after another -/

theorem errorWord_bit31 (e : ErrCode) : (errorWord e).getLsbD 31 = true := by
  cases e <;> decide

/-- A command that holds, or answers with bit 31 clear, has not failed (R232). -/
theorem bodyOf_ne_fail {i : Instr} {s t : State} (he : exec i s = .next t)
    (h : t.hold ≠ none ∨ t.eng.result.getLsbD 31 = false) (e : ErrCode) (c : Ctx) : bodyOf i s.ctx ≠ .fail e c := by
  intro hb
  rw [exec_next_iff, hb] at he
  subst he
  obtain hh | hbit := h
  · exact hh rfl
  · exact absurd (errorWord_bit31 e) (by rw [show (errorWord e).getLsbD 31 = false from hbit]; decide)

theorem execDone_cons_eq_some {i : Instr} {is : List Instr} {s t : State} : execDone (i :: is) s = some t ↔
    ∃ u, exec i s = .next u ∧ u.hold = none ∧ u.eng.result.getLsbD 31 = false ∧ execDone is u = some t := by
  obtain ⟨u, hu⟩ := exec_next i s
  simp [execDone, hu, and_assoc]

theorem execAll_of_execDone {is : List Instr} {s t : State} (h : execDone is s = some t) : execAll is s = .next t := by
  induction is generalizing s with
  | nil =>
    cases h
    rfl
  | cons i is ih =>
    obtain ⟨v, he, -, -, h⟩ := execDone_cons_eq_some.1 h
    rw [execAll, he]
    exact ih h

/-! ## A run that commands have brought forward -/

/-- `v` is as far as commands have brought a run that starts in `s`: the host's streams are as they leave them, but for
the input `later`, which the run offers to the steps after them. -/
structure State.Leads (s v : State) (later : List Byte) : Prop where
  eod : v.inEod = s.inEod
  output : s.outBytes <+: v.outBytes
  input : v.inBytes ++ later <:+ s.inBytes

/-- What surrounds the next command in that run. -/
def State.surround (s v : State) (later : List Byte) : Surround where
  result := s.eng.result
  taken := s.inBytes.take (s.inBytes.length - (v.inBytes ++ later).length)
  sent := v.outBytes.drop s.outBytes.length
  later := later

/-- The run that starts in `s`, where commands have brought it to `v`. -/
def State.midRun (s v : State) (later : List Byte) : Ctx := v.ctx.within (s.surround v later)

theorem State.Leads.refl (s : State) : s.Leads s [] :=
  ⟨rfl, List.prefix_rfl, by rw [List.append_nil]⟩

theorem State.midRun_self (s : State) : s.midRun s [] = s.ctx := by
  simp [State.midRun, State.surround, Ctx.within, State.ctx]

section
variable {s v t : State} {later : List Byte} {i : Instr} (h : s.Leads v later)
include h

theorem State.Leads.after (he : exec i v = .next t) : s.Leads t later := by
  obtain ⟨hi, ho, -, heod⟩ := exec_streams he
  have hin : _ ++ _ = v.inBytes := (bodyOf_streams i v.ctx).input
  refine ⟨heod.trans h.eod, ho ▸ h.output.trans (List.prefix_append _ _), ?_⟩
  refine (List.suffix_append (bodyOf i v.ctx).ctx.taken _).trans ?_
  rw [hi, ← List.append_assoc, hin]
  exact h.input

/-- The bytes the run has taken are those in front of what is left. -/
theorem State.Leads.taken_eq (bs inp : List Byte) (hin : bs ++ inp = v.inBytes) :
    s.inBytes.take (s.inBytes.length - (inp ++ later).length) = (s.surround v later).taken ++ bs := by
  obtain ⟨pre, hpre⟩ := h.input
  have hv : s.inBytes = pre ++ bs ++ (inp ++ later) := by simp [← hpre, ← hin]
  have hpre : (s.surround v later).taken = pre := by
    show s.inBytes.take (s.inBytes.length - (v.inBytes ++ later).length) = pre
    rw [← hpre, List.length_append, Nat.add_sub_cancel, List.take_left]
  rw [hpre, hv, List.length_append, Nat.add_sub_cancel, List.take_left]

/-- A command that does not fail brings the run as far as its pseudocode, inside the run, comes. -/
theorem State.Leads.midRun_after (he : exec i v = .next t) (hf : ∀ e c, bodyOf i v.ctx ≠ .fail e c) :
    s.midRun t later = (bodyOf i v.ctx).ctx.within (s.surround v later) := by
  obtain ⟨hi, ho, hr, heod⟩ := exec_streams he
  have hs := bodyOf_streams i v.ctx
  have htaken := h.taken_eq _ _ hs.input
  obtain ⟨sent, hsent⟩ := h.output
  have hout : t.outBytes.drop s.outBytes.length =
      v.outBytes.drop s.outBytes.length ++ (bodyOf i v.ctx).ctx.sent := by
    rw [ho, ← hsent, List.append_assoc, List.drop_left, List.drop_left]
  have heng : { t.eng with result := s.eng.result } = { (bodyOf i v.ctx).ctx.eng with result := s.eng.result } := by
    obtain ⟨r, c, hb, rfl⟩ | ⟨e, c, hb, -⟩ | ⟨p, c, hb, rfl⟩ := exec_ends he
    · rw [hb]; rfl
    · exact absurd hb (hf e c)
    · rw [hb]; rfl
  have heod : t.inEod = (bodyOf i v.ctx).ctx.eod := heod.trans hs.eod.symm
  generalize (bodyOf i v.ctx).ctx = d at hi hr htaken hout heng heod ⊢
  have hsent : (s.surround t later).sent = (s.surround v later).sent ++ d.sent := hout
  have ht : (s.surround t later).taken = (s.surround v later).taken ++ d.taken := by rw [← htaken, ← hi]; rfl
  rw [State.midRun, Ctx.within, Ctx.within, ht, hsent, State.ctx_taken, List.append_nil, State.ctx_sent, List.append_nil]
  exact Ctx.mk.injEq .. ▸ ⟨heng, congrArg (· ++ later) hi, heod, hr, rfl, rfl⟩

/-- The core of a command, inside the run: where the command completes the core is done, and where it holds the core
waits on the same port. -/
theorem State.Leads.core {α : Type} {f : Ctx → Run α} {w : α → Ctx → Word} (he : exec i v = .next t)
    (hf : (s.surround v later).Transparent f)
    (hbody : bodyOf i v.ctx = (f v.ctx).bind fun r c => .done (w r c) c) (hfail : ∀ e c, bodyOf i v.ctx ≠ .fail e c) :
    (∃ r d, f v.ctx = .done r d ∧ t.hold = none ∧ t.eng.result = w r d ∧
      f (s.midRun v later) = .done r (s.midRun t later)) ∨
    ∃ k, t.hold = some k ∧ f v.ctx = .wait k.port (bodyOf i v.ctx).ctx ∧
      f (s.midRun v later) = .wait k.port (s.midRun t later) := by
  rw [h.midRun_after he hfail, State.midRun, hf v.ctx]
  rw [exec_next_iff] at he
  subst he
  cases hc : f v.ctx with
  | done r d =>
    rw [hbody, hc]
    exact .inl ⟨r, d, rfl, rfl, rfl, rfl⟩
  | fail e d => exact absurd (by rw [hbody, hc]; rfl) (hfail e d)
  | wait p d =>
    rw [hbody, hc]
    exact .inr ⟨_, rfl, rfl, rfl⟩

/-- The host's side of the streams where the run stands. -/
theorem State.Leads.withStreams_midRun : s.withStreams (s.midRun v later) =
    { s with inBytes := v.inBytes ++ later, outBytes := v.outBytes, outRoom := v.outRoom } := by
  obtain ⟨sent, hsent⟩ := h.output
  simp [State.withStreams, State.midRun, Ctx.within, State.surround, ← hsent]

theorem State.Leads.complete_midRun (r : Word) : s.complete r (s.midRun v later) =
    ({ s with inBytes := v.inBytes ++ later, outBytes := v.outBytes, outRoom := v.outRoom } : State).respond v.eng r := by
  rw [State.complete, h.withStreams_midRun]
  rfl

theorem State.Leads.failWith_midRun (e : ErrCode) (w : Cmd) : s.failWith e w (s.midRun v later) =
    ({ s with eng := v.eng, inBytes := v.inBytes ++ later, outBytes := v.outBytes, outRoom := v.outRoom } :
      State).afterFailure e w := by
  rw [State.failWith, h.withStreams_midRun, errorWord_eq, Engine.takeFailure, errorWord_eq]
  rfl

theorem State.Leads.waitOn_midRun (p : Port) : s.waitOn i p (s.midRun v later) = { s with
    eng := { v.eng with result := s.eng.result }
    inBytes := v.inBytes ++ later
    outBytes := v.outBytes
    outRoom := v.outRoom
    hold := some
      { instr := i, port := p, start := s.eng
        taken := s.inBytes.take (s.inBytes.length - (v.inBytes ++ later).length)
        sent := v.outBytes.length - s.outBytes.length } } := by
  rw [State.waitOn, h.withStreams_midRun]
  simp [State.midRun, Ctx.within, State.surround]

end

end Sys2Proof.Machine
end

section
/-! ENCRUN (44_sequencers.md R197): one ENCB for each byte, and then ENCEND. -/

namespace Sys2Proof.Machine

/-! ## One round of the loop -/

/-- At `WMAX` a round fails. -/
theorem encrunLoop_of_overflow {c : Ctx} (fuel n : Nat) (ho : c.eng.overflows = true) :
    encrunLoop (fuel + 1) n c = .fail .weightOvf c := by
  rw [encrunLoop, if_pos ho]

/-- Below `WMAX` a round with a byte left takes it and goes on with its code. -/
theorem encrunLoop_of_byte {c d : Ctx} {b : Byte} (fuel n : Nat) (ho : c.eng.overflows = false)
    (hr : inRead c = .done (some b) d) :
    encrunLoop (fuel + 1) n c = (encbCore b d).bind fun _ e => encrunLoop fuel (n + 1) e := by
  rw [encrunLoop, if_neg (by simp [ho]), hr]
  rfl

/-- Below `WMAX` a round with the input exhausted ends the run. -/
theorem encrunLoop_of_end {c d : Ctx} (fuel n : Nat) (ho : c.eng.overflows = false) (hr : inRead c = .done none d) :
    encrunLoop (fuel + 1) n c = (encendCore d).bind fun _ e => .done (runResponse n) e := by
  rw [encrunLoop, if_neg (by simp [ho]), hr]
  rfl

section
variable {s v t : State}

/-- Taking a byte brings the run to the ENCB of it. -/
theorem State.Leads.inRead_midRun {b : Byte} {rest : List Byte} (h : s.Leads v (b :: rest)) (hin : v.inBytes = []) :
    s.Leads v rest ∧ inRead (s.midRun v (b :: rest)) = .done (some b) (s.midRun v rest) := by
  obtain ⟨pre, hpre⟩ := h.input
  rw [hin] at hpre
  have hrest : pre ++ [b] ++ rest = s.inBytes := by simpa using hpre
  have htake : s.inBytes.take (s.inBytes.length - rest.length) = pre ++ [b] := by
    rw [← hrest, List.length_append, Nat.add_sub_cancel, List.take_left]
  have hbefore : s.inBytes.take (s.inBytes.length - (rest.length + 1)) = pre := by simp [← hpre]
  refine ⟨⟨h.eod, h.output, pre ++ [b], by rw [hin]; exact hrest⟩, ?_⟩
  simp [inRead, State.midRun, Ctx.within, State.surround, State.ctx, hin, htake, hbefore]

theorem bodyOf_encb_of_room {b : Byte} {c : Ctx} (ho : c.eng.overflows = false) : bodyOf (.encb b) c =
    (encbCore b c).bind fun r c => .done (encodeResponse c.sent.length r.mark r.bits) c := by
  rw [bodyOf, encbBody, ho]
  rfl

theorem bodyOf_encend (c : Ctx) : bodyOf .encend c =
    (encendCore c).bind fun r c => .done (encodeResponse c.sent.length r.mark r.bits) c := rfl

/-- A round with a byte left, where the ENCB of it does not fail: it completes and the loop goes on, or it holds. -/
theorem State.Leads.encrunLoop_encb {b : Byte} {rest : List Byte} (h : s.Leads v (b :: rest)) (hin : v.inBytes = [])
    (he : exec (.encb b) v = .next t) (hok : t.hold ≠ none ∨ t.eng.result.getLsbD 31 = false) (fuel n : Nat) :
    (t.hold = none ∧ encrunLoop (fuel + 1) n (s.midRun v (b :: rest)) = encrunLoop fuel (n + 1) (s.midRun t rest)) ∨
    (t.hold ≠ none ∧ encrunLoop (fuel + 1) n (s.midRun v (b :: rest)) = .wait .output (s.midRun t rest)) := by
  have hfail := bodyOf_ne_fail he hok
  have ho : v.eng.overflows = false := Bool.eq_false_iff.2 fun ho => hfail _ _ (if_pos ho)
  obtain ⟨hl, hread⟩ := h.inRead_midRun hin
  rw [encrunLoop_of_byte (c := s.midRun v (b :: rest)) _ _ ho hread]
  obtain ⟨r, d, -, hh, -, e⟩ | ⟨k, hh, hw, e⟩ := hl.core he (encbCore_transparent b) (bodyOf_encb_of_room ho) hfail
  · exact .inl ⟨hh, by rw [e, Run.done_bind]⟩
  · have hp := Run.waits_for_output (fun _ => encbCore_transparent b) (encbCore_waitsRightly b) hw
    exact .inr ⟨by simp [hh], by rw [e, Run.wait_bind, hp]⟩

theorem bodyOf_encend_ne_fail (c : Ctx) (e : ErrCode) (d : Ctx) : bodyOf .encend c ≠ .fail e d := by
  intro h
  have hends := encendCore_ends (F := fun _ => False) c.eng.tree (c := c) fun hne => absurd rfl hne
  obtain h | ⟨r, f, -, h⟩ := Run.bind_eq_fail.1 h
  · rwa [h] at hends
  · cases h

/-- The last round: ENCEND completes and the run ends, or it holds. -/
theorem State.Leads.encrunLoop_encend (h : s.Leads v []) (hin : v.inBytes = []) (ho : v.eng.overflows = false)
    (heod : s.inEod = true) (he : exec .encend v = .next t) (fuel n : Nat) :
    (t.hold = none ∧ encrunLoop (fuel + 1) n (s.midRun v []) = .done (runResponse n) (s.midRun t [])) ∨
    (t.hold ≠ none ∧ encrunLoop (fuel + 1) n (s.midRun v []) = .wait .output (s.midRun t [])) := by
  have heod : v.inEod = true := h.eod.trans heod
  have hread : inRead (s.midRun v []) = .done none (s.midRun v []) := by
    simp [inRead, State.midRun, Ctx.within, State.surround, State.ctx, hin, heod]
  rw [encrunLoop_of_end (c := s.midRun v []) _ _ ho hread]
  obtain ⟨r, d, -, hh, -, e⟩ | ⟨k, hh, hw, e⟩ := h.core he encendCore_transparent (bodyOf_encend v.ctx)
    (bodyOf_encend_ne_fail v.ctx)
  · exact .inl ⟨hh, by rw [e, Run.done_bind]⟩
  · have hp := Run.waits_for_output (fun _ => encendCore_transparent) encendCore_waitsRightly hw
    exact .inr ⟨by simp [hh], by rw [e, Run.wait_bind, hp]⟩

/-- With no byte left and `in_eod` low, a round waits. -/
theorem State.Leads.encrunLoop_input (h : s.Leads v []) (hin : v.inBytes = []) (ho : v.eng.overflows = false)
    (heod : s.inEod = false) (fuel n : Nat) : encrunLoop (fuel + 1) n (s.midRun v []) = .wait .input (s.midRun v []) := by
  have heod : v.inEod = false := h.eod.trans heod
  have ho : ¬ (s.midRun v []).eng.overflows = true := by rw [show (s.midRun v []).eng.overflows = false from ho]; decide
  rw [encrunLoop, if_neg ho]
  simp [inRead, State.midRun, Ctx.within, State.surround, State.ctx, hin, heod]

end

/-! ## As far as completed ENCBs bring the run -/

theorem State.Leads.encrunLoop_encbs {s v t : State} (bs : List Byte) {rest : List Byte} (h : s.Leads v (bs ++ rest))
    (hin : v.inBytes = []) (hd : execDone (bs.map .encb) v = some t) :
    s.Leads t rest ∧ t.inBytes = [] ∧ ∀ fuel n, encrunLoop (fuel + bs.length) n (s.midRun v (bs ++ rest)) =
      encrunLoop fuel (n + bs.length) (s.midRun t rest) := by
  induction bs generalizing v with
  | nil =>
    cases hd
    exact ⟨h, hin, fun _ _ => rfl⟩
  | cons b bs ih =>
    obtain ⟨u, he, hh, hbit, hd⟩ := execDone_cons_eq_some.1 hd
    have hin' : u.inBytes = [] := (exec_streams he).1.trans ((bodyOf_encb_inp b v.ctx).trans hin)
    obtain ⟨ht, hti, hloop⟩ := ih ((h.inRead_midRun hin).1.after he) hin' hd
    refine ⟨ht, hti, fun fuel n => ?_⟩
    obtain ⟨-, e⟩ | ⟨hne, -⟩ := h.encrunLoop_encb hin he (.inr hbit) (fuel + bs.length) n
    · rw [List.length_cons, ← Nat.add_assoc]
      exact e.trans ((hloop fuel (n + 1)).trans (by rw [Nat.add_assoc, Nat.add_comm 1]))
    · exact absurd hh hne

/-- ENCRUN, from where the ENCBs of its first bytes have brought it. -/
theorem exec_encrun_after {s v : State} {k : Nat}
    (hd : execDone ((s.inBytes.take k).map .encb) { s with inBytes := [] } = some v) :
    s.Leads v (s.inBytes.drop k) ∧ v.inBytes = [] ∧ ∃ fuel, exec .encrun s =
      .next (s.settle .encrun (encrunLoop (fuel + 1) (s.inBytes.take k).length (s.midRun v (s.inBytes.drop k)))) := by
  have hstart : s.Leads { s with inBytes := [] } (s.inBytes.take k ++ s.inBytes.drop k) :=
    ⟨rfl, List.prefix_rfl, by rw [List.take_append_drop]; exact List.suffix_rfl⟩
  obtain ⟨hl, hin, hloop⟩ := hstart.encrunLoop_encbs _ rfl hd
  refine ⟨hl, hin, s.inBytes.length - (s.inBytes.take k).length, ?_⟩
  have hctx : s.midRun { s with inBytes := [] } (s.inBytes.take k ++ s.inBytes.drop k) = s.ctx := by
    simp [State.midRun, State.surround, Ctx.within, State.ctx]
  have hfuel : s.inBytes.length + 1 = s.inBytes.length - (s.inBytes.take k).length + 1 + (s.inBytes.take k).length := by
    have := List.length_take_le' k s.inBytes
    omega
  rw [exec_encrun, issue_eq, encrunBody, State.ctx_inp, hfuel, ← hctx, hloop, Nat.zero_add]

section
variable {s v t : State} {k : Nat} (hd : execDone ((s.inBytes.take k).map .encb) { s with inBytes := [] } = some v)
include hd

/-- At `WMAX` the run fails with the bytes before it encoded (R133, R233). -/
theorem exec_encrun_fails (ho : v.eng.tree.rootWeight = 2 ^ v.eng.weightBits - 1) : exec .encrun s =
    .next (({ s with eng := v.eng, inBytes := s.inBytes.drop k, outBytes := v.outBytes, outRoom := v.outRoom } :
      State).afterFailure .weightOvf 0x7000) := by
  obtain ⟨hl, hin, fuel, e⟩ := exec_encrun_after hd
  have ho : (s.midRun v (s.inBytes.drop k)).eng.overflows = true := beq_iff_eq.2 ho
  rw [e, encrunLoop_of_overflow _ _ ho, State.settle_fail, hl.failWith_midRun, hin]
  rfl

/-- The run holds where the ENCB of the next byte does. -/
theorem exec_encrun_holds_encb {c : Byte} (hc : s.inBytes[k]? = some c) (he : exec (.encb c) v = .next t)
    (hh : t.hold ≠ none) :
    exec .encrun s = .next (s.waitOn .encrun .output (s.midRun t (s.inBytes.drop (k + 1)))) ∧
      s.Leads t (s.inBytes.drop (k + 1)) ∧ t.inBytes = [] := by
  obtain ⟨hl, hin, fuel, e⟩ := exec_encrun_after hd
  have hk : s.inBytes.drop k = c :: s.inBytes.drop (k + 1) := by
    obtain ⟨hk, rfl⟩ := List.getElem?_eq_some_iff.1 hc
    exact List.drop_eq_getElem_cons hk
  rw [hk] at hl e
  obtain ⟨h0, -⟩ | ⟨-, hloop⟩ := hl.encrunLoop_encb hin he (.inl hh) fuel (s.inBytes.take k).length
  · exact absurd h0 hh
  · refine ⟨by rw [e, hloop]; rfl, (hl.inRead_midRun hin).1.after he, ?_⟩
    exact (exec_streams he).1.trans ((bodyOf_encb_inp c v.ctx).trans hin)

variable (ho : v.eng.tree.rootWeight ≠ 2 ^ v.eng.weightBits - 1) (hk : s.inBytes.length ≤ k)
include ho hk

/-- The run holds on the input where no byte is left and `in_eod` is low. -/
theorem exec_encrun_holds_input (heod : s.inEod = false) :
    exec .encrun s = .next (s.waitOn .encrun .input (s.midRun v [])) ∧ s.Leads v [] ∧ v.inBytes = [] := by
  obtain ⟨hl, hin, fuel, e⟩ := exec_encrun_after hd
  rw [List.drop_of_length_le hk] at hl e
  rw [e, hl.encrunLoop_input hin (Engine.overflows_eq_false ho) heod]
  exact ⟨rfl, hl, hin⟩

/-- The run ends with ENCEND, or holds where ENCEND does. -/
theorem exec_encrun_ends (heod : s.inEod = true) (he : exec .encend v = .next t) : s.Leads t [] ∧ t.inBytes = [] ∧
    (t.hold = none ∧ exec .encrun s = .next (s.complete (runResponse s.inBytes.length) (s.midRun t [])) ∨
      t.hold ≠ none ∧ exec .encrun s = .next (s.waitOn .encrun .output (s.midRun t []))) := by
  obtain ⟨hl, hin, fuel, e⟩ := exec_encrun_after hd
  rw [List.drop_of_length_le hk, List.take_of_length_le hk] at e
  rw [List.drop_of_length_le hk] at hl
  have hti : t.inBytes = [] := (exec_streams he).1.trans ((bodyOf_packing Ctx.inp_packFixed v.ctx).2.2.2.trans hin)
  refine ⟨hl.after he, hti, ?_⟩
  rw [e]
  obtain ⟨hh, hloop⟩ | ⟨hh, hloop⟩ :=
    hl.encrunLoop_encend hin (Engine.overflows_eq_false ho) heod he fuel s.inBytes.length
  · exact .inl ⟨hh, by rw [hloop]; rfl⟩
  · exact .inr ⟨hh, by rw [hloop]; rfl⟩

end

/-! ## ENCBs with room for all their bytes -/

theorem roomFor_none (n : Nat) : roomFor none n := fun _ h => nomatch h

/-- The bits ENCB sends for the bytes of a list in turn (R190). -/
def Tree.sentAll (t : Tree) : List Byte → List Bool
  | [] => []
  | b :: bs => t.sentBits b ++ Tree.sentAll (t.observe b).tree bs

/-- `t` is `s` with the bytes `bs` encoded, to a host that takes every byte. -/
structure State.EncodesTo (s : State) (bs : List Byte) (t : State) : Prop where
  tree : t.eng.tree = s.eng.tree.observeAll bs
  weightBits : t.eng.weightBits = s.eng.weightBits
  termEn : t.eng.termEn = s.eng.termEn
  outRoom : t.outRoom = none
  bits : bytesBits t.outBytes ++ t.eng.packer.pending =
    bytesBits s.outBytes ++ s.eng.packer.pending ++ s.eng.tree.sentAll bs

theorem Tree.observeAll_append (t : Tree) (xs ys : List Byte) :
    t.observeAll (xs ++ ys) = (t.observeAll xs).observeAll ys := List.foldl_append

theorem Tree.sentAll_append (t : Tree) (xs ys : List Byte) :
    t.sentAll (xs ++ ys) = t.sentAll xs ++ (t.observeAll xs).sentAll ys := by
  induction xs generalizing t with
  | nil => rfl
  | cons b xs ih =>
    rw [List.cons_append, Tree.sentAll, Tree.sentAll, ih, List.append_assoc]
    rfl

theorem State.EncodesTo.refl {s : State} (hroom : s.outRoom = none) : s.EncodesTo [] s :=
  ⟨rfl, rfl, rfl, hroom, (List.append_nil _).symm⟩

theorem State.EncodesTo.trans {s t u : State} {xs ys : List Byte} (h : s.EncodesTo xs t) (k : t.EncodesTo ys u) :
    s.EncodesTo (xs ++ ys) u where
  tree := by rw [k.tree, h.tree, Tree.observeAll_append]
  weightBits := k.weightBits.trans h.weightBits
  termEn := k.termEn.trans h.termEn
  outRoom := k.outRoom
  bits := by rw [k.bits, h.bits, h.tree, Tree.sentAll_append, List.append_assoc]

/-- Below `WMAX`, ENCB of one byte. -/
theorem exec_encb_encodes (b : Byte) {s : State} (hroom : s.outRoom = none)
    (ho : s.eng.tree.rootWeight ≠ 2 ^ s.eng.weightBits - 1) :
    ∃ t, exec (.encb b) s = .next t ∧ t.hold = none ∧ t.eng.result.getLsbD 31 = false ∧ s.EncodesTo [b] t := by
  obtain ⟨p, bs, e, hb⟩ := exec_encb_sends (sym := b) ho (hroom ▸ roomFor_none _)
  refine ⟨_, e, rfl, encodeResponse_bit31 _ _ _, rfl, rfl, rfl, ?_, ?_⟩
  · show roomAfter s.outRoom _ = none
    rw [hroom]
    rfl
  · show bytesBits (s.outBytes ++ bs) ++ p.pending = _
    rw [bytesBits_append, List.append_assoc, hb, Tree.sentAll, Tree.sentAll, List.append_nil, List.append_assoc]

/-- Up to `WMAX` observations, ENCB completes for each byte of a list. -/
theorem execDone_encbs (bs : List Byte) {s : State} (hinv : s.eng.tree.Inv) (hroom : s.outRoom = none)
    (hw : s.eng.tree.rootWeight + bs.length ≤ 2 ^ s.eng.weightBits - 1) :
    ∃ t, execDone (bs.map .encb) s = some t ∧ s.EncodesTo bs t := by
  induction bs generalizing s with
  | nil => exact ⟨s, rfl, .refl hroom⟩
  | cons b bs ih =>
    rw [List.length_cons] at hw
    obtain ⟨u, he, hh, hbit, hu⟩ := exec_encb_encodes b hroom (by omega)
    have htree : u.eng.tree = (s.eng.tree.observe b).tree := hu.tree
    obtain ⟨t, hd, ht⟩ := ih (htree ▸ hinv.observe b) hu.outRoom
      (by rw [htree, hinv.observe_rootWeight, hu.weightBits]; omega)
    exact ⟨t, execDone_cons_eq_some.2 ⟨u, he, hh, hbit, hd⟩, hu.trans ht⟩

/-- ENCEND, to a host that takes every byte: the bits it sends, and 0 bits up to a byte, go out. -/
theorem exec_encend_flushes {s : State} (hroom : s.outRoom = none) :
    ∃ t pad, exec .encend s = .next t ∧ t.hold = none ∧ t.outRoom = none ∧ pad < 8 ∧
      bytesBits t.outBytes = bytesBits s.outBytes ++ s.eng.packer.pending ++ s.eng.endBits ++ List.replicate pad false := by
  obtain ⟨pad, p, bs, e, -, hpad, hb⟩ := exec_encend_sends (s := s) (hroom ▸ roomFor_none _)
  refine ⟨_, pad, e, rfl, ?_, hpad, ?_⟩
  · show roomAfter s.outRoom _ = none
    rw [hroom]
    rfl
  · show bytesBits (s.outBytes ++ bs) = _
    rw [bytesBits_append, hb]
    simp only [List.append_assoc]

/-- Settles O52: each round of the loop is the core of an ENCB, and the last one that of ENCEND, seen inside the run. -/
theorem encrunIsEncbForEachByteThenEncend : Obligations.EncrunIsEncbForEachByteThenEncend := by
  intro s
  refine ⟨fun hinv heod hroom hw => ?_, fun hinv hroom hle hge => ?_, fun ho => ?_, ?_⟩
  · obtain ⟨v, hd, hv⟩ := execDone_encbs s.inBytes (s := { s with inBytes := [] }) hinv hroom hw.le
    obtain ⟨u, -, hu, hh, huroom, -⟩ := exec_encend_flushes hv.outRoom
    have hvw : v.eng.tree.rootWeight = s.eng.tree.rootWeight + s.inBytes.length := by
      rw [hv.tree]
      exact (hinv.observeAll s.inBytes).2
    have ho : v.eng.tree.rootWeight ≠ 2 ^ v.eng.weightBits - 1 := by
      rw [hvw, hv.weightBits]
      exact hw.ne
    refine ⟨u, by rw [execAll_append_of_next _ (execAll_of_execDone hd), execAll, hu]; rfl, ?_⟩
    obtain ⟨hl, hin, ⟨-, e⟩ | ⟨hne, -⟩⟩ := exec_encrun_ends (k := s.inBytes.length) (by rwa [List.take_length]) ho
      le_rfl heod hu
    · rw [e, hl.complete_midRun, hin, huroom, ← hroom]
      rfl
    · exact absurd hh hne
  · intro k
    have hk : (s.inBytes.take k).length = k := List.length_take_of_le (by omega)
    obtain ⟨v, hd, hv⟩ := execDone_encbs (s.inBytes.take k) (s := { s with inBytes := [] }) hinv hroom
      (by rw [hk]; exact (Nat.add_sub_of_le hle).le)
    have ho : v.eng.tree.rootWeight = 2 ^ v.eng.weightBits - 1 := by
      rw [hv.tree, hv.weightBits, (hinv.observeAll _).2, hk]
      exact Nat.add_sub_of_le hle
    refine ⟨v, execAll_of_execDone hd, ?_⟩
    rw [exec_encrun_fails hd ho, hv.outRoom, ← hroom]
  · exact exec_encrun_fails (k := 0) (v := { s with inBytes := [] }) rfl ho
  · intro k v hd held
    refine ⟨exec_encrun_fails hd, fun ho => ⟨fun c t hc he hh => ?_, fun hk heod => ?_, fun t hk heod he => ?_⟩⟩
    · obtain ⟨e, hl, hin⟩ := exec_encrun_holds_encb hd hc he hh
      rw [e, hl.waitOn_midRun, hin]
      rfl
    · obtain ⟨e, hl, hin⟩ := exec_encrun_holds_input hd ho hk heod
      rw [e, hl.waitOn_midRun, hin]
      rfl
    · obtain ⟨hl, hin, ⟨hh, e⟩ | ⟨hh, e⟩⟩ := exec_encrun_ends hd ho hk heod he
      · refine ⟨fun h => absurd hh h, fun _ => ?_⟩
        rw [e, hl.complete_midRun, hin]
        rfl
      · refine ⟨fun _ => ?_, fun h => absurd h hh⟩
        rw [e, hl.waitOn_midRun, hin]
        rfl

end Sys2Proof.Machine
end

section
/-! What a decode step has written, observed and read when it stops (44_sequencers.md R194, R195). -/

namespace Sys2Proof.Machine

/-! ## The byte written and observed -/

/-- What a decode step writes and observes: both are the byte of the outcome BYTE, and nothing at any other stop. -/
def Run.Decodes (c : Ctx) : Run Stepped → Prop
  | .done r d =>
    if r.outcome = .byte then d.sent = c.sent ++ [r.byte] ∧ d.eng.tree = (c.eng.tree.observe r.byte).tree
    else d.sent = c.sent ∧ d.eng.tree = c.eng.tree
  | .fail _ d => d.sent = c.sent ∧ d.eng.tree = c.eng.tree
  | .wait _ d => d.sent = c.sent ∧ d.eng.tree = c.eng.tree

/-- The part of a command in progress that reading leaves alone. -/
def Ctx.record (c : Ctx) : List Byte × Tree := (c.sent, c.eng.tree)

theorem Run.Decodes.bind {α : Type} {c : Ctx} {r : Run α} {f : α → Ctx → Run Stepped} (h : r.ctx.record = c.record)
    (hf : ∀ (a : α) (d : Ctx), d.record = c.record → (f a d).Decodes c) : (r.bind f).Decodes c := by
  cases r with
  | done a d => exact hf a d h
  | fail e d => exact Prod.mk.inj h
  | wait p d => exact Prod.mk.inj h

/-- A step that ends without a byte. -/
theorem Run.Decodes.done {c d : Ctx} {r : Stepped} (h : d.record = c.record) (hr : r.outcome ≠ .byte) :
    (Run.done r d).Decodes c :=
  (if_neg hr).mpr (Prod.mk.inj h)

theorem getBit_record (c : Ctx) : (getBit c).ctx.record = c.record := by
  obtain ⟨-, e⟩ | ⟨-, v, rest, -, e⟩ | ⟨-, -, -, e⟩ | ⟨-, -, -, e⟩ := getBit_cases c <;> rw [e] <;> rfl

theorem getBitsFrom_record (n : Nat) (v : Byte) (k : Nat) (c : Ctx) : (getBitsFrom n v k c).ctx.record = c.record := by
  induction n generalizing v k c with
  | zero => rfl
  | succ n ih =>
    refine Run.bind_fixes Ctx.record (getBit_record c) fun b d => ?_
    cases b with
    | none => rfl
    | some b => exact ih _ _ d

theorem descend_record (fuel : Nat) (c : Ctx) : (descend fuel c).ctx.record = c.record := by
  induction fuel generalizing c with
  | zero => rfl
  | succ fuel ih =>
    unfold descend
    split
    · refine Run.bind_fixes Ctx.record (getBit_record c) fun b d => ?_
      cases b with
      | none => rfl
      | some b => exact ih (d.adv b)
    · rfl

theorem decodeByte_decodes (v : Byte) {c d : Ctx} (h : d.record = c.record) : (decodeByte v d).Decodes c := by
  obtain ⟨hs, ht⟩ := Prod.mk.inj h
  by_cases hr : d.room = some 0
  · rw [decodeByte_full v hr]
    exact ⟨hs, ht⟩
  · rw [decodeByte, outWrite_done v d hr]
    exact ⟨congrArg (· ++ [v]) hs, congrArg (fun t => (t.observe v).tree) ht⟩

theorem decodeFirst_decodes (c : Ctx) : (decodeFirst c).Decodes c := by
  refine .bind (getBitsFrom_record 8 0 0 c) fun g d hd => ?_
  split
  · exact .done hd (by simp)
  · have hb := decodeByte_decodes g.v hd
    revert hb
    cases decodeByte g.v d <;> exact id

theorem decodeLiteral_decodes {c d : Ctx} (h : d.record = c.record) : (decodeLiteral d).Decodes c := by
  refine .bind ((getBitsFrom_record 8 0 0 d).trans h) fun g e he => ?_
  split
  · exact .done he (by simp)
  · split
    · exact .done he (by simp)
    · exact decodeByte_decodes g.v he

theorem decodeNext_decodes (c : Ctx) : (decodeNext c).Decodes c := by
  refine .bind (descend_record _ c.walkClear) fun resolved d hd => ?_
  split
  · split
    · exact decodeByte_decodes _ hd
    · exact decodeLiteral_decodes hd
  · exact .done hd (by simp)

theorem decstepCore_decodes (c : Ctx) : (decstepCore c).Decodes c := by
  unfold decstepCore
  split
  · exact .done rfl (by simp)
  · split
    · exact ⟨rfl, rfl⟩
    · split
      · exact decodeFirst_decodes c
      · exact decodeNext_decodes c

/-! ## The bits read -/

/-- A run that is done has left no more input than there was in `c`, and less if its result is in `Q`. -/
def Run.Spends {α : Type} (c : Ctx) (Q : α → Prop) (r : Run α) : Prop :=
  ∀ a d, r = .done a d → d.bitsLeft ≤ c.bitsLeft ∧ (Q a → d.bitsLeft < c.bitsLeft)

theorem Run.Spends.done {α : Type} {Q : α → Prop} {a : α} {c d : Ctx} (h : d.bitsLeft = c.bitsLeft) (ha : ¬ Q a) :
    (Run.done a d).Spends c Q := by
  rintro a d ⟨⟩
  exact ⟨h.le, fun hQ => absurd hQ ha⟩

theorem Run.Spends.mono {α : Type} {Q Q' : α → Prop} {c : Ctx} {r : Run α} (h : r.Spends c Q) (hQ : ∀ a, Q' a → Q a) :
    r.Spends c Q' := fun a d e => ⟨(h a d e).1, fun ha => (h a d e).2 (hQ a ha)⟩

/-- A sequence spends input where its first part does, or its second. -/
theorem Run.Spends.bind {α β : Type} {Q : α → Prop} {Q' : β → Prop} {c : Ctx} {r : Run α} {f : α → Ctx → Run β}
    (h : r.Spends c Q) (hf : ∀ a d, (f a d).Spends d fun b => Q' b ∧ ¬ Q a) : (r.bind f).Spends c Q' := by
  intro b e he
  obtain ⟨a, d, hr, he⟩ := Run.bind_eq_done.1 he
  obtain ⟨hle, hlt⟩ := h a d hr
  obtain ⟨hle', hlt'⟩ := hf a d b e he
  refine ⟨hle'.trans hle, fun hb => ?_⟩
  by_cases ha : Q a
  · exact hle'.trans_lt (hlt ha)
  · exact (hlt' ⟨hb, ha⟩).trans_le hle

theorem getBit_spends (c : Ctx) : (getBit c).Spends c fun b => b.isSome = true := by
  obtain ⟨hc, e⟩ | ⟨hc, v, rest, hi, e⟩ | ⟨-, -, -, e⟩ | ⟨-, -, -, e⟩ := getBit_cases c <;> rw [e]
  · rintro a d ⟨⟩
    have hn : c.eng.unpacker.cnt.toNat ≠ 0 := fun h0 => hc (BitVec.eq_of_toNat_eq h0)
    have hs : (c.eng.unpacker.cnt - 1).toNat < c.eng.unpacker.cnt.toNat := by bv_omega
    have hlt : (c.setUnpacker { c.eng.unpacker with cnt := c.eng.unpacker.cnt - 1 }).bitsLeft < c.bitsLeft :=
      Nat.add_lt_add_left hs _
    exact ⟨hlt.le, fun _ => hlt⟩
  · rintro a d ⟨⟩
    have hlt : (Ctx.setUnpacker { c with inp := rest, taken := c.taken ++ [v] } { buf := v, cnt := 7 }).bitsLeft <
        c.bitsLeft := by
      show 8 * rest.length + 7 < 8 * c.inp.length + c.eng.unpacker.cnt.toNat
      rw [hi, List.length_cons]
      omega
    exact ⟨hlt.le, fun _ => hlt⟩
  · exact .done rfl (by simp)
  · exact fun _ _ he => nomatch he

theorem getBitsFrom_spends (n : Nat) (v : Byte) (k : Nat) (c : Ctx) :
    (getBitsFrom n v k c).Spends c fun g => g.exh = false ∧ n ≠ 0 := by
  induction n generalizing v k c with
  | zero => exact .done rfl (by simp)
  | succ n ih =>
    refine .bind (getBit_spends c) fun b d => ?_
    cases b with
    | none => exact .done rfl (by simp)
    | some b => exact (ih _ _ d).mono (by simp)

theorem descend_spends (fuel : Nat) (c : Ctx) :
    (descend fuel c).Spends c fun resolved => resolved = true ∧ c.eng.curKind = .int := by
  induction fuel generalizing c with
  | zero => exact .done rfl (by simp)
  | succ fuel ih =>
    unfold descend
    split
    · refine .bind (getBit_spends c) fun b d => ?_
      cases b with
      | none => exact .done rfl (by simp)
      | some b => exact Run.Spends.mono (c := d) (ih (d.adv b)) (by simp)
    · next hk => exact .done rfl (by simp [hk])

theorem decodeByte_spends (v : Byte) (c : Ctx) : (decodeByte v c).Spends c fun _ => False := by
  intro r e he
  obtain ⟨_, d, hd, he⟩ := Run.bind_eq_done.1 he
  have heng : d.eng = c.eng := by simpa [hd] using outWrite_eng v c
  have hinp : d.inp = c.inp := by simpa [hd] using outWrite_inp v c
  have hbits : (d.observe v).bitsLeft = c.bitsLeft := by
    rw [Ctx.bitsLeft, Ctx.observe_inp, Ctx.observe_unpacker, heng, hinp, Ctx.bitsLeft]
  cases he
  exact ⟨hbits.le, False.elim⟩

theorem decodeFirst_spends (c : Ctx) : (decodeFirst c).Spends c fun r => r.outcome = .byte := by
  refine .bind (getBitsFrom_spends 8 0 0 c) fun g d => ?_
  split
  · exact .done rfl (by simp)
  · next hg =>
    exact .bind (decodeByte_spends g.v d) fun r e => .done rfl (by simp [hg])

theorem decodeLiteral_spends (c : Ctx) : (decodeLiteral c).Spends c fun r => r.outcome = .byte := by
  refine .bind (getBitsFrom_spends 8 0 0 c) fun g d => ?_
  split
  · exact .done rfl (by simp)
  · next hg =>
    split
    · exact .done rfl (by simp)
    · exact (decodeByte_spends g.v d).mono (by simp [hg])

/-- A step in DECODING that decodes a byte has read a bit on its way to the leaf, or a literal. -/
theorem decodeNext_spends {c : Ctx} (hroot : (c.eng.tree.node ROOT).kind ≠ .sym) :
    (decodeNext c).Spends c fun r => r.outcome = .byte := by
  by_cases hk : c.walkClear.eng.curKind = .int
  · refine Run.Spends.bind (c := c) (descend_spends _ c.walkClear) fun resolved d => ?_
    cases resolved with
    | false => exact .done rfl (by simp)
    | true =>
      rw [if_pos rfl]
      split
      · exact Run.Spends.mono (c := d) (decodeByte_spends _ d.walkClear) (by simp [hk])
      · exact Run.Spends.mono (c := d) (decodeLiteral_spends d.walkClear) fun _ hr => hr.1
  · have hsym : ¬ c.walkClear.eng.curKind = .sym := hroot
    rw [decodeNext, descend_of_leaf _ hk, Run.done_bind, if_pos rfl, if_neg hsym]
    exact decodeLiteral_spends c.walkClear.walkClear

theorem decstepCore_spends {c : Ctx} (hroot : (c.eng.tree.node ROOT).kind ≠ .sym) :
    (decstepCore c).Spends c fun r => r.outcome = .byte := by
  unfold decstepCore
  split
  · exact .done rfl (by simp)
  · split
    · exact fun _ _ he => nomatch he
    · split
      · exact decodeFirst_spends c
      · exact decodeNext_spends hroot

/-- The root is the escape leaf or has children. -/
theorem Tree.Shape.root_ne_sym {t : Tree} (h : t.Shape) : (t.node ROOT).kind ≠ .sym := by
  have hroot : t.esc = ROOT ∨ (t.node ROOT).kind = .int := by
    refine h.induction_down (P := fun n => n = ROOT ∨ (t.node ROOT).kind = .int) (.inl rfl) ?_ h.escAllocated
    intro n hn hr ih
    exact .inr (ih.elim (fun hp => hp ▸ h.parent_int hn hr) id)
  obtain he | hk := hroot
  · rw [(h.escKind ROOT).2 he.symm]
    decide
  · rw [hk]
    decide

/-! ## When a step ends -/

/-- Below `WMAX` a decode step does not fail (R133). -/
theorem decstepCore_ne_fail {c : Ctx} (ho : c.eng.tree.rootWeight ≠ 2 ^ c.eng.weightBits - 1) (e : ErrCode) (d : Ctx) :
    decstepCore c ≠ .fail e d := by
  intro h
  cases hs : c.eng.decState with
  | await =>
    have hends := decodeFirst_ends (F := fun _ => False) c.eng.tree (c := c) fun hne => absurd rfl hne
    rw [decstepCore_of_await hs ho] at h
    rwa [h] at hends
  | decoding =>
    have hends := decodeNext_ends (F := fun _ => False) c
    rw [decstepCore_of_decoding hs ho] at h
    rwa [h] at hends
  | done =>
    rw [decstepCore_of_done hs] at h
    cases h

/-- With `in_eod` raised and a host that takes every byte, a decode step below `WMAX` is done. -/
theorem decstepCore_done {c : Ctx} (ho : c.eng.tree.rootWeight ≠ 2 ^ c.eng.weightBits - 1) (heod : c.eod = true)
    (hroom : c.room = none) : ∃ r d, decstepCore c = .done r d := by
  have hs := (decstepCore_follows c).streams
  have hw := decstepCore_waitsRightly c
  cases hc : decstepCore c with
  | done r d => exact ⟨r, d, rfl⟩
  | fail e d => exact absurd hc (decstepCore_ne_fail ho e d)
  | wait p d =>
    rw [hc] at hs
    have hstuck := hw p d hc
    cases p with
    | input => exact absurd (hs.eod.symm.trans hstuck.2) (by simp [heod])
    | output =>
      obtain ⟨bs, -, hr, -⟩ := hs.sent
      rw [hroom] at hr
      exact absurd (hr.symm.trans hstuck) (Option.some_ne_none 0).symm

end Sys2Proof.Machine
end

section
/-! DECRUN (44_sequencers.md R198): DECSTEP until an outcome other than BYTE. -/

namespace Sys2Proof.Machine

/-! ## One round of the loop -/

theorem decrunLoop_of_byte {c d : Ctx} {r : Stepped} (fuel n : Nat) (h : decstepCore c = .done r d)
    (hr : r.outcome = .byte) : decrunLoop (fuel + 1) n c = decrunLoop fuel (n + 1) d := by
  rw [decrunLoop, h, Run.done_bind, if_pos hr]

theorem decrunLoop_of_end {c d : Ctx} {r : Stepped} (fuel n : Nat) (h : decstepCore c = .done r d)
    (hr : r.outcome ≠ .byte) : decrunLoop fuel n c = .done (runResponse n) d := by
  cases fuel <;> rw [decrunLoop, h, Run.done_bind, if_neg hr]

theorem decrunLoop_of_fail {c d : Ctx} {e : ErrCode} (fuel n : Nat) (h : decstepCore c = .fail e d) :
    decrunLoop fuel n c = .fail e d := by
  cases fuel <;> rw [decrunLoop, h, Run.fail_bind]

theorem decrunLoop_of_wait {c d : Ctx} {p : Port} (fuel n : Nat) (h : decstepCore c = .wait p d) :
    decrunLoop fuel n c = .wait p d := by
  cases fuel <;> rw [decrunLoop, h, Run.wait_bind]

/-! ## A DECSTEP that completes -/

theorem bodyOf_decstep (c : Ctx) : bodyOf .decstep c =
    (decstepCore c).bind fun r d => .done (decstepResponse r.outcome.number r.byte) d := rfl

/-- The outcome stands in `RESULT[9:8]` (R194). -/
theorem decstepResponse_outcome (o : DecOutcome) (b : Byte) :
    (decstepResponse o.number b).extractLsb' 8 2 = 0 ↔ o = .byte := by
  have h : (decstepResponse o.number b).extractLsb' 8 2 = o.number := by
    revert b
    cases o <;> decide
  rw [h]
  cases o <;> decide

/-- What a completed DECSTEP shows of its core. -/
structure State.DecodesTo (v : State) (r : Stepped) (t : State) : Prop where
  exec : exec .decstep v = .next t
  hold : t.hold = none
  result : t.eng.result = decstepResponse r.outcome.number r.byte
  weightBits : t.eng.weightBits = v.eng.weightBits
  byte : r.outcome = .byte → t.outBytes = v.outBytes ++ [r.byte] ∧ t.eng.tree = (v.eng.tree.observe r.byte).tree
  noByte : r.outcome ≠ .byte → t.outBytes = v.outBytes ∧ t.eng.tree = v.eng.tree

theorem State.decodesTo_complete {v : State} {r : Stepped} {d : Ctx} (h : decstepCore v.ctx = .done r d) :
    v.DecodesTo r (v.complete (decstepResponse r.outcome.number r.byte) d) := by
  have hdec := decstepCore_decodes v.ctx
  have hkeeps := (decstepCore_follows v.ctx).keeps.weightBits
  rw [h] at hdec hkeeps
  refine ⟨exec_decstep_of_done h, rfl, rfl, hkeeps, fun hr => ?_, fun hr => ?_⟩
  · obtain ⟨hs, ht⟩ := (if_pos hr).mp hdec
    exact ⟨congrArg (v.outBytes ++ ·) hs, ht⟩
  · obtain ⟨hs, ht⟩ := (if_neg hr).mp hdec
    exact ⟨(congrArg (v.outBytes ++ ·) hs).trans (List.append_nil _), ht⟩

theorem State.DecodesTo.bit31 {v t : State} {r : Stepped} (h : v.DecodesTo r t) : t.eng.result.getLsbD 31 = false := by
  rw [h.result]
  exact decstepResponse_bit31 _ _

/-- A DECSTEP that completes, inside the run and alone. -/
theorem State.Leads.decstep_done {s v t : State} (h : s.Leads v []) (he : exec .decstep v = .next t)
    (hh : t.hold = none) (hbit : t.eng.result.getLsbD 31 = false) :
    ∃ r d, decstepCore v.ctx = .done r d ∧ v.DecodesTo r t ∧
      decstepCore (s.midRun v []) = .done r (s.midRun t []) := by
  obtain ⟨r, d, hc, -, -, e⟩ | ⟨k, hk, -⟩ := h.core he (decstepCore_transparent rfl) (bodyOf_decstep v.ctx)
    (bodyOf_ne_fail he (.inr hbit))
  · have ht := State.decodesTo_complete hc
    obtain rfl := Host.Outcome.next.inj (ht.exec.symm.trans he)
    exact ⟨r, d, hc, ht, e⟩
  · exact nomatch hh.symm.trans hk

/-- A step that gives a byte starts below `WMAX`, and not in DONE. -/
theorem decstepCore_byte {c d : Ctx} {r : Stepped} (h : decstepCore c = .done r d) (hr : r.outcome = .byte) :
    c.eng.tree.rootWeight ≠ 2 ^ c.eng.weightBits - 1 := by
  intro ho
  by_cases hs : c.eng.decState = .done
  · rw [decstepCore_of_done hs] at h
    cases h
    cases hr
  · rw [decstepCore_of_overflow hs ho] at h
    cases h

/-! ## As far as DECSTEPs that give bytes bring the run -/

theorem execDone_decsteps_length {k : Nat} {v t : State} (h : execDone (List.replicate k .decstep) v = some t) :
    t.outBytes.length ≤ v.outBytes.length + k := by
  induction k generalizing v with
  | zero =>
    cases h
    exact le_rfl
  | succ k ih =>
    obtain ⟨u, he, hh, hbit, hd⟩ := execDone_cons_eq_some.1 h
    obtain ⟨r, d, -, hu, -⟩ := (State.Leads.refl v).decstep_done he hh hbit
    have := ih hd
    by_cases hr : r.outcome = .byte
    · rw [(hu.byte hr).1, List.length_append, List.length_singleton] at this
      omega
    · rw [(hu.noByte hr).1] at this
      omega

theorem State.Leads.decrunLoop_decsteps {s v t : State} (k : Nat) (h : s.Leads v []) (hinv : v.eng.tree.Inv)
    (hle : v.eng.tree.rootWeight ≤ 2 ^ v.eng.weightBits - 1) (hd : execDone (List.replicate k .decstep) v = some t)
    (hlen : t.outBytes.length = v.outBytes.length + k) :
    s.Leads t [] ∧ t.eng.weightBits = v.eng.weightBits ∧ t.eng.tree.rootWeight = v.eng.tree.rootWeight + k ∧
      t.eng.tree.rootWeight ≤ 2 ^ t.eng.weightBits - 1 ∧
      ∀ fuel n, decrunLoop (fuel + k) n (s.midRun v []) = decrunLoop fuel (n + k) (s.midRun t []) := by
  induction k generalizing v with
  | zero =>
    cases hd
    exact ⟨h, rfl, rfl, hle, fun _ _ => rfl⟩
  | succ k ih =>
    obtain ⟨u, he, hh, hbit, hd⟩ := execDone_cons_eq_some.1 hd
    obtain ⟨r, d, hc, hu, hmid⟩ := h.decstep_done he hh hbit
    have hmax := execDone_decsteps_length hd
    have hr : r.outcome = .byte := by
      by_contra hr
      rw [(hu.noByte hr).1] at hmax
      omega
    obtain ⟨hout, htree⟩ := hu.byte hr
    have ho : v.eng.tree.rootWeight ≠ 2 ^ v.eng.weightBits - 1 := decstepCore_byte hc hr
    have hweight : u.eng.tree.rootWeight = v.eng.tree.rootWeight + 1 := by rw [htree, hinv.observe_rootWeight]
    obtain ⟨hl, hwb, hw, hle', hloop⟩ := ih (h.after he) (htree ▸ hinv.observe r.byte)
      (by rw [hweight, hu.weightBits]; omega) hd (by rw [hlen, hout, List.length_append, List.length_singleton]; omega)
    refine ⟨hl, hwb.trans hu.weightBits, by omega, hle', fun fuel n => ?_⟩
    rw [← Nat.add_assoc, decrunLoop_of_byte _ _ hmid hr, hloop, Nat.add_assoc, Nat.add_comm 1]

section
variable {s v u : State} {k : Nat} (hinv : s.eng.tree.Inv) (hle : s.eng.tree.rootWeight ≤ 2 ^ s.eng.weightBits - 1)
  (hd : execDone (List.replicate k .decstep) s = some v) (hlen : v.outBytes.length = s.outBytes.length + k)
include hinv hle hd hlen

/-- DECRUN, from where the DECSTEPs of its first bytes have brought it. -/
theorem exec_decrun_after : s.Leads v [] ∧ ∃ fuel,
    exec .decrun s = .next (s.settle .decrun (decrunLoop fuel k (s.midRun v []))) := by
  obtain ⟨hl, hwb, hw, hle', hloop⟩ := (State.Leads.refl s).decrunLoop_decsteps k hinv hle hd hlen
  rw [hwb] at hle'
  have hfuel : 2 ^ s.eng.weightBits - 1 - s.eng.tree.rootWeight =
      2 ^ s.eng.weightBits - 1 - v.eng.tree.rootWeight + k := by omega
  refine ⟨hl, 2 ^ s.eng.weightBits - 1 - v.eng.tree.rootWeight, ?_⟩
  rw [exec_decrun, issue_eq, decrunBody, State.ctx_eng, Engine.wmax, hfuel, ← s.midRun_self, hloop, Nat.zero_add]

/-- At `WMAX`, and not in DONE, the run fails with the bytes before it decoded (R133, R233). -/
theorem exec_decrun_fails (hst : v.eng.decState ≠ .done) (ho : v.eng.tree.rootWeight = 2 ^ v.eng.weightBits - 1) :
    exec .decrun s = .next
      (({ s with eng := v.eng, inBytes := v.inBytes, outBytes := v.outBytes, outRoom := v.outRoom } :
        State).afterFailure .weightOvf 0x7100) := by
  obtain ⟨hl, fuel, e⟩ := exec_decrun_after hinv hle hd hlen
  rw [e, decrunLoop_of_fail _ _ (decstepCore_of_overflow (c := s.midRun v []) hst ho), State.settle_fail,
    hl.failWith_midRun, List.append_nil]
  rfl

variable (he : exec .decstep v = .next u)
include he

/-- The run ends with the DECSTEP that gives no byte. -/
theorem exec_decrun_ends (hh : u.hold = none) (hbit : u.eng.result.getLsbD 31 = false)
    (hr : u.eng.result.extractLsb' 8 2 ≠ 0) : exec .decrun s = .next
      (({ s with inBytes := u.inBytes, outBytes := u.outBytes, outRoom := u.outRoom } : State).respond u.eng
        (BitVec.ofNat 32 (min k 0x7FFFFFFF))) := by
  obtain ⟨hl, fuel, e⟩ := exec_decrun_after hinv hle hd hlen
  obtain ⟨r, d, -, hu, hmid⟩ := hl.decstep_done he hh hbit
  have hr : r.outcome ≠ .byte := by rwa [hu.result, ne_eq, decstepResponse_outcome] at hr
  rw [e, decrunLoop_of_end _ _ hmid hr, State.settle_done, (hl.after he).complete_midRun, List.append_nil]
  rfl

/-- The run holds where the next DECSTEP does. -/
theorem exec_decrun_holds {h : Hold} (hh : u.hold = some h) : exec .decrun s = .next { s with
    eng := { u.eng with result := s.eng.result }
    inBytes := u.inBytes
    outBytes := u.outBytes
    outRoom := u.outRoom
    hold := some
      { instr := .decrun, port := h.port, start := s.eng
        taken := s.inBytes.take (s.inBytes.length - u.inBytes.length), sent := k } } := by
  obtain ⟨hl, fuel, e⟩ := exec_decrun_after hinv hle hd hlen
  obtain ⟨r, d, -, h0, -⟩ | ⟨k', hk, hw, hmid⟩ := hl.core he (decstepCore_transparent rfl) (bodyOf_decstep v.ctx)
    (bodyOf_ne_fail he (.inl (by simp [hh])))
  · exact nomatch h0.symm.trans hh
  · obtain rfl := Option.some.inj (hk.symm.trans hh)
    have hsent : (bodyOf .decstep v.ctx).ctx.sent = [] := by
      have hdec := decstepCore_decodes v.ctx
      rw [hw] at hdec
      exact hdec.1
    have hout : u.outBytes = v.outBytes := by rw [(exec_streams he).2.1, hsent, List.append_nil]
    rw [e, decrunLoop_of_wait _ _ hmid, State.settle_wait, (hl.after he).waitOn_midRun, List.append_nil, hout, hlen,
      Nat.add_sub_cancel_left]

end

/-! ## The end of the run -/

/-- With `in_eod` raised, a host that takes every byte and too few bits left to reach `WMAX`, DECSTEPs give bytes until
one ends without. -/
theorem exists_decsteps_end (m : Nat) {v : State} (hinv : v.eng.tree.Inv) (heod : v.inEod = true)
    (hroom : v.outRoom = none) (hm : v.ctx.bitsLeft ≤ m)
    (hw : v.eng.tree.rootWeight + m < 2 ^ v.eng.weightBits - 1) :
    ∃ bytes t r u, execDone (List.replicate bytes.length .decstep) v = some t ∧ t.outBytes = v.outBytes ++ bytes ∧
      t.DecodesTo r u ∧ r.outcome ≠ .byte ∧ u.outRoom = none := by
  induction m using Nat.strong_induction_on generalizing v with
  | _ m ih =>
    have ho : v.eng.tree.rootWeight ≠ 2 ^ v.eng.weightBits - 1 := by omega
    obtain ⟨r, d, hc⟩ := decstepCore_done (c := v.ctx) ho heod hroom
    have hu := State.decodesTo_complete hc
    have hs := (decstepCore_follows v.ctx).streams.sent
    rw [hc] at hs
    obtain ⟨_, -, hdroom, -⟩ := hs
    have hdroom : d.room = none := hdroom.trans (congrArg _ hroom)
    by_cases hr : r.outcome = .byte
    · obtain ⟨hout, htree⟩ := hu.byte hr
      have hspent : d.bitsLeft < v.ctx.bitsLeft := (decstepCore_spends hinv.shape.root_ne_sym r d hc).2 hr
      obtain ⟨bytes, t, r', u, hd, hbytes, hend⟩ := ih d.bitsLeft (hspent.trans_le hm)
        (v := v.complete (decstepResponse r.outcome.number r.byte) d) (htree ▸ hinv.observe r.byte) heod hdroom le_rfl
        (by rw [htree, hinv.observe_rootWeight, hu.weightBits]; omega)
      refine ⟨r.byte :: bytes, t, r', u, execDone_cons_eq_some.2 ⟨_, hu.exec, hu.hold, hu.bit31, hd⟩, ?_, hend⟩
      rw [hbytes, hout, List.append_assoc, List.singleton_append]
    · exact ⟨[], v, r, _, rfl, (List.append_nil _).symm, hu, hr, hdroom⟩

/-- Settles O53: each round of the loop is the core of a DECSTEP, seen inside the run; each byte takes a bit or more, so
the input bounds their number. -/
theorem decrunIsDecstepUntilTheEnd : Obligations.DecrunIsDecstepUntilTheEnd := by
  intro s
  refine ⟨fun hinv _ heod hroom hw => ?_, fun hst => ?_, fun hst ho => ?_, fun k v u hinv hle hd hlen he => ?_⟩
  · obtain ⟨bytes, t, r, u, hd, hbytes, hu, hr, huroom⟩ := exists_decsteps_end s.inputBits.length hinv heod hroom
      s.ctx.bitsLeft_eq.le hw
    have hresult : u.eng.result.extractLsb' 8 2 ≠ 0 := by rwa [hu.result, ne_eq, decstepResponse_outcome]
    refine ⟨bytes, u, ?_, hresult, (hu.noByte hr).1.trans hbytes, ?_⟩
    · rw [List.replicate_succ', execAll_append_of_next _ (execAll_of_execDone hd), execAll, hu.exec]
      rfl
    · rw [exec_decrun_ends hinv (by omega) hd (by rw [hbytes, List.length_append]) hu.exec hu.hold hu.bit31 hresult,
        huroom, ← hroom]
  · rw [exec_decrun, issue_eq, decrunBody, decrunLoop_of_done (c := s.ctx) _ _ hst, State.settle_done, State.complete_ctx]
    rfl
  · rw [exec_decrun, issue_eq, decrunBody, decrunLoop_of_fail (c := s.ctx) _ _ (decstepCore_of_overflow hst ho),
      State.settle_fail, State.failWith_ctx]
    rfl
  · exact ⟨exec_decrun_fails hinv hle hd hlen, exec_decrun_ends hinv hle hd hlen he,
      fun _ => exec_decrun_holds hinv hle hd hlen he⟩

end Sys2Proof.Machine
end

section
/-! The decoder behind the encoder (44_sequencers.md R190, R200). -/

namespace Sys2Proof.Machine

/-- An observed symbol is seen. -/
theorem Tree.observe_seen (t : Tree) (b : Byte) : ((t.observe b).tree.symEntry b).seen = true := by
  cases hb : (t.symEntry b).seen with
  | true => rw [t.observe_symEntry b hb, hb]
  | false =>
    have h := t.split_symEntry b b
    rw [if_pos rfl] at h
    rw [Tree.observe_of_unseen hb, Tree.symEntry, Tree.propagate_symtab, ← Tree.symEntry, h]

/-- No later byte is a first occurrence of 0: after one more byte there is none either. -/
theorem Tree.zero_observe {t : Tree} {b : Byte} {bs : List Byte} (h : (t.symEntry 0).seen = true ∨ 0 ∉ b :: bs) :
    ((t.observe b).tree.symEntry 0).seen = true ∨ 0 ∉ bs :=
  h.imp (fun h => by rwa [t.observe_symEntry b h]) fun h hm => h (List.mem_cons_of_mem b hm)

/-- Without a sentinel collision, no byte after the first is a first occurrence of 0. -/
theorem zero_of_not_sentinelCollision {b : Byte} {bs : List Byte} (h : ¬ sentinelCollision (b :: bs)) (t : Tree) :
    ((t.observe b).tree.symEntry 0).seen = true ∨ 0 ∉ bs := by
  by_cases hb : b = 0
  · exact .inl (hb ▸ t.observe_seen b)
  · exact .inr fun hm => h ⟨List.mem_cons_of_mem b hm, by simpa using hb⟩

/-! ## What the encoder writes -/

/-- Up to `WMAX` observations, ENCB for each byte of a list and ENCEND complete; their bits and 0 bits up to a byte go
out. -/
theorem execAll_encode (bs : List Byte) {s : State} (hinv : s.eng.tree.Inv) (hroom : s.outRoom = none)
    (hw : s.eng.tree.rootWeight + bs.length ≤ 2 ^ s.eng.weightBits - 1) :
    ∃ t pad, execAll (bs.map .encb ++ [.encend]) s = .next t ∧ pad < 8 ∧
      bytesBits t.outBytes = bytesBits s.outBytes ++ s.eng.packer.pending ++ s.eng.tree.sentAll bs ++
        Engine.endBits { s.eng with tree := s.eng.tree.observeAll bs } ++ List.replicate pad false := by
  obtain ⟨v, hd, hv⟩ := execDone_encbs bs hinv hroom hw
  obtain ⟨t, pad, he, -, -, hpad, hbits⟩ := exec_encend_flushes hv.outRoom
  refine ⟨t, pad, ?_, hpad, ?_⟩
  · rw [execAll_append_of_next _ (execAll_of_execDone hd), execAll, he]
    rfl
  · have hend : v.eng.endBits = Engine.endBits { s.eng with tree := s.eng.tree.observeAll bs } := by
      simp [Engine.endBits, Engine.terminates, hv.tree, hv.termEn]
    rw [hbits, hv.bits, hend]

/-! ## The decoder -/

/-- A decoder in DECODING, whose host has raised `in_eod` and takes every byte: it has tree `t` and has written `out`, and
the bits `rest` are left. -/
structure State.Decoding (d : State) (w : Nat) (t : Tree) (out : List Byte) (rest : List Bool) : Prop where
  decState : d.eng.decState = .decoding
  weightBits : d.eng.weightBits = w
  tree : d.eng.tree = t
  unpacker : d.eng.unpacker.Ok
  inEod : d.inEod = true
  outRoom : d.outRoom = none
  outBytes : d.outBytes = out
  inputBits : d.inputBits = rest

/-- A decoder right after reset, which has all its input. -/
def State.decoder (w : Nat) (input : List Byte) : State := { State.resetWith w with inBytes := input, inEod := true }

section
variable {d : State} {w : Nat} {t : Tree} {out : List Byte} {rest : List Bool}

/-- What ENCB sent for a byte decodes to the byte (R200), unless it is the sentinel (R201). -/
theorem State.Decoding.exec_decstep {b : Byte} (h : d.Decoding w t out (t.sentBits b ++ rest)) (hinv : t.Inv)
    (hw : t.rootWeight ≠ 2 ^ w - 1) (hb : (t.symEntry b).seen = true ∨ b ≠ 0) :
    ∃ u, exec .decstep d = .next u ∧ u.hold = none ∧ u.eng.result.getLsbD 31 = false ∧
      u.Decoding w (t.observe b).tree (out ++ [b]) rest := by
  obtain ⟨hst, rfl, rfl, hok, heod, hroom, rfl, hin⟩ := h
  have hcode : (d.eng.tree.symEntry b).seen = true ∧
        d.inputBits = d.eng.tree.path (d.eng.tree.symEntry b).leaf ++ rest ∨
      b ≠ 0 ∧ d.inputBits = d.eng.tree.path d.eng.tree.esc ++ literalBits b ++ rest := by
    rw [hin, Tree.sentBits, Tree.sentLeaf]
    cases hs : (d.eng.tree.symEntry b).seen with
    | true => exact .inl ⟨rfl, by simp⟩
    | false => exact .inr ⟨hb.resolve_left (by simp [hs]), by simp⟩
  obtain ⟨u, inp, e, huok, -, hleft⟩ := decstepDecodesACodeword d b rest hst hinv hw hok (hroom ▸ roomFor_none 1) hcode
  exact ⟨_, e, rfl, decstepResponse_byte b ▸ decstepResponse_bit31 _ _, hst, rfl, rfl, huok, heod,
    congrArg (roomAfter · 1) hroom, rfl, hleft⟩

/-- A decoder in lockstep stays there, as long as there is no sentinel collision. -/
theorem State.Decoding.execDone_decsteps (bs : List Byte) (h : d.Decoding w t out (t.sentAll bs ++ rest)) (hinv : t.Inv)
    (hw : t.rootWeight + bs.length ≤ 2 ^ w - 1) (h0 : (t.symEntry 0).seen = true ∨ 0 ∉ bs) :
    ∃ u, execDone (List.replicate bs.length .decstep) d = some u ∧ u.Decoding w (t.observeAll bs) (out ++ bs) rest := by
  induction bs generalizing d t out with
  | nil => exact ⟨d, rfl, by rwa [List.append_nil]⟩
  | cons b bs ih =>
    rw [List.length_cons] at hw
    rw [Tree.sentAll, List.append_assoc] at h
    have hb : (t.symEntry b).seen = true ∨ b ≠ 0 := by
      by_cases hb : b = 0
      · exact .inl (hb ▸ h0.resolve_right fun hm => hm (hb ▸ List.mem_cons_self))
      · exact .inr hb
    obtain ⟨v, he, hh, hbit, hv⟩ := h.exec_decstep hinv (by omega) hb
    obtain ⟨u, hd, hu⟩ := ih hv (hinv.observe b) (by rw [hinv.observe_rootWeight]; omega) (Tree.zero_observe h0)
    refine ⟨u, execDone_cons_eq_some.2 ⟨v, he, hh, hbit, hd⟩, ?_⟩
    rwa [List.append_assoc] at hu

end

/-- The first byte is raw for both: the initial tree is the escape leaf alone (R190, R199). -/
theorem Tree.initial_sentBits (b : Byte) : Tree.initial.sentBits b = literalBits b := by
  have hesc : Tree.initial.esc = ROOT := rfl
  simp [Tree.sentBits, Tree.sentLeaf, Tree.initial_symEntry, hesc]

/-- From reset, the first byte brings the decoder into lockstep (R199). -/
theorem exec_decstep_decoder {w : Nat} {input : List Byte} {b : Byte} {rest : List Bool} (hw : 2 ^ w - 1 ≠ 0)
    (hin : bytesBits input = literalBits b ++ rest) :
    ∃ u, exec .decstep (State.decoder w input) = .next u ∧ u.hold = none ∧ u.eng.result.getLsbD 31 = false ∧
      u.Decoding w (Tree.initial.observe b).tree [b] rest := by
  have ho : Tree.initial.rootWeight ≠ 2 ^ w - 1 := by rwa [Tree.initial_rootWeight, ne_comm]
  obtain ⟨u, inp, e, huok, -, hleft⟩ := decstepTakesTheFirstByteRaw (State.decoder w input) b rest rfl ho (Nat.zero_le 7)
    (roomFor_none 1) hin
  exact ⟨_, e, rfl, decstepResponse_byte b ▸ decstepResponse_bit31 _ _, rfl, rfl, rfl, huok, rfl, rfl, rfl, hleft⟩

section
variable {w : Nat} {input bs : List Byte} {rest : List Bool}
  (hin : bytesBits input = Tree.initial.sentAll bs ++ rest) (hw : bs.length ≤ 2 ^ w - 1) (h0 : ¬ sentinelCollision bs)
include hin hw h0

/-- From reset, the decoder is in lockstep once it has its first byte. -/
theorem execDone_decoder (hne : bs ≠ []) : ∃ u,
    execDone (List.replicate bs.length .decstep) (State.decoder w input) = some u ∧
      u.Decoding w (Tree.initial.observeAll bs) bs rest := by
  obtain ⟨b, bs, rfl⟩ := List.exists_cons_of_ne_nil hne
  rw [List.length_cons] at hw
  rw [Tree.sentAll, Tree.initial_sentBits, List.append_assoc] at hin
  have hroot := Tree.initial_rootWeight
  obtain ⟨u, he, hh, hbit, hu⟩ := exec_decstep_decoder (w := w) (by omega) hin
  obtain ⟨v, hd, hv⟩ := hu.execDone_decsteps bs (Tree.initial_inv.observe b)
    (by rw [Tree.initial_inv.observe_rootWeight]; omega) (zero_of_not_sentinelCollision h0 _)
  exact ⟨v, execDone_cons_eq_some.2 ⟨u, he, hh, hbit, hd⟩, hv⟩

/-- After the bytes, the decoder has written them and has the encoder's tree (R200). -/
theorem decoder_lockstep : ∃ u, execDone (List.replicate bs.length .decstep) (State.decoder w input) = some u ∧
    u.outBytes = bs ∧ u.eng.tree = Tree.initial.observeAll bs := by
  by_cases hne : bs = []
  · subst hne
    exact ⟨_, rfl, rfl, rfl⟩
  · obtain ⟨u, hd, hu⟩ := execDone_decoder hin hw h0 hne
    exact ⟨u, hd, hu.outBytes, hu.tree⟩

end

/-- Settles O54: what is sent for the first bytes comes first in what is written, and decodes to them. -/
theorem decoderKeepsStepWithTheEncoder : Obligations.DecoderKeepsStepWithTheEncoder := by
  intro w term bytes k _ _ hlen hk h0 s enc
  have hroot : enc.eng.tree.rootWeight = 0 := Tree.initial_rootWeight
  have htake : (bytes.take k).length ≤ 2 ^ w - 1 := (List.length_take_le' k bytes).trans hlen
  obtain ⟨t, pad, het, -, hbits⟩ := execAll_encode bytes (s := enc) Tree.initial_inv rfl
    (by rwa [hroot, Nat.zero_add])
  obtain ⟨v, hdv, hv⟩ := execDone_encbs (bytes.take k) (s := enc) Tree.initial_inv rfl
    (by rwa [hroot, Nat.zero_add])
  rw [← List.take_append_drop k bytes, Tree.sentAll_append] at hbits
  simp only [List.append_assoc] at hbits
  obtain ⟨u, hdu, hout, htree⟩ := decoder_lockstep hbits htake h0
  rw [List.length_take_of_le hk] at hdu
  exact ⟨t, v, u, het, execAll_of_execDone hdv, execAll_of_execDone hdu, hout, htree.trans hv.tree.symm⟩

end Sys2Proof.Machine
end

section
/-! The round trip (44_sequencers.md R202): the terminator of ENCEND is the sentinel of DECSTEP. -/

namespace Sys2Proof.Machine

section
variable {w : Nat} {input bytes : List Byte} {pad : Nat}

/-- With no byte in it, the stream ends inside the first byte. -/
theorem exec_decstep_decoder_empty (hw : 2 ^ w - 1 ≠ 0) (hin : (bytesBits input).length < 8) :
    ∃ x, exec .decstep (State.decoder w input) = .next x ∧ x.hold = none ∧ x.eng.result = 0x100 ∧ x.outBytes = [] := by
  have ho : Tree.initial.rootWeight ≠ 2 ^ w - 1 := by rwa [Tree.initial_rootWeight, ne_comm]
  obtain ⟨-, -, hawait, -⟩ := decstepEndsWithoutAByte (State.decoder w input)
  obtain ⟨u, -, -, e⟩ := hawait rfl ho (Nat.zero_le 7) hin rfl
  exact ⟨_, e, rfl, rfl, rfl⟩

/-- The terminator ends the decoding (R201). -/
theorem State.Decoding.exec_decstep_sentinel {d : State} {t : Tree} {rest : List Bool}
    (h : d.Decoding w t bytes (t.path t.esc ++ literalBits 0 ++ rest)) (hinv : t.Inv) (hw : t.rootWeight ≠ 2 ^ w - 1) :
    ∃ x, exec .decstep d = .next x ∧ x.hold = none ∧ x.eng.result = 0x200 ∧ x.outBytes = bytes := by
  obtain ⟨hst, rfl, rfl, hok, -, -, rfl, hin⟩ := h
  obtain ⟨u, inp, e, -⟩ := decstepStopsAtTheSentinel d rest hst hinv hw hok hin
  exact ⟨_, e, rfl, rfl, rfl⟩

variable (hw : bytes.length < 2 ^ w - 1) (h0 : ¬ sentinelCollision bytes) (hpad : pad < 8)
  (hin : bytesBits input = Tree.initial.sentAll bytes ++
    (Engine.endBits { Engine.initial w with termEn := true, tree := Tree.initial.observeAll bytes } ++
      List.replicate pad false))
include hw h0 hpad hin

/-- From reset on a terminated stream, a DECSTEP for each byte and one more: it finds the terminator, or, where the
encoder had no byte to terminate, only padding. -/
theorem execDone_decoder_terminated : ∃ v x,
    execDone (List.replicate bytes.length .decstep) (State.decoder w input) = some v ∧ v.outBytes = bytes ∧
    exec .decstep v = .next x ∧ x.hold = none ∧ (x.eng.result = 0x100 ∨ x.eng.result = 0x200) ∧
    x.outBytes = bytes := by
  by_cases hne : bytes = []
  · subst hne
    have hshort : (bytesBits input).length < 8 := by
      rw [hin]
      simpa [Tree.sentAll, Engine.endBits, Engine.terminates, Tree.observeAll, Tree.initial_rootWeight] using hpad
    obtain ⟨x, he, hh, hx, hout⟩ := exec_decstep_decoder_empty (w := w) (by omega) hshort
    exact ⟨_, x, rfl, rfl, he, hh, .inl hx, hout⟩
  · obtain ⟨hinv, hweight⟩ := Tree.initial_inv.observeAll bytes
    rw [Tree.initial_rootWeight, Nat.zero_add] at hweight
    obtain ⟨v, hd, hv⟩ := execDone_decoder hin hw.le h0 hne
    have hpos : (Tree.initial.observeAll bytes).rootWeight ≠ 0 := by rwa [hweight, ne_eq, List.length_eq_zero_iff]
    rw [Engine.endBits, if_pos ((Engine.terminates_iff _).2 ⟨rfl, hpos⟩)] at hv
    obtain ⟨x, he, hh, hx, hout⟩ := hv.exec_decstep_sentinel hinv (hweight ▸ hw.ne)
    exact ⟨v, x, hd, hv.outBytes, he, hh, .inr hx, hout⟩

/-- DECRUN from reset on a terminated stream writes the bytes. -/
theorem exec_decrun_terminated : ∃ u, exec .decrun (State.decoder w input) = .next u ∧ u.outBytes = bytes := by
  obtain ⟨v, x, hd, hv, he, hh, hx, hout⟩ := execDone_decoder_terminated hw h0 hpad hin
  have hbit : x.eng.result.getLsbD 31 = false := by obtain hx | hx := hx <;> rw [hx] <;> rfl
  have hr : x.eng.result.extractLsb' 8 2 ≠ 0 := by obtain hx | hx := hx <;> rw [hx] <;> decide
  have hlen : v.outBytes.length = (State.decoder w input).outBytes.length + bytes.length := by
    rw [hv]
    exact (Nat.zero_add _).symm
  have hle : Tree.initial.rootWeight ≤ 2 ^ w - 1 := Tree.initial_rootWeight.trans_le (Nat.zero_le _)
  exact ⟨_, exec_decrun_ends Tree.initial_inv hle hd hlen he hh hbit hr, hout⟩

end

/-- An encoder right after reset, with `TERM_EN = 1`, which has all its input. -/
def State.encoder (w : Nat) (input : List Byte) : State :=
  { State.resetWith w with eng := { Engine.initial w with termEn := true }, inBytes := input, inEod := true }

/-- ENCRUN from reset writes the codes of the bytes, the terminator, and 0 bits up to a byte. -/
theorem exec_encrun_terminated {w : Nat} {bytes : List Byte} (hw : bytes.length < 2 ^ w - 1) :
    ∃ t pad, exec .encrun (State.encoder w bytes) = .next t ∧ pad < 8 ∧
      bytesBits t.outBytes = Tree.initial.sentAll bytes ++
        (Engine.endBits { Engine.initial w with termEn := true, tree := Tree.initial.observeAll bytes } ++
          List.replicate pad false) := by
  have hlen : Tree.initial.rootWeight + bytes.length < 2 ^ w - 1 := by rwa [Tree.initial_rootWeight, Nat.zero_add]
  obtain ⟨hends, -⟩ := encrunIsEncbForEachByteThenEncend (State.encoder w bytes)
  obtain ⟨t, het, he⟩ := hends Tree.initial_inv rfl rfl hlen
  obtain ⟨t', pad, het', hpad, hbits⟩ := execAll_encode bytes (s := { State.encoder w bytes with inBytes := [] })
    Tree.initial_inv rfl hlen.le
  obtain rfl := Host.Outcome.next.inj (het.symm.trans het')
  exact ⟨_, pad, he, hpad, hbits.trans (List.append_assoc _ _ _)⟩

/-- Settles O55: a terminated stream is in lockstep up to the terminator; in the example the padding decodes as 41 41. -/
theorem terminatedStreamsRoundTrip : Obligations.TerminatedStreamsRoundTrip := by
  refine ⟨fun w bytes _ _ hlen h0 => ?_, ?_⟩
  · intro s
    obtain ⟨t, pad, het, hpad, hin⟩ := exec_encrun_terminated hlen
    obtain ⟨u, heu, hout⟩ := exec_decrun_terminated hlen h0 hpad hin
    exact ⟨t, u, het, heu, hout⟩
  · exact ⟨_, _, exec_eq _ _, by decide +kernel, exec_eq _ _, by decide +kernel⟩

end Sys2Proof.Machine
end

section
/-! The control family: NOP, INIT and SETCTRL (45_control.md R220 to R224). -/

namespace Sys2Proof

/-! ## Their words (R103, R105) -/

theorem encode_init (mask : BitVec 5) : encode (.init mask) = 0x1000#16 + mask.setWidth 16 := by
  rw [encode, layout_sym, ← BitVec.ofNat_toNat, maskField_toNat, BitVec.ofNat_toNat]
  rfl

theorem encode_setctrl (v : Bool) : encode (.setctrl v) = 0xF000#16 + BitVec.ofNat 16 v.toNat := by
  rw [encode, layout_sym, ← BitVec.ofNat_toNat, bitField_toNat]
  rfl

/-- A word that is no command's is ILLEGAL (R106). -/
theorem decode_eq_error_of_ne_ok {w : Cmd} (h : ∀ i, decode w ≠ .ok i) : ∃ e, decode w = .error e := by
  cases hd : decode w with
  | ok i => exact absurd hd (h i)
  | error e => exact ⟨e, rfl⟩

/-- With `OP = 0x1` or `OP = 0xF`, the procedure takes only words with `N = 0` and the reserved bits of `IMM` clear. -/
theorem decode_eq_error_of_reserved {w : Cmd}
    (hw : 0x1020 ≤ w.toNat ∧ w.toNat < 0x2000 ∨ 0xF002 ≤ w.toNat) : ∃ e, decode w = .error e := by
  refine decode_eq_error_of_ne_ok fun i hi => ?_
  have hlegal := (legalWordsAreThoseOfTheProcedure w i.mnemonic).1 ⟨i, hi, rfl⟩
  omega

end Sys2Proof

namespace Sys2Proof.Machine

/-! ## The commands -/

/-- Settles O20. -/
theorem nopOnlyAnswersZero : Obligations.NopOnlyAnswersZero := by
  refine ⟨by decide, fun s => ?_⟩
  rw [exec_nop, issue_eq, nopBody, State.settle_done, State.complete_ctx]

/-- INIT completes at once, with its parts re-initialised (R221). -/
theorem exec_init_eq (mask : BitVec 5) (s : State) : exec (.init mask) s =
    .next ((s.noteNewRun (mask.getLsbD 2)).respond (s.eng.initParts mask) 0) := by
  rw [exec_init, issue_eq, initBody, State.settle_done, State.complete_withEng]
  rfl

/-- Settles O21: the five parts are one update, in which those of a selected part are the values of reset. -/
theorem initReinitialisesTheSelectedParts : Obligations.InitReinitialisesTheSelectedParts := by
  refine ⟨fun mask s => ⟨encode_init mask, ?_⟩, fun w hlow hhigh => decode_eq_error_of_reserved (.inl ⟨hlow, hhigh⟩)⟩
  rw [exec_init_eq, Engine.initParts_eq]
  rfl

/-- Settles O22. -/
theorem setctrlWritesTermEn : Obligations.SetctrlWritesTermEn := by
  refine ⟨fun v s => ⟨encode_setctrl v, ?_⟩, fun w hw => decode_eq_error_of_reserved (.inr hw)⟩
  rw [exec_setctrl, issue_eq, setctrlBody, State.settle_done]
  exact congrArg _ (s.complete_withEng _ _)

end Sys2Proof.Machine
end

section
/-! What the words of the register port determine (60_exceptions.md R246): a word of the map has room for its fields, so
equal words have equal fields, and the arrays are shown entry by entry. -/

namespace Sys2Proof.Machine

/-! ## The fields of a word -/

/-- Fields put side by side are equal when the words they make are. -/
theorem append_inj {m n : Nat} {x x' : BitVec m} {y y' : BitVec n} (h : x ++ y = x' ++ y') : x = x' ∧ y = y' := by
  constructor
  · simpa only [BitVec.extractLsb'_append_eq_left] using congrArg (BitVec.extractLsb' n m) h
  · simpa only [BitVec.extractLsb'_append_eq_right] using congrArg (BitVec.extractLsb' 0 n) h

theorem Kind.number_inj {k k' : Kind} (h : k.number = k'.number) : k = k' := by
  revert h; cases k <;> cases k' <;> decide

theorem Side.number_inj {d d' : Side} (h : d.number = d'.number) : d = d' := by
  revert h; cases d <;> cases d' <;> decide

theorem DecState.number_inj {d d' : DecState} (h : d.number = d'.number) : d = d' := by
  revert h; cases d <;> cases d' <;> decide

theorem ErrCode.number_inj {e e' : ErrCode} (h : e.number = e'.number) : e = e' := by
  revert h; cases e <;> cases e' <;> decide

/-! ## What one word determines (R73 to R78) -/

section
variable {g g' : Engine}

/-- PARAM has six bits for `WEIGHT_BITS`, which are enough up to 32 (R6). -/
theorem paramWord_inj (hw : g.weightBits ≤ 32) (hw' : g'.weightBits ≤ 32) (h : paramWord g = paramWord g') :
    g.weightBits = g'.weightBits := by
  obtain ⟨-, h⟩ := append_inj h
  have hmod := congrArg BitVec.toNat h
  rw [BitVec.toNat_ofNat, BitVec.toNat_ofNat] at hmod
  omega

theorem ctrlWord_inj (h : ctrlWord g = ctrlWord g') : g.termEn = g'.termEn :=
  BitVec.ofBool_eq_iff_eq.1 (append_inj h).2

theorem errCmdWord_inj (h : errCmdWord g = errCmdWord g') : g.error.cmd = g'.error.cmd :=
  (append_inj h).2

theorem treeWord_inj (h : treeWord g = treeWord g') : g.tree.next = g'.tree.next ∧ g.tree.esc = g'.tree.esc := by
  obtain ⟨h, hesc⟩ := append_inj h
  obtain ⟨h, -⟩ := append_inj h
  exact ⟨(append_inj h).2, hesc⟩

theorem walkWord_inj (h : walkWord g = walkWord g') : g.walker = g'.walker := by
  obtain ⟨h, hcur⟩ := append_inj h
  obtain ⟨h, -⟩ := append_inj h
  obtain ⟨h, hres⟩ := append_inj h
  obtain ⟨h, hisSym⟩ := append_inj h
  obtain ⟨hsym, -⟩ := append_inj h
  exact Walker.mk.injEq .. ▸ ⟨hcur, BitVec.ofBool_eq_iff_eq.1 hres, BitVec.ofBool_eq_iff_eq.1 hisSym, hsym⟩

theorem packWord_inj (h : packWord g = packWord g') : g.packer = g'.packer := by
  obtain ⟨h, hbuf⟩ := append_inj h
  exact Packer.mk.injEq .. ▸ ⟨hbuf, (append_inj h).2⟩

theorem unpackWord_inj (h : unpackWord g = unpackWord g') : g.unpacker = g'.unpacker := by
  obtain ⟨h, hbuf⟩ := append_inj h
  exact Unpacker.mk.injEq .. ▸ ⟨hbuf, (append_inj h).2⟩

theorem codeLenWord_inj (h : codeLenWord g = codeLenWord g') : g.code.len = g'.code.len :=
  (append_inj h).2

/-- The eight words of the code buffer show each of its 256 bits (R39). -/
theorem codeBuf_eq_of_codeWord (h : ∀ k < 8, codeWord g k = codeWord g' k) : g.code.buf = g'.code.buf := by
  refine BitVec.eq_of_getLsbD_eq fun i hi => ?_
  have hj : i % 32 < 32 := Nat.mod_lt i (by decide)
  rw [← Nat.div_add_mod i 32, ← codeWord_getLsbD g hj, ← codeWord_getLsbD g' hj, h (i / 32) (by omega)]

end

/-- The four words of the NODE view show the whole entry, if its weight fits 32 bits (R76). -/
theorem node_eq_of_nodeWord {x x' : Node} (hx : x.weight < 2 ^ 32) (hx' : x'.weight < 2 ^ 32)
    (h : ∀ j < 4, nodeWord x j = nodeWord x' j) : x = x' := by
  have hweight : x.weight = x'.weight := by
    have hmod := congrArg BitVec.toNat (h 0 (by decide))
    rwa [nodeWord, nodeWord, BitVec.toNat_ofNat, BitVec.toNat_ofNat, Nat.mod_eq_of_lt hx, Nat.mod_eq_of_lt hx'] at hmod
  obtain ⟨hl, hparent⟩ := append_inj (h 1 (by decide))
  obtain ⟨hl, -⟩ := append_inj hl
  obtain ⟨hl, hside⟩ := append_inj hl
  obtain ⟨hl, -⟩ := append_inj hl
  obtain ⟨hl, hkind⟩ := append_inj hl
  obtain ⟨hsymv, -⟩ := append_inj hl
  obtain ⟨hc, hleft⟩ := append_inj (h 2 (by decide))
  obtain ⟨hc, -⟩ := append_inj hc
  have hright : x.right = x'.right := (append_inj hc).2
  have hpos : x.pos = x'.pos := (append_inj (h 3 (by decide))).2
  exact Node.mk.injEq .. ▸
    ⟨hweight, Kind.number_inj hkind, hsymv, hparent, Side.number_inj hside, hleft, hright, hpos⟩

theorem symWord_inj {e e' : SymEntry} (h : symWord e = symWord e') : e = e' := by
  obtain ⟨h, hseen⟩ := append_inj h
  obtain ⟨h, -⟩ := append_inj h
  exact SymEntry.mk.injEq .. ▸ ⟨BitVec.ofBool_eq_iff_eq.1 hseen, (append_inj h).2⟩

/-! ## What the whole map determines -/

section
variable {s s' : State} (h : ∀ a, s.regWord a = s'.regWord a)
include h

theorem code_eq_of_regWord : s.eng.code = s'.eng.code := by
  have hbuf : s.eng.code.buf = s'.eng.code.buf := codeBuf_eq_of_codeWord fun k hk => by
    rw [← s.regWord_code hk, ← s'.regWord_code hk, h]
  exact Code.mk.injEq .. ▸ ⟨hbuf, codeLenWord_inj (h 0x000A)⟩

/-- STATUS shows `DEC_STATE` (R44). -/
theorem decState_eq_of_regWord : s.eng.decState = s'.eng.decState := by
  refine DecState.number_inj ?_
  rw [← s.status_fields.1, ← s'.status_fields.1]
  exact congrArg (BitVec.extractLsb' 4 2) (h 0x0002)

/-- STATUS and ERR_CMD show the error record (R44, R47). -/
theorem error_eq_of_regWord : s.eng.error = s'.eng.error := by
  have hstatus : s.status = s'.status := h 0x0002
  have herr : s.eng.error.err = s'.eng.error.err := by
    rw [← s.status_bits.2.1, ← s'.status_bits.2.1, hstatus]
  have hcode : s.eng.error.code = s'.eng.error.code := by
    refine ErrCode.number_inj ?_
    rw [← s.status_fields.2.1, ← s'.status_fields.2.1, hstatus]
  exact ErrRecord.mk.injEq .. ▸ ⟨herr, hcode, errCmdWord_inj (h 0x0005)⟩

/-- An index above 512 names no entry, so the NODE view misses none. -/
theorem node_eq_of_regWord (hw : ∀ n, (s.eng.tree.node n).weight < 2 ^ 32)
    (hw' : ∀ n, (s'.eng.tree.node n).weight < 2 ^ 32) (n : Idx) : s.eng.tree.node n = s'.eng.tree.node n := by
  by_cases hn : n.toNat < 513
  · refine node_eq_of_nodeWord (hw n) (hw' n) fun j hj => ?_
    have := h (BitVec.ofNat 16 (0x1000 + 4 * n.toNat + j))
    rwa [s.regWord_node (by omega) hj, s'.regWord_node (by omega) hj, BitVec.ofNat_toNat, BitVec.setWidth_eq] at this
  · rw [Tree.node_out _ hn, Tree.node_out _ hn]

theorem ordAt_eq_of_regWord (k : Idx) : s.eng.tree.ordAt k = s'.eng.tree.ordAt k := by
  by_cases hk : k.toNat < 513
  · have := h (BitVec.ofNat 16 (0x2000 + k.toNat))
    rw [s.regWord_ord (by omega), s'.regWord_ord (by omega), BitVec.ofNat_toNat, BitVec.setWidth_eq] at this
    exact (append_inj this).2
  · simp only [Tree.ordAt, hk, dite_false]

theorem tree_eq_of_regWord (hw : ∀ n, (s.eng.tree.node n).weight < 2 ^ 32)
    (hw' : ∀ n, (s'.eng.tree.node n).weight < 2 ^ 32) : s.eng.tree = s'.eng.tree := by
  have hnodes := Tree.nodes_ext (node_eq_of_regWord h hw hw')
  have hord := Tree.ord_ext (ordAt_eq_of_regWord h)
  have hsymtab : s.eng.tree.symtab = s'.eng.tree.symtab := Tree.symtab_ext fun c =>
    symWord_inj (by rw [← s.regWord_sym, ← s'.regWord_sym, h])
  obtain ⟨hnext, hesc⟩ := treeWord_inj (h 0x0006)
  exact Tree.mk.injEq .. ▸ ⟨hnodes, hord, hsymtab, hesc, hnext⟩

end

/-- Settles O19: while idle the port shows the map, and the map shows each part of the engine. -/
theorem registerPortShowsTheWholeEngine : Obligations.RegisterPortShowsTheWholeEngine := by
  intro s s' hidle hidle' hwb hwb' hw hw' hread
  have h : ∀ a, s.regWord a = s'.regWord a := fun a => by
    rw [← State.readPort_of_idle hidle, ← State.readPort_of_idle hidle', hread]
  exact Engine.mk.injEq .. ▸ ⟨paramWord_inj hwb hwb' (h 0x0001), tree_eq_of_regWord h hw hw', walkWord_inj (h 0x0007),
    code_eq_of_regWord h, packWord_inj (h 0x0008), unpackWord_inj (h 0x0009), ctrlWord_inj (h 0x0003),
    decState_eq_of_regWord h, error_eq_of_regWord h, h 0x0004⟩

end Sys2Proof.Machine
end

section
/-! A run with less offered (20_memory.md R91, R98, 70_reset_and_hazards.md R262): the same command, with less input and
less room, does the same as far as it comes. -/

namespace Sys2Proof.Machine

/-! ## Less offered -/

/-- `c` is `d` with less offered: in `d` further bytes stand behind the input, an end-of-data that `c` sees is one that
`d` sees behind the same bytes, and the host takes no more output than in `d`. -/
structure Ctx.Curbed (c d : Ctx) : Prop where
  eng : c.eng = d.eng
  taken : c.taken = d.taken
  sent : c.sent = d.sent
  input : ∃ later, d.inp = c.inp ++ later ∧ (c.eod = true → later = [] ∧ d.eod = true)
  room : ∀ k, d.room = some k → ∃ j ≤ k, c.room = some j

theorem Ctx.Curbed.withEng {c d : Ctx} (h : c.Curbed d) (g : Engine) :
    Curbed { c with eng := g } { d with eng := g } :=
  ⟨rfl, h.taken, h.sent, h.input, h.room⟩

/-- `c` waits on port `p` where the run that has come to `d` went on: its transfers are the first of those of `d`, and
at the port `d` has had one more, or has seen the end-of-data. -/
structure Ctx.StoppedBefore (c : Ctx) (p : Port) (d : Ctx) : Prop where
  taken : c.taken <+: d.taken
  sent : c.sent <+: d.sent
  moreIn : p = .input → c.taken.length < d.taken.length ∨ d.inp = [] ∧ d.eod = true
  moreOut : p = .output → c.sent.length < d.sent.length

theorem Ctx.StoppedBefore.trans {c d e : Ctx} {p : Port} (h : c.StoppedBefore p d) (k : d.Streams e) :
    c.StoppedBefore p e := by
  obtain ⟨us, htaken⟩ := k.taken
  obtain ⟨vs, hsent, -, -⟩ := k.sent
  have hinput := k.input
  refine ⟨h.taken.trans ⟨us, htaken.symm⟩, h.sent.trans ⟨vs, hsent.symm⟩, fun hp => ?_, fun hp => ?_⟩
  · obtain hlt | ⟨hinp, heod⟩ := h.moreIn hp
    · exact .inl (by rw [htaken, List.length_append]; omega)
    · rw [htaken, List.append_assoc, hinp, List.append_cancel_left_eq, List.append_eq_nil_iff] at hinput
      exact .inr ⟨hinput.2, k.eod.trans heod⟩
  · have := h.moreOut hp
    rw [hsent, List.length_append]
    omega

/-- The run `r`, with less offered, has come as far as `r'`, or it waits on a port where `r'` went on. -/
inductive Run.Behind {α : Type} : Run α → Run α → Prop where
  | done (a : α) {c d : Ctx} : c.Curbed d → Behind (.done a c) (.done a d)
  | fail (e : ErrCode) {c d : Ctx} : c.Curbed d → Behind (.fail e c) (.fail e d)
  | wait (p : Port) {c d : Ctx} : c.Curbed d → Behind (.wait p c) (.wait p d)
  | stopped {p : Port} {c : Ctx} {r' : Run α} : c.StoppedBefore p r'.ctx → Behind (.wait p c) r'

theorem Run.Behind.curbed_or_stopped {α : Type} {r r' : Run α} (h : r.Behind r') :
    r.ctx.Curbed r'.ctx ∨ ∃ p c, r = .wait p c ∧ c.StoppedBefore p r'.ctx := by
  cases h with
  | done a h | fail e h | wait p h => exact .inl h
  | stopped h => exact .inr ⟨_, _, rfl, h⟩

/-- `f` moves the streams as R91 says, and with less offered it does the same as far as it comes. -/
structure Steady {α : Type} (f : Ctx → Run α) : Prop where
  streams : ∀ c : Ctx, c.Streams (f c).ctx
  behind : ∀ {c d : Ctx}, c.Curbed d → (f c).Behind (f d)

theorem Run.Behind.bind {α β : Type} {r r' : Run α} {f : α → Ctx → Run β} (h : r.Behind r') (hf : ∀ a, Steady (f a)) :
    (r.bind f).Behind (r'.bind f) := by
  cases h with
  | done a h => exact (hf a).behind h
  | fail e h => exact .fail e h
  | wait p h => exact .wait p h
  | stopped h => exact .stopped (Run.ctx_bind (P := fun d => Ctx.StoppedBefore _ _ d) r' f h fun a d hd =>
      Ctx.StoppedBefore.trans (by simpa [hd] using h) ((hf a).streams d))

theorem Steady.bind {α β : Type} {f : Ctx → Run α} {g : α → Ctx → Run β} (hf : Steady f) (hg : ∀ a, Steady (g a)) :
    Steady fun c => (f c).bind g where
  streams c := Run.ctx_bind (P := c.Streams) _ g (hf.streams c) fun a d hd =>
    Ctx.Streams.trans (by simpa [hd] using hf.streams c) ((hg a).streams d)
  behind h := (hf.behind h).bind hg

theorem Steady.done {α : Type} (a : α) : Steady (.done a) :=
  ⟨.refl, .done a⟩

theorem Steady.fail {α : Type} (e : ErrCode) : Steady (.fail e : Ctx → Run α) :=
  ⟨.refl, .fail e⟩

/-- An answer made from the bytes sent. -/
theorem Steady.answer {α : Type} (a : List Byte → α) : Steady fun c => .done (a c.sent) c where
  streams := .refl
  behind {c d} h := by
    rw [h.sent]
    exact .done _ h

/-- What a step does may depend on the engine. -/
theorem Steady.of_eng {α : Type} {F : Engine → Ctx → Run α} (h : ∀ g, Steady (F g)) : Steady fun c => F c.eng c where
  streams c := (h c.eng).streams c
  behind {c d} hcd := by
    rw [hcd.eng]
    exact (h d.eng).behind hcd

theorem Steady.ite {α : Type} {P : Engine → Prop} [DecidablePred P] {f g : Ctx → Run α} (hf : Steady f)
    (hg : Steady g) : Steady fun c => if P c.eng then f c else g c :=
  .of_eng (F := fun e c => if P e then f c else g c) fun e => by
    by_cases he : P e
    · simpa only [if_pos he] using hf
    · simpa only [if_neg he] using hg

section
variable {α : Type} {f : Ctx → Run α} (hf : Steady f)
include hf

/-- A step after a change of the engine. -/
theorem Steady.after (u : Engine → Engine) : Steady fun c => f { c with eng := u c.eng } where
  streams c := (Ctx.Streams.of_eng c _).trans (hf.streams _)
  behind {c d} h := by
    rw [h.eng]
    exact hf.behind (h.withEng _)

theorem Steady.setPacker (p : Packer) : Steady fun c => f (c.setPacker p) :=
  hf.after fun g => { g with packer := p }

theorem Steady.setUnpacker (u : Unpacker) : Steady fun c => f (c.setUnpacker u) :=
  hf.after fun g => { g with unpacker := u }

theorem Steady.setDecState (d : DecState) : Steady fun c => f (c.setDecState d) :=
  hf.after fun g => { g with decState := d }

theorem Steady.walkClear : Steady fun c => f c.walkClear :=
  hf.after fun g => { g with walker := Walker.cleared }

theorem Steady.adv (b : Bool) : Steady fun c => f (c.adv b) :=
  hf.after fun g =>
    let n := (g.tree.node g.walker.cur).child b
    { g with walker := Walker.arrive n (g.tree.node n) }

theorem Steady.derivePath (n : Tree → Idx) : Steady fun c => f (c.derivePath (n c.eng.tree)) :=
  hf.after fun g => { g with code := Code.ofPath (g.tree.path (n g.tree)) }

theorem Steady.observe (b : Byte) : Steady fun c => f (c.observe b) :=
  hf.after fun g => { g with tree := (g.tree.observe b).tree, walker := Walker.cleared }

end

/-! ## The stream primitives (R81, R82) -/

theorem inRead_steady : Steady inRead where
  streams c := (inRead_follows c).streams
  behind := by
    rintro ⟨g, inp, eod, room, taken, sent⟩ ⟨_, _, deod, droom, _, _⟩ ⟨rfl, rfl, rfl, ⟨later, rfl, heod⟩, hroom⟩
    cases inp with
    | cons v rest => exact .done _ ⟨rfl, rfl, rfl, ⟨later, rfl, heod⟩, hroom⟩
    | nil =>
      cases eod with
      | true =>
        obtain ⟨rfl, rfl⟩ := heod rfl
        exact .done _ ⟨rfl, rfl, rfl, ⟨[], rfl, fun _ => ⟨rfl, rfl⟩⟩, hroom⟩
      | false =>
        cases later with
        | cons v rest => exact .stopped ⟨⟨[v], rfl⟩, List.prefix_rfl, fun _ => .inl (by simp [inRead]), nofun⟩
        | nil =>
          cases deod with
          | true => exact .stopped ⟨List.prefix_rfl, List.prefix_rfl, fun _ => .inr ⟨rfl, rfl⟩, nofun⟩
          | false => exact .wait _ ⟨rfl, rfl, rfl, ⟨[], rfl, nofun⟩, hroom⟩

theorem outWrite_steady (v : Byte) : Steady (outWrite v) where
  streams c := (outWrite_follows v c).streams
  behind {c d} h := by
    by_cases hc : c.room = some 0
    · rw [show outWrite v c = .wait .output c by simp [outWrite, hc]]
      by_cases hd : d.room = some 0
      · rw [show outWrite v d = .wait .output d by simp [outWrite, hd]]
        exact .wait _ h
      · rw [outWrite_done v d hd]
        exact .stopped ⟨h.taken ▸ List.prefix_rfl, ⟨[v], congrArg (· ++ [v]) h.sent⟩, nofun, fun _ => by simp [h.sent]⟩
    · have hd : d.room ≠ some 0 := fun hd => by
        obtain ⟨j, hj, hcj⟩ := h.room 0 hd
        exact hc (by rw [hcj, Nat.le_zero.1 hj])
      rw [outWrite_done v c hc, outWrite_done v d hd]
      refine .done _ ⟨h.eng, h.taken, congrArg (· ++ [v]) h.sent, h.input, fun k hk => ?_⟩
      obtain ⟨k, hdk, rfl⟩ := Option.map_eq_some_iff.1 hk
      obtain ⟨j, hj, hcj⟩ := h.room k hdk
      exact ⟨j - 1, Nat.sub_le_sub_right hj 1, by rw [hcj]; rfl⟩

/-! ## Sending -/

theorem putBit_steady (b : Bool) : Steady (putBit b) :=
  .of_eng (F := fun g c => if g.packer.cnt = 7 then
      (outWrite (g.packer.shiftIn b) c).bind fun _ c => .done () (c.setPacker Packer.empty)
    else .done () (c.setPacker { buf := g.packer.shiftIn b, cnt := g.packer.cnt + 1 })) fun g =>
    .ite (P := fun _ => g.packer.cnt = 7) ((outWrite_steady _).bind fun _ => (Steady.done ()).setPacker _)
      ((Steady.done ()).setPacker _)

theorem putAll_steady (bs : List Bool) : Steady (putAll bs) := by
  induction bs with
  | nil => exact .done ()
  | cons b bs ih => exact (putBit_steady b).bind fun _ => ih

theorem putCode_steady : Steady putCode :=
  .of_eng (F := fun g => putAll g.code.bits) fun _ => putAll_steady _

theorem flushCore_steady : Steady flushCore :=
  .ite (P := fun g => g.packer.cnt = 0) (.done 0) <|
    .of_eng (F := fun g c => (outWrite (g.packer.buf <<< (8 - g.packer.cnt.toNat)) c).bind fun _ c =>
      .done (8 - g.packer.cnt.toNat) (c.setPacker Packer.empty)) fun _ =>
        (outWrite_steady _).bind fun _ => (Steady.done _).setPacker _

/-- What a sequencer answers: a number of bits, beyond the code sent. -/
theorem emitted_steady (k : Nat) (mark : Bool) :
    Steady fun c => .done ({ bits := c.eng.code.len.toNat + k, mark := mark } : Emitted) c :=
  .of_eng (F := fun g => .done ({ bits := g.code.len.toNat + k, mark := mark } : Emitted)) fun _ => .done _

theorem encbCore_steady (sym : Byte) : Steady (encbCore sym) :=
  .ite (P := fun g => (g.tree.symEntry sym).seen = true)
    ((putCode_steady.bind fun _ => (emitted_steady 0 false).observe sym).derivePath fun t => (t.symEntry sym).leaf)
    ((putCode_steady.bind fun _ => (putAll_steady _).bind fun _ => (emitted_steady 8 true).observe sym).derivePath
      Tree.esc)

theorem encendCore_steady : Steady encendCore :=
  .ite (P := fun g => g.terminates = true)
    ((putCode_steady.bind fun _ => (putAll_steady _).bind fun _ => flushCore_steady.bind fun _ =>
      emitted_steady 8 true).derivePath Tree.esc)
    (flushCore_steady.bind fun _ => .done _)

/-! ## Reading -/

theorem getBit_steady : Steady getBit := by
  refine .ite (P := fun g => g.unpacker.cnt = 0) (inRead_steady.bind fun v => ?_)
    (.of_eng (F := fun g c => .done (some g.unpacker.take.1) (c.setUnpacker g.unpacker.take.2)) fun _ =>
      (Steady.done _).setUnpacker _)
  cases v with
  | none => exact .done none
  | some v => exact (Steady.done _).setUnpacker _

theorem getBitsFrom_steady (n : Nat) (v : Byte) (k : Nat) : Steady (getBitsFrom n v k) := by
  induction n generalizing v k with
  | zero => exact .done _
  | succ n ih =>
    refine getBit_steady.bind fun b => ?_
    cases b with
    | none => exact .done _
    | some b => exact ih _ _

theorem descend_steady (fuel : Nat) : Steady (descend fuel) := by
  induction fuel with
  | zero => exact .of_eng (F := fun g => .done (g.curKind != .int)) fun _ => .done _
  | succ fuel ih =>
    refine .ite (P := fun g => g.curKind = .int) (getBit_steady.bind fun b => ?_) (.done true)
    cases b with
    | none => exact .done false
    | some b => exact ih.adv b

/-- The rounds of the descent that the bits left allow are enough. -/
theorem descend_fuel {m n : Nat} {c : Ctx} (hm : c.bitsLeft < m) (hn : c.bitsLeft < n) : descend m c = descend n c := by
  induction m generalizing n c with
  | zero => exact absurd hm (Nat.not_lt_zero _)
  | succ m ih =>
    obtain ⟨n, rfl⟩ := Nat.exists_eq_add_one_of_ne_zero (Nat.ne_zero_of_lt hn)
    rw [descend, descend]
    split
    · have hs := getBit_spends c
      cases hg : getBit c with
      | done b d =>
        cases b with
        | none => rfl
        | some b =>
          have hlt : (d.adv b).bitsLeft < c.bitsLeft := (hs _ _ hg).2 rfl
          exact ih (by omega) (by omega)
      | fail e d => rfl
      | wait p d => rfl
    · rfl

theorem decodeByte_steady (v : Byte) : Steady (decodeByte v) :=
  (outWrite_steady v).bind fun _ => (Steady.done _).observe v

theorem decodeFirst_steady : Steady decodeFirst :=
  (getBitsFrom_steady 8 0 0).bind fun g => .ite (P := fun _ => g.exh = true) (.done _)
    ((decodeByte_steady g.v).bind fun _ => (Steady.done _).setDecState _)

theorem decodeLiteral_steady : Steady decodeLiteral :=
  (getBitsFrom_steady 8 0 0).bind fun g => .ite (P := fun _ => g.exh = true) ((Steady.done _).setDecState _)
    (.ite (P := fun _ => g.v = 0) ((Steady.done _).setDecState _) (decodeByte_steady g.v))

theorem decodeNext_steady : Steady decodeNext where
  streams c := (decodeNext_follows c).streams
  behind {c d} h := by
    obtain ⟨later, hinp, -⟩ := h.input
    have hle : c.bitsLeft ≤ d.bitsLeft := by
      rw [Ctx.bitsLeft, Ctx.bitsLeft, h.eng, hinp, List.length_append]
      omega
    have hfuel : descend (c.bitsLeft + 1) c.walkClear = descend (d.bitsLeft + 1) c.walkClear :=
      descend_fuel (Nat.lt_succ_self _) (Nat.lt_succ_of_le hle)
    rw [decodeNext, decodeNext, hfuel]
    refine ((descend_steady _).walkClear.behind h).bind fun resolved => .ite (P := fun _ => resolved = true)
      (.ite (P := fun g => g.curKind = .sym) ?_ decodeLiteral_steady.walkClear)
      ((Steady.done _).walkClear.setDecState _)
    exact .of_eng (F := fun g c => decodeByte (g.tree.node g.walker.cur).symv c.walkClear) fun _ =>
      (decodeByte_steady _).walkClear

theorem decstepCore_steady : Steady decstepCore :=
  .ite (P := fun g => g.decState = .done) (.done _)
    (.ite (P := fun g => g.overflows = true) (.fail _)
      (.ite (P := fun g => g.decState = .await) decodeFirst_steady decodeNext_steady))

/-! ## Whole passes -/

theorem encrunLoop_steady (fuel n : Nat) : Steady (encrunLoop fuel n) := by
  induction fuel generalizing n with
  | zero => exact .done _
  | succ fuel ih =>
    refine .ite (P := fun g => g.overflows = true) (.fail _) (inRead_steady.bind fun v => ?_)
    cases v with
    | none => exact encendCore_steady.bind fun _ => .done _
    | some v => exact (encbCore_steady v).bind fun _ => ih _

/-- The rounds of ENCRUN that the bytes offered allow are enough. -/
theorem encrunLoop_fuel {m m' n : Nat} {c : Ctx} (hm : c.inp.length < m) (hm' : c.inp.length < m') :
    encrunLoop m n c = encrunLoop m' n c := by
  induction m generalizing m' n c with
  | zero => exact absurd hm (Nat.not_lt_zero _)
  | succ m ih =>
    obtain ⟨m', rfl⟩ := Nat.exists_eq_add_one_of_ne_zero (Nat.ne_zero_of_lt hm')
    rw [encrunLoop, encrunLoop]
    split
    · rfl
    · cases hi : c.inp with
      | nil => cases he : c.eod <;> simp [inRead, hi, he]
      | cons v rest =>
        simp only [inRead, hi, Run.done_bind]
        have hinp := encbCore_inp v { c with inp := rest, taken := c.taken ++ [v] }
        cases hc : encbCore v { c with inp := rest, taken := c.taken ++ [v] } with
        | done r d =>
          have hd : d.inp.length < c.inp.length := by
            rw [hc] at hinp
            rw [hi, show d.inp = rest from hinp]
            exact Nat.lt_succ_self _
          exact ih (by omega) (by omega)
        | fail e d => rfl
        | wait p d => rfl

theorem encrunBody_steady : Steady encrunBody where
  streams c := (encrunLoop_follows _ _ c).streams
  behind {c d} h := by
    obtain ⟨later, hinp, -⟩ := h.input
    have hlt : c.inp.length < d.inp.length + 1 := by
      rw [hinp, List.length_append]
      omega
    rw [encrunBody, encrunBody, encrunLoop_fuel (Nat.lt_succ_self _) hlt]
    exact (encrunLoop_steady _ _).behind h

theorem decrunLoop_steady (fuel n : Nat) : Steady (decrunLoop fuel n) := by
  induction fuel generalizing n with
  | zero => exact decstepCore_steady.bind fun r => .ite (P := fun _ => r.outcome = .byte) (.fail _) (.done _)
  | succ fuel ih => exact decstepCore_steady.bind fun r => .ite (P := fun _ => r.outcome = .byte) (ih _) (.done _)

/-! ## Whole commands -/

/-- CODE and ESCCODE answer the length of the code they have derived. -/
theorem codeResponse_steady : Steady fun c => .done (codeResponse c.eng.code) c :=
  .of_eng (F := fun g => .done (codeResponse g.code)) fun _ => .done _

/-- With less offered, every command does the same as far as it comes. -/
theorem bodyOf_steady (i : Instr) : Steady (bodyOf i) := by
  cases i with
  | nop => exact .done 0
  | init mask => exact (Steady.done 0).after fun g => g.initParts mask
  | observe sym =>
    exact .ite (P := fun g => g.overflows = true) (.fail _) <|
      .of_eng (F := fun g c => let o := g.tree.observe sym
        .done (observeResponse o.first o.swaps o.leaf) (c.observe sym)) fun _ => (Steady.done _).observe sym
  | isobs sym => exact .of_eng (F := fun g => .done (isobsResponse (g.tree.symEntry sym))) fun _ => .done _
  | code sym =>
    exact .ite (P := fun g => (g.tree.symEntry sym).seen = true)
      (codeResponse_steady.derivePath fun t => (t.symEntry sym).leaf) (.fail _)
  | esccode => exact codeResponse_steady.derivePath Tree.esc
  | wreset => exact (Steady.done 0).walkClear
  | wadv bit =>
    exact .ite (P := fun g => g.curKind = .int)
      (Steady.adv (.of_eng (F := fun g => .done (wadvResponse g.walker)) fun _ => .done _) bit) (.fail _)
  | encrun => exact encrunBody_steady
  | decrun => exact .of_eng (F := fun g => decrunLoop (g.wmax - g.tree.rootWeight) 0) fun _ => decrunLoop_steady _ _
  | putbits count value =>
    exact (putAll_steady _).bind fun _ => .answer fun sent => packResponse sent.length count
  | putcode =>
    exact putCode_steady.bind fun _ => .of_eng (F := fun g c =>
      .done (packResponse c.sent.length g.code.len.toNat) c) fun g =>
        .answer fun sent => packResponse sent.length g.code.len.toNat
  | flush => exact flushCore_steady.bind fun pad => .answer fun sent => packResponse sent.length pad
  | getbits count => exact (getBitsFrom_steady count 0 0).bind fun _ => .done _
  | encb sym =>
    exact .ite (P := fun g => g.overflows = true) (.fail _) <|
      (encbCore_steady sym).bind fun r => .answer fun sent => encodeResponse sent.length r.mark r.bits
  | encend => exact encendCore_steady.bind fun r => .answer fun sent => encodeResponse sent.length r.mark r.bits
  | decstep => exact decstepCore_steady.bind fun _ => .done _
  | setctrl v => exact (Steady.done 0).after fun g => { g with termEn := v }

end Sys2Proof.Machine
end

section
/-! `rst` (70_reset_and_hazards.md R260 to R262): what it gives, and what a command abandoned inside its run has
transferred. -/

namespace Sys2Proof.Machine

/-! ## The value of reset (R260, R261) -/

theorem Engine.hardwareReset_eq_resetWith (g : Engine) : g.hardwareReset = (State.resetWith g.weightBits).eng := rfl

/-- `INIT 0x1F` selects all five parts (R221), which with CTRL and RESULT are what `rst` resets (R260). -/
theorem Engine.initParts_all (g : Engine) :
    { g.initParts 0x1F with result := 0 } = { g.hardwareReset with termEn := g.termEn } := by
  rw [Engine.initParts_eq]
  rfl

/-- Settles O3: INIT completes with RESULT 0, and its parts are those of `rst`. -/
theorem softResetMatchesHardwareReset : Obligations.SoftResetMatchesHardwareReset := fun s =>
  ⟨_, exec_init_eq 0x1F s, s.eng.initParts_all, rfl, rfl, rfl, rfl⟩

/-! ## The transfers of a command with less offered (R91) -/

/-- How far command `i` comes when it is accepted in `s`. -/
def State.runOf (s : State) (i : Instr) : Ctx := (bodyOf i s.ctx).ctx

/-- The bytes taken, and those left behind them, are the bytes offered. -/
theorem State.runOf_input (s : State) (i : Instr) : (s.runOf i).taken ++ (s.runOf i).inp = s.inBytes :=
  (bodyOf_streams i s.ctx).input

/-- The bytes sent are within what the host takes, and count against it. -/
theorem State.runOf_output (s : State) (i : Instr) :
    (s.runOf i).room = roomAfter s.outRoom (s.runOf i).sent.length ∧
      ∀ k, s.outRoom = some k → (s.runOf i).sent.length ≤ k := by
  obtain ⟨bs, hsent, hroom, hle⟩ := (bodyOf_streams i s.ctx).sent
  rw [State.runOf, hsent]
  exact ⟨hroom, hle⟩

/-- With less offered, a command comes as far or it is stuck at a port. -/
theorem runOf_curbed_or_stopped {s r : State} (h : s.ctx.Curbed r.ctx) (i : Instr) : (s.runOf i).Curbed (r.runOf i) ∨
    ∃ p, (s.runOf i).stuckOn p ∧ (s.runOf i).StoppedBefore p (r.runOf i) := by
  obtain h | ⟨p, c, hw, h⟩ := ((bodyOf_steady i).behind h).curbed_or_stopped
  · exact .inl h
  · have hc : s.runOf i = c := congrArg Run.ctx hw
    exact .inr ⟨p, hc ▸ bodyOf_waitsRightly i s.ctx p c hw, hc ▸ h⟩

/-- With less offered, a command makes the first of its transfers. -/
theorem runOf_prefix {s r : State} (h : s.ctx.Curbed r.ctx) (i : Instr) :
    (s.runOf i).taken <+: (r.runOf i).taken ∧ (s.runOf i).sent <+: (r.runOf i).sent := by
  obtain h | ⟨p, -, h⟩ := runOf_curbed_or_stopped h i
  · exact ⟨h.taken ▸ List.prefix_rfl, h.sent ▸ List.prefix_rfl⟩
  · exact ⟨h.taken, h.sent⟩

/-! ## The transfers under the limits of `rstWithin` (log entry 12) -/

section
variable (s : State) (i : Instr) (ins outs : Nat)

theorem State.limit_curbed : (s.limit ins outs).ctx.Curbed s.ctx := by
  refine ⟨rfl, rfl, rfl, ⟨s.inBytes.drop ins, (List.take_append_drop ins s.inBytes).symm, fun he => ?_⟩, fun k hk => ?_⟩
  · obtain ⟨heod, hlen⟩ := Bool.and_eq_true_iff.1 he
    exact ⟨List.drop_eq_nil_of_le (of_decide_eq_true hlen), heod⟩
  · have hk : s.outRoom = some k := hk
    exact ⟨min k outs, Nat.min_le_left k outs, by simp [hk]⟩

theorem State.runOf_limit_taken_le : ((s.limit ins outs).runOf i).taken.length ≤ ins := by
  have hlen := congrArg List.length ((s.limit ins outs).runOf_input i)
  rw [List.length_append, State.limit_inBytes, List.length_take] at hlen
  omega

theorem State.runOf_limit_sent_le : ((s.limit ins outs).runOf i).sent.length ≤ outs := by
  have hle := ((s.limit ins outs).runOf_output i).2 _ rfl
  split at hle <;> omega

/-- What the limits leave out of the input stands behind what the command leaves. -/
theorem State.runOf_limit_input : ((s.limit ins outs).runOf i).taken ++
    (((s.limit ins outs).runOf i).inp ++ s.inBytes.drop ins) = s.inBytes := by
  rw [← List.append_assoc, State.runOf_input, State.limit_inBytes, List.take_append_drop]

variable {s i ins outs}

/-- A command that takes no more bytes than the limit is not stopped by it at the input. -/
theorem State.runOf_limit_not_stopped_input (hin : (s.runOf i).taken.length ≤ ins)
    (hstuck : ((s.limit ins outs).runOf i).stuckOn .input) :
    ¬ ((s.limit ins outs).runOf i).StoppedBefore .input (s.runOf i) := by
  intro h
  obtain ⟨hinp, heod⟩ := hstuck
  have hlim := congrArg List.length ((s.limit ins outs).runOf_input i)
  have hall := congrArg List.length (s.runOf_input i)
  rw [hinp, State.limit_inBytes, List.append_nil, List.length_take] at hlim
  rw [List.length_append] at hall
  obtain hlt | ⟨hend, htrue⟩ := h.moreIn rfl
  · omega
  · have he : (s.inEod && decide (s.inBytes.length ≤ ins)) = false :=
      ((bodyOf_streams i (s.limit ins outs).ctx).eod.symm.trans heod)
    have hs : s.inEod = true := (bodyOf_streams i s.ctx).eod.symm.trans htrue
    rw [hend, List.length_nil] at hall
    rw [hs, Bool.true_and, decide_eq_false_iff_not] at he
    omega

/-- A command that sends no more bytes than the limit is not stopped by it at the output. -/
theorem State.runOf_limit_not_stopped_output (hout : (s.runOf i).sent.length ≤ outs)
    (hstuck : ((s.limit ins outs).runOf i).stuckOn .output) :
    ¬ ((s.limit ins outs).runOf i).StoppedBefore .output (s.runOf i) := by
  intro h
  have hlt := h.moreOut rfl
  obtain ⟨hroom, -⟩ := (s.limit ins outs).runOf_output i
  have hroom := Option.some.inj (hroom.symm.trans hstuck)
  cases hr : s.outRoom with
  | none =>
    simp only [hr] at hroom
    omega
  | some k =>
    have hle := (s.runOf_output i).2 k hr
    simp only [hr] at hroom
    omega

/-- A command that makes no more transfers than the limits makes them all under the limits. -/
theorem State.runOf_limit_all (hin : (s.runOf i).taken.length ≤ ins) (hout : (s.runOf i).sent.length ≤ outs) :
    ((s.limit ins outs).runOf i).taken = (s.runOf i).taken ∧ ((s.limit ins outs).runOf i).sent = (s.runOf i).sent := by
  obtain h | ⟨p, hstuck, h⟩ := runOf_curbed_or_stopped (s.limit_curbed ins outs) i
  · exact ⟨h.taken, h.sent⟩
  · cases p with
    | input => exact absurd h (s.runOf_limit_not_stopped_input hin hstuck)
    | output => exact absurd h (s.runOf_limit_not_stopped_output hout hstuck)

end

/-! ## A command abandoned inside its run (R262) -/

/-- The engine is reset, and the streams have moved as the run under the limits moves them. -/
theorem State.abandonIn_eq (s r : State) (i : Instr) (ins outs : Nat) :
    let l := (r.limit ins outs).runOf i
    ∃ inp, l.taken ++ inp = r.inBytes ∧ s.abandonIn r i ins outs = ({ s with
      inBytes := inp
      outBytes := r.outBytes ++ l.sent
      outRoom := roomAfter r.outRoom l.sent.length } : State).hardwareReset := by
  obtain ⟨t, ht⟩ := exec_next i (r.limit ins outs)
  obtain ⟨hi, ho, -, -⟩ := exec_streams ht
  refine ⟨_, r.runOf_limit_input i ins outs, ?_⟩
  simp only [State.abandonIn, ht, hi, ho, State.limit_outBytes, List.length_append, Nat.add_sub_cancel_left]
  rfl

theorem roomAfter_map_add (room : Option Nat) (m n : Nat) :
    roomAfter (room.map (· + m)) (m + n) = roomAfter room n := by
  cases room <;> simp [roomAfter, Nat.add_comm m, Nat.add_sub_add_right]

/-- Command `i`, whose run started in `r` and has come to `s`, abandoned `ins` and `outs` transfers later. `v` is the
end of its run. -/
theorem State.abandonIn_abandoned {s r v : State} {i : Instr} {taken sent : List Byte} {ins outs : Nat}
    (hin : r.inBytes = taken ++ s.inBytes) (hout : s.outBytes = r.outBytes ++ sent)
    (hroom : r.outRoom = s.outRoom.map (· + sent.length))
    (hvin : v.inBytes = (r.runOf i).inp) (hvout : v.outBytes = r.outBytes ++ (r.runOf i).sent)
    (htaken : taken <+: ((r.limit (taken.length + ins) (sent.length + outs)).runOf i).taken)
    (hsent : sent <+: ((r.limit (taken.length + ins) (sent.length + outs)).runOf i).sent) :
    s.Abandoned v (s.abandonIn r i (taken.length + ins) (sent.length + outs)) ins outs := by
  obtain ⟨⟨xs, hxs⟩, hpre⟩ := runOf_prefix (r.limit_curbed (taken.length + ins) (sent.length + outs)) i
  have htle := r.runOf_limit_taken_le i (taken.length + ins) (sent.length + outs)
  have hsle := r.runOf_limit_sent_le i (taken.length + ins) (sent.length + outs)
  have hall := r.runOf_limit_all (i := i) (ins := taken.length + ins) (outs := sent.length + outs)
  obtain ⟨inp, hinp, e⟩ := s.abandonIn_eq r i (taken.length + ins) (sent.length + outs)
  obtain ⟨bs, hbs⟩ := htaken
  obtain ⟨os, hos⟩ := hsent
  rw [e]
  generalize (r.limit (taken.length + ins) (sent.length + outs)).runOf i = l at htle hsle hall hxs hpre hinp hbs hos ⊢
  rw [← hbs, List.length_append] at htle
  rw [← hos, List.length_append] at hsle
  have hfull : (r.runOf i).taken ++ v.inBytes = r.inBytes := hvin ▸ r.runOf_input i
  refine ⟨⟨_, _, _, rfl⟩, ⟨bs, ?_, by omega⟩, ⟨os, ?_, by omega, ?_⟩, ⟨xs, ?_⟩, ?_, fun hi ho => ?_⟩
  · rw [hin, ← hbs, List.append_assoc] at hinp
    exact (List.append_cancel_left hinp).symm
  · rw [hout, List.append_assoc, hos]
    rfl
  · show roomAfter r.outRoom l.sent.length = roomAfter s.outRoom os.length
    rw [hroom, ← hos, List.length_append, roomAfter_map_add]
  · rw [← hxs, List.append_assoc, ← hinp] at hfull
    exact List.append_cancel_left hfull
  · rw [hvout]
    exact (List.prefix_append_right_inj _).2 hpre
  · have hlen := congrArg List.length (hfull.trans hin)
    rw [List.length_append, List.length_append] at hlen
    rw [hvout, hout, List.length_append, List.length_append] at ho
    obtain ⟨ht, hs⟩ := hall (by omega) (by omega)
    rw [← ht, ← hinp] at hfull
    exact ⟨(List.append_cancel_left hfull).symm, by rw [hvout, ← hs]; rfl⟩

/-- The state a held command runs from, taken back to its start, where the host has offered `bytes` since and takes
`room` bytes in all (R98). -/
def State.offeredMore (s : State) (bytes : List Byte) (eod : Bool) (room : Option Nat) : State :=
  { s with inBytes := s.inBytes ++ bytes, inEod := eod, outRoom := room }

/-- A run with more offered, and later limits, has no less to go on. -/
theorem State.limit_curbed_offeredMore {s : State} {a : Nat} (b ins outs : Nat) {bytes : List Byte} {eod : Bool}
    (room : Option Nat) (ha : a ≤ s.inBytes.length) (heod : s.inEod = true → bytes = [] ∧ eod = true) :
    (s.limit a b).ctx.Curbed ((s.offeredMore bytes eod (room.map (· + b))).limit (a + ins) (b + outs)).ctx := by
  refine ⟨rfl, rfl, rfl, ⟨(s.inBytes.drop a ++ bytes).take ins, ?_, fun he => ?_⟩, fun k hk => ⟨_, ?_, rfl⟩⟩
  · show (s.inBytes ++ bytes).take (a + ins) = s.inBytes.take a ++ (s.inBytes.drop a ++ bytes).take ins
    rw [List.take_add, List.take_append_of_le_length ha, List.drop_append_of_le_length ha]
  · obtain ⟨he, hlen⟩ := Bool.and_eq_true_iff.1 he
    have hlen := of_decide_eq_true hlen
    obtain ⟨rfl, rfl⟩ := heod he
    rw [List.append_nil, List.drop_eq_nil_of_le hlen]
    exact ⟨List.take_nil, decide_eq_true (by simpa [State.offeredMore] using hlen.trans (Nat.le_add_right a ins))⟩
  · have hb : b ≤ k := by
      obtain rfl := Option.some.inj hk
      cases room <;> simp [State.offeredMore]
    show (match s.outRoom with | none => b | some k => min k b) ≤ k
    split <;> omega

/-! ## `rst` as the host's next move (R96, R262) -/

section
variable {s : State} {rest : List HostMove}

theorem step_rst (h : s.host = .rst :: rest) : step s = .next ({ s with host := rest } : State).hardwareReset := by
  rw [step_of_resetNext (by rw [State.resetNext, h]), hostMove, h]

theorem step_rstWithin_none {ins outs : Nat} (h : s.host = .rstWithin none ins outs :: rest) :
    step s = .next (({ s with host := rest } : State).abandon ins outs) := by
  rw [step_of_resetNext (by rw [State.resetNext, h]), hostMove, h]

theorem step_rstWithin_some {w : Cmd} {ins outs : Nat} (hidle : s.hold = none)
    (h : s.host = .rstWithin (some w) ins outs :: rest) :
    step s = .next (({ s with host := rest } : State).abandonWord w ins outs) := by
  rw [step_of_idle hidle, hostMove_rstWithin h, if_pos (State.cmdReady_of_idle hidle)]

end

/-- `rst` within a command accepted in `s` (R262). -/
theorem State.abandonIn_self {s v : State} {i : Instr} (he : exec i s = .next v) (ins outs : Nat) :
    s.Abandoned v (s.abandonIn s i ins outs) ins outs := by
  obtain ⟨hvin, hvout, -, -⟩ := exec_streams he
  have h := State.abandonIn_abandoned (s := s) (r := s) (v := v) (i := i) (taken := []) (sent := []) (ins := ins)
    (outs := outs) rfl (List.append_nil _).symm (by simp) hvin hvout (List.nil_prefix ..) (List.nil_prefix ..)
  simpa only [List.length_nil, Nat.zero_add] using h

/-- A run abandoned behind a hold has made the transfers made before the hold. -/
theorem State.runOf_prefix_offeredMore {s : State} (i : Instr) {bytes : List Byte} {eod : Bool} (room : Option Nat)
    (heod : s.inEod = true → bytes = [] ∧ eod = true) (ins outs : Nat) :
    let r := s.offeredMore bytes eod (room.map (· + (s.runOf i).sent.length))
    let l := (r.limit ((s.runOf i).taken.length + ins) ((s.runOf i).sent.length + outs)).runOf i
    (s.runOf i).taken <+: l.taken ∧ (s.runOf i).sent <+: l.sent := by
  have hlen : (s.runOf i).taken.length ≤ s.inBytes.length := by
    rw [← s.runOf_input i, List.length_append]
    omega
  have h := runOf_prefix (State.limit_curbed_offeredMore (s.runOf i).sent.length ins outs room hlen heod) i
  obtain ⟨ht, hs⟩ := s.runOf_limit_all (i := i) le_rfl le_rfl
  rwa [ht, hs] at h

theorem State.abandon_of_hold {s r : State} {k : Hold} (hk : s.hold = some k) (hr : s.rewind k = r) (ins outs : Nat) :
    s.abandon ins outs = s.abandonIn r k.instr (k.taken.length + ins) (k.sent + outs) := by
  rw [State.abandon, hk, ← hr]

theorem State.abandon_of_idle {s : State} (hidle : s.hold = none) (ins outs : Nat) :
    s.abandon ins outs = s.hardwareReset := by
  rw [State.abandon, hidle]

/-- `rst` within a command that holds, once the host has offered more (R262). -/
theorem State.abandon_held {s t v : State} {i : Instr} {h : Hold} {bytes : List Byte} {eod : Bool}
    (room : Option Nat) (hidle : s.hold = none) (he : exec i s = .next t) (hh : t.hold = some h)
    (heod : s.inEod = true → bytes = [] ∧ eod = true)
    (hv : exec i (s.offeredMore bytes eod (room.map (· + h.sent))) = .next v) (ins outs : Nat) (rest : List HostMove) :
    let t' : State := { t with inBytes := t.inBytes ++ bytes, inEod := eod, outRoom := room, host := rest }
    t'.Abandoned v (t'.abandon ins outs) ins outs := by
  obtain ⟨c, hb, hk, -⟩ := exec_hold he hh
  rw [exec_of_wait hb] at he
  obtain rfl := Host.Outcome.next.inj he
  obtain rfl : s.runOf i = c := congrArg Run.ctx hb
  rw [hk] at hv
  obtain ⟨hvin, hvout, -, -⟩ := exec_streams hv
  obtain ⟨ht, hs⟩ := State.runOf_prefix_offeredMore i room heod ins outs
  have hr := State.rewind_waitOn (s := { s with host := rest }) (i := i) (p := h.port) hidle (bodyOf_streams i s.ctx)
    bytes eod room
  have hin : s.inBytes ++ bytes = (s.runOf i).taken ++ ((s.runOf i).inp ++ bytes) := by
    rw [← List.append_assoc, s.runOf_input]
  intro t'
  rw [State.abandon_of_hold (s := t') rfl hr]
  exact State.abandonIn_abandoned hin rfl rfl hvin hvout ht hs

/-- With no command in progress, `rst` resets the engine alone. -/
theorem State.hardwareReset_of_idle {s : State} (hidle : s.hold = none) : s.hardwareReset =
    { s with eng := (State.resetWith s.eng.weightBits).eng, eodMayFall := true } := by
  rw [State.hardwareReset, Engine.hardwareReset_eq_resetWith, ← hidle]

/-- Settles O2: a plain `rst` is the reset alone; within a command it is the reset of a state whose streams have moved
as its run, under the limits, moves them. -/
theorem hardwareResetAbandonsTheCommand : Obligations.HardwareResetAbandonsTheCommand := by
  refine ⟨fun s rest h => step_rst h, fun s ins outs rest hidle h => ?_, fun s w ins outs rest hidle h =>
    ⟨fun i v hd he => ⟨_, step_rstWithin_some hidle h, ?_⟩, fun e hd => ?_⟩,
    fun i s t v h bytes eod room ins outs rest hidle he hh heod hv =>
      ⟨_, step_rstWithin_none rfl, State.abandon_held room hidle he hh heod hv ins outs rest⟩⟩
  · rw [step_rstWithin_none h, State.abandon_of_idle (s := { s with host := rest }) hidle]
    exact congrArg Host.Outcome.next (State.hardwareReset_of_idle (s := { s with host := rest }) hidle)
  · rw [State.abandonWord, hd]
    exact State.abandonIn_self he ins outs
  · rw [step_rstWithin_some hidle h, State.abandonWord, hd]
    exact congrArg Host.Outcome.next (State.hardwareReset_of_idle (s := { s with host := rest }) hidle)

end Sys2Proof.Machine
end
